-- ==== Sys2Proof/Word.lean ====
section
/-! DEFINITION. The word types of the Tykel W3 (R2, R8, R157) and the lane word that carries poison (R436). -/

namespace Sys2Proof

/-- A 32-bit register word (R157). -/
abbrev Word := BitVec 32

/-- A 64-bit value, held in an even-odd pair (R2). -/
abbrev DWord := BitVec 64

/-- A set of lanes of one group: bit j stands for lane j (R8, R161). -/
abbrev Lanes := BitVec 96

/-- One byte of memory or of the galley. -/
abbrev Byte := BitVec 8

/-- One lane's word of one register: its value and its poison bit (R436). -/
structure LW where
  val : Word := 0
  psn : Bool := false
deriving DecidableEq, Repr, Inhabited

/-- One lane's 64-bit value with a poison bit for each 32-bit half (R174). A 32-bit value has a zero upper half. -/
structure LW2 where
  val : DWord := 0
  pLo : Bool := false
  pHi : Bool := false
deriving DecidableEq, Repr, Inhabited

/-- The empty set of lanes. -/
def Lanes.none : Lanes := 0

/-- All 96 lanes of a group (R8). -/
def Lanes.all : Lanes := BitVec.allOnes 96

/-- Lane `j` belongs to the set. -/
def Lanes.has (m : Lanes) (j : Nat) : Bool := m.getLsbD j

/-- The lanes of the set in increasing lane number. -/
def Lanes.list (m : Lanes) : List Nat := (List.range 96).filter (fun j => m.getLsbD j)

/-- The lowest lane of the set (R299, R317). -/
def Lanes.lowest (m : Lanes) : Option Nat := (List.range 96).find? (fun j => m.getLsbD j)

/-- The set that holds lane `j` only. -/
def Lanes.one (j : Nat) : Lanes := (1 : BitVec 96) <<< j

/-- The lanes below 96 that satisfy a test. -/
def Lanes.ofPred (f : Nat → Bool) : Lanes :=
  (List.range 96).foldl (fun m j => if f j then m ||| ((1 : BitVec 96) <<< j) else m) 0

/-- The mask word of beat `b`: bit k stands for lane 32b + k (R159). -/
def Lanes.word (m : Lanes) (b : Nat) : Word := (m >>> (32 * b)).truncate 32

/-- The set formed by the mask words of beats 0, 1 and 2. -/
def Lanes.ofWords (w0 w1 w2 : Word) : Lanes :=
  (w0.zeroExtend 96) ||| ((w1.zeroExtend 96) <<< 32) ||| ((w2.zeroExtend 96) <<< 64)

end Sys2Proof
end

