-- ==== Sys2Proof/Syntax.lean ====
section
/-! DEFINITION. The syntax of the machine: the 137 Limov opcodes (R116), the unassigned opcodes (R117), the Xencon
instructions (R58), the encsig accesses (R63), and the events of spec/opcode_table.json, one constructor of `Instr` for
each row of that table. -/

namespace Sys2Proof

/-- The three formats by their length code (R94, R98-R100). -/
inductive Fmt where
  | a | b | c
deriving DecidableEq, Repr, Inhabited

/-- Type codes 0-14 (R114). Code 15 is reserved and has no constructor. -/
inductive Ty where
  | i32 | n32 | i64 | n64 | b32 | f32 | f16 | bf16 | e4m3 | e5m2 | e2m3 | e3m2 | e2m1 | i8 | i16
deriving DecidableEq, Repr, Inhabited

/-- An operand field by its kind (R103): a register with a short pattern, a latch with a short pattern, a 10-bit
immediate, or a register with a full pattern (its code and parameter, R109). -/
inductive Opd where
  | reg (n : BitVec 8) (pat : BitVec 2)
  | latch (k : BitVec 2) (pat : BitVec 2)
  | imm (v : BitVec 10)
  | full (n : BitVec 8) (code : BitVec 3) (par : BitVec 5)
deriving DecidableEq, Repr, Inhabited

/-- The zero operand field: kind 00, register v0, pattern 00 (R103). -/
def Opd.zero : Opd := .reg 0 0

/-- The decoded fields of a Limov instruction (R98-R100): format, W, L, D, P, PN, the operands A, B and C, T, M, E and
IMM32. Fields that the format does not have are zero. -/
structure Ops where
  fmt : Fmt := .a
  w : Bool := false
  live : Bool := false
  d : BitVec 8 := 0
  p : BitVec 6 := 0
  pn : Bool := true
  a : Opd := .reg 0 0
  b : Opd := .reg 0 0
  c : Opd := .reg 0 0
  t : Ty := .i32
  m : BitVec 8 := 0
  e : BitVec 4 := 0
  imm : BitVec 32 := 0
deriving DecidableEq, Repr, Inhabited

/-- The assigned Limov opcodes (R116). -/
inductive Op where
  | iadd | isub | iadd3 | imul | imulh | imad | imadw | idiv | irem | imin | imax | iabs | ineg | isetc
  | isel | lea | shl | shr | sar | rol | ror | xwin | andB | orB | xorB | andn | bfn3 | clz | ctz | popc
  | brev | bswap | bfe | bfi | pdep | pext | bperm | gf2mm | bysel | mov | movi | take | rget | rput | fadd
  | fsub | fmul | ffma | fmin | fmax | fsetc | fclass | frnd | fscale | fdot2 | fdot4 | cvt | pack | unpack
  | rcp | rsq | sqrt | ex2 | lg2 | sinp | cosp | tanh | rred | lxch | poll | redux | fredux | scan | rdsys
  | bra | brx | call | callx | ret | exit | bmz | bmnz | maskp | maskr | land | sig | trap | nop | yield | ld
  | st | stash | unstash | flush | inval | pref | cpy | cpyl | cpys | cpyg | seal | waitb | bbinit | bbexp
  | bbarr | bbwait | mloop | mzero | mdrain | mdrainmx | mstat | ldacq | strel | atom | red | fence | bar
  | seamred | seambc | seamsend | seamrecv | ipref | ipin | iunpin | icinv | spl | rfe | mfs | mts | tlbinv
  | freeze | thaw | halt | ptest | pclr | lanekill | selftest
deriving DecidableEq, Repr, Inhabited

/-- The forms of a CSR instruction on encsig (R63). -/
inductive CsrOp where
  | rw | rs | rc | rwi | rsi | rci
deriving DecidableEq, Repr, Inhabited

/-- A function whose ready bit R71 gives. -/
inductive ReadyFn where
  | disp (d : Nat) | walk (d : Nat) | l2 (d : Nat) | dram (d : Nat)
  | border (d : Nat) (side : Nat) | core (d c : Nat) | memPort (p : Nat) | encon (k : Nat) | host | scale (p : Nat)
deriving DecidableEq, Repr, Inhabited

/-- A domain or a peer package, as the Selvedge switches watch it (R439). -/
inductive Node where
  | domain (d : Nat) | peer (p : Nat)
deriving DecidableEq, Repr, Inhabited

/-- A Selvedge switch and the node that it listens for (R439): the side of a domain, or the port of a peer package. -/
structure Ear where
  node : Node
  switch : Nat
deriving DecidableEq, Repr, Inhabited

/-- A unit that firmware tests (R450). -/
inductive TestUnit where
  | lane (d c s : Nat) (lane : Nat)
  | coreUnit (d c : Nat)
  | l2Way (d : Nat) (way : Nat)
  | dramRow (d : Nat) (row : Nat)
  | verticalLane (d : Nat) (chan : Nat) (lane : Nat)
deriving DecidableEq, Repr, Inhabited

/-- What one DRAM burst met (R451): nothing, an array error that ECC corrects or not (with its first failing bit), or a
parity error of a vertical lane with the number of failed attempts, 1 to 4. -/
inductive BurstFault where
  | none
  | corrected (bit : BitVec 9)
  | uncorrectable (bit : BitVec 9)
  | parity (lane : Nat) (tries : Nat)
deriving DecidableEq, Repr, Inhabited

/-- One instruction or event of spec/opcode_table.json. -/
inductive Instr where
  /-- IADD (OP 0x000, R212). Adds a and b per element of each active lane, wrapping or saturating. -/
  | iadd (x : Ops)
  /-- ISUB (OP 0x001, R212). Subtracts b from a per element, wrapping or saturating. -/
  | isub (x : Ops)
  /-- IADD3 (OP 0x002, R212). Adds three operands per element, wrapping or saturating. -/
  | iadd3 (x : Ops)
  /-- IMUL (OP 0x003, R212). Multiplies a by b per element, wrapping or saturating. -/
  | imul (x : Ops)
  /-- IMULH (OP 0x004, R213). Gives the upper half of the exact double-width product. -/
  | imulh (x : Ops)
  /-- IMAD (OP 0x005, R212). Computes a times b plus c per element, wrapping or saturating. -/
  | imad (x : Ops)
  /-- IMADW (OP 0x006, R213). Computes a 32-bit product plus a 64-bit c into a register pair. -/
  | imadw (x : Ops)
  /-- IDIV (OP 0x007, R214). Divides with truncation toward zero, with defined results for zero divisors and overflow. -/
  | idiv (x : Ops)
  /-- IREM (OP 0x008, R214). Gives the remainder of a truncating division. -/
  | irem (x : Ops)
  /-- IMIN (OP 0x009, R215). Gives the smaller element under the signedness of T. -/
  | imin (x : Ops)
  /-- IMAX (OP 0x00A, R215). Gives the larger element under the signedness of T. -/
  | imax (x : Ops)
  /-- IABS (OP 0x00B, R215). Gives the absolute value, wrapping or saturating. -/
  | iabs (x : Ops)
  /-- INEG (OP 0x00C, R215). Gives the negation, wrapping or saturating. -/
  | ineg (x : Ops)
  /-- ISETC (OP 0x00D, R216). Compares a with b and writes all ones or zero. -/
  | isetc (x : Ops)
  /-- ISEL (OP 0x00E, R217). Selects a or b by a condition word. -/
  | isel (x : Ops)
  /-- LEA (OP 0x00F, R218). Computes a 64-bit base plus a shifted index. -/
  | lea (x : Ops)
  /-- SHL (OP 0x010, R219). Shifts left logically. -/
  | shl (x : Ops)
  /-- SHR (OP 0x011, R219). Shifts right logically. -/
  | shr (x : Ops)
  /-- SAR (OP 0x012, R219). Shifts right arithmetically. -/
  | sar (x : Ops)
  /-- ROL (OP 0x013, R219). Rotates left. -/
  | rol (x : Ops)
  /-- ROR (OP 0x014, R219). Rotates right. -/
  | ror (x : Ops)
  /-- XWIN (OP 0x015, R220). Extracts a 32-bit window from the 64-bit value hi:lo, clamped or wrapped. -/
  | xwin (x : Ops)
  /-- AND (OP 0x016, R221). Bitwise and. -/
  | andB (x : Ops)
  /-- OR (OP 0x017, R221). Bitwise or. -/
  | orB (x : Ops)
  /-- XOR (OP 0x018, R221). Bitwise exclusive-or. -/
  | xorB (x : Ops)
  /-- ANDN (OP 0x019, R221). Bitwise a and not b. -/
  | andn (x : Ops)
  /-- BFN3 (OP 0x01A, R221). Applies an 8-bit lookup table bitwise to three operands. -/
  | bfn3 (x : Ops)
  /-- CLZ (OP 0x01B, R222). Counts leading zero bits. -/
  | clz (x : Ops)
  /-- CTZ (OP 0x01C, R222). Counts trailing zero bits. -/
  | ctz (x : Ops)
  /-- POPC (OP 0x01D, R222). Counts set bits. -/
  | popc (x : Ops)
  /-- BREV (OP 0x01E, R222). Reverses bit order. -/
  | brev (x : Ops)
  /-- BSWAP (OP 0x01F, R222). Reverses byte order. -/
  | bswap (x : Ops)
  /-- BFE (OP 0x020, R223). Extracts a bit field with sign or zero extension. -/
  | bfe (x : Ops)
  /-- BFI (OP 0x021, R224). Inserts low bits of ins into a field of base. -/
  | bfi (x : Ops)
  /-- PDEP (OP 0x022, R225). Deposits bits under a mask. -/
  | pdep (x : Ops)
  /-- PEXT (OP 0x023, R225). Extracts bits under a mask. -/
  | pext (x : Ops)
  /-- BPERM (OP 0x024, R225). Moves mask-selected bits low and the others above them. -/
  | bperm (x : Ops)
  /-- GF2MM (OP 0x025, R226). Multiplies two 8x8 bit matrices over GF(2). -/
  | gf2mm (x : Ops)
  /-- BYSEL (OP 0x026, R227). Builds a word from selected, sign-filled or zero bytes. -/
  | bysel (x : Ops)
  /-- MOV (OP 0x027, R228). Copies a word or pair with its poison bits. -/
  | mov (x : Ops)
  /-- MOVI (OP 0x028, R229). Writes IMM32 to every active lane. -/
  | movi (x : Ops)
  /-- TAKE (OP 0x029, R230). Moves a pending claim or a value from vs to vd without waiting. -/
  | take (x : Ops)
  /-- RGET (OP 0x02A, R231). Reads a register of the interrupted program at handler level. -/
  | rget (x : Ops)
  /-- RPUT (OP 0x02B, R232). Writes a register of the interrupted program at handler level. -/
  | rput (x : Ops)
  /-- FADD (OP 0x040, R240). Floating-point addition rounded once. -/
  | fadd (x : Ops)
  /-- FSUB (OP 0x041, R240). Floating-point subtraction rounded once. -/
  | fsub (x : Ops)
  /-- FMUL (OP 0x042, R240). Floating-point multiplication rounded once. -/
  | fmul (x : Ops)
  /-- FFMA (OP 0x043, R240). Fused multiply-add rounded once. -/
  | ffma (x : Ops)
  /-- FMIN (OP 0x044, R241). IEEE minimumNumber per element. -/
  | fmin (x : Ops)
  /-- FMAX (OP 0x045, R241). IEEE maximumNumber per element. -/
  | fmax (x : Ops)
  /-- FSETC (OP 0x046, R242). Floating-point compare writing all ones or zero. -/
  | fsetc (x : Ops)
  /-- FCLASS (OP 0x047, R243). Writes a one-hot class mask per element. -/
  | fclass (x : Ops)
  /-- FRND (OP 0x048, R244). Rounds to an integral value in the same format. -/
  | frnd (x : Ops)
  /-- FSCALE (OP 0x049, R245). Computes a times 2^n rounded once. -/
  | fscale (x : Ops)
  /-- FDOT2 (OP 0x04A, R246). Two-element dot product accumulated into f32. -/
  | fdot2 (x : Ops)
  /-- FDOT4 (OP 0x04B, R246). Four-element dot product of MX or i8 elements accumulated into c. -/
  | fdot4 (x : Ops)
  /-- CVT (OP 0x04C, R248). Converts elements one for one between types with scaling. -/
  | cvt (x : Ops)
  /-- PACK (OP 0x04D, R248). Converts several source registers into one narrower destination register. -/
  | pack (x : Ops)
  /-- UNPACK (OP 0x04E, R248). Converts one source register into several wider destination registers. -/
  | unpack (x : Ops)
  /-- RCP (OP 0x050, R250). Correctly rounded reciprocal. -/
  | rcp (x : Ops)
  /-- RSQ (OP 0x051, R250). Reciprocal square root within 1 ulp. -/
  | rsq (x : Ops)
  /-- SQRT (OP 0x052, R250). Correctly rounded square root. -/
  | sqrt (x : Ops)
  /-- EX2 (OP 0x053, R250). Base-2 exponential within 1 ulp. -/
  | ex2 (x : Ops)
  /-- LG2 (OP 0x054, R250). Base-2 logarithm within the stated bound. -/
  | lg2 (x : Ops)
  /-- SINP (OP 0x055, R252). Computes sin(pi x) from a reduced pair. -/
  | sinp (x : Ops)
  /-- COSP (OP 0x056, R252). Computes cos(pi x) from a reduced pair. -/
  | cosp (x : Ops)
  /-- TANH (OP 0x057, R250). Hyperbolic tangent within 2 ulp. -/
  | tanh (x : Ops)
  /-- RRED (OP 0x058, R251). Reduces x exactly into a remainder and quadrant word. -/
  | rred (x : Ops)
  /-- LXCH (OP 0x060, R254). Moves values between any two lanes of the group. -/
  | lxch (x : Ops)
  /-- POLL (OP 0x061, R255). Votes over the active lanes or writes a mask of them. -/
  | poll (x : Ops)
  /-- REDUX (OP 0x062, R256). Integer or bitwise reduction over active lanes. -/
  | redux (x : Ops)
  /-- FREDUX (OP 0x063, R257). Floating-point reduction in fixed lane order. -/
  | fredux (x : Ops)
  /-- SCAN (OP 0x064, R258). Inclusive or exclusive prefix over active lanes. -/
  | scan (x : Ops)
  /-- RDSYS (OP 0x065, R259). Reads a system name, optionally clearing lostst or fflags. -/
  | rdsys (x : Ops)
  /-- BRA (OP 0x080, R266). Conditional relative branch that may divide the split. -/
  | bra (x : Ops)
  /-- BRX (OP 0x081, R268). Indirect branch to per-lane targets checked for LAND. -/
  | brx (x : Ops)
  /-- CALL (OP 0x082, R269). Relative call writing a link pair. -/
  | call (x : Ops)
  /-- CALLX (OP 0x083, R269). Indirect call writing a link pair. -/
  | callx (x : Ops)
  /-- RET (OP 0x084, R270). Return through a register target without LAND check. -/
  | ret (x : Ops)
  /-- EXIT (OP 0x085, R271). Ends the active lanes of the split. -/
  | exit (x : Ops)
  /-- BMZ (OP 0x086, R272). Branches the whole split when active is empty. -/
  | bmz (x : Ops)
  /-- BMNZ (OP 0x087, R272). Branches the whole split when active is not empty. -/
  | bmnz (x : Ops)
  /-- MASKP (OP 0x088, R273). Saves the mask into three registers and narrows it to the predicate. -/
  | maskp (x : Ops)
  /-- MASKR (OP 0x089, R274). Restores the mask from saved words, optionally inverted. -/
  | maskr (x : Ops)
  /-- LAND (OP 0x08A, R275). Marks a valid indirect target; otherwise advances the PC. -/
  | land (x : Ops)
  /-- SIG (OP 0x08B, R277). Compares the block signature word and resets or traps. -/
  | sig (x : Ops)
  /-- TRAP (OP 0x08C, R279). Raises SW_TRAP for the active lanes. -/
  | trap (x : Ops)
  /-- NOP (OP 0x08D, R280). Advances the PC only. -/
  | nop (x : Ops)
  /-- YIELD (OP 0x08E, R280). Advances the PC and gives up the group's next issue turn. -/
  | yield (x : Ops)
  /-- LD (OP 0x0A0, R301). Loads from global or galley space into a pending claim. -/
  | ld (x : Ops)
  /-- ST (OP 0x0A1, R302). Stores register data to global or galley space. -/
  | st (x : Ops)
  /-- STASH (OP 0x0A2, R305). Opens a stash window mapping galley offsets onto global addresses. -/
  | stash (x : Ops)
  /-- UNSTASH (OP 0x0A3, R306). Writes back and closes one or all stash windows. -/
  | unstash (x : Ops)
  /-- FLUSH (OP 0x0A4, R307). Writes back dirty window bytes and sends combined bytes home for a range. -/
  | flush (x : Ops)
  /-- INVAL (OP 0x0A5, R308). Drops L1 lines or window lines overlapping a range. -/
  | inval (x : Ops)
  /-- PREF (OP 0x0A6, R304). Starts reads of lines into L1 or L2 without faulting. -/
  | pref (x : Ops)
  /-- CPY (OP 0x0C0, R318). Hands a global-to-galley copy to the copy engine. -/
  | cpy (x : Ops)
  /-- CPYL (OP 0x0C1, R320). Hands a layout-record window copy with padding to the copy engine. -/
  | cpyl (x : Ops)
  /-- CPYS (OP 0x0C2, R318). Hands a galley-to-global copy to the copy engine. -/
  | cpys (x : Ops)
  /-- CPYG (OP 0x0C3, R323). Gathers a row per lane into a range of pending registers. -/
  | cpyg (x : Ops)
  /-- SEAL (OP 0x0C4, R329). Closes the open batches of the named classes. -/
  | seal (x : Ops)
  /-- WAITB (OP 0x0C5, R330). Waits until few enough sealed batches of a class remain. -/
  | waitb (x : Ops)
  /-- BBINIT (OP 0x0C6, R326). Initialises a byte barrier's expected arrivals. -/
  | bbinit (x : Ops)
  /-- BBEXP (OP 0x0C7, R326). Adds expected bytes to a byte barrier. -/
  | bbexp (x : Ops)
  /-- BBARR (OP 0x0C8, R326). Adds bytes and one arrival to a byte barrier and returns its phase. -/
  | bbarr (x : Ops)
  /-- BBWAIT (OP 0x0C9, R327). Waits for a byte-barrier phase to complete and returns its poison. -/
  | bbwait (x : Ops)
  /-- MLOOP (OP 0x0D0, R341). Queues a loop of K-steps on an accumulator tile. -/
  | mloop (x : Ops)
  /-- MZERO (OP 0x0D1, R350). Queues zeroing of the row set of a tile. -/
  | mzero (x : Ops)
  /-- MDRAIN (OP 0x0D2, R350). Queues a width-preserving drain of a tile to registers or galley. -/
  | mdrain (x : Ops)
  /-- MDRAINMX (OP 0x0D3, R352). Queues a drain that requantises tile rows to MX blocks. -/
  | mdrainmx (x : Ops)
  /-- MSTAT (OP 0x0D4, R354). Reads tile state or counters, optionally clearing a counter. -/
  | mstat (x : Ops)
  /-- LDACQ (OP 0x0E0, R384). Load with acquire semantics at a scope. -/
  | ldacq (x : Ops)
  /-- STREL (OP 0x0E1, R385). Store preceded by a release at a scope. -/
  | strel (x : Ops)
  /-- ATOM (OP 0x0E2, R388). Atomic read-modify-write at the home returning the old value. -/
  | atom (x : Ops)
  /-- RED (OP 0x0E3, R388). Atomic read-modify-write at the home without return. -/
  | red (x : Ops)
  /-- FENCE (OP 0x0E4, R390). Release, acquire or full fence at a scope. -/
  | fence (x : Ops)
  /-- BAR (OP 0x0E5, R392). Arrives at a team barrier and optionally waits for its phase. -/
  | bar (x : Ops)
  /-- SEAMRED (OP 0x0E6, R397). Combines the next port message with local words and sends the result on a route. -/
  | seamred (x : Ops)
  /-- SEAMBC (OP 0x0E7, R398). Forwards a copy of the next port message on a route. -/
  | seambc (x : Ops)
  /-- SEAMSEND (OP 0x0E8, R396). Sends register words on a route, optionally after a release. -/
  | seamsend (x : Ops)
  /-- SEAMRECV (OP 0x0E9, R399). Claims registers filled from the next message on a port. -/
  | seamrecv (x : Ops)
  /-- IPREF (OP 0x100, R153). Starts fetches of code windows into the instruction cache. -/
  | ipref (x : Ops)
  /-- IPIN (OP 0x101, R154). Pins code windows in the domain's pin areas. -/
  | ipin (x : Ops)
  /-- IUNPIN (OP 0x102, R155). Removes pins of code windows. -/
  | iunpin (x : Ops)
  /-- ICINV (OP 0x103, R156). Invalidates instruction caches in a scope and refetches pins. -/
  | icinv (x : Ops)
  /-- SPL (OP 0x110, R184). Requests a clock ratio for the group. -/
  | spl (x : Ops)
  /-- RFE (OP 0x120, R423). Returns from the current handler level. -/
  | rfe (x : Ops)
  /-- MFS (OP 0x121, R424). Reads a system register into every active lane. -/
  | mfs (x : Ops)
  /-- MTS (OP 0x122, R424). Writes a system register from the lowest active lane. -/
  | mts (x : Ops)
  /-- TLBINV (OP 0x123, R426). Invalidates translations of the context across its partition. -/
  | tlbinv (x : Ops)
  /-- FREEZE (OP 0x124, R427). Stops other groups of the team or context on the core. -/
  | freeze (x : Ops)
  /-- THAW (OP 0x125, R427). Resumes frozen groups, optionally delivering FREEZE_STOP. -/
  | thaw (x : Ops)
  /-- HALT (OP 0x126, R425). Terminates the team with the current cause. -/
  | halt (x : Ops)
  /-- PTEST (OP 0x140, R455). Writes whether an operand is poisoned. -/
  | ptest (x : Ops)
  /-- PCLR (OP 0x141, R456). Selects a with poison cleared or the substitute b. -/
  | pclr (x : Ops)
  /-- LANEKILL (OP 0x142, R457). Kills the lanes named by a 96-bit mask. -/
  | lanekill (x : Ops)
  /-- SELFTEST (OP 0x143, R458). Tests a unit of the core and reports the result. -/
  | selftest (x : Ops)
  /-- UNASSIGNED_OPCODE (R117). An instruction with an unassigned opcode raises ILLEGAL_INSTR. -/
  | unassignedOpcode (fmt : Fmt) (w : BitVec 128)
  /-- QFETCH (R60). Encon reads the next forme of a queue into a free buffer. -/
  | qfetch (rd rs1 : BitVec 5)
  /-- BFXU (R61). Encon extracts an unsigned bit field. -/
  | bfxu (rd rs1 : BitVec 5) (pos len1 : BitVec 6)
  /-- SWAIT (R62). Encon core starts waiting for masked signals or a timeout. -/
  | swait (rd rs1 rs2 : BitVec 5)
  /-- DISPATCH (R64). Encon hands a validated forme to the wafer dispatcher. -/
  | dispatch (rd rs1 : BitVec 5)
  /-- SWAIT_COMPLETE (R62). A waited signal becomes pending and SWAIT completes. -/
  | swaitComplete (core : Nat)
  /-- SWAIT_TIMEOUT (R62). The SWAIT timeout expires and SWAIT writes 0. -/
  | swaitTimeout (core : Nat)
  /-- ENCSIG_WRITE (R63). A CSR write or set of encsig signals Encon cores. -/
  | encsigWrite (f : CsrOp) (rd src : BitVec 5)
  /-- DOORBELL (R45). A write to SQTAIL advances the tail or sets ERR. -/
  | doorbell (q : Nat) (w : BitVec 32)
  /-- SQ_ENABLE (R44). A write setting EN tests the queue configuration and enables it or sets ERR. -/
  | sqEnable (q : Nat) (w : BitVec 64)
  /-- SQ_DISABLE (R44). A write clearing EN stops acceptance of formes. -/
  | sqDisable (q : Nat) (w : BitVec 64)
  /-- CANCEL (R48). Retires every unstarted accepted launch of the queue as CANCELLED. -/
  | cancel (q : Nat)
  /-- REGISTER_WRITE (R75). A write to a control register with no behaviour of its own takes effect or is discarded. -/
  | registerWrite (off : Nat) (w : BitVec 64)
  /-- PLACEMENT_CYCLE (R82). The wafer dispatcher considers unplaced teams and sends at most one per domain. -/
  | placementCycle
  /-- TEAM_ARRIVAL (R83). A domain dispatcher reserves a core's resources for a team or refuses it. -/
  | teamArrival (team : Nat)
  /-- UNIT_START (R87). At the chosen wtime every team of a gathered co-resident unit starts. -/
  | unitStart
  /-- TEAM_START (R92). All groups of a team become eligible together after initialisation. -/
  | teamStart (team : Nat)
  /-- CORE_STATE_CHANGE (R78). Firmware changes a core's STATE and releases unstarted reservations. -/
  | coreStateChange (d c : Nat) (st : BitVec 2)
  /-- READY_BIT_SET (R72). A function becomes ready during bring-up and raises the readiness signal. -/
  | readyBitSet (f : ReadyFn)
  /-- PREEMPT_TEAM (R430). Stops a victim team and saves its state to a save frame. -/
  | preemptTeam (team : Nat)
  /-- PREEMPTION_END (R431). The last rebound ticket resolves into the frame and resources are freed. -/
  | preemptionEnd (team : Nat)
  /-- RESTORE_TEAM (R435). Reloads a pre-empted team in its domain and restarts issue. -/
  | restoreTeam (team : Nat) (core : Nat)
  /-- ISSUE_CHOICE (R178). A slice chooses a ready eligible split and issues its instruction. -/
  | issueChoice (d c sl : Nat)
  /-- CLOCK_RATIO_CHANGE (R182). A slice's effective ratio change takes effect at a beat boundary. -/
  | clockRatioChange (d c sl : Nat)
  /-- RCAP_WRITE (R181). A write to a context's RCAP byte caps its groups' ratios. -/
  | rcapWrite (ctx : Nat) (v : BitVec 8)
  /-- WALK_COMPLETE (R140). A translation walk resolves to a leaf, a recoverable fault or a fatal fault. -/
  | walkComplete (walk : Nat)
  /-- CLASSIFICATION_SERVICE (R483). Firmware reclassifies a page shared and releases waiting requests. -/
  | classificationService
  /-- FQDONE_WRITE (R429). The driver completes fault entries and their requests retry or fail. -/
  | fqdoneWrite (ctx : Nat) (w : BitVec 32)
  /-- FAULT_QUEUE_ENABLE (R411). Setting FQEN zeroes FQTAIL and FQDONE. -/
  | faultQueueEnable (ctx : Nat) (w : BitVec 64)
  /-- ROOT_ENTRY_WRITE (R130). A write to a context root entry, discarded while launches are live. -/
  | rootEntryWrite (ctx : Nat) (hi : Bool) (w : BitVec 64)
  /-- CTX_TRANSLATION_DISABLE (R130). Clearing a root EN removes the context's pins and TLB entries. -/
  | ctxTranslationDisable (ctx : Nat) (w : BitVec 64)
  /-- INVALIDATION_START (R143). A write to SEQ starts a driver invalidation. -/
  | invalidationStart (w : BitVec 32)
  /-- INVALIDATION_COMPLETE (R145). An invalidation ends with no entry of the range cached. -/
  | invalidationComplete (id : Nat)
  /-- PARTITION_MASK_WRITE (R80). A partition mask write is applied or discarded with an error code. -/
  | partitionMaskWrite (p : Nat) (m : BitVec 64)
  /-- CONTEXT_TABLE_WRITE (R80). A context's partition byte is written or discarded while live. -/
  | contextTableWrite (ctx : Nat) (b : BitVec 8)
  /-- CLAIM_COMPLETION (R168). Completion of a claim's lanes writes or is discarded and wakes parked splits. -/
  | claimCompletion (req : Nat)
  /-- LOAD_AT_HOME (R361). A load request reads a line at its point of coherence and is granted a lease. -/
  | loadAtHome (req : Nat) (line : Nat)
  /-- STORE_AT_HOME (R362). A store, flush or atomic is performed at home and its wafer completion time is computed. -/
  | storeAtHome (req : Nat) (line : Nat)
  /-- PROBE (R362). A home probe makes a domain drop its copy and send combined bytes home. -/
  | probe (id : Nat)
  /-- PROBE_ACK (R362). A probe acknowledgement raises the store's wafer completion time. -/
  | probeAck (id : Nat)
  /-- PROBE_FILTER_ANSWER (R371). A cross-partition probe is answered absent 48 ns after reaching the border. -/
  | probeFilterAnswer (id : Nat)
  /-- REMOTE_WRITER_REGISTRATION (R372). A combining L2 registers as remote writer of a line at its home. -/
  | remoteWriterRegistration (d line : Nat)
  /-- CFLUSH_EXPIRY (R372). A line's combined bytes are flushed home CFLUSH microseconds after the first. -/
  | cflushExpiry (d line : Nat)
  /-- STORE_COMPLETION_RETURN (R363). A store's completion time returns to the storing core. -/
  | storeCompletionReturn (req : Nat) (line : Nat)
  /-- HOST_MEM_READ (R375). A host CXL.mem read is served at the home L2. -/
  | hostMemRead (pa len : Nat)
  /-- HOST_MEM_WRITE (R375). A host CXL.mem write is performed at home and completed at T_wafer. -/
  | hostMemWrite (pa : Nat) (bytes : List Byte)
  /-- HOST_SNOOP (R375). The host bridge answers an invalidating snoop once the line's lease has passed. -/
  | hostSnoop (line : Nat)
  /-- STASH_FILL_COMPLETE (R294). A stash fill writes the clean bytes of a window line and completes the load. -/
  | stashFillComplete (req : Nat)
  /-- COPY_UNIT_DONE (R313). A copy or galley-drain unit is moved and counted to its byte barrier. -/
  | copyUnitDone (copy : Nat)
  /-- COPY_RESUME (R322). A copy suspended on a recoverable fault resumes after service. -/
  | copyResume (copy : Nat)
  /-- BATCH_COMPLETE (R328). A batch completes once its operations and older batches have. -/
  | batchComplete (g : Nat) (cls : Nat)
  /-- KSTEP (R341). The Platen performs one K-step once the gate and A registers are ready. -/
  | kstep (op : Nat)
  /-- TILE_DRAIN (R350). A queued drain or zeroing reads a tile and delivers its rows. -/
  | tileDrain (op : Nat)
  /-- SEAM_MESSAGE_ARRIVAL (R395). A Seam message reaches its destination port. -/
  | seamMessageArrival (msg : Nat)
  /-- SEAM_OPERATION_MATCH (R397). A waiting Seam operation takes the next message of its port. -/
  | seamOperationMatch (op : Nat)
  /-- GROUP_RETIRE (R471). A group with no valid split, ticket, hold or open batch retires. -/
  | groupRetire (g : Nat)
  /-- TEAM_RETIRE (R472). A team writes back, flushes, waits for completion times and frees its resources. -/
  | teamRetire (team : Nat)
  /-- LAUNCH_RETIRE (R473). A launch writes its completion record and advances SQHEAD. -/
  | launchRetire (l : Nat)
  /-- QUIRE_RETIRE (R474). A quire writes body records then the head's and one notification. -/
  | quireRetire (l : Nat)
  /-- NOTIFY_ENTRY_WRITE (R476). A notification entry is written to the host ring after the record's release. -/
  | notifyEntryWrite
  /-- MSIX_MESSAGE (R477). An MSI-X message is sent after an entry write completes. -/
  | msixMessage
  /-- COAL_INTERVAL_EXPIRY (R477). A coalescing interval ends with entries pending and one message is sent. -/
  | coalIntervalExpiry
  /-- NOTIFY_RING_ENABLE (R475). Setting NREN applies the configuration and zeroes the ring pointers. -/
  | notifyRingEnable (w : BitVec 64)
  /-- NOTIFY_RING_DISABLE (R475). Clearing NREN discards waiting entries and advances their queues. -/
  | notifyRingDisable (w : BitVec 64)
  /-- NRHEAD_WRITE (R475). The host consumes entries, freeing room for waiting entries. -/
  | nrheadWrite (w : BitVec 32)
  /-- HEARTBEAT (R439). A heartbeat flit reaches a Selvedge switch. -/
  | heartbeat (x : Ear)
  /-- HEARTBEAT_TIMEOUT (R439). No heartbeat for 2 us; the switch declares the far side silent and sends a fence notice. -/
  | heartbeatTimeout (x : Ear)
  /-- DOMAIN_FENCE (R441). Switches fence a domain or peer and synthesise answers for its range. -/
  | domainFence (n : Node)
  /-- FENCED_REPLY_DISCARD (R441). A message from a fenced range arriving at a switch is discarded. -/
  | fencedReplyDiscard (req : Nat)
  /-- LINK_FAILURE (R441). A failed link between live domains answers its outstanding requests. -/
  | linkFailure (d side : Nat)
  /-- PEER_FENCE_CLEAR (R442). Writing CLEAR lifts a peer fence after 10 us of heartbeats. -/
  | peerFenceClear (p : Nat)
  /-- LANE_DEATH (R447). An uncorrectable error kills a lane. -/
  | laneDeath (g lane : Nat)
  /-- FIRMWARE_SELFTEST (R450). Firmware tests a unit after a detected error and spares or disables it. -/
  | firmwareSelftest (u : TestUnit) (lasting : Bool)
  /-- DRAM_BURST_TRANSFER (R451). A DRAM burst is corrected, retried, lane-swapped or poisoned and logged. -/
  | dramBurstTransfer (d : Nat) (ofs : Nat) (f : BurstFault)
  /-- CHECKPOINT_SAVE (R453). Saves domain memory with sector marks to second tier. -/
  | checkpointSave
  /-- CHECKPOINT_RESTORE (R453). Restores domain memory from an image or is refused. -/
  | checkpointRestore
  /-- CHECKPOINT_END (R453). A checkpoint command ends and records its result and WDONE. -/
  | checkpointEnd (portFailed : Bool)
  /-- POWER_STEP (R480). Every 1 us the domain power manager changes at most one setting. -/
  | powerStep (d : Nat) (pwr : BitVec 16) (tj : BitVec 8)
  /-- COOLANT_LIMIT (R482). Coolant outside limits halves every effective power cap. -/
  | coolantLimit
  /-- THERMAL_FENCE (R482). A domain at 105 C or above for 10 us is fenced by firmware. -/
  | thermalFence (d : Nat)
  /-- BOOT_IMAGE_LOAD (R68). The boot ROM checks and loads a firmware image and logs it. -/
  | bootImageLoad (img : List Byte)
  /-- IMAGE_COMMIT (R68). Committing an image raises the stored sequence minimum for its kind. -/
  | imageCommit (kind : BitVec 8)
  /-- OWNER_ENROL (R69). An enrolment request records an owner key for the next reset. -/
  | ownerEnrol (key : BitVec 768)
  /-- OWNERSHIP_TRANSFER (R69). A signed transfer clears the owner key and erases device state. -/
  | ownershipTransfer (sig : BitVec 768)
  /-- ATTEST_SIGN (R70). A nonce write yields a signature over the nonce and attestation log. -/
  | attestSign (nonce : BitVec 384)
  /-- MODULE_RESET (R179). Module reset returns state to reset values. -/
  | moduleReset
  /-- COMPLETION_TIME_REACHED (R363). The core's wtime reaches the latest completion time T_S that a fence, release, atomic or retiring team waits for, and the wait ends. -/
  | completionTimeReached (g e : Nat)
  /-- REGISTRATION_ACKNOWLEDGED (R372). The home's acknowledgement of a remote-writer registration reaches the combining L2, after which its combined bytes count as performed at domain scope. -/
  | registrationAcknowledged (d line : Nat)
  /-- COOLANT_WITHIN_LIMITS (R482). Coolant inlet temperature and flow return within limits and firmware again applies every PCAP at its written value. -/
  | coolantWithinLimits
  /-- SCRUB (R452). A background scrub of DRAM corrects an array error and logs it with KIND 2. -/
  | scrub (d : Nat) (ofs : Nat) (bit : BitVec 9)
  /-- SELFTEST_COMPLETE (R458). A unit test begun by SELFTEST ends within 20 us, and its result word is written to the active lanes, releasing the held split. -/
  | selftestComplete (g e : Nat) (found lasting : Lanes)
deriving DecidableEq, Repr

/-- The Limov opcode and fields of an instruction; none for an unassigned opcode, an Xencon instruction or an event. -/
def Instr.limov? : Instr → Option (Op × Ops)
  | .iadd x => some (.iadd, x)
  | .isub x => some (.isub, x)
  | .iadd3 x => some (.iadd3, x)
  | .imul x => some (.imul, x)
  | .imulh x => some (.imulh, x)
  | .imad x => some (.imad, x)
  | .imadw x => some (.imadw, x)
  | .idiv x => some (.idiv, x)
  | .irem x => some (.irem, x)
  | .imin x => some (.imin, x)
  | .imax x => some (.imax, x)
  | .iabs x => some (.iabs, x)
  | .ineg x => some (.ineg, x)
  | .isetc x => some (.isetc, x)
  | .isel x => some (.isel, x)
  | .lea x => some (.lea, x)
  | .shl x => some (.shl, x)
  | .shr x => some (.shr, x)
  | .sar x => some (.sar, x)
  | .rol x => some (.rol, x)
  | .ror x => some (.ror, x)
  | .xwin x => some (.xwin, x)
  | .andB x => some (.andB, x)
  | .orB x => some (.orB, x)
  | .xorB x => some (.xorB, x)
  | .andn x => some (.andn, x)
  | .bfn3 x => some (.bfn3, x)
  | .clz x => some (.clz, x)
  | .ctz x => some (.ctz, x)
  | .popc x => some (.popc, x)
  | .brev x => some (.brev, x)
  | .bswap x => some (.bswap, x)
  | .bfe x => some (.bfe, x)
  | .bfi x => some (.bfi, x)
  | .pdep x => some (.pdep, x)
  | .pext x => some (.pext, x)
  | .bperm x => some (.bperm, x)
  | .gf2mm x => some (.gf2mm, x)
  | .bysel x => some (.bysel, x)
  | .mov x => some (.mov, x)
  | .movi x => some (.movi, x)
  | .take x => some (.take, x)
  | .rget x => some (.rget, x)
  | .rput x => some (.rput, x)
  | .fadd x => some (.fadd, x)
  | .fsub x => some (.fsub, x)
  | .fmul x => some (.fmul, x)
  | .ffma x => some (.ffma, x)
  | .fmin x => some (.fmin, x)
  | .fmax x => some (.fmax, x)
  | .fsetc x => some (.fsetc, x)
  | .fclass x => some (.fclass, x)
  | .frnd x => some (.frnd, x)
  | .fscale x => some (.fscale, x)
  | .fdot2 x => some (.fdot2, x)
  | .fdot4 x => some (.fdot4, x)
  | .cvt x => some (.cvt, x)
  | .pack x => some (.pack, x)
  | .unpack x => some (.unpack, x)
  | .rcp x => some (.rcp, x)
  | .rsq x => some (.rsq, x)
  | .sqrt x => some (.sqrt, x)
  | .ex2 x => some (.ex2, x)
  | .lg2 x => some (.lg2, x)
  | .sinp x => some (.sinp, x)
  | .cosp x => some (.cosp, x)
  | .tanh x => some (.tanh, x)
  | .rred x => some (.rred, x)
  | .lxch x => some (.lxch, x)
  | .poll x => some (.poll, x)
  | .redux x => some (.redux, x)
  | .fredux x => some (.fredux, x)
  | .scan x => some (.scan, x)
  | .rdsys x => some (.rdsys, x)
  | .bra x => some (.bra, x)
  | .brx x => some (.brx, x)
  | .call x => some (.call, x)
  | .callx x => some (.callx, x)
  | .ret x => some (.ret, x)
  | .exit x => some (.exit, x)
  | .bmz x => some (.bmz, x)
  | .bmnz x => some (.bmnz, x)
  | .maskp x => some (.maskp, x)
  | .maskr x => some (.maskr, x)
  | .land x => some (.land, x)
  | .sig x => some (.sig, x)
  | .trap x => some (.trap, x)
  | .nop x => some (.nop, x)
  | .yield x => some (.yield, x)
  | .ld x => some (.ld, x)
  | .st x => some (.st, x)
  | .stash x => some (.stash, x)
  | .unstash x => some (.unstash, x)
  | .flush x => some (.flush, x)
  | .inval x => some (.inval, x)
  | .pref x => some (.pref, x)
  | .cpy x => some (.cpy, x)
  | .cpyl x => some (.cpyl, x)
  | .cpys x => some (.cpys, x)
  | .cpyg x => some (.cpyg, x)
  | .seal x => some (.seal, x)
  | .waitb x => some (.waitb, x)
  | .bbinit x => some (.bbinit, x)
  | .bbexp x => some (.bbexp, x)
  | .bbarr x => some (.bbarr, x)
  | .bbwait x => some (.bbwait, x)
  | .mloop x => some (.mloop, x)
  | .mzero x => some (.mzero, x)
  | .mdrain x => some (.mdrain, x)
  | .mdrainmx x => some (.mdrainmx, x)
  | .mstat x => some (.mstat, x)
  | .ldacq x => some (.ldacq, x)
  | .strel x => some (.strel, x)
  | .atom x => some (.atom, x)
  | .red x => some (.red, x)
  | .fence x => some (.fence, x)
  | .bar x => some (.bar, x)
  | .seamred x => some (.seamred, x)
  | .seambc x => some (.seambc, x)
  | .seamsend x => some (.seamsend, x)
  | .seamrecv x => some (.seamrecv, x)
  | .ipref x => some (.ipref, x)
  | .ipin x => some (.ipin, x)
  | .iunpin x => some (.iunpin, x)
  | .icinv x => some (.icinv, x)
  | .spl x => some (.spl, x)
  | .rfe x => some (.rfe, x)
  | .mfs x => some (.mfs, x)
  | .mts x => some (.mts, x)
  | .tlbinv x => some (.tlbinv, x)
  | .freeze x => some (.freeze, x)
  | .thaw x => some (.thaw, x)
  | .halt x => some (.halt, x)
  | .ptest x => some (.ptest, x)
  | .pclr x => some (.pclr, x)
  | .lanekill x => some (.lanekill, x)
  | .selftest x => some (.selftest, x)
  | .unassignedOpcode _ _ => none
  | .qfetch _ _ => none
  | .bfxu _ _ _ _ => none
  | .swait _ _ _ => none
  | .dispatch _ _ => none
  | .swaitComplete _ => none
  | .swaitTimeout _ => none
  | .encsigWrite _ _ _ => none
  | .doorbell _ _ => none
  | .sqEnable _ _ => none
  | .sqDisable _ _ => none
  | .cancel _ => none
  | .registerWrite _ _ => none
  | .placementCycle => none
  | .teamArrival _ => none
  | .unitStart => none
  | .teamStart _ => none
  | .coreStateChange _ _ _ => none
  | .readyBitSet _ => none
  | .preemptTeam _ => none
  | .preemptionEnd _ => none
  | .restoreTeam _ _ => none
  | .issueChoice _ _ _ => none
  | .clockRatioChange _ _ _ => none
  | .rcapWrite _ _ => none
  | .walkComplete _ => none
  | .classificationService => none
  | .fqdoneWrite _ _ => none
  | .faultQueueEnable _ _ => none
  | .rootEntryWrite _ _ _ => none
  | .ctxTranslationDisable _ _ => none
  | .invalidationStart _ => none
  | .invalidationComplete _ => none
  | .partitionMaskWrite _ _ => none
  | .contextTableWrite _ _ => none
  | .claimCompletion _ => none
  | .loadAtHome _ _ => none
  | .storeAtHome _ _ => none
  | .probe _ => none
  | .probeAck _ => none
  | .probeFilterAnswer _ => none
  | .remoteWriterRegistration _ _ => none
  | .cflushExpiry _ _ => none
  | .storeCompletionReturn _ _ => none
  | .hostMemRead _ _ => none
  | .hostMemWrite _ _ => none
  | .hostSnoop _ => none
  | .stashFillComplete _ => none
  | .copyUnitDone _ => none
  | .copyResume _ => none
  | .batchComplete _ _ => none
  | .kstep _ => none
  | .tileDrain _ => none
  | .seamMessageArrival _ => none
  | .seamOperationMatch _ => none
  | .groupRetire _ => none
  | .teamRetire _ => none
  | .launchRetire _ => none
  | .quireRetire _ => none
  | .notifyEntryWrite => none
  | .msixMessage => none
  | .coalIntervalExpiry => none
  | .notifyRingEnable _ => none
  | .notifyRingDisable _ => none
  | .nrheadWrite _ => none
  | .heartbeat _ => none
  | .heartbeatTimeout _ => none
  | .domainFence _ => none
  | .fencedReplyDiscard _ => none
  | .linkFailure _ _ => none
  | .peerFenceClear _ => none
  | .laneDeath _ _ => none
  | .firmwareSelftest _ _ => none
  | .dramBurstTransfer _ _ _ => none
  | .checkpointSave => none
  | .checkpointRestore => none
  | .checkpointEnd _ => none
  | .powerStep _ _ _ => none
  | .coolantLimit => none
  | .thermalFence _ => none
  | .bootImageLoad _ => none
  | .imageCommit _ => none
  | .ownerEnrol _ => none
  | .ownershipTransfer _ => none
  | .attestSign _ => none
  | .moduleReset => none
  | .completionTimeReached _ _ => none
  | .registrationAcknowledged _ _ => none
  | .coolantWithinLimits => none
  | .scrub _ _ _ => none
  | .selftestComplete _ _ _ _ => none

/-- The instruction of an opcode and its fields. -/
def Op.instr : Op → Ops → Instr
  | .iadd, x => .iadd x
  | .isub, x => .isub x
  | .iadd3, x => .iadd3 x
  | .imul, x => .imul x
  | .imulh, x => .imulh x
  | .imad, x => .imad x
  | .imadw, x => .imadw x
  | .idiv, x => .idiv x
  | .irem, x => .irem x
  | .imin, x => .imin x
  | .imax, x => .imax x
  | .iabs, x => .iabs x
  | .ineg, x => .ineg x
  | .isetc, x => .isetc x
  | .isel, x => .isel x
  | .lea, x => .lea x
  | .shl, x => .shl x
  | .shr, x => .shr x
  | .sar, x => .sar x
  | .rol, x => .rol x
  | .ror, x => .ror x
  | .xwin, x => .xwin x
  | .andB, x => .andB x
  | .orB, x => .orB x
  | .xorB, x => .xorB x
  | .andn, x => .andn x
  | .bfn3, x => .bfn3 x
  | .clz, x => .clz x
  | .ctz, x => .ctz x
  | .popc, x => .popc x
  | .brev, x => .brev x
  | .bswap, x => .bswap x
  | .bfe, x => .bfe x
  | .bfi, x => .bfi x
  | .pdep, x => .pdep x
  | .pext, x => .pext x
  | .bperm, x => .bperm x
  | .gf2mm, x => .gf2mm x
  | .bysel, x => .bysel x
  | .mov, x => .mov x
  | .movi, x => .movi x
  | .take, x => .take x
  | .rget, x => .rget x
  | .rput, x => .rput x
  | .fadd, x => .fadd x
  | .fsub, x => .fsub x
  | .fmul, x => .fmul x
  | .ffma, x => .ffma x
  | .fmin, x => .fmin x
  | .fmax, x => .fmax x
  | .fsetc, x => .fsetc x
  | .fclass, x => .fclass x
  | .frnd, x => .frnd x
  | .fscale, x => .fscale x
  | .fdot2, x => .fdot2 x
  | .fdot4, x => .fdot4 x
  | .cvt, x => .cvt x
  | .pack, x => .pack x
  | .unpack, x => .unpack x
  | .rcp, x => .rcp x
  | .rsq, x => .rsq x
  | .sqrt, x => .sqrt x
  | .ex2, x => .ex2 x
  | .lg2, x => .lg2 x
  | .sinp, x => .sinp x
  | .cosp, x => .cosp x
  | .tanh, x => .tanh x
  | .rred, x => .rred x
  | .lxch, x => .lxch x
  | .poll, x => .poll x
  | .redux, x => .redux x
  | .fredux, x => .fredux x
  | .scan, x => .scan x
  | .rdsys, x => .rdsys x
  | .bra, x => .bra x
  | .brx, x => .brx x
  | .call, x => .call x
  | .callx, x => .callx x
  | .ret, x => .ret x
  | .exit, x => .exit x
  | .bmz, x => .bmz x
  | .bmnz, x => .bmnz x
  | .maskp, x => .maskp x
  | .maskr, x => .maskr x
  | .land, x => .land x
  | .sig, x => .sig x
  | .trap, x => .trap x
  | .nop, x => .nop x
  | .yield, x => .yield x
  | .ld, x => .ld x
  | .st, x => .st x
  | .stash, x => .stash x
  | .unstash, x => .unstash x
  | .flush, x => .flush x
  | .inval, x => .inval x
  | .pref, x => .pref x
  | .cpy, x => .cpy x
  | .cpyl, x => .cpyl x
  | .cpys, x => .cpys x
  | .cpyg, x => .cpyg x
  | .seal, x => .seal x
  | .waitb, x => .waitb x
  | .bbinit, x => .bbinit x
  | .bbexp, x => .bbexp x
  | .bbarr, x => .bbarr x
  | .bbwait, x => .bbwait x
  | .mloop, x => .mloop x
  | .mzero, x => .mzero x
  | .mdrain, x => .mdrain x
  | .mdrainmx, x => .mdrainmx x
  | .mstat, x => .mstat x
  | .ldacq, x => .ldacq x
  | .strel, x => .strel x
  | .atom, x => .atom x
  | .red, x => .red x
  | .fence, x => .fence x
  | .bar, x => .bar x
  | .seamred, x => .seamred x
  | .seambc, x => .seambc x
  | .seamsend, x => .seamsend x
  | .seamrecv, x => .seamrecv x
  | .ipref, x => .ipref x
  | .ipin, x => .ipin x
  | .iunpin, x => .iunpin x
  | .icinv, x => .icinv x
  | .spl, x => .spl x
  | .rfe, x => .rfe x
  | .mfs, x => .mfs x
  | .mts, x => .mts x
  | .tlbinv, x => .tlbinv x
  | .freeze, x => .freeze x
  | .thaw, x => .thaw x
  | .halt, x => .halt x
  | .ptest, x => .ptest x
  | .pclr, x => .pclr x
  | .lanekill, x => .lanekill x
  | .selftest, x => .selftest x

end Sys2Proof
end

