-- ==== Sys2Proof/Machine/Legal.lean ====
section
/-! DEFINITION. Which decoded instructions are legal by their own fields (steps 5 and 6 of R118, R101-R115), from one
table that gives, for each opcode, the use that its description makes of each field. Limits that depend on the running
group (the register budget, the tiles of the team) are checked when the instruction issues. -/

namespace Sys2Proof

/-- A type whose operand is an even-odd pair (R104, R114). -/
def Ty.wide : Ty → Bool
  | .i64 | .n64 => true
  | _ => false

/-- Type codes as `T` holds them (R114). -/
def Ty.code : Ty → BitVec 4
  | .i32 => 0 | .n32 => 1 | .i64 => 2 | .n64 => 3 | .b32 => 4 | .f32 => 5 | .f16 => 6 | .bf16 => 7
  | .e4m3 => 8 | .e5m2 => 9 | .e2m3 => 10 | .e3m2 => 11 | .e2m1 => 12 | .i8 => 13 | .i16 => 14

/-- The type of a code; code 15 names none (R114, R115). -/
def Ty.ofCode (c : BitVec 4) : Option Ty :=
  match c.toNat with
  | 0 => some .i32 | 1 => some .n32 | 2 => some .i64 | 3 => some .n64 | 4 => some .b32
  | 5 => some .f32 | 6 => some .f16 | 7 => some .bf16 | 8 => some .e4m3 | 9 => some .e5m2
  | 10 => some .e2m3 | 11 => some .e3m2 | 12 => some .e2m1 | 13 => some .i8 | 14 => some .i16
  | _ => none

/-- Elements that a register, or a pair for the 64-bit types, holds (R247). -/
def Ty.elems : Ty → Nat
  | .i32 | .n32 | .f32 | .i64 | .n64 | .b32 => 1
  | .f16 | .bf16 | .i16 => 2
  | .e4m3 | .e5m2 | .e2m3 | .e3m2 | .i8 => 4
  | .e2m1 => 8

/-- Registers that one operand of the type names. -/
def Ty.regs (t : Ty) : Nat := if t.wide then 2 else 1

/-- Strips trailing zero bits, at most `fuel` of them. -/
def oddPart : Nat → Nat → Nat
  | 0, n => n
  | f + 1, n => if n % 2 = 0 then oddPart f (n / 2) else n

/-- An integer is held exactly by a format with `p` significant bits and largest finite value `top`. -/
def fitsFloat (p top : Nat) (v : Int) : Bool := oddPart 16 v.natAbs < 2 ^ p && v.natAbs ≤ top

/-- The immediates that an operand of the type can take (R106). -/
def immOk (t : Ty) (v : Int) : Bool :=
  match t with
  | .i8 => decide (-128 ≤ v ∧ v ≤ 127)
  | .f16 => fitsFloat 11 65504 v
  | .bf16 => fitsFloat 8 1000000 v
  | .e4m3 => fitsFloat 4 448 v
  | .e5m2 => fitsFloat 3 57344 v
  | .e2m3 => fitsFloat 4 7 v
  | .e3m2 => fitsFloat 3 28 v
  | .e2m1 => fitsFloat 2 6 v
  | _ => true

/-- Where an operand field stands. -/
inductive Pos where
  | a | b | c
deriving DecidableEq, Repr

/-- The use that a description makes of an operand field. -/
inductive Use where
  /-- The field is not named, so it is zero (R102). -/
  | zero
  /-- A value read in a type, of any kind that its place admits (R103-R107). -/
  | val (t : Ty)
  /-- The f32 pair operand of SINP and COSP: an immediate gives its first word (R235). -/
  | pairF
  /-- `m` consecutive values of a type, the source range of PACK (R248). -/
  | many (t : Ty) (m : Nat)
  /-- Kind 00 or 01 read as n32, or an immediate from `lo` to `hi`, to `hi32` where it stands in IMM32 (R299, R317). -/
  | num (lo hi hi32 : Nat)
  /-- Kind 00 or 01 read as n32 (R337). -/
  | reg32
  /-- Zero, or as `num 1 511` (the B scales of MLOOP, R336). -/
  | optNum
  /-- A base pair of kind 00, 01 or 11 (R299); with `any11` false kind 11 is refused (R317). -/
  | base64 (any11 : Bool)
  /-- A galley base register of kind 00, 01 or 11 (R299); with `any11` false kind 11 is refused, which R381 admits for a
  base pair only. -/
  | base32 (any11 : Bool)
  /-- An i32 offset of kind 00, 01 or 10, and of kind 11 where `any11` (R299, R316). -/
  | off (any11 : Bool)
  /-- Kind 00 with pattern 00: `n` registers from `lo` upward, the index a multiple of `al`. -/
  | plain (lo n al : Nat)
  /-- Kind 00, even, from v4 upward, with any short pattern (R422). -/
  | pair
  /-- The base of IPREF, IPIN, IUNPIN, ICINV: kind 00, pattern 00, even; v0 is PC-relative (R151). -/
  | codeBase
  /-- Kind 00 with pattern 00, or an immediate of 1-511 (R151). -/
  | codeCount
  /-- A branch target: kind 10 (R262). -/
  | target
  /-- A reconvergence address: zero, or kind 10 with a non-zero value (R262). -/
  | ra
  /-- A receive port: kind 10 with value 0-15 (R381). -/
  | port
  /-- The A scales of MLOOP: zero, or kind 00 pattern 00 from v4 upward (R337). -/
  | scale
deriving DecidableEq, Repr

/-- The use of D. -/
inductive DUse where
  /-- D is zero. -/
  | zero
  /-- One register; v0 discards and v1-v3 are the mask (R111, R160). -/
  | one
  /-- An even pair from v4 upward (R111, R157). -/
  | pair
  /-- `n` registers from v4 upward (R238, R323). -/
  | range (n : Nat)
  /-- Claimed registers: `n` of them, aligned to `n`, not v1-v3; v0 only where `z` (R298, R388). -/
  | claim (n : Nat) (z : Bool)
  /-- A data register read as a source: `n` registers, aligned to `n`; a pair or quad names none of v0-v3 (R157, R298). -/
  | data (n : Nat)
  /-- A link pair: even, not v2, v0 discards (R262). -/
  | link
  /-- A field with a meaning of its own; its limits are the extra condition of the opcode. -/
  | own
deriving DecidableEq, Repr

/-- The use of IMM32 in format C (R107). -/
inductive ImmUse where
  /-- It supplies an SB of kind 10, and is zero otherwise. -/
  | sb
  /-- It has a meaning of its own; SB of kind 10 keeps its ten bits. -/
  | own
  /-- It is zero; SB of kind 10 keeps its ten bits. DESIGN CHOICE for IPREF, IPIN, IUNPIN and ICINV with an SA other than v0
  (log entry 90): R107 would give a kind-10 SB the value of IMM32, R151 and R152 state the label use of IMM32 alone. -/
  | zero
deriving DecidableEq, Repr

/-- Which predicates an instruction accepts (R262, R422). -/
inductive PRule where
  | any | v0 | v0pn
deriving DecidableEq, Repr

/-- What the description of an opcode says of the fields of one instruction. -/
structure Spec where
  min : Fmt := .a
  ty : Bool := false
  m : Bool := false
  e : Bool := false
  d : DUse := .zero
  a : Use := .zero
  b : Use := .zero
  c : Use := .zero
  imm : ImmUse := .sb
  w : Bool := false
  p : PRule := .any
  extra : Bool := true
deriving DecidableEq, Repr

/-- A short pattern is 00-11, a full one has a code and parameter that R109 admits. -/
def patOk (code : BitVec 3) (par : BitVec 5) : Bool :=
  match code.toNat with
  | 0 => par == 0
  | 1 | 2 | 3 => true
  | 4 => decide (par.toNat ≤ 4)
  | _ => false

/-- A register operand of `n` words: a pair is even and neither v0:v1 nor v2:v3 (R104, R157). -/
def regOk (n : BitVec 8) (words : Nat) : Bool :=
  if words = 2 then n.toNat % 2 = 0 && 4 ≤ n.toNat else true

/-- One operand field against its use. `sb32` says that an immediate here stands in IMM32, which holds `imm`. -/
def useOk (u : Use) (sb32 : Bool) (imm : BitVec 32) (o : Opd) : Bool :=
  match u, o with
  | .zero, o => o == Opd.zero
  | .val t, .reg n _ => regOk n t.regs
  | .val _, .latch _ _ => true
  | .val t, .imm v => if sb32 then v == 0 else immOk t v.toInt
  | .val t, .full n c p => regOk n t.regs && patOk c p
  | .pairF, .reg n _ => regOk n 2
  | .pairF, .latch _ _ => true
  | .pairF, .imm _ => !sb32
  | .pairF, .full n c p => regOk n 2 && patOk c p
  | .many t m, .reg n _ => regOk n t.regs && decide (n.toNat + t.regs * m ≤ 256)
  | .many _ _, .latch _ _ => true
  | .many t _, .imm v => !sb32 && immOk t v.toInt
  | .many t m, .full n c p => regOk n t.regs && decide (n.toNat + t.regs * m ≤ 256) && patOk c p
  | .num _ _ _, .reg _ _ => true
  | .num _ _ _, .latch _ _ => true
  | .num lo hi hi32, .imm v =>
    if sb32 then v == 0 && decide (lo ≤ imm.toNat ∧ imm.toNat ≤ hi32)
    else decide ((lo : Int) ≤ v.toInt ∧ v.toInt ≤ (hi : Int))
  | .num _ _ _, .full _ _ _ => false
  | .reg32, .reg _ _ => true
  | .reg32, .latch _ _ => true
  | .reg32, _ => false
  | .optNum, .reg _ _ => true
  | .optNum, .latch _ _ => true
  | .optNum, .imm v => decide (1 ≤ v.toInt)
  | .optNum, .full _ _ _ => false
  | .base64 _, .reg n _ => regOk n 2
  | .base64 _, .latch _ _ => true
  | .base64 f, .full n c p => f && regOk n 2 && patOk c p
  | .base64 _, .imm _ => false
  | .base32 _, .reg _ _ => true
  | .base32 _, .latch _ _ => true
  | .base32 f, .full _ c p => f && patOk c p
  | .base32 _, .imm _ => false
  | .off _, .reg _ _ => true
  | .off _, .latch _ _ => true
  | .off _, .imm v => if sb32 then v == 0 else true
  | .off f, .full _ c p => f && patOk c p
  | .plain lo n al, .reg r p => p == 0 && decide (lo ≤ r.toNat ∧ r.toNat % al = 0 ∧ r.toNat + n ≤ 256)
  | .plain _ _ _, _ => false
  | .pair, .reg r _ => regOk r 2
  | .pair, _ => false
  | .codeBase, .reg r p => p == 0 && decide (r.toNat % 2 = 0) && r != 2
  | .codeBase, _ => false
  | .codeCount, .reg _ p => p == 0
  | .codeCount, .imm v => decide (1 ≤ v.toInt)
  | .codeCount, _ => false
  | .target, .imm v => if sb32 then v == 0 else true
  | .target, _ => false
  | .ra, .reg r p => r == 0 && p == 0
  | .ra, .imm v => v != 0
  | .ra, _ => false
  | .port, .imm v => if sb32 then v == 0 && decide (imm.toNat ≤ 15) else decide (0 ≤ v.toInt ∧ v.toInt ≤ 15)
  | .port, _ => false
  | .scale, .reg r p => p == 0 && (r == 0 || decide (4 ≤ r.toNat))
  | .scale, _ => false

/-- D against its use. -/
def dUseOk (u : DUse) (d : BitVec 8) : Bool :=
  match u with
  | .zero => d == 0
  | .one => true
  | .pair => decide (d.toNat % 2 = 0 ∧ 4 ≤ d.toNat)
  | .range n => decide (4 ≤ d.toNat ∧ d.toNat + n ≤ 256)
  | .claim n z => (z && d == 0) || decide (4 ≤ d.toNat ∧ d.toNat % n = 0)
  | .data n => decide (d.toNat % n = 0) && (n == 1 || decide (4 ≤ d.toNat))
  | .link => decide (d.toNat % 2 = 0) && d != 2
  | .own => true

/-- Formats in increasing length. -/
def Fmt.ord : Fmt → Nat
  | .a => 0 | .b => 1 | .c => 2

/-- An operand of kind 11. -/
def Opd.isFull : Opd → Bool
  | .full _ _ _ => true
  | _ => false

/-- An operand of kind 10. -/
def Opd.isImm : Opd → Bool
  | .imm _ => true
  | _ => false

/-- The fields that a format does not have are zero, and kind 11 needs PA or PB (R98-R103). -/
def fmtFieldsOk (x : Ops) : Bool :=
  match x.fmt with
  | .a => x.c == Opd.zero && x.e == 0 && x.imm == 0 && !x.a.isFull && !x.b.isFull
  | .b => x.imm == 0 && !x.c.isFull
  | .c => !x.c.isFull

/-- The instruction `x` obeys what its description says. -/
def specOk (s : Spec) (x : Ops) : Bool :=
  let sb32 := x.fmt == .c && s.imm == .sb
  s.min.ord ≤ x.fmt.ord && fmtFieldsOk x && s.ty && s.m && s.e && s.extra &&
  (if x.w then s.w && x.d == 0 else dUseOk s.d x.d) &&
  useOk s.a false x.imm x.a && useOk s.b sb32 x.imm x.b && useOk s.c false x.imm x.c &&
  (match s.imm with
   | .sb => x.b.isImm || x.imm == 0
   | .own => true
   | .zero => x.imm == 0) &&
  (match s.p with
   | .any => true
   | .v0 => x.p == 0
   | .v0pn => x.p == 0 && x.pn)

/-- Field [hi:lo] of M as a number. -/
def Ops.mf (x : Ops) (lo n : Nat) : Nat := (x.m.toNat / 2 ^ lo) % 2 ^ n

/-- The bits of M from `lo` upward are zero. -/
def Ops.mTop (x : Ops) (lo : Nat) : Bool := x.m.toNat < 2 ^ lo

/-- The types 8-11 that FDOT4 and MX operands share (R246). -/
def Ty.isMx8 : Ty → Bool
  | .e4m3 | .e5m2 | .e2m3 | .e3m2 => true
  | _ => false

/-- The type that FDOT4 reads b in (R246). -/
def fdot4TyB (x : Ops) : Ty := if x.e == 0 then x.t else (Ty.ofCode x.e).getD .e4m3

/-- The source type of CVT, PACK and UNPACK (R248). -/
def cvtSrc (x : Ops) : Ty := (Ty.ofCode (x.m.truncate 4)).getD .i32

/-- CVT, PACK and UNPACK accept the two types (R248). -/
def cvtOk (x : Ops) : Bool :=
  x.t != .b32 && decide (x.mf 0 4 ≠ 4 ∧ x.mf 0 4 ≠ 15 ∧ x.mf 7 1 = 0)

/-- The registers that a size code of LD and ST names (R298). -/
def sizeRegs (code : Nat) : Nat := if code = 1 then 2 else if code = 2 then 4 else 1

/-- The size, space and hint bits of LD and ST (R298). -/
def ldM (x : Ops) : Bool := x.mf 0 3 ≤ 6 && x.mf 4 2 ≤ 1 && x.mf 6 2 = 0 && (x.mf 3 1 = 0 || x.mf 4 2 = 0)

/-- The base operand of a memory instruction by its space bit; `any11` says whether a galley base may be of kind 11 (R299,
R381). -/
def baseUse (gal any11 : Bool) : Use := if gal then .base32 any11 else .base64 true

/-- The operation of ATOM and RED accepts the type (R386). -/
def atomOk (op : Nat) (t : Ty) : Bool :=
  match op with
  | 0 | 1 | 2 => t == .i32 || t == .n32 || t == .i64 || t == .n64
  | 3 | 4 | 5 | 6 | 7 => t == .b32 || t == .n64
  | 8 | 9 | 10 => t == .f32 || t == .f16 || t == .bf16
  | 11 | 12 => t == .n32
  | _ => false

/-- A system register of R412: its width in registers, and whether MTS may write it; none for a reserved number. -/
def sysRegInfo (n : Nat) : Option (Nat × Bool) :=
  match n with
  | 0 => some (1, false) | 1 => some (2, false) | 2 => some (2, false) | 3 => some (2, true)
  | 4 | 5 | 6 | 7 | 8 => some (1, false)
  | 9 => some (2, false)
  | 10 | 11 | 12 => some (1, false)
  | 13 | 14 | 15 => some (1, true)
  | 16 => some (1, false)
  | 17 => some (2, false)
  | _ => none

/-- The destination of a result in a type. -/
def dTy (t : Ty) : DUse := if t.wide then .pair else .one

/-- Registers that one K-step of A names (R337). -/
def mloopRps (t : Ty) : Nat := if t == .e2m1 then 4 else 8

/-- The number of K-steps that IMM32 codes (R336). -/
def mloopKs (x : Ops) : Nat := x.imm.toNat % 64 + 1

/-- The register step between K-steps (R336). -/
def mloopAstr (x : Ops) : Nat := x.imm.toNat / 2 ^ 12 % 256

/-- The decode conditions of MLOOP that do not depend on the team or the budget (R337). -/
def mloopOk (x : Ops) : Bool :=
  let eTy : Bool := x.e == 0 || decide (8 ≤ x.e.toNat ∧ x.e.toNat ≤ 12)
  let sbIx : Nat := match x.b with | .reg r _ => r.toNat | _ => 0
  eTy && (x.t != .i8 || (x.e == 0 && x.b == Opd.zero && x.c == Opd.zero)) &&
  decide (x.mf 6 2 = 0) && (x.mf 4 1 = 1 || (x.mf 5 1 = 0 && x.imm.toNat / 64 % 64 = 0)) &&
  decide (4 ≤ x.d.toNat ∧ x.d.toNat + (mloopKs x - 1) * mloopAstr x + mloopRps x.t ≤ 256) &&
  (sbIx = 0 || decide (sbIx + (mloopKs x - 1) / 4 < 256)) &&
  (x.mf 3 1 = 0 || decide (mloopKs x * mloopRps x.t ≤ 32))

/-- The words of one lane of a drain: 64 elements, or the MX codes (R350, R353). -/
def drainRegs (mx : Bool) (t : Ty) : Nat := if mx then (if t == .e2m1 then 8 else 16) else 64

/-- D of a drain: a register range, or the barrier number of the galley form (R349). -/
def drainD (mx : Bool) (x : Ops) : DUse := if x.mf 3 1 = 0 then .range (drainRegs mx x.t) else .own

/-- The barrier field of a galley drain is zero unless `.bb` is written, and the register form has no `.bb` (R349). -/
def drainExtra (x : Ops) : Bool :=
  if x.mf 3 1 = 0 then x.mf 5 1 = 0
  else decide (x.d.toNat < 64) && (x.mf 5 1 = 1 || x.d == 0)

/-- vs of a register MDRAINMX lies outside the vd range (R349). -/
def drainVs (x : Ops) : Bool :=
  match x.a with
  | .reg r _ => r == 0 || decide (4 ≤ r.toNat ∧ (r.toNat < x.d.toNat ∨ x.d.toNat + drainRegs true x.t ≤ r.toNat))
  | _ => false

/-- What the description of each opcode says of the fields of the instruction `x` (R207, R208, R234, R235, R262, R298,
R299, R316, R317, R336, R349, R381, R151, R184, R422, R454). -/
def Op.spec (o : Op) (x : Ops) : Spec :=
  let t := x.t
  let i4 : Bool := t == .i32 || t == .n32 || t == .i64 || t == .n64
  let i6 : Bool := i4 || t == .i8 || t == .i16
  let w3 : Bool := t == .b32 || t == .i64 || t == .n64
  let w2 : Bool := t == .b32 || t == .n64
  let f3 : Bool := t == .f32 || t == .f16 || t == .bf16
  let m0 : Bool := x.m == 0
  let t0 : Bool := t == .i32
  let e0 : Bool := x.e == 0
  let none : Spec := { e := e0, ty := t0, m := m0 }
  let arith (tys sat : Bool) : Spec :=
    { e := e0, ty := tys, m := if sat then x.mTop 1 else m0, d := dTy t, a := .val t, b := .val t, w := true }
  let bin (tys : Bool) : Spec := { e := e0, ty := tys, m := m0, d := dTy t, a := .val t, b := .val t, w := true }
  let shift : Spec := { e := e0, ty := w3, m := m0, d := dTy t, a := .val t, b := .val .n32, w := true }
  let count : Spec := { e := e0, ty := w2, m := m0, d := .one, a := .val t, w := true }
  let fl (n : Nat) (sat : Bool) : Spec :=
    { e := e0, ty := f3, m := x.mTop (if sat then 3 else 2), d := .one, a := .val t, w := true
      b := if n ≥ 2 then .val t else .zero, c := if n ≥ 3 then .val t else .zero, min := if n ≥ 3 then .b else .a }
  let sfu : Spec := { e := e0, ty := t == .f32, m := m0, d := .one, a := .val .f32, w := true }
  let es := (cvtSrc x).elems
  let et := t.elems
  let mem (gal : Bool) : Spec := { e := e0, ty := t0, a := baseUse gal true, b := .off false }
  match o with
  | .iadd | .isub | .imul => arith i6 true
  | .iadd3 | .imad => { arith i4 true with min := .b, c := .val t }
  | .imulh | .irem => bin i4
  | .imadw =>
    { arith (t == .i32 || t == .n32) true with
        min := .b, d := .pair, c := .val (if t == .i32 then .i64 else .n64) }
  | .idiv => arith i4 true
  | .imin | .imax => bin i6
  | .iabs | .ineg => { arith (t == .i32 || t == .i64 || t == .i8 || t == .i16) true with b := .zero }
  | .isetc => { bin i6 with m := x.m.toNat ≤ 5, d := .one }
  | .isel => { bin w3 with min := .b, c := .val .n32 }
  | .lea => { bin (t == .i32 || t == .n32) with m := x.mTop 3, d := .pair, a := .val .n64 }
  | .shl | .shr | .sar | .rol | .ror => shift
  | .xwin => { bin (t == .b32) with min := .b, c := .val .i32, m := x.mTop 1 }
  | .andB | .orB | .xorB | .andn => bin w3
  | .bfn3 => { bin w3 with min := .b, c := .val t, m := true }
  | .clz | .ctz | .popc => count
  | .brev | .bswap => { count with d := dTy t }
  | .bfe => { bin i4 with b := .val .n32 }
  | .bfi => { bin w2 with min := .b, b := .val .n32, c := .val t }
  | .pdep | .pext | .bperm => bin w2
  | .gf2mm => bin (t == .n64)
  | .bysel => { bin (t == .b32) with min := .b, c := .val .b32 }
  | .mov => { bin w3 with b := .zero }
  | .movi => { none with min := .c, ty := w3, d := dTy t, imm := .own, w := true }
  | .take =>
    { none with
        d := .one, a := .plain 0 1 1
        extra := decide (x.d.toNat = 0 ∨ 4 ≤ x.d.toNat) &&
          (match x.a with | .reg r _ => decide (r.toNat = 0 ∨ 4 ≤ r.toNat) | _ => false) }
  | .rget => { none with d := .one, a := .num 0 255 255 }
  | .rput => { none with a := .num 0 255 255, b := .val .i32 }
  | .fadd | .fsub | .fmul => fl 2 true
  | .ffma => fl 3 true
  | .fmin | .fmax => { fl 2 true with m := m0 }
  | .fsetc => { fl 2 true with m := x.mTop 3 }
  | .fclass => { fl 1 true with m := m0 }
  | .frnd => fl 1 false
  | .fscale => { fl 2 true with b := .val (if t == .f32 then .i32 else .i16) }
  | .fdot2 => { fl 3 true with ty := t == .f16 || t == .bf16, c := .val .f32 }
  | .fdot4 =>
    { fl 3 true with
        ty := t.isMx8 || t == .i8, b := .val (fdot4TyB x), c := .val (if t == .i8 then .i32 else .f32)
        e := x.e == 0 || (t != .i8 && decide (8 ≤ x.e.toNat ∧ x.e.toNat ≤ 11))
        extra := t != .i8 || decide (x.mf 0 2 = 0) }
  | .cvt =>
    { sfu with ty := true, m := cvtOk x, extra := decide (es = et), d := dTy t, a := .val (cvtSrc x), b := .val .i32 }
  | .pack =>
    { sfu with ty := true, m := cvtOk x, extra := decide (2 * es ≤ et ∧ et % es = 0), d := dTy t
               a := .many (cvtSrc x) (et / es), b := .val .i32 }
  | .unpack =>
    { sfu with ty := true, m := cvtOk x, extra := decide (2 * et ≤ es ∧ es % et = 0) && (!t.wide || x.d.toNat % 2 = 0)
               d := .range (t.regs * (es / et)), a := .val (cvtSrc x), b := .val .i32, w := false }
  | .rcp | .sqrt => { sfu with m := x.mTop 3 }
  | .rsq | .ex2 | .lg2 | .tanh => sfu
  | .sinp | .cosp => { sfu with a := .pairF }
  | .rred => { sfu with d := .pair }
  | .lxch => { bin w3 with m := x.mTop 2, b := .val (if x.mf 0 2 = 1 then .i32 else .n32) }
  | .poll =>
    { sfu with ty := t == .b32, m := x.mTop 2, a := .val .b32
               d := if x.mf 0 2 = 3 then .range 3 else .one, w := x.mf 0 2 != 3 }
  | .redux => { bin (i4 || t == .b32) with b := .zero, m := x.m.toNat ≤ 5 && (t != .b32 || 3 ≤ x.m.toNat) }
  | .fredux => { fl 1 true with m := x.mTop 5 && x.mf 0 2 ≤ 2 && (x.mf 0 2 = 0 || x.mf 2 3 = 0) }
  | .scan =>
    { bin (i4 || t == .b32 || t == .f32) with
        b := .zero
        m := x.mTop 6 && x.mf 0 3 ≤ 5 && (t != .b32 || 3 ≤ x.mf 0 3) && (t != .f32 || x.mf 0 3 = 0) &&
          (t == .f32 || x.mf 4 2 = 0) }
  | .rdsys =>
    { none with
        m := x.mTop 7 && x.mf 0 6 ≤ 12 && (x.mf 6 1 = 0 || 11 ≤ x.mf 0 6)
        d := if x.mf 0 6 = 6 ∨ x.mf 0 6 = 7 then .pair else .one, w := true }
  | .bra => { none with a := .ra, b := .target }
  | .brx => { none with a := .plain 4 2 2, b := .ra, imm := .zero }
  | .call => { none with d := .link, b := .target }
  | .callx => { none with d := .link, a := .plain 4 2 2 }
  | .ret => { none with a := .plain 4 2 2, b := .ra, imm := .zero }
  | .exit | .nop | .yield => none
  | .trap => { none with m := true }
  | .bmz | .bmnz => { none with b := .target }
  | .maskp => { none with d := .range 3 }
  | .maskr => { none with a := .plain 4 3 1, m := x.mTop 1, p := .v0 }
  | .land => { none with p := .v0 }
  | .sig => { none with d := .own, m := true, p := .v0 }
  | .ld => { mem (x.mf 3 1 = 1) with m := ldM x, d := .claim (sizeRegs (x.mf 0 3)) (sizeRegs (x.mf 0 3) = 1) }
  | .st => { mem (x.mf 3 1 = 1) with m := ldM x && x.mf 0 3 != 4 && x.mf 0 3 != 6, d := .data (sizeRegs (x.mf 0 3)) }
  | .stash => { none with min := .b, m := x.mTop 3, a := .num 0 511 511, b := .base64 true, c := .num 0 511 511 }
  | .unstash => { none with m := x.mTop 4 && (x.mf 3 1 = 0 || x.mf 0 3 = 0) }
  | .flush | .inval => { none with m := x.m == 0 || x.m == 8, a := baseUse (x.mf 3 1 = 1) true, b := .num 0 511 511 }
  | .pref => { mem false with m := x.m.toNat ≤ 1 }
  | .cpy | .cpys =>
    { none with
        min := .b, m := x.mf 1 1 = 1 || x.mf 2 6 = 0, a := .num 0 511 511, b := .base64 false
        c := if x.mf 0 1 = 1 then .plain 8 8 8 else .num 0 511 511 }
  | .cpyl =>
    { none with
        min := .b, m := x.mf 0 1 = 0 && (x.mf 1 1 = 1 || x.mf 2 6 = 0), a := .num 0 511 511, b := .num 0 511 511
        c := .val .b32 }
  | .cpyg =>
    { none with
        m := x.mTop 6, d := .range (x.mf 0 5 + 1), a := baseUse (x.mf 5 1 = 1) true, b := .off true }
  | .seal => { none with m := x.mTop 4 && x.m != 0 }
  | .waitb => { none with m := x.mTop 2, a := .num 0 511 511 }
  | .bbinit => { none with a := .num 0 511 511, b := .num 0 511 511 }
  | .bbexp => { none with a := .num 0 511 511, b := .num 0 511 (2 ^ 32 - 1) }
  | .bbarr => { none with d := .one, a := .num 0 511 511, b := .num 0 511 (2 ^ 32 - 1) }
  | .bbwait => { none with d := .one, a := .num 0 511 511, b := .num 0 511 511 }
  | .mloop =>
    { min := .c, ty := decide (8 ≤ t.code.toNat ∧ t.code.toNat ≤ 13), m := true, e := true, d := .own
      a := .reg32, b := .scale, c := .optNum, imm := .own, extra := mloopOk x }
  | .mzero => { none with m := x.mTop 3 }
  | .mdrain =>
    { none with
        m := x.mTop 6, d := drainD false x, extra := drainExtra x
        a := if x.mf 3 1 = 1 then .num 0 511 511 else .zero
        b := if x.mf 3 1 = 1 then .num 0 511 511 else .zero }
  | .mdrainmx =>
    { none with
        ty := decide (8 ≤ t.code.toNat ∧ t.code.toNat ≤ 12), m := x.mTop 6, d := drainD true x
        extra := drainExtra x && (x.mf 3 1 = 1 || drainVs x)
        a := if x.mf 3 1 = 1 then .num 0 511 511 else .plain 0 1 1
        b := if x.mf 3 1 = 1 then .num 0 511 511 else .zero
        c := if x.mf 3 1 = 1 then .num 0 511 511 else .zero }
  | .mstat => { none with m := x.mTop 7 && (x.mf 6 1 = 0 || 4 ≤ x.mf 3 3), d := .one }
  | .ldacq =>
    { mem (x.mf 3 1 = 1) with
        a := baseUse (x.mf 3 1 = 1) false
        m := x.mf 0 3 ≤ 6 && x.mf 6 2 = 0, d := .claim (sizeRegs (x.mf 0 3)) (sizeRegs (x.mf 0 3) = 1) }
  | .strel =>
    { mem (x.mf 3 1 = 1) with
        a := baseUse (x.mf 3 1 = 1) false
        m := x.mf 0 3 ≤ 5 && x.mf 0 3 != 4 && x.mf 6 2 = 0, d := .data (sizeRegs (x.mf 0 3)) }
  | .atom =>
    { min := if x.mf 0 4 = 7 then .b else .a, ty := atomOk (x.mf 0 4) t, m := true, e := e0
      d := .claim t.regs true, a := .base64 true, b := .val t, c := if x.mf 0 4 = 7 then .val t else .zero
      imm := .own, extra := !x.b.isFull }
  | .red =>
    { ty := atomOk (x.mf 0 4) t && x.mf 0 4 != 6 && x.mf 0 4 != 7, m := x.mf 6 2 = 0 || x.mf 6 2 = 2, e := e0
      a := .base64 true, b := .val t, imm := .own, extra := !x.b.isFull }
  | .fence => { none with m := x.mTop 4 && x.mf 2 2 ≤ 2 }
  | .bar => { none with m := x.mTop 5 && x.mf 3 2 ≤ 1, a := .num 0 32 32 }
  | .seamred =>
    { none with
        ty := t == .i32 || t == .n32 || f3, m := true, d := .own, a := .plain 4 (x.d.toNat % 16 + 1) 1, b := .port
        extra := x.d.toNat / 16 % 2 = 0 && x.d.toNat / 32 ≤ 2 }
  | .seambc => { none with m := true, d := .own, b := .port, extra := x.d.toNat < 32 }
  | .seamsend =>
    { none with m := true, d := .own, a := .plain 4 (x.d.toNat % 16 + 1) 1, extra := x.d.toNat < 32 }
  | .seamrecv => { none with m := x.mTop 5, d := .range (x.mf 0 4 + 1), b := .port }
  | .ipref => { none with a := .codeBase, b := .codeCount, imm := if x.a == Opd.zero then .own else .zero }
  | .ipin | .iunpin =>
    { none with d := .one, a := .codeBase, b := .codeCount, imm := if x.a == Opd.zero then .own else .zero }
  | .icinv =>
    { none with
        m := x.mTop 3 && x.mf 0 2 ≤ 2
        a := if x.mf 2 1 = 1 then .zero else .codeBase, b := if x.mf 2 1 = 1 then .zero else .codeCount
        imm := if x.mf 2 1 = 0 ∧ x.a = Opd.zero then .own else .zero }
  | .spl => { none with a := .num 0 2 2 }
  | .rfe | .halt => { none with p := .v0pn }
  | .mfs =>
    { none with
        m := x.mTop 5 && (sysRegInfo (x.mf 0 5)).isSome
        d := if (sysRegInfo (x.mf 0 5)).any (fun r => r.1 = 2) then .pair else .one
        extra := decide (x.d.toNat = 0 ∨ 4 ≤ x.d.toNat) }
  | .mts =>
    { none with
        m := x.mTop 5 && (sysRegInfo (x.mf 0 5)).any (fun r => r.2)
        a := if x.mf 0 5 = 3 then .plain 4 2 2 else .plain 0 1 1 }
  | .tlbinv =>
    { none with
        m := x.mTop 2
        a := if x.mf 0 1 = 1 then .zero else .pair, b := if x.mf 0 1 = 1 then .zero else .num 0 511 511 }
  | .freeze => { none with m := x.mTop 1 }
  | .thaw => { none with m := x.mTop 2 }
  | .ptest => { count with ty := w2 }
  | .pclr => bin w2
  | .lanekill => { none with a := .plain 4 3 1 }
  | .selftest =>
    { none with
        m := x.m.toNat ≤ 5, d := .one, a := .num 0 511 511
        extra := x.m.toNat != 2 || (match x.a with | .imm v => decide (v.toInt ≤ 63) | _ => true) }

/-- A Limov instruction is legal by its fields (steps 5 and 6 of R118). -/
def opsOk (o : Op) (x : Ops) : Bool := specOk (o.spec x) x

/-- The opcodes that need handler level (R206, R422, R454). -/
def Op.priv : Op → Bool
  | .rget | .rput | .rfe | .mfs | .mts | .tlbinv | .freeze | .thaw | .halt | .selftest => true
  | _ => false

/-- SELFTEST of galley bank `param`: a param above 63 raises ILLEGAL_INSTR (R458). -/
def selftestBankOk (n : Nat) : Bool := n ≤ 63

/-- The opcode of an assigned operation (R116). -/
def Op.code : Op → BitVec 9
  | .iadd => 0x000 | .isub => 0x001 | .iadd3 => 0x002 | .imul => 0x003 | .imulh => 0x004 | .imad => 0x005
  | .imadw => 0x006 | .idiv => 0x007 | .irem => 0x008 | .imin => 0x009 | .imax => 0x00a | .iabs => 0x00b
  | .ineg => 0x00c | .isetc => 0x00d | .isel => 0x00e | .lea => 0x00f | .shl => 0x010 | .shr => 0x011
  | .sar => 0x012 | .rol => 0x013 | .ror => 0x014 | .xwin => 0x015 | .andB => 0x016 | .orB => 0x017
  | .xorB => 0x018 | .andn => 0x019 | .bfn3 => 0x01a | .clz => 0x01b | .ctz => 0x01c | .popc => 0x01d
  | .brev => 0x01e | .bswap => 0x01f | .bfe => 0x020 | .bfi => 0x021 | .pdep => 0x022 | .pext => 0x023
  | .bperm => 0x024 | .gf2mm => 0x025 | .bysel => 0x026 | .mov => 0x027 | .movi => 0x028 | .take => 0x029
  | .rget => 0x02a | .rput => 0x02b | .fadd => 0x040 | .fsub => 0x041 | .fmul => 0x042 | .ffma => 0x043
  | .fmin => 0x044 | .fmax => 0x045 | .fsetc => 0x046 | .fclass => 0x047 | .frnd => 0x048 | .fscale => 0x049
  | .fdot2 => 0x04a | .fdot4 => 0x04b | .cvt => 0x04c | .pack => 0x04d | .unpack => 0x04e | .rcp => 0x050
  | .rsq => 0x051 | .sqrt => 0x052 | .ex2 => 0x053 | .lg2 => 0x054 | .sinp => 0x055 | .cosp => 0x056
  | .tanh => 0x057 | .rred => 0x058 | .lxch => 0x060 | .poll => 0x061 | .redux => 0x062 | .fredux => 0x063
  | .scan => 0x064 | .rdsys => 0x065 | .bra => 0x080 | .brx => 0x081 | .call => 0x082 | .callx => 0x083
  | .ret => 0x084 | .exit => 0x085 | .bmz => 0x086 | .bmnz => 0x087 | .maskp => 0x088 | .maskr => 0x089
  | .land => 0x08a | .sig => 0x08b | .trap => 0x08c | .nop => 0x08d | .yield => 0x08e | .ld => 0x0a0
  | .st => 0x0a1 | .stash => 0x0a2 | .unstash => 0x0a3 | .flush => 0x0a4 | .inval => 0x0a5 | .pref => 0x0a6
  | .cpy => 0x0c0 | .cpyl => 0x0c1 | .cpys => 0x0c2 | .cpyg => 0x0c3 | .seal => 0x0c4 | .waitb => 0x0c5
  | .bbinit => 0x0c6 | .bbexp => 0x0c7 | .bbarr => 0x0c8 | .bbwait => 0x0c9 | .mloop => 0x0d0 | .mzero => 0x0d1
  | .mdrain => 0x0d2 | .mdrainmx => 0x0d3 | .mstat => 0x0d4 | .ldacq => 0x0e0 | .strel => 0x0e1 | .atom => 0x0e2
  | .red => 0x0e3 | .fence => 0x0e4 | .bar => 0x0e5 | .seamred => 0x0e6 | .seambc => 0x0e7 | .seamsend => 0x0e8
  | .seamrecv => 0x0e9 | .ipref => 0x100 | .ipin => 0x101 | .iunpin => 0x102 | .icinv => 0x103 | .spl => 0x110
  | .rfe => 0x120 | .mfs => 0x121 | .mts => 0x122 | .tlbinv => 0x123 | .freeze => 0x124 | .thaw => 0x125
  | .halt => 0x126 | .ptest => 0x140 | .pclr => 0x141 | .lanekill => 0x142 | .selftest => 0x143

/-- The operation of an opcode; none where R116 assigns none. -/
def Op.ofCode (c : BitVec 9) : Option Op :=
  match c.toNat with
  | 0x000 => some .iadd | 0x001 => some .isub | 0x002 => some .iadd3 | 0x003 => some .imul | 0x004 => some .imulh
  | 0x005 => some .imad | 0x006 => some .imadw | 0x007 => some .idiv | 0x008 => some .irem | 0x009 => some .imin
  | 0x00a => some .imax | 0x00b => some .iabs | 0x00c => some .ineg | 0x00d => some .isetc | 0x00e => some .isel
  | 0x00f => some .lea | 0x010 => some .shl | 0x011 => some .shr | 0x012 => some .sar | 0x013 => some .rol
  | 0x014 => some .ror | 0x015 => some .xwin | 0x016 => some .andB | 0x017 => some .orB | 0x018 => some .xorB
  | 0x019 => some .andn | 0x01a => some .bfn3 | 0x01b => some .clz | 0x01c => some .ctz | 0x01d => some .popc
  | 0x01e => some .brev | 0x01f => some .bswap | 0x020 => some .bfe | 0x021 => some .bfi | 0x022 => some .pdep
  | 0x023 => some .pext | 0x024 => some .bperm | 0x025 => some .gf2mm | 0x026 => some .bysel | 0x027 => some .mov
  | 0x028 => some .movi | 0x029 => some .take | 0x02a => some .rget | 0x02b => some .rput | 0x040 => some .fadd
  | 0x041 => some .fsub | 0x042 => some .fmul | 0x043 => some .ffma | 0x044 => some .fmin | 0x045 => some .fmax
  | 0x046 => some .fsetc | 0x047 => some .fclass | 0x048 => some .frnd | 0x049 => some .fscale | 0x04a => some .fdot2
  | 0x04b => some .fdot4 | 0x04c => some .cvt | 0x04d => some .pack | 0x04e => some .unpack | 0x050 => some .rcp
  | 0x051 => some .rsq | 0x052 => some .sqrt | 0x053 => some .ex2 | 0x054 => some .lg2 | 0x055 => some .sinp
  | 0x056 => some .cosp | 0x057 => some .tanh | 0x058 => some .rred | 0x060 => some .lxch | 0x061 => some .poll
  | 0x062 => some .redux | 0x063 => some .fredux | 0x064 => some .scan | 0x065 => some .rdsys | 0x080 => some .bra
  | 0x081 => some .brx | 0x082 => some .call | 0x083 => some .callx | 0x084 => some .ret | 0x085 => some .exit
  | 0x086 => some .bmz | 0x087 => some .bmnz | 0x088 => some .maskp | 0x089 => some .maskr | 0x08a => some .land
  | 0x08b => some .sig | 0x08c => some .trap | 0x08d => some .nop | 0x08e => some .yield | 0x0a0 => some .ld
  | 0x0a1 => some .st | 0x0a2 => some .stash | 0x0a3 => some .unstash | 0x0a4 => some .flush | 0x0a5 => some .inval
  | 0x0a6 => some .pref | 0x0c0 => some .cpy | 0x0c1 => some .cpyl | 0x0c2 => some .cpys | 0x0c3 => some .cpyg
  | 0x0c4 => some .seal | 0x0c5 => some .waitb | 0x0c6 => some .bbinit | 0x0c7 => some .bbexp | 0x0c8 => some .bbarr
  | 0x0c9 => some .bbwait | 0x0d0 => some .mloop | 0x0d1 => some .mzero | 0x0d2 => some .mdrain | 0x0d3 => some .mdrainmx
  | 0x0d4 => some .mstat | 0x0e0 => some .ldacq | 0x0e1 => some .strel | 0x0e2 => some .atom | 0x0e3 => some .red
  | 0x0e4 => some .fence | 0x0e5 => some .bar | 0x0e6 => some .seamred | 0x0e7 => some .seambc | 0x0e8 => some .seamsend
  | 0x0e9 => some .seamrecv | 0x100 => some .ipref | 0x101 => some .ipin | 0x102 => some .iunpin | 0x103 => some .icinv
  | 0x110 => some .spl | 0x120 => some .rfe | 0x121 => some .mfs | 0x122 => some .mts | 0x123 => some .tlbinv
  | 0x124 => some .freeze | 0x125 => some .thaw | 0x126 => some .halt | 0x140 => some .ptest | 0x141 => some .pclr
  | 0x142 => some .lanekill | 0x143 => some .selftest
  | _ => none

/-- The length code of a format (R94). -/
def Fmt.lenCode : Fmt → BitVec 2
  | .a => 1 | .b => 2 | .c => 3

/-- Bytes of an instruction of the format (R93). -/
def Fmt.bytes : Fmt → Nat
  | .a => 8 | .b => 12 | .c => 16

end Sys2Proof
end

