-- ==== Sys2Proof/WellFormed.lean ====
section
/-! DEFINITION. Well-formedness of an instruction: the legality of R101-R115, from the table of Machine/Legal.lean. -/

namespace Sys2Proof

/-- An instruction is well formed: a Limov instruction obeys R101-R115; an unassigned opcode is one that R116 does not
assign, with the length code of its format and no bits beyond its length; the fields of the Encon instructions (R58,
R63) admit every value, and an event carries no encoding. -/
def Instr.wf (i : Instr) : Bool :=
  match i with
  | .unassignedOpcode f w =>
    (Op.ofCode ((w >>> 2).truncate 9)).isNone && w.truncate 2 == f.lenCode && w.toNat < 2 ^ (8 * f.bytes)
  | i =>
    match i.limov? with
    | some (o, x) => opsOk o x
    | none => true

end Sys2Proof
end

