-- ==== Sys2Proof/Decode.lean ====
section
/-! DEFINITION. Decoding of the bytes at a program counter (R94-R119), of the words of an Encon core (R58, R63), and the
encoder of both, written from the same tables of fields (R98-R100, R103, R109). -/

namespace Sys2Proof

/-- Bytes as one little-endian number (R2). -/
def leNat : List Byte → Nat
  | [] => 0
  | b :: bs => b.toNat + 256 * leNat bs

/-- The `n` low bytes of a number, the lowest first (R2). -/
def leBytes : Nat → Nat → List Byte
  | 0, _ => []
  | n + 1, v => BitVec.ofNat 8 v :: leBytes n (v / 256)

/-- The 12-bit field of an operand (R103). -/
def Opd.field : Opd → BitVec 12
  | .reg n p => (0 : BitVec 2) ++ n ++ p
  | .latch k p => (1 : BitVec 2) ++ (0 : BitVec 6) ++ k ++ p
  | .imm v => (2 : BitVec 2) ++ v
  | .full n _ _ => (3 : BitVec 2) ++ n ++ (0 : BitVec 2)

/-- PA or PB of an operand (R99, R109). -/
def Opd.pat : Opd → BitVec 8
  | .full _ c p => c ++ p
  | _ => 0

/-- The operand of a field and of the pattern byte beside it; none where R103 or R102 forbids it. -/
def Opd.ofField (f : BitVec 12) (pat : BitVec 8) : Option Opd :=
  match (f.extractLsb' 10 2).toNat with
  | 0 => if pat = 0 then some (.reg (f.extractLsb' 2 8) (f.extractLsb' 0 2)) else none
  | 1 =>
    if pat = 0 ∧ f.extractLsb' 4 6 = 0 then some (.latch (f.extractLsb' 2 2) (f.extractLsb' 0 2)) else none
  | 2 => if pat = 0 then some (.imm (f.extractLsb' 0 10)) else none
  | _ => if f.extractLsb' 0 2 = 0 then some (.full (f.extractLsb' 2 8) (pat.extractLsb' 5 3) (pat.extractLsb' 0 5)) else none

/-- Bits [63:0] of an instruction (R98). -/
def Ops.low (o : Op) (x : Ops) : BitVec 64 :=
  x.m ++ x.t.code ++ x.b.field ++ x.a.field ++ BitVec.ofBool x.pn ++ x.p ++ x.d ++ BitVec.ofBool x.live ++
    BitVec.ofBool x.w ++ o.code ++ x.fmt.lenCode

/-- The bits above SC in formats B and C: E, PB, PA, SC (R99, R100). -/
def Ops.high (x : Ops) : BitVec 32 := x.e ++ x.b.pat ++ x.a.pat ++ x.c.field

/-- The word of a Limov instruction, zero above its length (R98-R100). -/
def Ops.word (o : Op) (x : Ops) : BitVec 128 :=
  match x.fmt with
  | .a => (x.low o).zeroExtend 128
  | .b => (x.high ++ x.low o : BitVec 96).zeroExtend 128
  | .c => x.high ++ x.imm ++ x.low o

/-- The format of a length code (R94). -/
def Fmt.ofLen (c : BitVec 2) : Option Fmt :=
  match c.toNat with
  | 1 => some .a | 2 => some .b | 3 => some .c | _ => none

/-- The fields of a word of a format, none where a kind, a pattern byte or a type code is reserved (R103, R114). -/
def Ops.ofWord (f : Fmt) (w : BitVec 128) : Option Ops := do
  let hi : BitVec 32 :=
    match f with
    | .a => 0
    | .b => w.extractLsb' 64 32
    | .c => w.extractLsb' 96 32
  let a ← Opd.ofField (w.extractLsb' 28 12) (hi.extractLsb' 12 8)
  let b ← Opd.ofField (w.extractLsb' 40 12) (hi.extractLsb' 20 8)
  let c ← Opd.ofField (hi.extractLsb' 0 12) 0
  let t ← Ty.ofCode (w.extractLsb' 52 4)
  return { fmt := f, w := w.getLsbD 11, live := w.getLsbD 12, d := w.extractLsb' 13 8, p := w.extractLsb' 21 6
           pn := w.getLsbD 27, a := a, b := b, c := c, t := t, m := w.extractLsb' 56 8, e := hi.extractLsb' 28 4
           imm := if f = .c then w.extractLsb' 64 32 else 0 }

/-- What the bytes at a program counter are. -/
inductive Decoded where
  /-- A legal instruction, or an unassigned opcode (R117), and its format. -/
  | ok (i : Instr) (f : Fmt)
  /-- LEN = 00: not an instruction (R94). -/
  | noLength
  /-- The instruction crosses the window (R95). -/
  | straddle
  /-- A reserved or illegal field (R118 step 6), with the instruction's format and word. -/
  | illegal (f : Fmt) (w : BitVec 128)
deriving DecidableEq, Repr

/-- Decodes the word of a format (steps 5 and 6 of R118). -/
def decodeWord (f : Fmt) (w : BitVec 128) : Decoded :=
  match Op.ofCode (w.extractLsb' 2 9) with
  | none => .ok (.unassignedOpcode f w) f
  | some o =>
    match Ops.ofWord f w with
    | none => .illegal f w
    | some x => if opsOk o x then .ok (o.instr x) f else .illegal f w

/-- Decodes the bytes from a program counter to the end of its window (steps 3 to 6 of R118). -/
def decode (bs : List Byte) : Decoded :=
  match Fmt.ofLen ((bs.headD 0).extractLsb' 0 2) with
  | none => .noLength
  | some f =>
    if bs.length < f.bytes then .straddle
    else decodeWord f (BitVec.ofNat 128 (leNat (bs.take f.bytes)))

/-- The function code of a CSR instruction (R63, Zicsr). -/
def CsrOp.funct3 : CsrOp → BitVec 3
  | .rw => 1 | .rs => 2 | .rc => 3 | .rwi => 5 | .rsi => 6 | .rci => 7

/-- The CSR instruction of a function code. -/
def CsrOp.ofFunct3 (f : BitVec 3) : Option CsrOp :=
  match f.toNat with
  | 1 => some .rw | 2 => some .rs | 3 => some .rc | 5 => some .rwi | 6 => some .rsi | 7 => some .rci
  | _ => none

/-- What a 32-bit word of an Encon core is. -/
inductive EnconDecoded where
  /-- An Xencon instruction or an access to encsig. -/
  | ok (i : Instr)
  /-- A reserved custom-0 encoding: mcause 2 (R58). -/
  | illegal
  /-- An instruction of the base architecture that R57 names. -/
  | base
deriving DecidableEq, Repr

/-- The word of an Encon instruction (R58, R63). -/
def enconWord : Instr → Option (BitVec 32)
  | .qfetch rd rs1 => some ((0 : BitVec 12) ++ rs1 ++ (0 : BitVec 3) ++ rd ++ (0x0B : BitVec 7))
  | .bfxu rd rs1 pos len1 => some (len1 ++ pos ++ rs1 ++ (1 : BitVec 3) ++ rd ++ (0x0B : BitVec 7))
  | .swait rd rs1 rs2 => some ((0 : BitVec 7) ++ rs2 ++ rs1 ++ (2 : BitVec 3) ++ rd ++ (0x0B : BitVec 7))
  | .dispatch rd rs1 => some ((0 : BitVec 12) ++ rs1 ++ (3 : BitVec 3) ++ rd ++ (0x0B : BitVec 7))
  | .encsigWrite f rd src => some ((0x7C0 : BitVec 12) ++ src ++ f.funct3 ++ rd ++ (0x73 : BitVec 7))
  | _ => none

/-- Decodes a word of an Encon core (R58, R63). -/
def decodeEncon (w : BitVec 32) : EnconDecoded :=
  let rd := w.extractLsb' 7 5
  let rs1 := w.extractLsb' 15 5
  if w.extractLsb' 0 7 = 0x0B then
    match (w.extractLsb' 12 3).toNat with
    | 0 => if w.extractLsb' 20 12 = 0 then .ok (.qfetch rd rs1) else .illegal
    | 1 => .ok (.bfxu rd rs1 (w.extractLsb' 20 6) (w.extractLsb' 26 6))
    | 2 => if w.extractLsb' 25 7 = 0 then .ok (.swait rd rs1 (w.extractLsb' 20 5)) else .illegal
    | 3 => if w.extractLsb' 20 12 = 0 then .ok (.dispatch rd rs1) else .illegal
    | _ => .illegal
  else if w.extractLsb' 0 7 = 0x73 ∧ w.extractLsb' 20 12 = 0x7C0 then
    match CsrOp.ofFunct3 (w.extractLsb' 12 3) with
    | some f => .ok (.encsigWrite f rd rs1)
    | none => .base
  else .base

/-- The bytes of a well-formed instruction; an event has none. -/
def encode (i : Instr) : List Byte :=
  match i.limov? with
  | some (o, x) => leBytes x.fmt.bytes (x.word o).toNat
  | none =>
    match i with
    | .unassignedOpcode f w => leBytes f.bytes w.toNat
    | i =>
      match enconWord i with
      | some w => leBytes 4 w.toNat
      | none => []

/-- The four instruction words that tinst0-tinst3 record (R119). -/
def instrWord (i : Instr) : BitVec 128 := BitVec.ofNat 128 (leNat (encode i))

/-- The instruction that the decoder reads from the bits `w` of an instruction, zero above `nbits`: a 32-bit row is an
Encon instruction, a longer one a Limov instruction. -/
def decodeTableWord (nbits w : Nat) : Option Instr :=
  if nbits ≤ 32 then
    match decodeEncon (BitVec.ofNat 32 w) with
    | .ok i => some i
    | _ => none
  else
    match decode (leBytes 16 (w % 2 ^ nbits)) with
    | .ok i _ => some i
    | _ => none

end Sys2Proof
end

