-- ==== Sys2Proof/Config.lean ====
section
/-! DEFINITION. What an implementation fixes and the values that the spec leaves open: constants with no body, so that no
proof can see what they are. -/

namespace Sys2Proof

/-- Whose turn comes next (the MODEL's own, log entry 2): an event of the opcode table, an instruction of an Encon core,
the passage of cluster cycles, one of the environment's liberties, the early loss of a cached copy (R281, R137, R147,
R370, R372), a peer package's access to this wafer's memory (R375), or an error that a code cannot correct (R292, R446). -/
inductive Move where
  | event (i : Instr)
  | encon (core : Nat)
  | tick (cycles : Nat)
  | dropL1 (core line : Nat)
  | dropL2Copy (domain line : Nat)
  | sendCombined (domain line : Nat)
  | dropTlb (domain ctx unit : Nat)
  | dropCode (core ctx window : Nat)
  | peerLoad (line lease : Nat)
  | peerStore (pa : Nat) (bytes : List Byte)
  | galleyError (team sector : Nat)
  | l2Error (domain sector : Nat)
deriving DecidableEq, Repr

/-- The moves that come next where the agenda is empty (log entry 2). -/
opaque Config.freeMove : Nat → Option Move

/-- The word that a lane receives when its producer cannot deliver it (R172): an undefined value. -/
opaque Config.freeWord : Nat → Word

/-- What a special function unit delivers for input words (R249): used where it lies within the bound of R250, R252. -/
opaque Config.sfu : (op : Nat) → (r w : Word) → Word

/-- The bytes that the owner signs in a request to transfer ownership (R69). -/
opaque Config.transferText : List Byte

/-- The signature of the device's attestation key (R70). -/
opaque Config.attestSign : BitVec 384 → List Byte → BitVec 768

/-- The maker's public key that the boot ROM holds (R68). -/
opaque Config.makerKey : Nat

/-- The cores that the signed wafer map lists as defective; none where its signature fails (R78). -/
opaque Config.waferMap : Option (List Nat)

/-- The DRAM row that holds a burst of a domain (R450, R452). -/
opaque Config.dramRow : (domain offset : Nat) → Nat

/-- The mesh carries a request between two domains across a side of a domain that does not lie between them (R441). -/
opaque Config.crosses : (from_ to_ domain side : Nat) → Bool

/-- The set of an L2 that a line falls in (R362). -/
opaque Config.l2Set : (domain line : Nat) → Nat

end Sys2Proof
end

