-- ==== Sys2Proof/Machine/Map.lean ====
section
/-! DEFINITION. Finite maps from natural numbers, as lists of pairs with strictly rising keys: the one form in which
memory, register files and tables of the state are held. -/

namespace Sys2Proof.Machine

/-- Puts an element before the first of a list that it may stand before. -/
def insertBy {α : Type} (le : α → α → Bool) (a : α) : List α → List α
  | [] => [a]
  | b :: bs => if le a b then a :: b :: bs else b :: insertBy le a bs

/-- The list in rising order; elements that are equal in the order keep theirs. -/
def sortBy {α : Type} (le : α → α → Bool) : List α → List α
  | [] => []
  | a :: as => insertBy le a (sortBy le as)

/-- A finite map: pairs of a key and a value, the keys strictly rising. -/
abbrev Map (α : Type) := List (Nat × α)

variable {α β : Type}

/-- The value of a key. -/
def Map.find : Map α → Nat → Option α
  | [], _ => none
  | (k, v) :: m, a => if a = k then some v else Map.find m a

/-- Sets a key. -/
def Map.insert : Map α → Nat → α → Map α
  | [], a, v => [(a, v)]
  | (k, w) :: m, a, v =>
    if a < k then (a, v) :: (k, w) :: m
    else if a = k then (a, v) :: m
    else (k, w) :: Map.insert m a v

/-- Removes a key. -/
def Map.erase (m : Map α) (a : Nat) : Map α := m.filter (fun p => !(p.1 == a))

/-- The value of a key, or the default. -/
def Map.getD (m : Map α) (a : Nat) (d : α) : α := (Map.find m a).getD d

/-- Sets a key of a map whose unlisted keys hold `d`: a key that holds `d` is not listed. -/
def Map.put [DecidableEq α] (m : Map α) (a : Nat) (v d : α) : Map α :=
  if v = d then Map.erase m a else Map.insert m a v

/-- Changes the value of a listed key. -/
def Map.modify (m : Map α) (a : Nat) (f : α → α) : Map α :=
  m.map (fun p => if p.1 = a then (p.1, f p.2) else p)

/-- The keys are strictly rising. -/
def Map.sorted : Map α → Bool
  | [] => true
  | [_] => true
  | (k, _) :: (k', w) :: m => decide (k < k') && Map.sorted ((k', w) :: m)

/-- The canonical form of a map whose unlisted keys hold `d`. -/
def Map.wf [DecidableEq α] (m : Map α) (d : α) : Bool := Map.sorted m && m.all (fun p => decide (p.2 ≠ d))

/-- The keys, rising. -/
def Map.keys (m : Map α) : List Nat := m.map (fun p => p.1)

/-- A key is listed. -/
def Map.has (m : Map α) (a : Nat) : Bool := (Map.find m a).isSome

/-- The lowest number below `n` that is no key. -/
def Map.free (m : Map α) (n : Nat) : Option Nat := (List.range n).find? (fun k => !Map.has m k)

/-- Keeps the pairs that satisfy a test. -/
def Map.keep (m : Map α) (f : Nat → α → Bool) : Map α := m.filter (fun p => f p.1 p.2)

/-- Sets many keys in turn. -/
def Map.putAll [DecidableEq α] (m : Map α) (d : α) : List (Nat × α) → Map α
  | [] => m
  | (a, v) :: rest => Map.putAll (Map.put m a v d) d rest

end Sys2Proof.Machine
end

