-- ==== Sys2Proof/Machine/State.lean ====
section
/-! DEFINITION. The state of the machine, all of it plain data: time and turn, lanes and groups, teams, cores and slices,
memory and its copies, translation, the control region, launches, engines, the Encon complex and the reliability hardware;
and the state after reset. -/

namespace Sys2Proof.Machine

/-- Why the machine stops. -/
inductive Fault where
  /-- Raised by a Limov meaning when the state's turn names no valid split of a resident group: no step of the machine
  reaches such a state. Safe: the machine stops where the hardware has no such state. -/
  | noSplit
deriving DecidableEq, Repr

/-- Why an instruction has no meaning here. -/
inductive Refusal where
  /-- The arm of an instruction that is not modelled yet. Safe. -/
  | notModelled (mnemonic : String)
deriving DecidableEq, Repr

/-! ### Time and turn -/

/-- What has happened on a core in the present cluster cycle (R170, R325, R334): by group, the claim of which completions have
been applied (its order of allocation, plus 1); the copy or drain of which units have been counted (its order of issue, plus
1); the first slice that may still issue. -/
structure CoreTurn where
  claims : Map Nat := []
  units : Nat := 0
  slice : Nat := 0
deriving DecidableEq, Repr

/-- Cluster cycles since reset, the skew of each domain's wtime in ns (R1, R361), and what each core has done in the present
cycle. -/
structure Clk where
  cycle : Nat := 0
  skew : Map Nat := []
  turns : Map CoreTurn := []
deriving DecidableEq, Repr

/-- Whose instruction comes next (log entry 1). -/
inductive Cur where
  | idle
  | split (g e : Nat)
  | encon (k : Nat)
deriving DecidableEq, Repr

/-! ### Translation -/

/-- A leaf that passed R134: where it was found, its physical base and its attributes (R132). -/
structure Leaf where
  level : Nat
  va : Nat
  addr : Nat
  rd : Bool
  wr : Bool
  x : Bool
  hnd : Bool
  lease : Nat
  mem : Nat
  cls : Nat
  owner : Nat
  /-- DMASK of its stripe set as the walk read it (R135). -/
  stripe : Option (BitVec 64)
deriving DecidableEq, Repr

/-- What a translation resolves to (R139, R140). -/
inductive Xl where
  | leaf (l : Leaf)
  | notPresent (level : Nat)
  | classify
  | fatal (cause : Nat)
deriving DecidableEq, Repr

/-! ### Lanes, splits, claims -/

/-- ST of a split-table entry (R161). -/
inductive SplitSt where
  | ready | parked | waiting | heldEntry | heldRpc | handler
deriving DecidableEq, Repr

/-- The code of ST (R161). -/
def SplitSt.code : SplitSt → Nat
  | .ready => 0 | .parked => 1 | .waiting => 2 | .heldEntry => 3 | .heldRpc => 4 | .handler => 5

/-- The state of an ST code; 6 and 7 are reserved (R161). -/
def SplitSt.ofCode (n : Nat) : Option SplitSt :=
  match n with
  | 0 => some .ready | 1 => some .parked | 2 => some .waiting | 3 => some .heldEntry | 4 => some .heldRpc
  | 5 => some .handler | _ => none

/-- A trap about to be delivered: its cause and the values it records (R409, R415). -/
structure TrapRec where
  cause : Nat
  tpc : DWord
  tva : DWord
  tlanes : Lanes
  tmask : Lanes
  tinst : BitVec 128
deriving DecidableEq, Repr

/-- A message of the Seam engine: n words for each lane (key 96 × word + lane), R394. -/
structure SeamWords where
  n : Nat
  words : Map LW
deriving DecidableEq, Repr

/-- What a split that cannot issue waits for. -/
inductive Wait where
  | none
  /-- Registers that must become FULL, and registers whose hold must end (R169, R335). -/
  | regs (pend held : List Nat)
  /-- Walks that must resolve (R139). -/
  | walks (ids : List Nat)
  /-- Room in the walker's queue (R138). -/
  | walkRoom
  /-- The service of a fault entry, for a fetch, an IPIN or a frame access (R140, R415). -/
  | fault (entry : Nat)
  /-- The service of fault entries, one for each register target that waits (R267). -/
  | faults (entries : List Nat)
  | copySlot
  | platenSlot
  | seamSlot
  | ticket
  /-- Operations of a tile that must complete (R354). -/
  | tileOps (ids : List Nat)
  /-- Fewer than 63 sealed batches of a class (R329). -/
  | sealRoom (cls : Nat)
  /-- At most `n` sealed batches of a class (R330). -/
  | batches (cls n : Nat)
  /-- A phase of a byte barrier (R327). -/
  | byteBar (n : Nat) (ph : Bool)
  /-- A phase of a team barrier, the arrival counted (R392). -/
  | teamBar (n : Nat) (ph : Bool)
  /-- Steps 1 to 4 of a release at a scope, for accesses up to issue number `seq`; the words of a SEAMSEND (R365, R396). -/
  | release (scope seq : Nat) (msg : Option SeamWords)
  /-- What a FENCE of a kind at a scope waits for, for accesses up to issue number `seq` (R390): kinds 0 full, 1 acquire,
  2 release. -/
  | fence (scope seq kind : Nat)
  /-- An invalidation (R145, R156, R426). -/
  | inval (id : Nat)
  /-- Groups that must stop (R427). -/
  | freeze (gs : List Nat)
  /-- A handler bank of the slice, with the trap that waits for it (R418). -/
  | bank (t : TrapRec)
  /-- The service of a fault entry that holds an earlier store to the same bytes (R141). -/
  | behind (entry : Nat)
  /-- The service of a fault entry before a trap can be entered (R415). -/
  | trapFault (entry : Nat) (t : TrapRec)
  /-- An acquire load or a fence of the group that has not been performed (R366, R390). -/
  | acquire
  /-- An entry of the split table, for the instruction whose words stand here (R162, R164). -/
  | entry (inst : BitVec 128)
  /-- A unit test (R458). -/
  | selftest (unit : Nat) (d : BitVec 8) (act : Lanes)
deriving DecidableEq, Repr

/-- A window of code in a fetch buffer (R147). -/
structure CodeWin where
  ctx : Nat
  va : Nat
  bytes : List Byte
  mark : Bool
deriving DecidableEq, Repr

/-- An entry of the split table (R161), with the state kept beside it: parity (R161), signature word (R276), latch history
(R174, key 96 × entry + lane), what it waits for, the order in which it began to wait (R170), the translations it has
resolved (R139), the release it has done (R385), what it has waited for in BAR, BBWAIT,
MSTAT or SEAL (R327, R329, R354, R392: 0 nothing, else 1 or the class + 1), the breakpoint exemption (R421), the fetch buffer (R147), that it
was woken in the present cycle (R170), the words of the instruction that it takes again from step 8 of R118 (R169), the batch of
class 2 that its held SEAMSEND has joined (R400), and the lanes of a duplex pair that died while it was held, for which it traps at its next instruction
boundary (R448). -/
structure Split where
  pc : DWord := 0
  rpc : DWord := 0
  memb : Lanes := 0
  mask : Lanes := 0
  v : Bool := false
  st : SplitSt := .ready
  chain : Nat := 0
  lval : Nat := 0
  parMemb : Bool := false
  parMask : Bool := false
  sig : BitVec 16 := 0xFFFF
  latch : Map LW2 := []
  wait : Wait := .none
  waitSeq : Nat := 0
  xlat : List (Nat × Xl) := []
  relDone : Bool := false
  arrived : Nat := 0
  msg : Option SeamWords := none
  exempt : Bool := false
  fbuf : List CodeWin := []
  fresh : Bool := false
  inst : Option (BitVec 128) := none
  joined : Option Nat := none
  doomed : Lanes := 0
deriving DecidableEq, Repr

/-- A claim (R166, R167): the order of its ticket, its lane set, the lanes still outstanding, the lanes whose completion has not arrived,
and the register that each place of the claim delivers to (256 and up: frame slots v240-v255; none: discarded). -/
structure Claim where
  seq : Nat
  all : Lanes
  lanes : Lanes
  arriving : Lanes
  dests : List (Option Nat)
deriving DecidableEq, Repr

/-- The batches of one class of a group: operations not yet performed in the open batch and in each sealed batch that has
not completed, oldest first (R328). -/
structure Batches where
  opened : Nat := 0
  openOps : Nat := 0
  sealedOps : List (Nat × Nat) := []
deriving DecidableEq, Repr

/-- The A latch (R343). Words have key 96 × register + lane. -/
structure ALatch where
  t : Ty
  ks : Nat
  rows : Lanes
  words : Map LW
  scales : Map LW
  /-- The filling MLOOP names A scale registers. -/
  scaled : Bool
  poisoned : Bool
  /-- The filling MLOOP has read its last K-step. -/
  full : Bool
  /-- An MLOOP without `.reuse` has read its last K-step from the latch. -/
  ended : Bool
deriving DecidableEq, Repr

/-- Completion times of one store instruction of a group that are not yet known: lines still to complete at domain scope
and at wafer scope (R363). -/
structure StoreRec where
  pDom : Nat := 0
  pWafer : Nat := 0
deriving DecidableEq, Repr

/-- A group. Registers have key 96 × register + lane; unlisted words are zero and clean. `held1` is HELD as it stood before
level 2 (R420). -/
structure Group where
  team : Nat
  index : Nat
  role : Nat
  regs8 : Nat
  slice : Nat
  slot : Nat
  shed : Bool
  crit : Bool
  duplex : Bool
  splits : List Split
  rq : List Nat := [0]
  waitSeq : Nat := 0
  regs : Map LW := []
  pend : Map Nat := []
  claims : Map Claim := []
  claimSeq : Nat := 0
  holds : Map Nat := []
  dead : Lanes := 0
  exited : Lanes := 0
  lostst : Bool := false
  fflags : BitVec 32 := 0
  req : Nat := 0
  lvl : Nat := 0
  bank : Bool := false
  held : BitVec 4 := 0
  held1 : BitVec 4 := 0
  frozen : Bool := false
  tpc : DWord := 0
  tva : DWord := 0
  tcause : BitVec 32 := 0
  tinst : BitVec 128 := 0
  tlanes : Lanes := 0
  tmask : Lanes := 0
  hregs : Map LW := []
  hpend : Map Nat := []
  slots : Map Nat := []
  bat0 : Batches := {}
  bat1 : Batches := {}
  bat2 : Batches := {}
  bat3 : Batches := {}
  alatch : Option ALatch := none
  seq : Nat := 0
  stores : Map StoreRec := []
  tDom : Nat := 0
  tWafer : Nat := 0
  tSys : Nat := 0
  halfCycles : Nat := 0
  cyclesAt : Nat := 0
  issued : Bool := false
  retired : Bool := false
  stopped : Bool := false
deriving DecidableEq, Repr

/-! ### Teams -/

/-- A byte barrier (R324). -/
structure ByteBar where
  expb : Nat := 0
  arrb : Nat := 0
  expa : Nat := 0
  arra : Nat := 0
  ph : Bool := false
  psn : Bool := false
  plast : Bool := false
deriving DecidableEq, Repr

/-- A team barrier (R392). -/
structure TeamBar where
  ph : Bool := false
  arr : Nat := 0
  tgt : Nat := 0
deriving DecidableEq, Repr

/-- A line of a stash window that is not empty (R293): filled with a lease expiry, or partial; its dirty bytes. -/
structure WinLine where
  filled : Bool
  expiry : Nat
  dirty : BitVec 128
deriving DecidableEq, Repr

/-- An open stash window (R293). -/
structure Window where
  g : Nat
  va : Nat
  len : Nat
  lines : Map WinLine
deriving DecidableEq, Repr

/-- An accumulator tile (R332). Elements have key 64 × row + column. -/
structure Tile where
  elems : Map Word := []
  poison : Lanes := 0
  satc : Nat := 0
  nanb : Nat := 0
  ufc : Nat := 0
  kdone : Nat := 0
deriving DecidableEq, Repr

/-- The life of a team (R82-R92, R430, R472). -/
inductive TeamSt where
  /-- Sent to a domain dispatcher (R82). -/
  | inFlight
  /-- Its resources are reserved on its core. -/
  | reserved
  | started
  /-- Being pre-empted: stopped, its rebound tickets not all resolved (R430, R431). -/
  | stopping
  /-- Saved in a frame (R433). -/
  | saved
  /-- Ended with an error; waiting for its engines (R425). -/
  | terminated
  | retired
  | lost
deriving DecidableEq, Repr

/-- A team. Galley bytes and sector marks have team-relative keys (R290, R292). -/
structure Team where
  launch : Nat
  index : Nat
  domain : Nat
  core : Nat
  st : TeamSt
  galBase : Nat
  galley : Map Byte := []
  gmarks : Map Bool := []
  bbars : Map ByteBar := []
  tbars : Map TeamBar := []
  windows : Map Window := []
  tiles : Map Tile := []
  routes : Map (List Nat) := []
  ports : Map (List SeamWords) := []
  groups : List Nat := []
  plan : List (Nat × Nat) := []
  cause : Option Nat := none
  startSeq : Nat := 0
  frame : Option Nat := none
deriving DecidableEq, Repr

/-! ### Cores and slices -/

/-- An L1 line: its bytes by offset, its sector marks, its lease expiry (R281, R282, R361). -/
structure L1Line where
  bytes : Map Byte
  marks : BitVec 4
  expiry : Nat
deriving DecidableEq, Repr

/-- Performance counters of a core (R478). -/
structure Counters where
  cyc : Nat := 0
  inst : Nat := 0
  idle : Nat := 0
  wheld : Nat := 0
  kstep : Nat := 0
  kskip : Nat := 0
  cpyb : Nat := 0
  fqe : Nat := 0
deriving DecidableEq, Repr

/-- A core: STATE, ready bit, L1 lines by line number, instruction cache windows, counters (R77, R71, R147, R478). -/
structure Core where
  state : Nat := 3
  ready : Bool := false
  l1 : Map L1Line := []
  icache : List CodeWin := []
  ctr : Counters := {}
deriving DecidableEq, Repr

/-- A slice: allowance counter (R179), effective ratio (R181, R182), starvation counts by slot, slot
last served, chain holder, YIELD mark, owner of the last beat (R175-R178), lane spares left, and physical lanes that a spare replaces once the slice holds no group (R450). -/
structure Slice where
  c : Int := 512
  ratio : Nat := 0
  starve : Map Nat := []
  last : Nat := 7
  chain : Option (Nat × Nat) := none
  yield : Option Nat := none
  owner : Option Nat := none
  spares : Nat := 2
  swapped : List Nat := []
deriving DecidableEq, Repr

/-- Groups, teams, cores (key 72 × domain + core) and slices (key 6 × core key + slice). -/
structure Exe where
  groups : Map Group := []
  teams : Map Team := []
  cores : Map Core := []
  slices : Map Slice := []
  nextGroup : Nat := 0
  nextTeam : Nat := 0
  startSeq : Nat := 0
deriving DecidableEq, Repr

/-! ### Memory -/

/-- A byte run of one access: physical address, length, offset in the access, CLS and OWNER of its page. -/
structure Seg where
  pa : Nat
  len : Nat
  ofs : Nat
  cls : Nat
  owner : Nat
deriving DecidableEq, Repr

/-- One lane's access of a request: its address, its runs, attributes of its page, store data, the lines not yet performed,
what has been read (value and poisoned 4-byte words), the lease taken, the fault entry it is attached to, whether it has
completed. -/
structure LaneAcc where
  lane : Nat
  va : Nat
  segs : List Seg := []
  mem : Nat := 0
  lease : Nat := 0
  data : Nat := 0
  data2 : Nat := 0
  psn : Bool := false
  left : List Nat := []
  got : Nat := 0
  gotPsn : Nat := 0
  expiry : Nat := 0
  fault : Option Nat := none
  done : Bool := false
deriving DecidableEq, Repr

/-- What a request does. -/
inductive FKind where
  | load
  | store
  | atom
  | red
  | stashFill
deriving DecidableEq, Repr

/-- A store that waits for a completion time: its group and issue number, whether its domain completion is owed with the
wafer completion, and its arrival at the local L2 where it combined (R363). -/
structure StoreRef where
  g : Nat
  seq : Nat
  dom : Bool
  t : Nat := 0
deriving DecidableEq, Repr

/-- Completion state of one line of a store at its home (R362): probes not yet answered, the time so far, the stores whose
times it carries. -/
structure StLine where
  line : Nat
  probes : List Nat
  t : Nat
  refs : List StoreRef
deriving DecidableEq, Repr

/-- A request in flight. `op` is the operation of an atomic; 1 for a CPYG, whose words are poisoned one by one (R323); for a
copy-out the sectors of its line whose marks it clears (R314). -/
structure Flight where
  g : Nat := 0
  seq : Nat := 0
  core : Nat := 0
  kind : FKind
  size : Nat := 0
  sext : Bool := false
  op : Nat := 0
  ty : Ty := .n32
  scope : Nat := 1
  acq : Bool := false
  noAlloc : Bool := false
  ticket : Option Nat := none
  lanes : List LaneAcc := []
  performed : List StLine := []
  batch : Option (Nat × Nat) := none
  /-- The stash window line that a fill or write-back serves: team, window, line. -/
  win : Option (Nat × Nat × Nat) := none
  user : Bool := true
  ctx : Nat := 0
  /-- The galley load that a stash fill serves, and the galley offset of its line. -/
  parent : Option Nat := none
  galLine : Nat := 0
  /-- A write-back of pre-emption or retirement: its losses are every group's of the team (R296). -/
  all : Bool := false
  /-- The sectors that a store has not written in full with clean data, as a copy's (R303). -/
  secs : Map (BitVec 33) := []
deriving DecidableEq, Repr

/-- Combined bytes of a line in a domain's L2 (R372): the bytes and their mask, the sectors they poison and those they
clear (R303), the contributing cores, the wtimes of the first byte and of its flush, the registration (`reg`: 0 not sent,
1 sent, 2 acknowledged at `ackAt`), the stores and the batches that wait for it. -/
structure Comb where
  bytes : Map Byte := []
  mask : BitVec 128 := 0
  marks : BitVec 4 := 0
  clears : BitVec 4 := 0
  cores : BitVec 72 := 0
  first : Nat := 0
  limit : Nat := 0
  reg : Nat := 0
  ackAt : Nat := 0
  stores : List StoreRef := []
  batches : List (Nat × Nat × Nat) := []
deriving DecidableEq, Repr

/-- Sharers of a directory entry (R370). -/
inductive Sharers where
  | precise (ds : List Nat)
  | coarse (v : BitVec 8)
deriving DecidableEq, Repr

/-- A directory entry (R370). -/
structure DirEnt where
  sharers : Sharers
  writers : BitVec 64
  seq : Nat
deriving DecidableEq, Repr

/-- A probe on its way (R362): the domain probed, the line, the bytes written at home since it was sent, the request whose
completion it raises, the L2 answer once given, whether the partition's filter answers it (R371) and since when. -/
structure Probe where
  domain : Nat
  line : Nat
  written : BitVec 128
  req : Option Nat
  answer : Option Nat
  filter : Bool
  at_ : Nat
deriving DecidableEq, Repr

/-- Memory and its copies. Byte addresses are physical, 56 bits; lines are address / 128, sectors address / 32. L2 copies,
modified lines of private pages that their owner's L2 holds away from home (R374), combined bytes and lease times have
key 64 × line + domain; horizons 64 × set + domain. -/
structure Mem where
  bytes : Map Byte := []
  marks : Map Bool := []
  l2 : Map L1Line := []
  owned : Map L1Line := []
  lx : Map Nat := []
  horizon : Map Nat := []
  combs : Map Comb := []
  dir : Map DirEnt := []
  dirSeq : Nat := 0
  flights : Map Flight := []
  probes : Map Probe := []
  next : Nat := 0
deriving DecidableEq, Repr

/-! ### Translation structures and code -/

/-- A root entry (R129). -/
structure Root where
  root : Nat := 0
  en : Bool := false
  pinmax : Nat := 0
deriving DecidableEq, Repr

/-- Where a cached translation stands (R137). -/
inductive TlbAt where
  | data (core : Nat) | instr (core : Nat) | core (core : Nat) | domain (d : Nat)
deriving DecidableEq, Repr

/-- A cached leaf. -/
structure TlbEnt where
  at_ : TlbAt
  ctx : Nat
  leaf : Leaf
deriving DecidableEq, Repr

/-- A cached non-leaf entry of the walk cache: the table that `level` − 1 starts at (R137). -/
structure WalkEnt where
  domain : Nat
  ctx : Nat
  level : Nat
  va : Nat
  table : Nat
deriving DecidableEq, Repr

/-- A walk in progress (R138), and whether an invalidation of its range has begun since (R145). Its requesters are the
splits that wait for it; `reqs` counts them. -/
structure Walk where
  domain : Nat
  ctx : Nat
  unit : Nat
  stale : Bool
  reqs : Nat := 1
deriving DecidableEq, Repr

/-- A request held on a recoverable fault (R140, R141). -/
inductive AReq where
  | lane (flight lane : Nat)
  | split (g e : Nat)
  | copy (id : Nat)
  /-- Completions bound for the frame slots of a group (R415). -/
  | slot (g : Nat)
deriving DecidableEq, Repr

/-- A fault entry that awaits service: its page, its slot in the context's queue once written, its requests in order of
attachment (R141, R428). `cls` marks an entry of firmware's classification queue (R483). -/
structure FaultEnt where
  ctx : Nat
  page : Nat
  fetch : Bool
  cls : Bool
  slot : Option Nat
  rd : Bool
  wr : Bool
  x : Bool
  domain : Nat
  core : Nat
  level : Nat
  va : Nat
  team : Nat
  reqs : List AReq
deriving DecidableEq, Repr

/-- An invalidation in progress (R143-R145, R156, R426). -/
structure Inval where
  ctx : Nat
  all : Bool
  first : Nat
  count : Nat
  domains : BitVec 64
  icache : Bool
  /-- SEQ of a driver invalidation. -/
  seq : Option (BitVec 32)
  /-- The number of the first request that it does not wait for, and the stores, by group and issue number, that it does. -/
  began : Nat
  stores : List (Nat × Nat)
deriving DecidableEq, Repr

/-- A pin of a domain's pin table (R149). -/
structure Pin where
  domain : Nat
  win : CodeWin
deriving DecidableEq, Repr

/-- Translation and code residency. -/
structure Tr where
  roots : Map Root := []
  stripes : Map (BitVec 64) := []
  tlb : List TlbEnt := []
  walkCache : List WalkEnt := []
  walks : Map Walk := []
  faults : Map FaultEnt := []
  invals : Map Inval := []
  invCtx : BitVec 16 := 0
  invAll : Bool := false
  invIc : Bool := false
  invVa : BitVec 41 := 0
  invN : BitVec 32 := 0
  invSeq : BitVec 32 := 0
  invBusy : Bool := false
  pins : List Pin := []
  /-- Firmware's classification queue: the entries that await service, and how many it has been given (R428, R483). -/
  fwQueue : Map (BitVec 256) := []
  fwTail : BitVec 32 := 0
  next : Nat := 0
deriving DecidableEq, Repr

/-! ### The control region -/

/-- A submission queue (R43). -/
structure Queue where
  base : Nat := 0
  log2n : Nat := 0
  prio : Nat := 0
  en : Bool := false
  ctx : Nat := 0
  tail : BitVec 32 := 0
  head : BitVec 32 := 0
  acc : BitVec 32 := 0
  err : Nat := 0
deriving DecidableEq, Repr

/-- Readiness of a domain (R71). -/
structure DomReady where
  disp : Bool := false
  walk : Bool := false
  l2 : Bool := false
  dram : Bool := false
  border : BitVec 4 := 0
  lost : Bool := false
deriving DecidableEq, Repr

/-- A context's trap block (R410). -/
structure TrapBlk where
  tbase : BitVec 64 := 0
  fbase : BitVec 64 := 0
  savebase : BitVec 56 := 0
  savesize : BitVec 32 := 0
  fqbase : BitVec 56 := 0
  fqlog2n : BitVec 5 := 0
  fqen : Bool := false
  fqtail : BitVec 32 := 0
  fqdone : BitVec 32 := 0
  brken : Bool := false
  brkpc : BitVec 62 := 0
deriving DecidableEq, Repr

/-- A fence word (R442). -/
structure Fence where
  fenced : Bool := false
  why : Nat := 0
  wfence : Nat := 0
deriving DecidableEq, Repr

/-- The power block of a domain (R479) and the manager's history: the settings it may undo, newest first (R480), and since
when the domain has been at 105 °C or above (R482). -/
structure Power where
  refill : Nat := 4
  cap : Nat := 512
  shedlvl : Nat := 0
  dceil : Nat := 2
  tact : Nat := 16
  pcap : Nat := 600
  pwr : Nat := 0
  tj : Nat := 0
  undo : List (Nat × Nat × Nat) := []
  hotSince : Option Nat := none
  steppedAt : Nat := 0
deriving DecidableEq, Repr

/-- A notification entry that waits in Encon (R477). -/
structure Notify where
  lseq : Nat
  tag : BitVec 32
  status : Nat
  queue : Nat
  rlost : Bool
  quire : Bool
  /-- The request that writes the completion record. -/
  req : Option Nat
deriving DecidableEq, Repr

/-- A log ring: entries as 128-bit values by index, and HEAD (R452). -/
structure LogRing where
  ents : Map (BitVec 128) := []
  head : Nat := 0
deriving DecidableEq, Repr

/-- The device control region. -/
structure Ctl where
  queues : Map Queue := []
  dom : Map DomReady := []
  memp : BitVec 16 := 0
  enc : BitVec 8 := 0
  host : Bool := false
  scale : BitVec 64 := 0
  parts : Map (BitVec 64) := []
  partErr : Nat := 0
  partOf : Map Nat := []
  trap : Map TrapBlk := []
  rcap : Map Nat := []
  cflush : Nat := 4
  fenceD : Map Fence := []
  fenceP : Map Fence := []
  ckDest : BitVec 56 := 0
  ckMask : BitVec 64 := 0
  ckBusy : Bool := false
  ckCmd : Nat := 0
  ckResult : Nat := 0
  ckDone : Nat := 0
  /-- The wtime that the completion times of a restore's stores reach (R453). -/
  ckT : Nat := 0
  nrbase : BitVec 56 := 0
  nrlog2n : BitVec 5 := 0
  nren : Bool := false
  nrvec : BitVec 11 := 0
  nrcoal : BitVec 16 := 0
  nrtail : BitVec 32 := 0
  nrhead : BitVec 32 := 0
  waiting : List Notify := []
  /-- Entries written since the last message, the wtime of the last message, messages sent (R477). -/
  unsent : Nat := 0
  lastMsg : Option Nat := none
  msgs : Nat := 0
  power : Map Power := []
  coolantOut : Bool := false
  arrayLog : Map LogRing := []
  vertLog : Map LogRing := []
  attest : List (BitVec 512) := []
  nonce : BitVec 384 := 0
  attestSig : BitVec 768 := 0
deriving DecidableEq, Repr

/-! ### Work -/

/-- A role of a forme (R23). -/
structure Role where
  entry : Nat
  groups : Nat
  regs8 : Nat
  narg : Nat
  argofs : Nat
  shed : Bool
  crit : Bool
deriving DecidableEq, Repr

/-- A forme as its fields (R22, R23, R33). -/
structure Forme where
  ver : Nat
  nrole : Nat
  nql : Nat
  tailovl : Bool
  cor : Bool
  quire : Bool
  qmem : Bool
  duplex : Bool
  rsv : Bool
  notify : Bool
  region : Bool
  ctx : Nat
  tag : BitVec 32
  gx : Nat
  gy : Nat
  gz : Nat
  galley : Nat
  bbars : Nat
  acc : Nat
  crec : Nat
  hmode : Nat
  hhard : Bool
  hbase : Nat
  htpd : Nat
  htab : Nat
  routes : Nat
  nroute : Nat
  orgx : Nat
  orgy : Nat
  regw : Nat
  regh : Nat
  qlinks : List Nat
  roles : List Role
  args : List (BitVec 32)
deriving DecidableEq, Repr

/-- A launch: a forme's, or a sub-launch of a quire (`head` names the head's launch, `sub` the index, `bodies` a head's
bodies). -/
structure Launch where
  queue : Nat
  slot : BitVec 32
  prio : Nat
  forme : Forme
  head : Nat
  sub : Nat
  bodies : List Nat
  /-- Teams that are not unplaced: sent, placed or ended. -/
  sent : Map Bool := []
  /-- The cycle in which each team was first considered (waited, R82). -/
  seen : Map Nat := []
  hints : List Nat := []
  routeTab : List (Nat × Nat × List Nat) := []
  invalid : Option Nat := none
  cause : Option Nat := none
  qfail : Option Nat := none
  cancelled : Bool := false
  /-- The checks that are made at placement have been made (R35). -/
  checked : Bool := false
  nlost : Nat := 0
  wstart : Nat := 0
  started : Bool := false
  retired : Bool := false
  recorded : Bool := false
  rlost : Bool := false
  status : Nat := 0
deriving DecidableEq, Repr

/-- A save frame: the team it holds and its extent in the context's pool, and what the layout of R433 leaves to firmware. -/
structure SaveFrame where
  ctx : Nat
  base : Nat
  size : Nat
  team : Team
  groups : List (Nat × Group)
  requests : List Nat
deriving DecidableEq, Repr

/-- Launches, with key 8 × sequence number + index in the quire (R64, R13), the next sequence number, the queue last served
of each priority and the gathering unit (R82, R87), save frames by team. -/
structure Work where
  launches : Map Launch := []
  next : Nat := 1
  rr : Map Nat := []
  gathering : Option Nat := none
  frames : Map SaveFrame := []
  emptying : List (Nat × Nat × Nat) := []
deriving DecidableEq, Repr

/-! ### Engines -/

/-- The extent of a copy (R318, R320). -/
inductive CopyKind where
  /-- CPY and CPYS: N0, N1, N2, S1, S2, G1, G2. -/
  | rows (out : Bool) (va : Nat) (n0 n1 n2 : Nat) (s1 s2 : Int) (g1 g2 : Nat)
  /-- CPYL: the record's fields and the tap. -/
  | layout (img wid hgt : Nat) (ox oy : Int) (ow oh sx sy cb ps pad rs : Nat) (kx ky : Int)
deriving DecidableEq, Repr

/-- A copy in the engine (R312-R322). -/
structure Copy where
  g : Nat
  team : Nat
  core : Nat
  seq : Nat
  cls : Nat
  batch : Nat
  bb : Option Nat
  gal : Nat
  kind : CopyKind
  total : Nat
  done : Nat
  suspended : Option Nat
  /-- Destination sectors that the copy has not written in full with clean data: the bytes written, and bit 32 where one
  was poisoned (R314). -/
  secs : Map (BitVec 33) := []
  user : Bool
  ctx : Nat
deriving DecidableEq, Repr

/-- An MLOOP in the Platen's queue (R336-R343): element types of A and B, first A register and register step, first A scale
register (0: unit scales), B offset and increment, B scale offset (none: unit scales), K-steps, whether A comes from the
latch, the gate's barrier and phase, how the gate's phase ended once it is released (poisoned or not), K-steps done. -/
structure MLoop where
  ta : Ty
  tb : Ty
  d : Nat
  astr : Nat
  sb : Nat
  b0 : Nat
  binc : Nat
  bs : Option Nat
  ks : Nat
  reuse : Bool
  fromLatch : Bool
  gate : Option (Nat × Bool)
  opened : Option Bool
  step : Nat
  user : Bool
deriving DecidableEq, Repr

/-- A drain in the Platen's queue (R350-R353): the MX type of MDRAINMX, `.z`, the ticket of the register form; offsets, row
size, barrier, batch of the galley form; once the tile is read, its bytes in drain order; units counted, destination
sectors (R314). -/
structure Drain where
  mx : Option Ty
  z : Bool
  ticket : Option Nat
  g : Nat
  sg : Nat
  rs : Nat
  bb : Option Nat
  batch : Nat
  buf : Option (List (Nat × Byte × Bool))
  unit : Nat
  secs : Map (BitVec 33)
deriving DecidableEq, Repr

/-- What a Platen operation does. -/
inductive PKind where
  | mloop (m : MLoop)
  | mzero
  | drain (d : Drain)
deriving DecidableEq, Repr

/-- A Platen operation (R334). -/
structure POp where
  g : Nat
  team : Nat
  core : Nat
  tile : Nat
  rows : Lanes
  seq : Nat
  kind : PKind
deriving DecidableEq, Repr

/-- A waiting operation of a Seam engine (R397-R399). -/
inductive SKind where
  | sred (t : Ty) (op : Nat) (x : SeamWords) (route port : Nat)
  | sbc (keep : Bool) (n : Nat) (route port : Nat)
  | recv (ticket : Option Nat) (n : Nat) (acq : Bool) (gseq : Nat)
deriving DecidableEq, Repr

/-- A Seam operation that waits for the next message of a port. -/
structure SeamOp where
  g : Nat
  team : Nat
  port : Nat
  seq : Nat
  batch : Option Nat
  kind : SKind
deriving DecidableEq, Repr

/-- A message on its way (R395). -/
structure SeamMsg where
  g : Nat
  team : Nat
  route : Nat
  dest : Option Nat
  port : Nat
  seq : Nat
  batch : Option Nat
  body : SeamWords
deriving DecidableEq, Repr

/-- The engines of all cores. -/
structure Eng where
  copies : Map Copy := []
  pops : Map POp := []
  sops : Map SeamOp := []
  smsgs : Map SeamMsg := []
  next : Nat := 0
deriving DecidableEq, Repr

/-! ### Encon -/

/-- A forme buffer that holds a forme: its bytes, and the queue and slot it was fetched from (R57, R60). -/
structure FBuf where
  bytes : List Byte
  queue : Nat
  slot : BitVec 32
  /-- The queue has been cancelled since (R48). -/
  cancelled : Bool := false
deriving DecidableEq, Repr

/-- An SWAIT in progress: mask, wtime of the timeout, rd (R62). -/
structure Swait where
  mask : BitVec 16
  until_ : Option Nat
  rd : BitVec 5
deriving DecidableEq, Repr

/-- An Encon core. Registers x1-x31 by number; unlisted registers are zero. -/
structure EnCore where
  x : Map (BitVec 64) := []
  pc : BitVec 64 := 0
  machine : Bool := true
  mepc : BitVec 64 := 0
  mcause : BitVec 64 := 0
  mtval : BitVec 64 := 0
  mtvec : BitVec 64 := 0
  mstatus : BitVec 64 := 0
  mscratch : BitVec 64 := 0
  mie : BitVec 64 := 0
  /-- The doubleword that LR has reserved. -/
  resv : Option Nat := none
  sigs : BitVec 16 := 0
  swait : Option Swait := none
  bufs : Map FBuf := []
deriving DecidableEq, Repr

/-- A firmware image that has been loaded (R67, R68). -/
structure Image where
  kind : BitVec 8
  seq : BitVec 64
  entry : BitVec 64
deriving DecidableEq, Repr

/-- The Encon complex. -/
structure En where
  cores : Map EnCore := []
  mem : Map Byte := []
  ownerKey : Option (BitVec 768) := none
  ownerNext : Option (BitVec 768) := none
  /-- An ownership transfer is to be followed by erasure (R69). -/
  erase : Bool := false
  minSeq : Map (BitVec 64) := []
  images : List Image := []
deriving DecidableEq, Repr

/-! ### Reliability -/

/-- What one switch knows of a node beyond it: the wtime of the last heartbeat, since when there has been no gap, silence (R439, R442). -/
structure Beat where
  last : Nat := 0
  since : Nat := 0
  silent : Bool := false
deriving DecidableEq, Repr

/-- Reliability state: heartbeats (key 64 × node + switch: the side of a domain, the port of a peer), failed links (domain and side), the vertical lanes that spares have replaced by channel
(key 32 × domain + channel; the first has lane 72, the second 73), retired L2 ways, remapped DRAM rows, errors logged for a
row (key 64 × row + domain), and the groups that a checkpoint has stopped (R439-R453). -/
structure Rel where
  beatD : Map Beat := []
  beatP : Map Beat := []
  links : List (Nat × Nat) := []
  spares : Map (List Nat) := []
  ways : List (Nat × Nat) := []
  rows : List (Nat × Nat) := []
  rowErrs : Map Nat := []
  ckFrozen : List Nat := []
deriving DecidableEq, Repr

/-! ### The machine -/

/-- One write of memory by a step: physical address, byte. -/
abbrev MWrite := Nat × Byte

/-- The host port: the bytes that it answered last to a read over CXL.mem, with their poison, and the line of the last snoop
that it answered (R375). -/
structure HostPort where
  read : List (Byte × Bool) := []
  snooped : Option Nat := none
deriving DecidableEq, Repr

/-- The state of the machine. `cur`, `agenda` and `free` are the model's own (log entries 1, 2): whose instruction comes
next, the moves that come next, and the counter that free values are applied to. `wlog` collects the bytes that a step
writes to memory, newest first; it is empty between steps. -/
structure State where
  clk : Clk := {}
  cur : Cur := .idle
  agenda : List Move := []
  free : Nat := 0
  ms : Mem := {}
  wlog : List MWrite := []
  tr : Tr := {}
  ct : Ctl := {}
  wk : Work := {}
  exe : Exe := {}
  eng : Eng := {}
  en : En := {}
  rb : Rel := {}
  hp : HostPort := {}
deriving DecidableEq, Repr

/-- The machine right after module reset: every register at the value the spec gives for reset, and at the value of the log
entries 3 to 11 where it gives none. Nothing is placed and no firmware is loaded. -/
def State.reset : State := {}

end Sys2Proof.Machine
end

