-- ==== Sys2Proof/Machine/Access.lean ====
section
/-! DEFINITION. The accessors of the state: groups, splits, teams, cores and slices, wafer time, memory bytes and sector
marks, and the registers of a group. Every read and write of these goes through here. -/

namespace Sys2Proof.Machine

/-! ### Groups, splits, teams, cores, slices -/

/-- A group by its number. -/
def State.grp (s : State) (g : Nat) : Option Group := Map.find s.exe.groups g

/-- Replaces a group. -/
def State.setGrp (s : State) (g : Nat) (G : Group) : State :=
  { s with exe := { s.exe with groups := Map.insert s.exe.groups g G } }

/-- Changes a group that exists. -/
def State.modGrp (s : State) (g : Nat) (f : Group → Group) : State :=
  match s.grp g with
  | some G => s.setGrp g (f G)
  | none => s

/-- A team by its number. -/
def State.tm (s : State) (t : Nat) : Option Team := Map.find s.exe.teams t

/-- Replaces a team. -/
def State.setTm (s : State) (t : Nat) (T : Team) : State :=
  { s with exe := { s.exe with teams := Map.insert s.exe.teams t T } }

/-- Changes a team that exists. -/
def State.modTm (s : State) (t : Nat) (f : Team → Team) : State :=
  match s.tm t with
  | some T => s.setTm t (f T)
  | none => s

/-- The key of a core: 72 × domain + core. -/
def coreKey (d c : Nat) : Nat := 72 * d + c

/-- A core; at reset every core is as the table of R77 says. -/
def State.coreAt (s : State) (k : Nat) : Core := Map.getD s.exe.cores k {}

/-- Changes a core. -/
def State.modCore (s : State) (k : Nat) (f : Core → Core) : State :=
  { s with exe := { s.exe with cores := Map.put s.exe.cores k (f (s.coreAt k)) {} } }

/-- The key of a slice. -/
def sliceKey (core sl : Nat) : Nat := 6 * core + sl

/-- A slice. -/
def State.sliceAt (s : State) (k : Nat) : Slice := Map.getD s.exe.slices k {}

/-- Changes a slice. -/
def State.modSlice (s : State) (k : Nat) (f : Slice → Slice) : State :=
  { s with exe := { s.exe with slices := Map.put s.exe.slices k (f (s.sliceAt k)) {} } }

/-- A launch. -/
def State.launch (s : State) (l : Nat) : Option Launch := Map.find s.wk.launches l

/-- Changes a launch that exists. -/
def State.modLaunch (s : State) (l : Nat) (f : Launch → Launch) : State :=
  { s with wk := { s.wk with launches := Map.modify s.wk.launches l f } }

/-- The core key of a team. -/
def Team.coreKey (T : Team) : Nat := Machine.coreKey T.domain T.core

/-- An entry of the split table. -/
def Group.sp (G : Group) (e : Nat) : Split := G.splits.getD e {}

/-- Even parity over a 96-bit field (R161). -/
def parity (m : Lanes) : Bool := (List.range 96).foldl (fun p j => p != m.getLsbD j) false

/-- Sets MEMB and MASK of an entry together with their parity bits (R161). -/
def Split.setLanes (sp : Split) (memb mask : Lanes) : Split :=
  { sp with memb := memb, mask := mask, parMemb := parity memb, parMask := parity mask }

/-- Sets MASK of an entry together with its parity bit (R161). -/
def Split.setMask (sp : Split) (mask : Lanes) : Split := { sp with mask := mask, parMask := parity mask }

/-- Replaces an entry of the split table; a table that ends before it is made longer. -/
def Group.setSp (G : Group) (e : Nat) (sp : Split) : Group :=
  { G with splits := (G.splits ++ List.replicate (e + 1 - G.splits.length) ({} : Split)).set e sp }

/-- Changes an entry of the split table. -/
def Group.modSp (G : Group) (e : Nat) (f : Split → Split) : Group := G.setSp e (f (G.sp e))

/-- The valid entries in increasing number. -/
def Group.valid (G : Group) : List Nat := (List.range 4).filter (fun e => (G.sp e).v)

/-- An entry is held for the handler (R413). -/
def Group.isHeld (G : Group) (e : Nat) : Bool := G.held.getLsbD e

/-- The forme of a team's launch. -/
def State.formeOf (s : State) (T : Team) : Option Forme := (s.launch T.launch).map (fun l => l.forme)

/-- The context of a team. -/
def State.ctxOf (s : State) (T : Team) : Nat := ((s.formeOf T).map (fun f => f.ctx)).getD 0

/-- The byte barriers a team has (R26). -/
def State.bbarsOf (s : State) (T : Team) : Nat := ((s.formeOf T).map (fun f => f.bbars)).getD 0

/-- The tiles a team has (R26). -/
def State.accOf (s : State) (T : Team) : Nat := ((s.formeOf T).map (fun f => f.acc)).getD 0

/-- T of a forme (R24). -/
def Forme.galSize (f : Forme) : Nat := (16 * f.bbars + 511) / 512 * 512 + 512 * f.galley

/-- T of a team (R24). -/
def State.galSizeOf (s : State) (T : Team) : Nat := ((s.formeOf T).map Forme.galSize).getD 0

/-- A context's trap block (R410). -/
def State.trapBlk (s : State) (ctx : Nat) : TrapBlk := Map.getD s.ct.trap ctx {}

/-- Changes a context's trap block. -/
def State.modTrapBlk (s : State) (ctx : Nat) (f : TrapBlk → TrapBlk) : State :=
  { s with ct := { s.ct with trap := Map.put s.ct.trap ctx (f (s.trapBlk ctx)) {} } }

/-- Readiness of a domain (R71). -/
def State.domReady (s : State) (d : Nat) : DomReady := Map.getD s.ct.dom d {}

/-- A domain is fenced (R442). -/
def State.fencedD (s : State) (d : Nat) : Bool := (Map.getD s.ct.fenceD d {}).fenced

/-- A peer package is fenced (R442). -/
def State.fencedP (s : State) (p : Nat) : Bool := (Map.getD s.ct.fenceP p {}).fenced

/-- The partition of a context; 0xFF is none (R80, log entry 8). -/
def State.partOfCtx (s : State) (ctx : Nat) : Nat := Map.getD s.ct.partOf ctx 0xFF

/-- The domains of a context's partition (R80). -/
def State.domainsOf (s : State) (ctx : Nat) : BitVec 64 :=
  if s.partOfCtx ctx < 16 then Map.getD s.ct.parts (s.partOfCtx ctx) 0 else 0

/-- The partition that holds a domain (R76). -/
def State.partOfDomain (s : State) (d : Nat) : Option Nat :=
  (List.range 16).find? (fun p => (Map.getD s.ct.parts p 0).getLsbD d)

/-- wtime of a domain: 1 ns is 3/2 cluster cycles (R1, R5), with the domain's skew. -/
def State.wtime (s : State) (d : Nat) : Nat := s.clk.cycle * 2 / 3 + Map.getD s.clk.skew d 0

/-- wtime at a core. -/
def State.wtimeCore (s : State) (k : Nat) : Nat := s.wtime (k / 72)

/-! ### The order of events within a cluster cycle (R170, R325, R334) -/

/-- What has happened on a core in the present cycle. -/
def State.turnAt (s : State) (k : Nat) : CoreTurn := Map.getD s.clk.turns k {}

/-- Changes what has happened on a core in the present cycle. -/
def State.modTurn (s : State) (k : Nat) (f : CoreTurn → CoreTurn) : State :=
  { s with clk := { s.clk with turns := Map.put s.clk.turns k (f (s.turnAt k)) {} } }

/-- A slice may issue in the present cycle: it has not yet, and no slice above it has (R334, R395). -/
def State.mayIssue (s : State) (k sl : Nat) : Bool := decide ((s.turnAt k).slice ≤ sl)

/-- A slice has issued in the present cycle. -/
def State.noteIssue (s : State) (k sl : Nat) : State := s.modTurn k (fun t => { t with slice := sl + 1 })

/-- Completions of a claim may be applied in the present cycle: no slice of the core has issued, and no later claim of the
group has been served (R170). -/
def State.mayComplete (s : State) (k g seq : Nat) : Bool :=
  decide ((s.turnAt k).slice = 0) && decide (Map.getD (s.turnAt k).claims g 0 ≤ seq + 1)

/-- Completions of a claim are applied in the present cycle. -/
def State.noteComplete (s : State) (k g seq : Nat) : State :=
  s.modTurn k (fun t => { t with claims := Map.put t.claims g (seq + 1) 0 })

/-- A unit of a copy or a drain may be counted in the present cycle: no slice of the core has issued, and none that issued
later has been counted (R325). -/
def State.mayCount (s : State) (k id : Nat) : Bool :=
  decide ((s.turnAt k).slice = 0) && decide ((s.turnAt k).units ≤ id + 1)

/-- A unit of a copy or a drain is counted in the present cycle. -/
def State.noteCount (s : State) (k id : Nat) : State := s.modTurn k (fun t => { t with units := id + 1 })

/-- The next free value (log entry 2 and the entries of each free value). -/
def State.draw (s : State) : Word × State := (Config.freeWord s.free, { s with free := s.free + 1 })

/-- `n` free values at once: the i-th is that of counter value `free` + i. -/
def State.draws (s : State) (n : Nat) : (Nat → Word) × State :=
  (fun i => Config.freeWord (s.free + i), { s with free := s.free + n })

/-! ### Physical memory -/

/-- The newest logged write of an address. -/
def logFind : List MWrite → Nat → Option Byte
  | [], _ => none
  | (a, b) :: w, pa => if pa = a then some b else logFind w pa

/-- What a byte of memory reads as that nothing has written (log entry 6). -/
abbrev Memory.unlisted : Byte := 0

/-- The canonical form of memory: addresses strictly rising, and no entry equal to what an unlisted address reads as. -/
abbrev Memory.wf (m : Map Byte) : Bool := Map.wf m Memory.unlisted

/-- The byte of memory at a physical address: what this step has written, else what memory holds. -/
def State.mb (s : State) (pa : Nat) : Byte := (logFind s.wlog pa).getD (Map.getD s.ms.bytes pa Memory.unlisted)

/-- Writes one byte. -/
def State.putB (s : State) (pa : Nat) (b : Byte) : State := { s with wlog := (pa, b) :: s.wlog }

/-- Writes bytes at rising addresses. -/
def State.putBs (s : State) (pa : Nat) : List Byte → State
  | [] => s
  | b :: bs => State.putBs (s.putB pa b) (pa + 1) bs

/-- Applies logged writes to a memory, the oldest first. -/
def Memory.apply (m : Map Byte) : List MWrite → Map Byte
  | [] => m
  | (a, b) :: w => Map.put (Memory.apply m w) a b Memory.unlisted

/-- The bytes of `n` addresses. -/
def State.mbs (s : State) (pa n : Nat) : List Byte := (List.range n).map (fun i => s.mb (pa + i))

/-- A little-endian number of `n` bytes. -/
def State.mNat (s : State) (pa n : Nat) : Nat := leNat (s.mbs pa n)

/-- The poison mark of the sector that holds an address (R281). -/
def State.mark (s : State) (pa : Nat) : Bool := Map.getD s.ms.marks (pa / 32) false

/-- Sets the mark of a sector. -/
def State.setMark (s : State) (sector : Nat) (b : Bool) : State :=
  { s with ms := { s.ms with marks := Map.put s.ms.marks sector b false } }

/-- The region of a physical address (R283). -/
def paRegion (pa : Nat) : Nat := pa / 2 ^ 52

/-- The domain that is home to a physical address of region 0 or 1 (R283, R284). -/
def homeOf (pa : Nat) : Option Nat :=
  match paRegion pa with
  | 0 => some (pa / 2 ^ 37 % 64)
  | 1 =>
    let p := pa / 4096 % 16
    some (if p < 8 then p else 48 + p)
  | _ => none

/-- A physical address lies in a fenced range, apart from the pages that a fenced domain owns (R440). -/
def State.fencedPa (s : State) (pa : Nat) : Bool :=
  match homeOf pa with
  | some d => s.fencedD d
  | none => paRegion pa = 3 && s.fencedP (pa / 2 ^ 44 % 256)

/-- An address of a page with its owner lies in a fenced range (R440). -/
def State.fencedAcc (s : State) (pa cls owner : Nat) : Bool :=
  s.fencedPa pa || (cls = 1 && s.fencedD owner && (homeOf pa).isSome)

/-- The key of a line in a domain's L2. -/
def l2Key (d line : Nat) : Nat := 64 * line + d

/-- A canonical 64-bit pointer (R14). -/
def canonical (p : Nat) : Bool := p / 2 ^ 56 = 0 || p / 2 ^ 56 = 255

/-- The half of the address space that a canonical pointer lies in: true for the handler half (R15). -/
def handlerHalf (p : Nat) : Bool := p / 2 ^ 56 % 2 = 1

/-! ### Registers -/

/-- Duplex shadows: lane j + 48 beside lane j (R449). -/
def shadows (m : Lanes) : Lanes := m ||| (m <<< 48)

/-- The lanes on which an instruction executes for its active set: with their shadows in duplex mode (R449). -/
def Group.exLanes (G : Group) (act : Lanes) : Lanes := if G.duplex then shadows act &&& ~~~ G.dead else act

/-- The primary of a lane in duplex mode, the lane itself otherwise. -/
def Group.primary (G : Group) (j : Nat) : Nat := if G.duplex ∧ 48 ≤ j then j - 48 else j

/-- The mask words that lane `j` reads in v1-v3: those of the split it belongs to, zero for a lane of none (R159). -/
def Group.maskOf (G : Group) (j : Nat) : Lanes :=
  match (G.valid).find? (fun e => (G.sp e).memb.has (G.primary j)) with
  | some e => (G.sp e).mask
  | none => 0

/-- The registers v240-v255 of the handler stand in a slice bank (R418). -/
def Group.inBank (G : Group) (r : Nat) : Bool := G.bank && 240 ≤ r

/-- The word of register `r` in lane `j` as it stands (R157, R159, R418). -/
def Group.reg (G : Group) (r j : Nat) : LW :=
  if r = 0 then {}
  else if r ≤ 3 then { val := (G.maskOf j).word (r - 1) }
  else if G.inBank r then Map.getD G.hregs (96 * (r - 240) + j) {}
  else Map.getD G.regs (96 * r + j) {}

/-- The ticket of a PENDING register; none when it is FULL (R159, R166). -/
def Group.pendOf (G : Group) (r : Nat) : Option Nat :=
  if r ≤ 3 then none else if G.inBank r then Map.find G.hpend r else Map.find G.pend r

/-- Sets the word of one lane of a register from v4 upward. -/
def Group.setReg (G : Group) (r j : Nat) (v : LW) : Group :=
  if r ≤ 3 then G
  else if G.inBank r then { G with hregs := Map.put G.hregs (96 * (r - 240) + j) v {} }
  else { G with regs := Map.put G.regs (96 * r + j) v {} }

/-- Sets the word of each listed lane of a register. -/
def Group.setRegs (G : Group) (r : Nat) : List (Nat × LW) → Group
  | [] => G
  | (j, v) :: rest => Group.setRegs (G.setReg r j v) r rest

/-- Makes a register FULL. -/
def Group.setFull (G : Group) (r : Nat) : Group :=
  if G.inBank r then { G with hpend := Map.erase G.hpend r } else { G with pend := Map.erase G.pend r }

/-- Makes a register PENDING with a ticket. -/
def Group.setPend (G : Group) (r t : Nat) : Group :=
  if r ≤ 3 then G
  else if G.inBank r then { G with hpend := Map.insert G.hpend r t } else { G with pend := Map.insert G.pend r t }

/-- The lanes of a PENDING register's claim that are still outstanding (R168). -/
def Group.outstanding (G : Group) (r : Nat) : Lanes :=
  match G.pendOf r with
  | some t => ((Map.find G.claims t).map (fun c => c.lanes)).getD 0
  | none => 0

/-- A claim no longer delivers to register `r`. -/
def Claim.drop (c : Claim) (r : Nat) : Claim :=
  { c with dests := c.dests.map (fun d => if d = some r then none else d) }

/-- Orphans the claim of register `r` as far as `r` goes and makes `r` FULL (R168). -/
def Group.orphan (G : Group) (r : Nat) : Group :=
  match G.pendOf r with
  | some t => { G.setFull r with claims := Map.modify G.claims t (fun c => c.drop r) }
  | none => G

/-- The write rows of R168: lanes take their words; a PENDING register becomes FULL and its claim is orphaned. With no
lanes nothing changes. The caller has parked the split where the lanes do not cover the claim. -/
def Group.writeReg (G : Group) (r : Nat) (vs : List (Nat × LW)) : Group :=
  if vs.isEmpty then G else (G.orphan r).setRegs r vs

/-- Writes a 32-bit word or a pair in each listed lane (R111). -/
def Group.writeVal (G : Group) (r : Nat) (wide : Bool) (vs : List (Nat × LW2)) : Group :=
  let lo := vs.map (fun (p : Nat × LW2) => (p.1, ({ val := p.2.val.truncate 32, psn := p.2.pLo } : LW)))
  let G1 := G.writeReg r lo
  if wide then
    G1.writeReg (r + 1) (vs.map (fun (p : Nat × LW2) => (p.1, ({ val := (p.2.val >>> 32).truncate 32, psn := p.2.pHi } : LW))))
  else G1

/-- A ticket becomes free when the last completion of its claim has arrived (R167). -/
def Group.sweepClaims (G : Group) : Group := { G with claims := G.claims.filter (fun p => decide (p.2.arriving ≠ 0)) }

/-- Registers whose claim has no outstanding lane are FULL (R168). -/
def Group.settleClaim (G : Group) (t : Nat) : Group :=
  match Map.find G.claims t with
  | some c => if c.lanes = 0 then
      (c.dests.filterMap id).foldl (fun G d => if 256 ≤ d then { G with slots := Map.erase G.slots (d - 256) }
        else if G.pendOf d = some t then G.setFull d else G) G
    else G
  | none => G

/-- Lanes leave every claim's outstanding set (death and exit, R271, R447). -/
def Group.unclaim (G : Group) (lanes : Lanes) : Group :=
  let G1 := { G with claims := G.claims.map (fun p => (p.1, { p.2 with lanes := p.2.lanes &&& ~~~ lanes })) }
  (Map.keys G.claims).foldl Group.settleClaim G1

/-- The lowest free ticket (R167). -/
def Group.freeTicket (G : Group) : Option Nat := Map.free G.claims 256

/-- Makes a claim on destinations from v4 upward (R166): each becomes PENDING with the ticket, as a write where it is
already PENDING (R168). -/
def Group.mkClaim (G : Group) (t : Nat) (lanes : Lanes) (dests : List (Option Nat)) : Group :=
  let G1 := (dests.filterMap id).foldl (fun G r => (G.orphan r).setPend r t) G
  { G1 with
      claims := Map.insert G1.claims t { seq := G.claimSeq, all := lanes, lanes := lanes, arriving := lanes, dests := dests }
      claimSeq := G.claimSeq + 1 }

/-- Adds to a register's hold count (R335). -/
def Group.hold (G : Group) (r : Nat) : Group := { G with holds := Map.put G.holds r (Map.getD G.holds r 0 + 1) 0 }

/-- Ends one hold on a register (R335). -/
def Group.unhold (G : Group) (r : Nat) : Group := { G with holds := Map.put G.holds r (Map.getD G.holds r 0 - 1) 0 }

/-- A register is held by an MLOOP (R335). -/
def Group.isHeldReg (G : Group) (r : Nat) : Bool := Map.has G.holds r

/-! ### The galley (R290-R292) -/

/-- A byte of a team's galley. -/
def Team.gb (T : Team) (o : Nat) : Byte := Map.getD T.galley o 0

/-- The mark of the galley sector that holds an offset. -/
def Team.gmark (T : Team) (o : Nat) : Bool := Map.getD T.gmarks (o / 32) false

/-- Sets a byte of the galley. -/
def Team.setGb (T : Team) (o : Nat) (b : Byte) : Team := { T with galley := Map.put T.galley o b 0 }

/-- Sets the mark of a galley sector. -/
def Team.setGmark (T : Team) (sector : Nat) (b : Bool) : Team := { T with gmarks := Map.put T.gmarks sector b false }

/-- `n` bytes of the galley. -/
def Team.gbs (T : Team) (o n : Nat) : List Byte := (List.range n).map (fun i => T.gb (o + i))

/-- Some sector of `n` bytes is marked. -/
def Team.gmarked (T : Team) (o n : Nat) : Bool := (List.range n).any (fun i => T.gmark (o + i))

/-- The distinct values of a list, in order of first occurrence. -/
def dedup : List Nat → List Nat
  | [] => []
  | x :: xs => x :: (dedup xs).filter (fun y => y != x)

/-- The sectors that a list of addresses touches. -/
def sectorsOf (as : List Nat) : List Nat := dedup (as.map (fun a => a / 32))

/-- How writes change sector marks (R292, R303, R314): a sector that a poisoned byte touches is marked; one whose 32 bytes
are all written with clean data is cleared; another keeps its mark. Each write is an address and whether it is poisoned. -/
def markRule (ws : List (Nat × Bool)) : List (Nat × Bool) :=
  (sectorsOf (ws.map (fun w => w.1))).filterMap (fun sec =>
    let mine := ws.filter (fun w => w.1 / 32 == sec)
    if mine.any (fun w => w.2) then some (sec, true)
    else if (List.range 32).all (fun i => mine.any (fun w => w.1 % 32 == i)) then some (sec, false)
    else none)

/-- Writes galley bytes, each with its poison, as one instruction, copy or fill (R292, R303). Later entries of the list
win where two name one offset. -/
def Team.galWrite (T : Team) (ws : List (Nat × Byte × Bool)) : Team :=
  let T1 := ws.foldl (fun T w => T.setGb w.1 w.2.1) T
  (markRule (ws.map (fun w => (w.1, w.2.2)))).foldl (fun T m => T.setGmark m.1 m.2) T1

end Sys2Proof.Machine
end

