-- ==== Sys2Proof/Machine/Translate.lean ====
section
/-! DEFINITION. Address translation (R129-R146): the page walk with its checks and classification, the TLBs and the walk
cache, permissions, walks in progress, and the fault entries that recoverable faults attach to. -/

namespace Sys2Proof.Machine

/-! ### Causes (R409) -/

abbrev cIllegal : Nat := 0x01
abbrev cStraddle : Nat := 0x02
abbrev cPriv : Nat := 0x03
abbrev cLatchStale : Nat := 0x04
abbrev cLatchChain : Nat := 0x05
abbrev cBadTarget : Nat := 0x06
abbrev cSplitState : Nat := 0x07
abbrev cSigMismatch : Nat := 0x08
abbrev cDuplex : Nat := 0x09
abbrev cSwTrap : Nat := 0x0A
abbrev cAlign : Nat := 0x10
abbrev cAttrStraddle : Nat := 0x11
abbrev cGalley : Nat := 0x12
abbrev cAccess : Nat := 0x13
abbrev cNotMapped : Nat := 0x14
abbrev cPoison : Nat := 0x18
abbrev cLaneDeath : Nat := 0x19
abbrev cLostStore : Nat := 0x1A
abbrev cBreak : Nat := 0x30
abbrev cFreezeStop : Nat := 0x31

/-- What an access does to its page (R139). -/
inductive Acc where
  | read | write | atom | fetch
deriving DecidableEq, Repr

/-- log2 of the page size of a leaf level (R131). -/
def pageBits (level : Nat) : Nat := if level = 0 then 16 else if level = 1 then 21 else 36

/-- The index of a virtual address in the table of a level (R131). -/
def tableIndex (level va : Nat) : Nat :=
  match level with
  | 3 => va / 2 ^ 46 % 2 ^ 11
  | 2 => va / 2 ^ 36 % 2 ^ 10
  | 1 => va / 2 ^ 21 % 2 ^ 15
  | _ => va / 2 ^ 16 % 2 ^ 5

/-- The 64 KiB unit of a virtual address: VA[56:16]. -/
def vaUnit (va : Nat) : Nat := va % 2 ^ 57 / 2 ^ 16

/-- A physical address has no bit set above the layout of its region (R283). -/
def layoutOk (pa : Nat) : Bool :=
  match paRegion pa with
  | 0 => pa % 2 ^ 52 / 2 ^ 43 == 0
  | 1 => pa % 2 ^ 52 / 2 ^ 45 == 0
  | 2 => pa % 2 ^ 52 / 2 ^ 48 == 0
  | _ => true

/-- The leaf that an entry of a level describes (R132). -/
def leafOf (s : State) (level va e : Nat) : Leaf :=
  { level := level
    va := va % 2 ^ 57 / 2 ^ pageBits level * 2 ^ pageBits level
    addr := e % 2 ^ 56 / 2 ^ 12 * 2 ^ 12
    rd := e.testBit 2, wr := e.testBit 3, x := e.testBit 4, hnd := e.testBit 5
    lease := e / 2 ^ 6 % 4, mem := e / 2 ^ 8 % 4, cls := e / 2 ^ 10 % 4, owner := e / 2 ^ 56 % 64
    stripe := if e.testBit 62 then some (Map.getD s.tr.stripes (e / 2 ^ 12 % 256) 0) else none }

/-- A leaf that R134 or R283 calls malformed: the walk ends with NOT_MAPPED. -/
def leafBad (l : Leaf) (e : Nat) : Bool :=
  l.level == 3 || l.lease == 3 || l.mem == 3 || l.cls == 3 || e.testBit 63 ||
  (match l.stripe with
   | some m => l.level != 2 || l.addr / 2 ^ 20 % 2 ^ 16 != 0 || l.addr / 2 ^ 37 != 0 || l.cls != 2 || m == 0
   | none =>
     l.addr % 2 ^ pageBits l.level != 0 || paRegion l.addr == 4 || decide (6 ≤ paRegion l.addr) || !layoutOk l.addr ||
       (paRegion l.addr != 0 && l.cls != 2))

/-- The domain lies in the context's partition (R80). -/
def State.inPartition (s : State) (ctx d : Nat) : Bool := (s.domainsOf ctx).getLsbD d

/-- An entry of a page table reads as poisoned: its sector is marked, or it lies in a fenced range (R140, R441). -/
def State.entryPoisoned (s : State) (pa : Nat) : Bool := s.mark pa || s.fencedPa pa

/-- What a walk on behalf of domain `d` makes of the leaf entry `e` at `pa` (R134, R136): the outcome, and the entry that
the walker writes to claim an unclassified page. A page whose domain lies outside the partition raises ACCESS and is not
claimed: the spec gives the two no order (DESIGN CHOICE, log entry 94). -/
def leafOutcome (s : State) (d ctx level va pa e : Nat) : Xl × Option (Nat × Nat) :=
  let l := leafOf s level va e
  if leafBad l e then (.fatal cNotMapped, none)
  else if paRegion l.addr == 5 then (.fatal cAccess, none)
  else if l.stripe.isNone && paRegion l.addr == 0 && !s.inPartition ctx (l.addr / 2 ^ 37 % 64) then (.fatal cAccess, none)
  else if paRegion l.addr == 0 && l.cls == 0 then
    let e' := e % 2 ^ 56 + 2 ^ 10 + d * 2 ^ 56 + e / 2 ^ 62 * 2 ^ 62
    (.leaf { l with cls := 1, owner := d }, some (pa, e'))
  else if paRegion l.addr == 0 && l.cls == 1 && l.owner != d then (.classify, none)
  else (.leaf l, none)

/-- A walk through the tables of the listed levels from the table at `base` (R131-R136): the outcome, the entry written,
and the tables found on the way. -/
def walkFrom (s : State) (d ctx va : Nat) : List Nat → Nat → Xl × Option (Nat × Nat) × List (Nat × Nat)
  | [], _ => (.fatal cNotMapped, none, [])
  | level :: rest, base =>
    let pa := base + 8 * tableIndex level va
    let e := s.mNat pa 8
    if s.entryPoisoned pa then (.fatal cPoison, none, [])
    else if !e.testBit 0 then
      (if e / 2 % 4 = 1 then .notPresent level else .fatal cNotMapped, none, [])
    else if e.testBit 1 then
      let r := leafOutcome s d ctx level va pa e
      (r.1, r.2, [])
    else if level == 0 || e / 2 ^ 56 != 0 || e % 2 ^ 12 != 1 || e / 2 ^ 52 % 16 != 0 then (.fatal cNotMapped, none, [])
    else
      let next := e % 2 ^ 56 / 2 ^ 12 * 2 ^ 12
      let r := walkFrom s d ctx va rest next
      (r.1, r.2.1, (level, next) :: r.2.2)

/-- The VA bits above which two addresses share the entry of a level (R131). -/
def levelShift (level : Nat) : Nat := if level = 3 then 46 else if level = 2 then 36 else 21

/-- The walk-cache entry of a domain for the table that an entry of `level` names (R137). -/
def walkCached (s : State) (d ctx va level : Nat) : Option WalkEnt :=
  s.tr.walkCache.find? (fun w =>
    w.domain == d && w.ctx == ctx && w.level == level &&
      decide (w.va / 2 ^ levelShift level = va % 2 ^ 57 / 2 ^ levelShift level))

/-- A walk from the root, or from the deepest cached table (R131, R137). A context that is not enabled has no tables. -/
def walkRun (s : State) (d ctx va : Nat) : Xl × Option (Nat × Nat) × List (Nat × Nat) :=
  let r : Root := Map.getD s.tr.roots ctx {}
  if !r.en then (.fatal cNotMapped, none, [])
  else
    match walkCached s d ctx va 1, walkCached s d ctx va 2, walkCached s d ctx va 3 with
    | some w, _, _ => walkFrom s d ctx va [0] w.table
    | none, some w, _ => walkFrom s d ctx va [1, 0] w.table
    | none, none, some w => walkFrom s d ctx va [2, 1, 0] w.table
    | none, none, none => walkFrom s d ctx va [3, 2, 1, 0] r.root

/-- Adds a TLB entry unless it stands there, dropping the oldest entry of a full structure (R137). -/
def tlbAdd (s : State) (at_ : TlbAt) (ctx : Nat) (l : Leaf) (cap : Nat) : State :=
  if s.tr.tlb.any (fun e => e.at_ == at_ && e.ctx == ctx && e.leaf == l) then s
  else
    let mine := s.tr.tlb.filter (fun e => e.at_ == at_)
    let tlb :=
      if mine.length < cap then s.tr.tlb
      else match mine.getLast? with
        | some old => s.tr.tlb.erase old
        | none => s.tr.tlb
    { s with tr := { s.tr with tlb := { at_ := at_, ctx := ctx, leaf := l } :: tlb } }

/-- Caches a leaf for core `k`: in its instruction or data TLB, its core TLB and its domain's TLB (R137). -/
def tlbFill (s : State) (k ctx : Nat) (fetch : Bool) (l : Leaf) : State :=
  let s1 := if fetch then (if l.x then tlbAdd s (.instr k) ctx l 32 else s) else tlbAdd s (.data k) ctx l 64
  tlbAdd (tlbAdd s1 (.core k) ctx l 2048) (.domain (k / 72)) ctx l 32768

/-- A non-leaf entry joins the walk cache of its domain, which drops the oldest of its 4,096 (R137). -/
def walkAdd (w : List WalkEnt) (e : WalkEnt) : List WalkEnt :=
  let mine := w.filter (fun x => x.domain == e.domain)
  if mine.any (fun x => x == e) then w
  else if mine.length < 4096 then e :: w
  else match mine.getLast? with
    | some old => e :: w.erase old
    | none => e :: w

/-- Caches the tables that a walk of domain `d` passed (R137). -/
def walkFill (s : State) (d ctx va : Nat) (ts : List (Nat × Nat)) : State :=
  let add (w : List WalkEnt) (t : Nat × Nat) : List WalkEnt :=
    walkAdd w { domain := d, ctx := ctx, level := t.1, va := va % 2 ^ 57, table := t.2 }
  { s with tr := { s.tr with walkCache := ts.foldl add s.tr.walkCache } }

/-- The leaf of an address in the structures that core `k` can reach (R137). -/
def tlbFind (s : State) (k ctx va : Nat) (fetch : Bool) : Option Leaf :=
  (s.tr.tlb.find? (fun e =>
    e.ctx == ctx && decide (e.leaf.va / 2 ^ pageBits e.leaf.level = va % 2 ^ 57 / 2 ^ pageBits e.leaf.level) &&
    (match e.at_ with
     | .data c => c == k && !fetch
     | .instr c => c == k && fetch
     | .core c => c == k
     | .domain d => d == k / 72))).map (fun e => e.leaf)

/-- A walk for core `k` that runs to its end: its outcome, with the entry it writes and what it caches (R136, R137). -/
def walkNow (s : State) (k ctx va : Nat) (fetch : Bool) : Xl × State :=
  let d := k / 72
  let (x, cas, ts) := walkRun s d ctx va
  let s1 :=
    match cas with
    | some (pa, e) => s.putBs pa (leBytes 8 e)
    | none => s
  let s2 := walkFill s1 d ctx va ts
  match x with
  | .leaf l => (x, tlbFill s2 k ctx fetch l)
  | _ => (x, s2)

/-! ### Permissions and physical addresses -/

/-- The physical address of an address under a leaf; none where a striped page's unit lies outside the partition (R134,
R135). -/
def Leaf.pa (s : State) (l : Leaf) (ctx va : Nat) : Option Nat :=
  match l.stripe with
  | none => some (l.addr + va % 2 ^ pageBits l.level)
  | some m =>
    let ds := (List.range 64).filter (fun d => m.getLsbD d)
    let u := va / 2 ^ 12 % 2 ^ 24
    let d := ds.getD (u % ds.length) 0
    if s.inPartition ctx d then
      some (d * 2 ^ 37 + l.addr / 2 ^ 36 % 2 * 2 ^ 36 + u / ds.length * 4096 + va % 4096)
    else none

/-- The leaf allows the access at this level (R139). -/
def Leaf.allows (l : Leaf) (acc : Acc) (user : Bool) : Bool :=
  match acc with
  | .read => l.rd && !(user && l.hnd)
  | .write => l.wr && !(user && l.hnd)
  | .atom => l.rd && l.wr && !(user && l.hnd)
  | .fetch => l.x && l.mem ≤ 1 && paRegion l.addr ≤ 1 && l.hnd != user

/-- What a lane's translation comes to (R140). -/
inductive XRes where
  | ok (l : Leaf) (pa : Nat)
  | recov (level : Nat) (cls : Bool)
  | fatal (cause : Nat)
deriving DecidableEq, Repr

/-- The outcome of a resolved translation for one access (R139, R140). A page that is private to another domain meets its
classification fault before its permissions are judged: the spec gives the two no order (DESIGN CHOICE, log entry 94). -/
def xlCheck (s : State) (ctx va : Nat) (acc : Acc) (user : Bool) : Xl → XRes
  | .notPresent level => .recov level false
  | .classify => .recov 0 true
  | .fatal c => .fatal c
  | .leaf l =>
    if !l.allows acc user then .fatal cAccess
    else match l.pa s ctx va with
      | some pa => .ok l pa
      | none => .fatal cAccess

/-- A pointer that no translation is made for: not canonical, or the handler half at user level (R14, R15). -/
def ptrBad (va : Nat) (user : Bool) : Bool := !canonical va || (user && handlerHalf va)

/-- Translates at once, walking where no structure holds the leaf: for retries, frames, write-backs, refetched pins and units
of copies. Such a walk takes no time and no place in the walker's queue (DESIGN CHOICE, log entry 97). -/
def xlateNow (s : State) (k ctx va : Nat) (acc : Acc) (user : Bool) : XRes × State :=
  if ptrBad va user then (.fatal cAccess, s)
  else
    let fetch := acc == .fetch
    match tlbFind s k ctx va fetch with
    | some l => (xlCheck s ctx va acc user (.leaf l), tlbFill s k ctx fetch l)
    | none =>
      let (x, s1) := walkNow s k ctx va fetch
      (xlCheck s1 ctx va acc user x, s1)

/-! ### Walks in progress (R138) -/

/-- The walks of a domain: the oldest 512 run, the others wait in arrival order (R138). -/
def walksOf (s : State) (d : Nat) : List (Nat × Walk) := s.tr.walks.filter (fun w => w.2.domain == d)

/-- The requests that wait for a walk to begin (R138). -/
def walkQueue (s : State) (d : Nat) : Nat := (((walksOf s d).drop 512).map (fun w => w.2.reqs)).sum

/-- A request that misses may join the walker's queue (R138). -/
def walkRoom (s : State) (d : Nat) : Bool := decide ((walksOf s d).length < 512) || decide (walkQueue s d < 8192)

/-- Joins or starts the walk of a unit in domain `d`: a walk that runs takes any number of requests, the queue 8,192; none
where the queue is full (R138). -/
def startWalk (s : State) (d ctx unit : Nat) : Option (Nat × State) :=
  match (walksOf s d).find? (fun w => w.2.ctx == ctx && w.2.unit == unit) with
  | some w =>
    if ((walksOf s d).take 512).any (fun r => r.1 == w.1) then some (w.1, s)
    else if walkRoom s d then
      some (w.1, { s with tr := { s.tr with walks := Map.insert s.tr.walks w.1 { w.2 with reqs := w.2.reqs + 1 } } })
    else none
  | none =>
    if walkRoom s d then
      let id := s.tr.next
      let w : Walk := { domain := d, ctx := ctx, unit := unit, stale := false }
      some (id, { s with tr := { s.tr with walks := Map.insert s.tr.walks id w, next := id + 1 } })
    else none

/-- A walk made on behalf of an engine may be made now: a structure holds the leaf, or no walk of its unit is under way and the
walker's queue has room (R138). -/
def walkClear (s : State) (k ctx va : Nat) : Bool :=
  (tlbFind s k ctx va false).isSome ||
    (!(walksOf s (k / 72)).any (fun w => w.2.ctx == ctx && w.2.unit == vaUnit va) && walkRoom s (k / 72))

/-! ### Signals and fault entries (R62, R428) -/

/-- Makes a signal pending at every Encon core (R62). -/
def raiseSignal (s : State) (b : Nat) : State :=
  (List.range 8).foldl (fun s k =>
    let c : EnCore := Map.getD s.en.cores k {}
    { s with en := { s.en with cores := Map.insert s.en.cores k { c with sigs := c.sigs ||| BitVec.twoPow 16 b } } }) s

/-- A new fault entry fits in the context's queue (R428). -/
def fqRoom (t : TrapBlk) : Bool := (t.fqtail - t.fqdone).toNat < 2 ^ t.fqlog2n.toNat

/-- The 32 bytes of a fault-queue entry; KIND is 3 in firmware's own queue (R428). -/
def fqBytes (f : FaultEnt) (k : BitVec 32) (wt : Nat) (team : Nat) : List Byte :=
  leBytes 8 ((if f.cls then 3 else if f.fetch then 2 else 1) + (if f.rd then 2 ^ 8 else 0) + (if f.wr then 2 ^ 9 else 0) +
      (if f.x then 2 ^ 10 else 0) + f.ctx % 2 ^ 16 * 2 ^ 16 + f.domain % 64 * 2 ^ 32 + f.core % 128 * 2 ^ 40 +
      f.level % 4 * 2 ^ 48) ++
    leBytes 8 f.va ++ leBytes 8 wt ++ leBytes 4 k.toNat ++ leBytes 4 team

/-- An entry of firmware's own queue is written: its place and its size are firmware's, and it is never full (R428, R483, log
entry 96). -/
def fwWrite (s : State) (id : Nat) (f : FaultEnt) : State :=
  let b := fqBytes f s.tr.fwTail (s.wtime f.domain) f.team
  raiseSignal { s with tr := { s.tr with
    fwQueue := Map.insert s.tr.fwQueue id (BitVec.ofNat 256 (leNat b)), fwTail := s.tr.fwTail + 1 } } 5

/-- Writes fault entry `id` to its context's queue where there is room: a classification fault goes to firmware's own
queue and needs none (R428, R483). -/
def fqWrite (s : State) (id : Nat) : State :=
  match Map.find s.tr.faults id with
  | none => s
  | some f =>
    if f.cls then (if Map.has s.tr.fwQueue id then s else fwWrite s id f)
    else if f.slot.isSome then s
    else
      let t := s.trapBlk f.ctx
      if !fqRoom t then s
      else
        let k := t.fqtail
        let pa := t.fqbase.toNat + 32 * (k.toNat % 2 ^ t.fqlog2n.toNat)
        let s1 := (s.putBs pa (fqBytes f k (s.wtime f.domain) f.team)).setMark (pa / 32) false
        let s2 := s1.modTrapBlk f.ctx (fun t => { t with fqtail := t.fqtail + 1 })
        let s3 := { s2 with tr := { s2.tr with faults := Map.insert s2.tr.faults id { f with slot := some k.toNat } } }
        let s4 := s3.modCore (coreKey f.domain f.core) (fun c => { c with ctr := { c.ctr with fqe := c.ctr.fqe + 1 } })
        raiseSignal s4 5

/-- Attaches a request of core `k` to the entry of its page, which it writes where none awaits service (R141). -/
def attachFault (s : State) (k ctx team va level : Nat) (cls : Bool) (acc : Acc) (req : AReq) : Nat × State :=
  let fetch := acc == .fetch
  match s.tr.faults.find? (fun p =>
      p.2.ctx == ctx && p.2.page == vaUnit va && p.2.fetch == fetch && p.2.cls == cls) with
  | some (id, f) =>
    let f' :=
      if f.slot.isSome then { f with reqs := f.reqs ++ [req] }
      else { f with
        reqs := f.reqs ++ [req], rd := f.rd || acc == .read || acc == .atom, wr := f.wr || acc == .write || acc == .atom }
    (id, { s with tr := { s.tr with faults := Map.insert s.tr.faults id f' } })
  | none =>
    let id := s.tr.next
    let f : FaultEnt :=
      { ctx := ctx, page := vaUnit va, fetch := fetch, cls := cls, slot := none
        rd := acc == .read || acc == .atom, wr := acc == .write || acc == .atom, x := fetch
        domain := k / 72, core := k % 72, level := level, va := va, team := team, reqs := [req] }
    let s1 := { s with tr := { s.tr with faults := Map.insert s.tr.faults id f, next := id + 1 } }
    (id, fqWrite s1 id)

end Sys2Proof.Machine
end

