-- ==== Sys2Proof/Machine/Home.lean ====
section
/-! DEFINITION. Where bytes live (R281-R286) and how accesses are performed (R358-R375): L1 lines under leases, the home
and its lease times, remote copies, combined bytes, owned lines, the directory and its probes, completion times, and the
order in which the accesses of a core are performed (R288). -/

namespace Sys2Proof.Machine

/-- One written byte: its physical address, its value, and whether it is poisoned. -/
abbrev WByte := Nat × Byte × Bool

/-- Changes the memory part. -/
def State.modMs (s : State) (f : Mem → Mem) : State := { s with ms := f s.ms }

/-- The duration of a lease in ns (R132, R361). -/
def leaseNs (c : Nat) : Nat := if c = 0 then 256 else if c = 1 then 2000 else 32000

/-- Sets one bit of four. -/
def setBit4 (m : BitVec 4) (i : Nat) (b : Bool) : BitVec 4 :=
  if b then m ||| BitVec.twoPow 4 i else m &&& ~~~ BitVec.twoPow 4 i

/-- The byte mask that written bytes make in their line. -/
def lineMask (ws : List WByte) : BitVec 128 := ws.foldl (fun m w => m ||| BitVec.twoPow 128 (w.1 % 128)) 0

/-- Written bytes put into a copy of their line, with the mark rule (R303). -/
def L1Line.put (l : L1Line) (ws : List WByte) : L1Line :=
  { l with
    bytes := Map.putAll l.bytes 0 (ws.map (fun w => (w.1 % 128, w.2.1)))
    marks := (markRule (ws.map (fun w => (w.1, w.2.2)))).foldl (fun m c => setBit4 m (c.1 % 4) c.2) l.marks }

/-! ### Leases (R361, R362) -/

/-- LX of a line at a grantor: what it holds, else the horizon of the line's set (R362). The bridge and the peers keep LX by
line alone (R375). -/
def State.lxOf (s : State) (d line : Nat) : Nat :=
  match Map.find s.ms.lx (l2Key d line) with
  | some t => t
  | none => if (homeOf (128 * line)).isSome then Map.getD s.ms.horizon (64 * Config.l2Set d line + d) 0 else 0

/-- The domain whose L2 answers an access of domain `d`: the owner of a private page, the home, or the local L2 for a
line homed elsewhere at domain scope; 0 stands for the bridge and the peers (R359, R374). -/
def grantor (d pa cls owner : Nat) (wide : Bool) : Nat :=
  if cls = 1 then owner
  else match homeOf pa with
    | some h => if wide then h else d
    | none => 0

/-- Grants a lease: LX becomes the later expiry; the answer is the expiry (R361). -/
def State.grant (s : State) (d line lease : Nat) : Nat × State :=
  let e := s.wtime d + leaseNs lease
  (e, s.modMs (fun m => { m with lx := Map.insert m.lx (l2Key d line) (max e (s.lxOf d line)) }))

/-- An L2 ceases to hold a line: a lease time in the future raises its set's horizon (R362). -/
def State.evictLx (s : State) (d line : Nat) : State :=
  match Map.find s.ms.lx (l2Key d line) with
  | none => s
  | some t =>
    let h := 64 * Config.l2Set d line + d
    s.modMs (fun m =>
      { m with
        lx := Map.erase m.lx (l2Key d line)
        horizon := if s.wtime d < t then Map.insert m.horizon h (max t (Map.getD m.horizon h 0)) else m.horizon })

/-! ### L1 (R281, R282) -/

/-- The L1 line of a core that may serve a load now (R361). -/
def State.l1Hit (s : State) (k line : Nat) : Option L1Line :=
  match Map.find (s.coreAt k).l1 line with
  | some l => if s.wtimeCore k + 4 < l.expiry then some l else none
  | none => none

/-- Drops an L1 line. -/
def State.l1Drop (s : State) (k line : Nat) : State := s.modCore k (fun c => { c with l1 := Map.erase c.l1 line })

/-- Puts a line into L1; a full cache of 2,048 lines gives up its lowest line. -/
def State.l1Fill (s : State) (k line : Nat) (l : L1Line) : State :=
  s.modCore k (fun c =>
    let l1 := if c.l1.length < 2048 || Map.has c.l1 line then c.l1 else c.l1.drop 1
    { c with l1 := Map.insert l1 line l })

/-- A store updates the L1 copies that it finds, or drops them where it streams (R281, R302). -/
def State.l1Store (s : State) (k : Nat) (stream : Bool) (ws : List WByte) : State :=
  (dedup (ws.map (fun w => w.1 / 128))).foldl (fun s line =>
    match Map.find (s.coreAt k).l1 line with
    | none => s
    | some l =>
      if stream then s.l1Drop k line
      else s.l1Fill k line (l.put (ws.filter (fun w => w.1 / 128 == line)))) s

/-! ### Points of coherence (R359) -/

/-- A byte and its poison as an access of domain `d` reads it at its point of coherence: the owner's L2 for a private
page; the home where `wide` or where the line is homed in `d`; else the local copy under the combined bytes. -/
def State.pocByte (s : State) (d pa cls owner : Nat) (wide : Bool) : Byte × Bool :=
  let line := pa / 128
  let o := pa % 128
  let home : Byte × Bool := (s.mb pa, s.mark pa)
  if cls = 1 then
    match Map.find s.ms.owned (l2Key owner line) with
    | some l => ((Map.find l.bytes o).getD home.1, l.marks.getLsbD (o / 32))
    | none => home
  else if wide || (homeOf pa).isNone || homeOf pa == some d then home
  else
    let base : Byte × Bool :=
      match Map.find s.ms.l2 (l2Key d line) with
      | some l => (Map.getD l.bytes o 0, l.marks.getLsbD (o / 32))
      | none => home
    match Map.find s.ms.combs (l2Key d line) with
    | some c =>
      (if c.mask.getLsbD o then Map.getD c.bytes o 0 else base.1,
        c.marks.getLsbD (o / 32) || (!c.clears.getLsbD (o / 32) && base.2))
    | none => base

/-- The domain whose L2 holds a line modified away from its home (R374). -/
def State.ownerOf (s : State) (line : Nat) : Option Nat := (List.range 64).find? (fun d => Map.has s.ms.owned (l2Key d line))

/-- CLS and OWNER of a line as the host port and Encon meet it. -/
def State.hostAttr (s : State) (line : Nat) : Nat × Nat :=
  match s.ownerOf line with
  | some d => (1, d)
  | none => (2, 0)

/-- A byte and its poison as the host port and Encon read it: at the home, or in the L2 of the owner of a private page (R42, R359,
R375); a fenced range reads as poison. -/
def State.hostRead (s : State) (pa : Nat) : Byte × Bool :=
  let (cls, owner) := s.hostAttr (pa / 128)
  let b := s.pocByte 0 pa cls owner true
  (b.1, b.2 || s.fencedAcc pa cls owner)

/-- The line of 128 bytes at a point of coherence. -/
def State.pocLine (s : State) (d line cls owner : Nat) (wide : Bool) (expiry : Nat) : L1Line :=
  let bs := (List.range 128).map (fun i => (i, s.pocByte d (128 * line + i) cls owner wide))
  { bytes := Map.putAll [] 0 (bs.map (fun b => (b.1, b.2.1)))
    marks := bs.foldl (fun m b => if b.1 % 32 == 0 then setBit4 m (b.1 / 32) b.2.2 else m) 0
    expiry := expiry }

/-! ### Stores known to a group (R363) -/

/-- A group owes completion times for `n` lines of a store. -/
def Group.owe (G : Group) (seq n : Nat) : Group :=
  if n = 0 then G
  else
    let r : StoreRec := Map.getD G.stores seq {}
    { G with stores := Map.insert G.stores seq { pDom := r.pDom + n, pWafer := r.pWafer + n } }

/-- Removes a store whose times are all known. -/
def Group.sweepStore (G : Group) (seq : Nat) : Group :=
  match Map.find G.stores seq with
  | some r => if r.pDom = 0 ∧ r.pWafer = 0 then { G with stores := Map.erase G.stores seq } else G
  | none => G

/-- One line of a store has its domain completion time. -/
def Group.paidDom (G : Group) (seq t : Nat) : Group :=
  { G with
      stores := Map.modify G.stores seq (fun r => { r with pDom := r.pDom - 1 })
      tDom := max G.tDom t }.sweepStore seq

/-- One line of a store has its wafer and system completion times. -/
def Group.paidWafer (G : Group) (seq t : Nat) : Group :=
  { G with
      stores := Map.modify G.stores seq (fun r => { r with pWafer := r.pWafer - 1 })
      tWafer := max G.tWafer t, tSys := max G.tSys t }.sweepStore seq

/-- The stores of a list receive their completion time. -/
def State.paid (s : State) (refs : List StoreRef) (t : Nat) : State :=
  refs.foldl (fun s r => s.modGrp r.g (fun G =>
    (if r.dom then G.paidDom r.seq t else G).paidWafer r.seq t)) s

/-- The groups of stores lose them (R379, R445). -/
def State.setLost (s : State) (g : Nat) : State := s.modGrp g (fun G => { G with lostst := true })

/-- Stores complete with loss: their time is now, and their groups' lostst is set (R379). -/
def State.lose (s : State) (refs : List StoreRef) (t : Nat) : State :=
  refs.foldl (fun s r => s.setLost r.g) (s.paid refs t)

/-! ### Batches (R328) -/

/-- The batches of a class. -/
def Group.bat (G : Group) (cls : Nat) : Batches :=
  match cls with
  | 0 => G.bat0 | 1 => G.bat1 | 2 => G.bat2 | _ => G.bat3

/-- Replaces the batches of a class. -/
def Group.setBat (G : Group) (cls : Nat) (b : Batches) : Group :=
  match cls with
  | 0 => { G with bat0 := b } | 1 => { G with bat1 := b } | 2 => { G with bat2 := b } | _ => { G with bat3 := b }

/-- An operation joins the open batch of a class; the answer is the batch's number (R328). -/
def Group.joinBatch (G : Group) (cls : Nat) : Nat × Group :=
  let b := G.bat cls
  (b.opened, G.setBat cls { b with openOps := b.openOps + 1 })

/-- An operation of a batch has been performed. -/
def Group.batchOpDone (G : Group) (cls n : Nat) : Group :=
  let b := G.bat cls
  G.setBat cls (if n = b.opened then { b with openOps := b.openOps - 1 }
    else { b with sealedOps := b.sealedOps.map (fun p => if p.1 = n then (p.1, p.2 - 1) else p) })

/-- Operations of batches, each a group, a class and a number, have been performed. -/
def State.batchesDone (s : State) (bs : List (Nat × Nat × Nat)) : State :=
  bs.foldl (fun s b => s.modGrp b.1 (fun G => G.batchOpDone b.2.1 b.2.2)) s

/-! ### The directory (R370) -/

/-- The sharers that an entry names. -/
def DirEnt.named (e : DirEnt) : List Nat :=
  let sh :=
    match e.sharers with
    | .precise ds => ds
    | .coarse v => (List.range 64).filter (fun d => v.getLsbD (d / 8))
  dedup (sh ++ (List.range 64).filter (fun d => e.writers.getLsbD d))

/-- Puts an entry back, or removes it where it names no domain. -/
def State.setDir (s : State) (line : Nat) (e : DirEnt) : State :=
  s.modMs (fun m =>
    { m with dir := if e.named.isEmpty then Map.erase m.dir line else Map.insert m.dir line e })

/-- The domains of a coarse entry hold no copy: it returns to precise form (R370). -/
def State.dirTidy (s : State) (line : Nat) : State :=
  match Map.find s.ms.dir line with
  | some e =>
    match e.sharers with
    | .precise _ => s.setDir line e
    | .coarse v =>
      if (List.range 64).any (fun d => v.getLsbD (d / 8) && Map.has s.ms.l2 (l2Key d line)) then s
      else s.setDir line { e with sharers := .precise [] }
  | none => s

/-- A domain drops its copy of a line. -/
def State.dropCopy (s : State) (d line : Nat) : State :=
  let s1 := (s.evictLx d line).modMs (fun m => { m with l2 := Map.erase m.l2 (l2Key d line) })
  let s2 :=
    match Map.find s1.ms.dir line with
    | some e =>
      match e.sharers with
      | .precise ds => s1.setDir line { e with sharers := .precise (ds.filter (fun x => x != d)) }
      | .coarse _ => s1
    | none => s1
  s2.dirTidy line

/-- A domain is no longer a remote writer of a line (R372). -/
def State.dirUnwrite (s : State) (d line : Nat) : State :=
  match Map.find s.ms.dir line with
  | some e => s.setDir line { e with writers := e.writers &&& ~~~ BitVec.twoPow 64 d }
  | none => s

/-! ### Performing stores (R362, R363, R372-R374) -/

/-- Writes bytes and mark changes at a point of coherence: memory at home, or the owner's L2 for a private page homed
elsewhere (R374). -/
def State.pocPut (s : State) (cls owner : Nat) (ws : List (Nat × Byte)) (marks : List (Nat × Bool)) : State :=
  ws.foldl (fun s w =>
      if cls = 1 ∧ homeOf w.1 ≠ some owner then
        let key := l2Key owner (w.1 / 128)
        let l : L1Line := Map.getD s.ms.owned key
          { bytes := [], expiry := 0
            marks := (List.range 4).foldl (fun m i => setBit4 m i (s.mark (w.1 / 128 * 128 + 32 * i))) 0 }
        s.modMs (fun m => { m with owned := Map.insert m.owned key { l with bytes := Map.insert l.bytes (w.1 % 128) w.2 } })
      else s.putB w.1 w.2) s
    |> fun s => marks.foldl (fun s c =>
      if cls = 1 ∧ homeOf (32 * c.1) ≠ some owner then
        s.modMs (fun m => { m with
          owned := Map.modify m.owned (l2Key owner (c.1 / 4)) (fun l => { l with marks := setBit4 l.marks (c.1 % 4) c.2 }) })
      else s.setMark c.1 c.2) s

/-- Adds a request in flight; the answer is its number. -/
def State.addFlight (s : State) (f : Flight) : Nat × State :=
  (s.ms.next, s.modMs (fun m => { m with flights := Map.insert m.flights m.next f, next := m.next + 1 }))

/-- Changes a request in flight. -/
def State.modFlight (s : State) (id : Nat) (f : Flight → Flight) : State :=
  s.modMs (fun m => { m with flights := Map.modify m.flights id f })

/-- A lane of a request has been performed: no line is left and no fault holds it. -/
def LaneAcc.isDone (l : LaneAcc) : Bool := l.left.isEmpty && l.fault.isNone

/-- Every access of a request has been performed. -/
def Flight.allDone (f : Flight) : Bool := f.lanes.all LaneAcc.isDone

/-- A request that has nothing left to do leaves. -/
def State.sweepFlight (s : State) (id : Nat) : State :=
  match Map.find s.ms.flights id with
  | some f =>
    if f.allDone && f.performed.isEmpty && (f.ticket.isNone || f.lanes.all (fun l => l.done)) && f.parent.isNone then
      s.modMs (fun m => { m with flights := Map.erase m.flights id })
    else s
  | none => s

/-- Sends the probes of a store to the domains that the directory names (R362, R371): a fenced domain is answered at once
(R379). -/
def State.sendProbes (s : State) (fid line home : Nat) (mask : BitVec 128) : List Nat × State :=
  let ds := (((Map.find s.ms.dir line).map DirEnt.named).getD []).filter (fun d => !s.fencedD d)
  ds.foldl (fun r d =>
    let s := r.2
    let p : Probe :=
      { domain := d, line := line, written := mask, req := some fid, answer := none
        filter := s.partOfDomain d != s.partOfDomain home, at_ := s.wtime home }
    (r.1 ++ [s.ms.next], s.modMs (fun m => { m with probes := Map.insert m.probes m.next p, next := m.next + 1 }))) ([], s)

/-- Performs written bytes of one line at its point of coherence and starts its completion time (R362, R363): `marks` are
the changes of sector marks. The line's record goes to request `fid`. -/
def State.performHome (s : State) (fid line cls owner mem : Nat) (ws : List (Nat × Byte)) (marks : List (Nat × Bool))
    (refs : List StoreRef) : State :=
  let h := grantor 0 (128 * line) cls owner true
  let a := s.wtime h
  let t := if mem = 2 then a else max a (s.lxOf h line)
  let mask := lineMask (ws.map (fun w => (w.1, w.2, false)))
  let s1 := (s.pocPut cls owner ws marks).modMs (fun m => { m with
    probes := m.probes.map (fun p =>
      if p.2.line = line ∧ p.2.answer.isNone then (p.1, { p.2 with written := p.2.written ||| mask }) else p) })
  let (ps, s2) := if cls = 1 || mem = 2 then ([], s1) else s1.sendProbes fid line h mask
  s2.modFlight fid (fun f => { f with performed := f.performed ++ [{ line := line, probes := ps, t := t, refs := refs }] })

/-- The bytes and the mark changes of a store's written bytes of a line (R303); a copy-out clears the sectors that it has
completed (R314). -/
def storeParts (line : Nat) (ws : List WByte) (clears : BitVec 4) : List (Nat × Byte) × List (Nat × Bool) :=
  let ms := markRule (ws.map (fun w => (w.1, w.2.2)))
  (ws.map (fun w => (w.1, w.2.1)),
    ms ++ ((List.range 4).filter (fun i => clears.getLsbD i && ms.all (fun m => m.1 != 4 * line + i))).map
      (fun i => (4 * line + i, false)))

/-- The combined bytes of a line that a flush or a probe takes home, without those of a mask. -/
def Comb.parts (c : Comb) (line : Nat) (without : BitVec 128) : List (Nat × Byte) × List (Nat × Bool) :=
  (((List.range 128).filter (fun i => c.mask.getLsbD i && !without.getLsbD i)).map
      (fun i => (128 * line + i, Map.getD c.bytes i 0)),
    ((List.range 4).filter (fun i => c.marks.getLsbD i)).map (fun i => (4 * line + i, true)) ++
    ((List.range 4).filter (fun i => c.clears.getLsbD i && (without >>> (32 * i)).extractLsb' 0 32 == 0)).map
      (fun i => (4 * line + i, false)))

/-- A team's groups are resident on its core (R445). -/
def TeamSt.resident (t : TeamSt) : Bool :=
  match t with
  | .started | .stopping | .terminated => true
  | _ => false

/-- Sets lostst in the groups resident on the contributing cores of a domain (R445). -/
def State.loseOnCores (s : State) (d : Nat) (cores : BitVec 72) : State :=
  s.exe.groups.foldl (fun s p =>
    match s.tm p.2.team with
    | some T => if T.domain = d ∧ cores.getLsbD T.core ∧ T.st.resident ∧ !p.2.retired then s.setLost p.1 else s
    | none => s) s

/-- What a domain sends to a line's home joins its own copy of the line, where it has one: no access of the domain reads an older
value from that copy (R288, R364). -/
def State.l2Merge (s : State) (d line : Nat) (ws : List (Nat × Byte)) (marks : List (Nat × Bool)) : State :=
  s.modMs (fun m => { m with l2 := Map.modify m.l2 (l2Key d line) (fun l =>
    { l with
      bytes := Map.putAll l.bytes 0 (ws.map (fun w => (w.1 % 128, w.2)))
      marks := marks.foldl (fun m c => setBit4 m (c.1 % 4) c.2) l.marks }) })

/-- The combined bytes of a line go to the home in one message (R372), without the bytes that a probing store or a later
one has written (R362); a fenced home loses them (R445). -/
def State.flushComb (s : State) (d line : Nat) (without : BitVec 128) : State :=
  let key := l2Key d line
  match Map.find s.ms.combs key with
  | none => s
  | some c =>
    let s0 := s.modMs (fun m => { m with combs := Map.erase m.combs key })
    if s0.fencedPa (128 * line) then
      ((s0.lose c.stores (s0.wtime d)).loseOnCores d c.cores).batchesDone c.batches
    else
      let s1 := s0.dirUnwrite d line
      let (fid, s2) := s1.addFlight { kind := .store, core := 72 * d }
      let (ws, ms) := c.parts line without
      let s3 := (s2.l2Merge d line ws ms).performHome fid line 2 0 0 ws ms c.stores
      s3.batchesDone c.batches

/-- An owner's modified line goes home, and its L2 holds it no more (R136, R374). -/
def State.ownedHome (s : State) (d line : Nat) : State :=
  match Map.find s.ms.owned (l2Key d line) with
  | none => s
  | some l =>
    let s1 := l.bytes.foldl (fun s b => s.putB (128 * line + b.1) b.2) s
    let s2 := (List.range 4).foldl (fun s i => s.setMark (4 * line + i) (l.marks.getLsbD i)) s1
    (s2.evictLx d line).modMs (fun m => { m with owned := Map.erase m.owned (l2Key d line) })

/-- A domain's L2 gives up a line: a modified line that it owns and the combined bytes of the line go home first (R370, R372,
R374). -/
def State.dropL2 (s : State) (d line : Nat) : State :=
  let s1 := s.ownedHome d line
  if homeOf (128 * line) = some d then s1.evictLx d line else (s1.flushComb d line 0).dropCopy d line

/-- The lines of 128 bytes in 192 MiB (R1, R281). -/
abbrev l2Lines : Nat := 1572864

/-- A domain's L2 holds bytes of a line away from its home. -/
def Mem.l2Holds (m : Mem) (d line : Nat) : Bool :=
  Map.has m.l2 (l2Key d line) || Map.has m.owned (l2Key d line) || Map.has m.combs (l2Key d line)

/-- The lines that a domain's L2 holds away from their homes. -/
def Mem.l2Held (m : Mem) (d : Nat) : List Nat :=
  let mine := m.l2.keys.filter (fun k => k % 64 == d)
  ((mine ++ m.owned.keys.filter (fun k => k % 64 == d)) ++
    m.combs.keys.filter (fun k => k % 64 == d && !Map.has m.l2 k)).map (fun k => k / 64)

/-- Before a domain's L2 takes a line, a full one gives up another (R1, log entry 98). -/
def State.l2Room (s : State) (d line : Nat) : State :=
  if s.ms.l2Holds d line then s
  else
    let held := s.ms.l2Held d
    if held.length < l2Lines then s else s.dropL2 d (held.headD 0)

/-- Takes away a line's directory entry: every named domain drops its copy and sends its combined bytes home (R370), but for those
behind the border of another partition, which the probe filter answers for (R371). -/
def State.recall (s : State) (line : Nat) : State :=
  match Map.find s.ms.dir line with
  | none => s
  | some e =>
    let home := (homeOf (128 * line)).getD 0
    let near := e.named.filter (fun d => s.partOfDomain d == s.partOfDomain home)
    let s1 := near.foldl (fun s d => (s.flushComb d line 0).dropCopy d line) s
    s1.modMs (fun m => { m with dir := Map.erase m.dir line })

/-- Names a domain in a line's entry, as a sharer or as a remote writer; a new entry in a full directory recalls the least
recently allocated one (R370). -/
def State.dirAdd (s : State) (line d : Nat) (writer : Bool) : State :=
  let add (e : DirEnt) : DirEnt :=
    if writer then { e with writers := e.writers ||| BitVec.twoPow 64 d }
    else match e.sharers with
      | .precise ds =>
        if ds.contains d then e
        else if ds.length < 4 then { e with sharers := .precise (ds ++ [d]) }
        else { e with sharers := .coarse ((ds ++ [d]).foldl (fun v x => v ||| BitVec.twoPow 8 (x / 8)) 0) }
      | .coarse v => { e with sharers := .coarse (v ||| BitVec.twoPow 8 (d / 8)) }
  match Map.find s.ms.dir line with
  | some e => s.setDir line (add e)
  | none =>
    let h := homeOf (128 * line)
    let mine := s.ms.dir.filter (fun p => homeOf (128 * p.1) == h)
    let s1 :=
      if mine.length < 1048576 then s
      else match mine.foldl (fun (b : Option (Nat × DirEnt)) p =>
          match b with
          | some q => if p.2.seq < q.2.seq then some p else some q
          | none => some p) none with
        | some v => s.recall v.1
        | none => s
    let e : DirEnt := { sharers := .precise [], writers := 0, seq := s1.ms.dirSeq }
    (s1.modMs (fun m => { m with dirSeq := m.dirSeq + 1 })).setDir line (add e)

/-- A store's bytes of one line combine in the L2 of the storing core's domain (R285, R372, R363). -/
def State.combine (s : State) (k line : Nat) (ws : List WByte) (clears : BitVec 4) (ref : StoreRef)
    (batch : List (Nat × Nat × Nat)) : State :=
  let d := k / 72
  let s := s.l2Room d line
  let key := l2Key d line
  let now := s.wtime d
  let arr := max now (s.lxOf d line)
  let c0 : Comb := Map.getD s.ms.combs key { first := now, limit := now + 1000 * s.ct.cflush }
  let ch := (storeParts line ws clears).2
  let acked := c0.reg = 2
  let c : Comb :=
    { c0 with
      bytes := Map.putAll c0.bytes 0 (ws.map (fun w => (w.1 % 128, w.2.1)))
      mask := c0.mask ||| lineMask ws
      marks := ch.foldl (fun m x => setBit4 m (x.1 % 4) x.2) c0.marks
      clears := ch.foldl (fun m x => setBit4 m (x.1 % 4) (!x.2)) c0.clears
      cores := c0.cores ||| BitVec.twoPow 72 (k % 72)
      stores := c0.stores ++ [{ ref with dom := !acked, t := arr }]
      batches := if acked then c0.batches else c0.batches ++ batch }
  let s1 := s.modMs (fun m => { m with combs := Map.insert m.combs key c })
  if acked then (s1.modGrp ref.g (fun G => G.paidDom ref.seq (max arr c.ackAt))).batchesDone batch else s1

/-- A store of domain `d` to a page with these attributes combines (R285, R372). -/
def combines (d pa cls mem : Nat) : Bool := paRegion pa == 0 && cls != 1 && mem == 0 && homeOf pa != some d

/-- Performs a store's bytes of one line: lost in a fenced range (R441), combined, or performed at the point of
coherence. `ref` owes one line at both scopes. -/
def State.storeLine (s : State) (fid k line cls owner mem : Nat) (wide : Bool) (ws : List WByte)
    (clears : BitVec 4) (ref : StoreRef) (batch : List (Nat × Nat × Nat)) : State :=
  let ref := { ref with dom := true }
  if s.fencedAcc (128 * line) cls owner then (s.lose [ref] (s.wtime (k / 72))).batchesDone batch
  else if combines (k / 72) (128 * line) cls mem && !wide then s.combine k line ws clears ref batch
  else
    let (bs, ms) := storeParts line ws clears
    let s1 := if wide then s.flushComb (k / 72) line 0 else s
    let s2 := if cls = 1 then s1.l2Room owner line else s1.l2Merge (k / 72) line bs ms
    (s2.performHome fid line cls owner mem bs ms [ref]).batchesDone batch

/-- A probe reaches its domain, which drops its copy after its combined bytes have gone home; LXd is 0 where it holds no copy
(R362, R370). -/
def State.probeAt (s : State) (id : Nat) : State :=
  match Map.find s.ms.probes id with
  | none => s
  | some p =>
    if p.answer.isSome || p.filter then s
    else
      let lxd := if Map.has s.ms.l2 (l2Key p.domain p.line) then s.lxOf p.domain p.line else 0
      let s1 := (s.flushComb p.domain p.line p.written).dropCopy p.domain p.line
      let p' := { (Map.getD s1.ms.probes id p) with answer := some lxd, at_ := s1.wtime p.domain }
      s1.modMs (fun m => { m with probes := Map.insert m.probes id p' })

/-- An answered probe raises the completion time of its store (R362). -/
def State.probeDone (s : State) (id t : Nat) : State :=
  match Map.find s.ms.probes id with
  | none => s
  | some p =>
    let s1 := s.modMs (fun m => { m with probes := Map.erase m.probes id })
    match p.req with
    | none => s1
    | some f =>
      s1.modFlight f (fun f => { f with
        performed := f.performed.map (fun l =>
          if l.probes.contains id then { l with probes := l.probes.erase id, t := max l.t t } else l) })

/-- The completion time of one line returns to the storing core once every probe has answered (R362, R363). -/
def State.storeReturn (s : State) (fid line : Nat) : State :=
  match Map.find s.ms.flights fid with
  | none => s
  | some f =>
    match f.performed.find? (fun l => l.line == line && l.probes.isEmpty) with
    | none => s
    | some l =>
      let s1 := (s.paid l.refs l.t).modFlight fid (fun f => { f with performed := f.performed.erase l })
      s1.sweepFlight fid

/-! ### The order of a core's accesses (R288, R364, R286) -/

/-- Two accesses touch one byte, by virtual address. -/
def LaneAcc.meets (a : LaneAcc) (asz va size : Nat) : Bool := decide (a.va < va + size) && decide (va < a.va + asz)

/-- Two runs share a byte of a line. -/
def Seg.share (x y : Seg) (line : Nat) : Bool :=
  decide (max (max x.pa y.pa) (128 * line) < min (min (x.pa + x.len) (y.pa + y.len)) (128 * line + 128))

/-- An access that has not been performed in full still has bytes of another to touch: by virtual address where a fault holds it. -/
def LaneAcc.clash (a : LaneAcc) (asz : Nat) (b : LaneAcc) (bsz : Nat) : Bool :=
  if a.fault.isSome then a.meets asz b.va bsz
  else a.left.any (fun line => a.segs.any (fun x => b.segs.any (fun y => x.share y line)))

/-- A request only reads. -/
def FKind.reads : FKind → Bool
  | .load | .stashFill => true
  | _ => false

/-- One request of a group comes before another in the order of issue (R360). -/
def Flight.before (f' : Flight) (id' : Nat) (f : Flight) (id : Nat) : Bool :=
  f'.g == f.g && f'.ctx == f.ctx && (decide (f'.seq < f.seq) || (decide (f'.seq = f.seq) && decide (id' < id)))

/-- A stash fill's line is not ordered against the loads of its group: those read another space (R288). -/
def FKind.apart (k k' : FKind) : Bool := k.reads && k'.reads && (k == .stashFill || k' == .stashFill)

/-- An access of lane `l` of request `fid` must wait for another request: an earlier access of its group to the same bytes (R288),
or an earlier store of its core, has not been performed. -/
def State.mustWait (s : State) (fid : Nat) (f : Flight) (l : LaneAcc) : Bool :=
  s.ms.flights.any (fun p =>
    let f' := p.2
    if f'.before p.1 f fid then !f'.kind.apart f.kind && f'.lanes.any (fun l' => !l'.isDone && l'.clash f'.size l f.size)
    else f'.g != f.g && f'.core == f.core && decide (p.1 < fid) && !f'.kind.reads &&
      f'.lanes.any (fun l' => !l'.isDone && l'.fault.isNone && l'.clash f'.size l f.size))

/-- An access that is to be performed on a device page, or that a fault holds and may prove to be one (R286). -/
def LaneAcc.mayDevice (l : LaneAcc) : Bool := !l.isDone && decide (l.va < 2 ^ 64) && (l.mem == 2 || l.fault.isSome)

/-- An earlier request of the group may still have a device access to make (R286). -/
def State.deviceAhead (s : State) (fid : Nat) (f : Flight) : Bool :=
  s.ms.flights.any (fun p => p.2.before p.1 f fid && p.2.lanes.any LaneAcc.mayDevice)

/-- The lanes of a request that are performed when it reaches `line`, in increasing number: each has the line left, and no lower
lane with a byte of it still has to be performed. Device accesses are made one by one, after the group's earlier ones (R286,
R288, R302, R360). -/
def State.lanesAt (s : State) (fid : Nat) (f : Flight) (line : Nat) : List LaneAcc :=
  let ahead := s.deviceAhead fid f
  (f.lanes.foldl (fun (r : List LaneAcc × List LaneAcc × Bool) l =>
    let dev := r.2.2 || l.mayDevice
    if l.isDone then r
    else if l.fault.isSome then (r.1, l :: r.2.1, dev)
    else if !l.left.contains line then (r.1, r.2.1, dev)
    else if s.mustWait fid f l || r.2.1.any (fun b => b.clash f.size l f.size) || (l.mem == 2 && (ahead || r.2.2)) then
      (r.1, l :: r.2.1, dev)
    else (r.1 ++ [l], r.2.1, dev)) ([], [], false)).1

/-- The bytes of a lane's access that lie in a line: physical address, offset in the access, CLS, OWNER. -/
def LaneAcc.bytesIn (l : LaneAcc) (line : Nat) : List (Nat × Nat × Nat × Nat) :=
  l.segs.flatMap (fun g =>
    ((List.range g.len).filter (fun i => (g.pa + i) / 128 == line)).map (fun i => (g.pa + i, g.ofs + i, g.cls, g.owner)))

/-- CLS and OWNER of the page behind a line of a request. -/
def Flight.lineAttr (f : Flight) (line : Nat) : Nat × Nat :=
  match f.lanes.findSome? (fun l => (l.bytesIn line).head?) with
  | some b => (b.2.2.1, b.2.2.2)
  | none => (2, 0)

/-- Replaces lanes of a request. -/
def Flight.setLanes (f : Flight) (ls : List LaneAcc) : Flight :=
  { f with lanes := f.lanes.map (fun l => (ls.find? (fun x => x.lane == l.lane)).getD l) }

/-- A load's lane receives the bytes of a line. -/
def LaneAcc.take (l : LaneAcc) (line : Nat) (bs : List (Nat × Byte × Bool)) : LaneAcc :=
  { l with
    left := l.left.filter (fun x => x != line)
    got := bs.foldl (fun n b => n + b.2.1.toNat * 256 ^ b.1) l.got
    gotPsn := bs.foldl (fun n b => if b.2.2 then n ||| 2 ^ (b.1 / 4) else n) l.gotPsn }

/-- A core has a store on its way to a line: a lease of the line is not kept in L1. -/
def State.storeOnWay (s : State) (k line : Nat) : Bool :=
  s.ms.flights.any (fun p => p.2.core == k && !p.2.kind.reads && p.2.lanes.any (fun l => l.left.contains line))

/-- Lanes receive the bytes of a line as synthesised poison, with free values (R172, R379). -/
def State.freeLanes (s : State) (line : Nat) (ls : List LaneAcc) : List LaneAcc × State :=
  let (w, s1) := s.draws 3072
  (ls.map (fun l => l.take line ((l.bytesIn line).map (fun b =>
    (b.2.1, BitVec.ofNat 8 ((w (32 * l.lane + b.2.1 / 4)).toNat / 256 ^ (b.2.1 % 4)), true)))), s1)

/-- A load request reads a line at its point of coherence (R359, R361, R366). A read at the home of a line that the domain holds a
copy of renews that copy: the group reads nothing older afterwards (R364). -/
def State.loadLine (s : State) (fid line : Nat) : State :=
  match Map.find s.ms.flights fid with
  | none => s
  | some f =>
    let ls := s.lanesAt fid f line
    match ls with
    | [] => s
    | l0 :: _ =>
      let k := f.core
      let d := k / 72
      let (cls, owner) := f.lineAttr line
      let pa0 := 128 * line
      if s.fencedAcc pa0 cls owner then
        let (w, s1) := s.freeLanes line ls
        s1.modFlight fid (fun f => f.setLanes w)
      else
        let wide := (f.acq && decide (2 ≤ f.scope)) || l0.mem != 0
        let remote := cls != 1 && (homeOf pa0).isSome && homeOf pa0 != some d
        let s1 := if wide && remote then (s.flushComb d line 0).l1Drop k line
          else if f.acq then s.l1Drop k line else s
        let here := Map.has s1.ms.l2 (l2Key d line)
        let fetch (s : State) : State :=
          s.modMs (fun m => { m with l2 := Map.insert m.l2 (l2Key d line) (s.pocLine d line cls owner true 0) })
        let s2 :=
          if remote && wide && here then fetch s1
          else if remote && !wide && !here then (fetch (s1.l2Room d line)).dirAdd line d false
          else s1
        let rd (b : Nat × Nat × Nat × Nat) : Nat × Byte × Bool :=
          let v := s2.pocByte d b.1 b.2.2.1 b.2.2.2 wide
          (b.2.1, v.1, v.2)
        let keeps : Bool := l0.mem == 0 && !f.noAlloc && !f.acq
        let (e, s3) := if keeps then s2.grant (grantor d pa0 cls owner wide) line l0.lease else (0, s2)
        let s4 := s3.modFlight fid (fun f =>
          f.setLanes (ls.map (fun l => { l.take line ((l.bytesIn line).map rd) with expiry := e })))
        if keeps && !s4.storeOnWay k line then s4.l1Fill k line (s4.pocLine d line cls owner wide e) else s4

/-- The written bytes of the lanes of a store that lie in a line, in increasing lane number (R302). -/
def storeBytes (ls : List LaneAcc) (line : Nat) : List WByte :=
  ls.flatMap (fun l => (l.bytesIn line).map (fun b => (b.1, BitVec.ofNat 8 (l.data / 256 ^ b.2.1), l.psn)))

/-- The number under which a store's completion times are owed: stores of a copy-out apart from the group's own, by batch
(R365, R376). -/
def Flight.owes (f : Flight) : Nat :=
  match f.batch with
  | some (1, b) => 2 ^ 64 + b
  | _ => f.seq

/-- A byte of a copy, or of a store's instruction, joins the record of its destination sector (R303, R314). -/
def secAdd (m : Map (BitVec 33)) (addr : Nat) (p : Bool) : Map (BitVec 33) :=
  let old : BitVec 33 := Map.getD m (addr / 32) 0
  Map.insert m (addr / 32) (old ||| BitVec.twoPow 33 (addr % 32) ||| (if p then BitVec.twoPow 33 32 else 0))

/-- Sectors whose 32 bytes a copy or an instruction has all written clean. -/
def secsClean (m : Map (BitVec 33)) : List Nat :=
  (m.filter (fun p => p.2 == (BitVec.allOnes 32).zeroExtend 33)).map (fun p => p.1)

/-- Sectors of a line among a list, as bits. -/
def lineSecs (line : Nat) (secs : List Nat) : BitVec 4 :=
  (List.range 4).foldl (fun b i => if secs.contains (4 * line + i) then b ||| BitVec.twoPow 4 i else b) 0

/-- A store request reaches its point of coherence, or its combining L2, with the bytes of a line (R362, R372). A sector that its
instruction has now written in full with clean data is cleared (R303). -/
def State.storeAt (s : State) (fid line : Nat) : State :=
  match Map.find s.ms.flights fid with
  | none => s
  | some f =>
    let ls := s.lanesAt fid f line
    match ls with
    | [] => s
    | l0 :: _ =>
      let (cls, owner) := f.lineAttr line
      let secs := (storeBytes ls line).foldl (fun m w => secAdd m w.1 w.2.2) f.secs
      let clean := lineSecs line (secsClean secs)
      let s1 := s.modFlight fid (fun f =>
        { f.setLanes (ls.map (fun l => { l with left := l.left.filter (fun x => x != line) })) with
            secs := if f.batch.isSome then f.secs else secs.filter (fun q => !(secsClean secs).contains q.1) })
      let more := ((Map.find s1.ms.flights fid).map (fun f => f.lanes.any (fun l => l.left.contains line))).getD false
      let batch := if more then [] else (f.batch.map (fun b => [(f.g, b.1, b.2)])).getD []
      let s2 := s1.storeLine fid f.core line cls owner l0.mem (decide (2 ≤ f.scope)) (storeBytes ls line)
        (if f.batch.isSome then BitVec.ofNat 4 f.op else clean)
        { g := f.g, seq := f.owes, dom := true } batch
      let s3 := if more then s2.modGrp f.g (fun G => G.owe f.owes 1) else s2
      s3.sweepFlight fid

end Sys2Proof.Machine
end

