-- ==== Sys2Proof/Machine/Ops.lean ====
section
/-! DEFINITION. The named operations that instructions and events share: waiting and waking, taking a trap and returning
from one (R414-R425), termination, the effects of issuing an instruction, the delivery of completions (R168), and the end
of a step. -/

namespace Sys2Proof.Machine

/-! ### Waiting and waking -/

/-- A slice's latch chain ends where this split held it (R176). -/
def State.endChain (s : State) (g e : Nat) : State :=
  match s.grp g with
  | none => s
  | some G =>
    match s.tm G.team with
    | none => s
    | some T => s.modSlice (sliceKey T.coreKey G.slice) (fun sl => if sl.chain = some (g, e) then { sl with chain := none } else sl)

/-- A split stops issuing in a state of waiting: it leaves the ready queue, and its latch chain ends (R161, R176). What it has
translated stays with it until the instruction issues (R139). -/
def State.hold (s : State) (g e : Nat) (st : SplitSt) (w : Wait) : State :=
  (s.modGrp g (fun G =>
    { G.modSp e (fun sp =>
        { sp with st := st, wait := w, waitSeq := G.waitSeq, chain := 0, fresh := false }) with
        rq := G.rq.erase e, waitSeq := G.waitSeq + 1 })).endChain g e

/-- A ready queue that a woken split joins at its tail; among the splits woken in the same cycle it takes its place in the
order in which they began to wait (R170, R178). -/
def Group.joinWoken (G : Group) (e : Nat) : List Nat :=
  let rq := G.rq.erase e
  let after (x : Nat) : Bool := (G.sp x).fresh && decide ((G.sp e).waitSeq < (G.sp x).waitSeq)
  rq.takeWhile (fun x => !after x) ++ e :: rq.dropWhile (fun x => !after x)

/-- A split becomes ready and joins its group's ready queue; it may be chosen from the next cycle on (R170, R178). A trap that
waits for a bank or for a frame page stays with it, and is taken when the split is next chosen (R415, R418). -/
def Group.wake (G : Group) (e : Nat) : Group :=
  { G.modSp e (fun sp =>
      { sp with
          st := .ready
          fresh := true
          wait := match sp.wait with
            | .bank t => .bank t
            | .trapFault n t => .trapFault n t
            | _ => .none
          arrived := match sp.wait with
            | .teamBar _ _ | .byteBar _ _ | .tileOps _ => 1
            | .sealRoom cls => cls + 1
            | _ => sp.arrived }) with
      rq := G.joinWoken e }

/-- Wakes a split. -/
def State.wake (s : State) (g e : Nat) : State := s.modGrp g (fun G => G.wake e)

/-- The trap that a ready split has yet to take. -/
def Split.pendingTrap (sp : Split) : Option TrapRec :=
  match sp.wait with
  | .bank t => some t
  | .trapFault _ t => some t
  | _ => none

/-- A split has done a part of its instruction, or has a trap to take. -/
def Split.midway (sp : Split) : Bool := sp.arrived != 0 || sp.relDone || sp.msg.isSome || sp.pendingTrap.isSome || sp.doomed != 0

/-- Requests of a group that read and have not been performed, up to an issue number; copies are not among them (R365). -/
def State.loadsOut (s : State) (g seq : Nat) : Bool :=
  s.ms.flights.any (fun p =>
    p.2.g == g && decide (p.2.seq < seq) && (p.2.kind == .load || p.2.kind == .atom || p.2.kind == .stashFill) && !p.2.allDone)

/-- An acquire of a group has not been performed: a load, an atomic or a SEAMRECV (R366, R399). -/
def State.acquireOut (s : State) (g : Nat) : Bool :=
  s.ms.flights.any (fun p => p.2.g == g && p.2.acq && !p.2.allDone) ||
    s.eng.sops.any (fun p => p.2.g == g && (match p.2.kind with | .recv _ _ acq _ => acq | _ => false))

/-- A split waits in a fence that holds the group's later accesses, or its later stores alone in a FENCE.rel (R390). -/
def Split.inFence (sp : Split) (store : Bool) : Bool :=
  sp.st == .waiting && (match sp.wait with | .fence _ _ kind => store || kind != 2 | _ => false)

/-- A split of a group waits in a fence that holds an access, a store or not (R390). -/
def Group.inFence (G : Group) (store : Bool) : Bool := G.valid.any (fun e => (G.sp e).inFence store)

/-- A request waits for the service of a fault entry that others are attached to (R141). -/
def State.joinFault (s : State) (fe : Nat) (r : AReq) : State :=
  { s with tr := { s.tr with faults := Map.modify s.tr.faults fe (fun f => { f with reqs := f.reqs ++ [r] }) } }

/-- The groups of a slice of a core. -/
def State.onSlice (s : State) (k sl : Nat) : List (Nat × Group) :=
  s.exe.groups.filter (fun p =>
    !p.2.retired && p.2.slice == sl &&
      (match s.tm p.2.team with
       | some T => T.coreKey == k && (T.st == .started || T.st == .reserved || T.st == .terminated || T.st == .stopping)
       | none => false))

/-- Handler banks of a slice in use (R418). -/
def State.banksUsed (s : State) (k sl : Nat) : Nat :=
  (s.exe.groups.filter (fun p =>
    p.2.bank && p.2.slice == sl &&
      (match s.tm p.2.team with
       | some T => T.coreKey == k && (T.st == .started || T.st == .terminated || T.st == .stopping)
       | none => false))).length

/-- The byte barrier of a team. -/
def Team.bb (T : Team) (n : Nat) : ByteBar := Map.getD T.bbars n {}

/-- The team barrier of a team. -/
def Team.tb (T : Team) (n : Nat) : TeamBar := Map.getD T.tbars n {}

/-- A team stands on a core. -/
def State.teamOn (s : State) (t k : Nat) : Bool := ((s.tm t).map (fun T => T.coreKey == k)).getD false

/-- Operations that the Seam engine of a core holds: messages not yet delivered and operations that wait (R393). -/
def State.seamLoad (s : State) (k : Nat) : Nat :=
  (s.eng.sops.filter (fun p => s.teamOn p.2.team k)).length + (s.eng.smsgs.filter (fun p => s.teamOn p.2.team k)).length

/-- The latch chain of its slice binds a group (R176). -/
def State.inChain (s : State) (g : Nat) : Bool :=
  match s.grp g with
  | none => false
  | some G =>
    match s.tm G.team with
    | none => false
    | some T => ((s.sliceAt (sliceKey T.coreKey G.slice)).chain.map (fun p =>
        p.1 == g && (G.sp p.2).v && (G.sp p.2).chain != 0)).getD false

/-- Copies in the engine of a core: those of teams that are saved elsewhere have left it (R312, R331). -/
def State.copiesOn (s : State) (k : Nat) : Nat :=
  (s.eng.copies.filter (fun c => c.2.core == k && ((s.tm c.2.team).map (fun T => T.st != .saved)).getD true)).length

/-- What a split waits for has come about (R163-R170, R330, R334, R335, R366, R392, R418, R427). The waits that an event of
their own ends are not among these. -/
def State.waitOver (s : State) (G : Group) (T : Team) (w : Wait) : Bool :=
  match w with
  | .regs pend held =>
    pend.all (fun r => if 256 ≤ r then !Map.has G.slots (r - 256) else (G.pendOf r).isNone) &&
      held.all (fun r => !G.isHeldReg r)
  | .walkRoom => walkRoom s T.domain
  | .copySlot => s.copiesOn T.coreKey < 64
  | .platenSlot => (s.eng.pops.filter (fun p => p.2.core == T.coreKey)).length < 16
  | .seamSlot => s.seamLoad T.coreKey < 16
  | .ticket => G.freeTicket.isSome
  | .tileOps ids => ids.all (fun i => !Map.has s.eng.pops i)
  | .sealRoom cls => (G.bat cls).sealedOps.length < 63
  | .batches cls n => (G.bat cls).sealedOps.length ≤ n
  | .byteBar n ph => (T.bb n).ph != ph
  | .teamBar n ph => (T.tb n).ph != ph
  | .freeze gs => gs.all (fun g => !s.inChain g)
  | .bank _ => G.regs8 == 32 || G.lvl != 0 || decide (s.banksUsed T.coreKey G.slice < 2)
  | .acquire => false
  | _ => false

/-- Whether an entry of a group may be woken now. -/
def State.wakable (s : State) (g : Nat) (G : Group) (e : Nat) : Bool :=
  let sp := G.sp e
  if !sp.v then false
  else match sp.st with
    | .heldEntry => decide (G.valid.length < 4)
    | .parked | .waiting =>
      (match sp.wait with
       | .acquire => !s.acquireOut g && !G.inFence false
       | w => (match s.tm G.team with
         | some T => s.waitOver G T w
         | none => false))
    | _ => false

/-- The entries of a group in the order in which they began to wait (R170). -/
def Group.byWait (G : Group) : List Nat :=
  sortBy (fun a b => decide ((G.sp a).waitSeq ≤ (G.sp b).waitSeq)) [0, 1, 2, 3]

/-- A group that FREEZE has stopped holds no chain: CHAIN is 0 in every split (R176). -/
def Group.unchain (G : Group) : Group := { G with splits := G.splits.map (fun sp => { sp with chain := 0 }) }

/-- Wakes the splits of one group whose waits are over; a frozen group out of its chain has stopped (R427). -/
def State.settleGroup (s : State) (g : Nat) (G : Group) : Group :=
  let G1 := (G.byWait.filter (s.wakable g G)).foldl Group.wake G
  if G.frozen && !s.inChain g then G1.unchain else G1

/-- Wakes every split whose wait is over. -/
def State.settle (s : State) : State :=
  { s with exe := { s.exe with groups := s.exe.groups.map (fun p => (p.1, s.settleGroup p.1 p.2)) } }

/-- The bytes that a step has written become memory. -/
def State.commit (s : State) : State :=
  { s with ms := { s.ms with bytes := Memory.apply s.ms.bytes s.wlog }, wlog := [] }

/-- An operation of the Platen is the first of its tile (R334). -/
def State.firstOfTile (s : State) (id : Nat) (p : POp) : Bool :=
  s.eng.pops.all (fun q => !(q.2.team == p.team && q.2.tile == p.tile) || decide (id ≤ q.1))

/-- The gate of an MLOOP that is the first of its tile is released when its barrier is in the other phase (R341). -/
def State.openGate (s : State) (id : Nat) (p : POp) : POp :=
  match p.kind with
  | .mloop m =>
    match m.gate, m.opened, s.tm p.team with
    | some (n, ph), none, some T =>
      if (T.bb n).ph != ph && s.firstOfTile id p then { p with kind := .mloop { m with opened := some (T.bb n).plast } } else p
    | _, _, _ => p
  | _ => p

/-- Releases the Platen gates whose phases have completed. -/
def State.openGates (s : State) : State :=
  { s with eng := { s.eng with pops := s.eng.pops.map (fun p => (p.1, s.openGate p.1 p.2)) } }

/-- The end of a step: the turn is over. -/
def State.finish (s : State) : State := { s.settle.openGates.commit with cur := .idle }

/-! ### Ranges of virtual memory translated at once -/

/-- A translated range, or where it fails. -/
inductive Range where
  | ok (segs : List Seg) (mem lease : Nat)
  | recov (va level : Nat) (cls : Bool)
  | fatal (va cause : Nat)
deriving DecidableEq, Repr

/-- The pieces of a range that lie in one 4 KiB unit each: address, length, offset. -/
def pieces (va len : Nat) : List (Nat × Nat × Nat) :=
  let n := (va % 4096 + len + 4095) / 4096
  (List.range n).map (fun i =>
    let a := if i = 0 then va else (va / 4096 + i) * 4096
    let e := min (va + len) ((va / 4096 + i + 1) * 4096)
    (a, e - a, a - va))

/-- Translates a range at once. -/
def xlateRange (s : State) (k ctx va len : Nat) (acc : Acc) (user : Bool) : Range × State :=
  (pieces va len).foldl (fun r p =>
    match r.1 with
    | .ok segs mem lease =>
      let (x, s1) := xlateNow r.2 k ctx p.1 acc user
      (match x with
       | .ok l pa => (.ok (segs ++ [{ pa := pa, len := p.2.1, ofs := p.2.2, cls := l.cls, owner := l.owner }])
           (if segs.isEmpty then l.mem else mem) (if segs.isEmpty then l.lease else lease), s1)
       | .recov lvl cls => (.recov p.1 lvl cls, s1)
       | .fatal c => (.fatal p.1 c, s1))
    | _ => r) (.ok [] 0 0, s)

/-- The lines that runs touch. -/
def linesOf (segs : List Seg) : List Nat :=
  dedup (segs.flatMap (fun g => (List.range g.len).map (fun i => (g.pa + i) / 128)))

/-- The lines of a long run, without listing its bytes. -/
def linesOfRun (pa len : Nat) : List Nat := (List.range ((pa % 128 + len + 127) / 128)).map (fun i => pa / 128 + i)

/-- Performs bytes at their homes at once, as stores of a group: the core's copies of the lines give way. The
frame accesses of R415 and the write-backs of engines use it. -/
def State.writeNow (s : State) (k g seq : Nat) (segs : List Seg) (bytes : Nat → Byte) (psn : Nat → Bool) (mem : Nat) : State :=
  segs.foldl (fun s sg =>
    (linesOfRun sg.pa sg.len).foldl (fun s line =>
      let ws : List WByte :=
        ((List.range 128).filter (fun i => sg.pa ≤ 128 * line + i && 128 * line + i < sg.pa + sg.len)).map
          (fun i => let o := sg.ofs + (128 * line + i - sg.pa); (128 * line + i, bytes o, psn o))
      let d := k / 72
      let s1 := ((s.flushComb d line 0).l1Drop k line).modGrp g (fun G => G.owe seq 1)
      let (fid, s2) := s1.addFlight { g := g, seq := seq, core := k, kind := .store }
      (s2.storeLine fid k line sg.cls sg.owner mem true ws 0 { g := g, seq := seq, dom := true } []).sweepFlight fid) s) s

/-- Reads bytes at their homes at once: each with its poison; a fenced range reads as poison (R441). -/
def State.readNow (s : State) (k : Nat) (segs : List Seg) : List (Nat × Byte × Bool) × State :=
  let d := k / 72
  let s1 := segs.foldl (fun s sg => (linesOfRun sg.pa sg.len).foldl (fun s line => s.flushComb d line 0) s) s
  (segs.flatMap (fun sg => (List.range sg.len).map (fun i =>
    let b := s1.pocByte d (sg.pa + i) sg.cls sg.owner true
    (sg.ofs + i, b.1, b.2 || s1.fencedAcc (sg.pa + i) sg.cls sg.owner))), s1)

/-! ### Trap frames (R410-R416) -/

/-- psw (R413). -/
def Group.psw (G : Group) : Word :=
  BitVec.ofNat 32 (G.lvl + (if G.duplex then 4 else 0) + (if G.bank then 8 else 0) + 16 * G.held.toNat +
    (if G.frozen then 256 else 0))

/-- tframe of a group (R411). -/
def State.tframe (s : State) (G : Group) (T : Team) : Nat :=
  ((s.trapBlk (s.ctxOf T)).fbase.toNat + 10240 * (48 * T.coreKey + 8 * G.slice + G.slot)) % 2 ^ 64

/-- An entry of the split table as a number of 48 bytes (R161). -/
def Split.toNat (sp : Split) : Nat :=
  sp.pc.toNat + sp.rpc.toNat * 2 ^ 64 + sp.memb.toNat * 2 ^ 128 + sp.mask.toNat * 2 ^ 224 +
    (if sp.v then 2 ^ 320 else 0) + sp.st.code * 2 ^ 321 + sp.chain * 2 ^ 324 + sp.lval * 2 ^ 328

/-- An entry as the layout shows it: a split that runs at handler level and stands ready shows ST = 5 (R161, log entry 38). -/
def Group.shown (G : Group) (e : Nat) : Split :=
  let sp := G.sp e
  if sp.v && G.lvl != 0 && !G.isHeld e && sp.st == .ready then { sp with st := .handler } else sp

/-- The fields of an entry that a number of 48 bytes holds, put into an entry; ST = 5 is ready within the handler (R161). -/
def Split.ofNat (sp : Split) (n : Nat) : Split :=
  { sp.setLanes (BitVec.ofNat 96 (n / 2 ^ 128)) (BitVec.ofNat 96 (n / 2 ^ 224)) with
      pc := BitVec.ofNat 64 n, rpc := BitVec.ofNat 64 (n / 2 ^ 64), v := n.testBit 320
      st := match SplitSt.ofCode (n / 2 ^ 321 % 8) with | some .handler => .ready | some st => st | none => .ready
      chain := n / 2 ^ 324 % 16, lval := n / 2 ^ 328 % 8 }

/-- Latch entry `k` of a lane. -/
def Split.latchAt (sp : Split) (k j : Nat) : LW2 := Map.getD sp.latch (96 * k + j) {}

/-- A mask as twelve bytes. -/
def laneBytes (m : Lanes) : List Byte := leBytes 12 m.toNat

/-- The first 0x25A0 bytes of a trap frame at entry to level 1 (R415, R416). -/
def frameBytes (G : Group) (sp : Split) (psw : Word) : List Byte :=
  let all := List.range 96
  let slots := List.range 16
  let own := G.regs8 = 32
  let val (m j : Nat) : LW := if own then G.reg (240 + m) j else {}
  slots.flatMap (fun m => all.flatMap (fun j => leBytes 4 (val m j).val.toNat)) ++
  slots.flatMap (fun m => laneBytes (Lanes.ofPred (fun j => (val m j).psn))) ++
  slots.flatMap (fun m =>
    leBytes 2 (match (if own then G.pendOf (240 + m) else none) with | some t => t + 256 | none => 0)) ++
  leBytes 32 0 ++
  ([0, 1, 2, 3] : List Nat).flatMap (fun k => all.flatMap (fun j => leBytes 8 (sp.latchAt k j).val.toNat)) ++
  ([0, 1, 2, 3] : List Nat).flatMap (fun k => leBytes 24 (all.foldl (fun n j =>
    n + (if (sp.latchAt k j).pLo then 2 ^ (2 * j) else 0) + (if (sp.latchAt k j).pHi then 2 ^ (2 * j + 1) else 0)) 0)) ++
  leBytes 48 sp.toNat ++
  leBytes 4 (sp.sig.toNat + sp.lval * 2 ^ 16) ++ leBytes 4 psw.toNat ++ leBytes 8 0

/-- The 128 bytes of the level-2 area (R416, R420). -/
def level2Bytes (G : Group) (sp : Split) : List Byte :=
  leBytes 8 G.tpc.toNat ++ leBytes 8 G.tva.toNat ++ leBytes 4 G.tcause.toNat ++ leBytes 16 G.tinst.toNat ++
  laneBytes G.tlanes ++ laneBytes G.tmask ++ leBytes 4 0 ++ leBytes 48 sp.toNat ++ leBytes 16 sp.sig.toNat

/-! ### Termination (R425) -/

/-- A Platen operation that termination discards: all but a drain that has read its tile. -/
def POp.unstarted (p : POp) : Bool :=
  match p.kind with
  | .drain d => d.buf.isNone
  | _ => true

/-- A claim resolves with its completions discarded: its ticket is free (R425). -/
def Group.dropTicket (G : Group) (t : Nat) : Group :=
  let G1 := { G with claims := Map.modify G.claims t (fun c => { c with lanes := 0, arriving := 0 }) }
  (G1.settleClaim t).sweepClaims

/-- The other sub-launches of a quire fail with a sub-launch, the first to do so (R39). -/
def State.failQuire (s : State) (l : Nat) : State :=
  match s.launch l with
  | none => s
  | some L =>
    if L.forme.quire || L.forme.qmem then
      { s with wk := { s.wk with launches := s.wk.launches.map (fun (p : Nat × Launch) =>
        if p.2.head = L.head ∧ p.2.qfail.isNone then (p.1, { p.2 with qfail := some L.sub }) else p) } }
    else s

/-- Ends a team with an error status (R425): its groups stop, its Platen and Seam operations that wait are discarded with
their claims, and its launch takes the cause of the first team so ended. -/
def State.terminate (s : State) (t cause : Nat) : State :=
  match s.tm t with
  | none => s
  | some T =>
    if T.st == .terminated || T.st == .retired || T.st == .lost then s
    else
      let dropP := s.eng.pops.filter (fun p => p.2.team == t && p.2.unstarted)
      let dropS := s.eng.sops.filter (fun p => p.2.team == t)
      let s1 := s.setTm t { T with st := .terminated, cause := some cause, ports := [] }
      let s2 := T.groups.foldl (fun s g => s.modGrp g (fun G => { G with stopped := true, holds := [] })) s1
      let s3 := dropP.foldl (fun s p =>
        match p.2.kind with
        | .drain d => s.modGrp p.2.g (fun G =>
            match d.ticket with
            | some tk => G.dropTicket tk
            | none => G.batchOpDone 0 d.batch)
        | _ => s) s2
      let s4 := dropS.foldl (fun s p =>
        let s' := match p.2.batch with
          | some b => s.modGrp p.2.g (fun G => G.batchOpDone 2 b)
          | none => s
        match p.2.kind with
        | .recv (some tk) _ _ _ => s'.modGrp p.2.g (fun G => G.dropTicket tk)
        | _ => s') s3
      let s5 := { s4 with eng := { s4.eng with
        pops := s4.eng.pops.filter (fun p => !(p.2.team == t && p.2.unstarted))
        sops := s4.eng.sops.filter (fun p => !(p.2.team == t)) } }
      (s5.modLaunch T.launch (fun l => if l.cause.isNone then { l with cause := some cause } else l)).failQuire T.launch

/-! ### Trap entry (R414-R421) -/

/-- Records a trap in the system registers of a group (R412, R415). -/
def Group.record (G : Group) (t : TrapRec) : Group :=
  { G with
      tpc := t.tpc, tva := t.tva, tinst := t.tinst, tlanes := t.tlanes, tmask := t.tmask
      tcause := BitVec.ofNat 32 (t.cause + 256 * G.lvl) }

/-- The split continues in a handler at `pc` (R415, R420). -/
def Split.enter (sp : Split) (pc : DWord) : Split :=
  { sp with pc := pc, chain := 0, lval := 0, latch := [], sig := 0xFFFF, st := .ready, wait := .none, xlat := []
            relDone := false, arrived := 0, msg := none, fbuf := [], exempt := false, fresh := false, inst := none }

/-- Claims that deliver to v240-v255 deliver to the frame slots instead (R415). -/
def Group.bindSlots (G : Group) : Group :=
  let pend := (List.range 16).filterMap (fun m => (Map.find G.pend (240 + m)).map (fun t => (m, t)))
  { G with
      slots := pend
      pend := G.pend.filter (fun p => p.1 < 240)
      claims := G.claims.map (fun p => (p.1,
        { p.2 with dests := p.2.dests.map (fun d => d.map (fun r => if 240 ≤ r ∧ r < 256 then r + 16 else r)) }))
      regs := G.regs.filter (fun p => p.1 < 96 * 240) }

/-- The group after entry to level 1 in entry `e` (R415, R418). -/
def Group.enter1 (G : Group) (e : Nat) (t : TrapRec) (tbase : DWord) : Group :=
  let G1 := if G.regs8 = 32 then G.bindSlots else { G with bank := true }
  let G2 := { G1.record t with lvl := 1, hregs := [], hpend := [], rq := G.rq.erase e ++ [e] }
  G2.modSp e (fun sp => { sp.enter tbase with rpc := 0 })

/-- The group after entry to level 2 in entry `e` (R420). -/
def Group.enter2 (G : Group) (e : Nat) (t : TrapRec) (tbase : DWord) : Group :=
  let others := (G.valid.filter (fun x => x != e)).foldl (fun m x => m ||| BitVec.twoPow 4 x) G.held
  let G1 := { G.record t with lvl := 2, held1 := G.held, held := others, rq := G.rq.erase e ++ [e] }
  G1.modSp e (fun sp => sp.enter (tbase + 0x100))

/-- The slice holds another group's beat since this group last issued: its latch histories are lost (R175). -/
def State.loseLatches (s : State) (g : Nat) : State :=
  match s.grp g with
  | none => s
  | some G =>
    match s.tm G.team with
    | none => s
    | some T =>
      if (s.sliceAt (sliceKey T.coreKey G.slice)).owner = some g then s
      else s.setGrp g { G with splits := G.splits.map (fun sp => { sp with lval := 0, latch := [] }) }

/-- Delivers a trap to entry `e` of group `g` (R414-R420): it waits for a handler bank or for a frame page, ends the team
where the frame cannot be written or the level is 2, or enters the handler. A latch history that another group's beat has cost
is lost before it is saved (R175). -/
def State.deliver (s0 : State) (g e : Nat) (t : TrapRec) : State :=
  let s := s0.loseLatches g
  match s.grp g with
  | none => s
  | some G =>
    match s.tm G.team with
    | none => s
    | some T =>
      if 2 ≤ G.lvl then s.terminate G.team t.cause
      else if G.lvl = 0 ∧ G.regs8 < 32 ∧ 2 ≤ s.banksUsed T.coreKey G.slice then s.hold g e .waiting (.bank t)
      else
        let ctx := s.ctxOf T
        let k := T.coreKey
        let tb := (s.trapBlk ctx).tbase
        let held := (G.valid.filter (fun x => x != e)).foldl (fun m x => m ||| BitVec.twoPow 4 x) (0 : BitVec 4)
        let G0 := if G.lvl = 0 then { G with held := held } else G
        let base := s.tframe G T
        let (start, bs) :=
          if G.lvl = 0 then (base, frameBytes G0 { G0.sp e with st := .ready } G0.psw) else (base + 0x25A0, level2Bytes G (G.shown e))
        match xlateRange s k ctx start bs.length .write false with
        | (.recov va lvl cls, s1) =>
          let (id, s2) := attachFault s1 k ctx T.index va lvl cls .write (.split g e)
          s2.hold g e .waiting (.trapFault id t)
        | (.fatal _ _, s1) => s1.terminate G.team t.cause
        | (.ok segs mem _, s1) =>
          let arr := bs.toArray
          let s2 := s1.writeNow k g G.seq segs (fun i => arr.getD i 0) (fun _ => false) mem
          let s3 :=
            if G.lvl = 0 then
              (match xlateRange s2 k ctx (base + 0x2620) 480 .write false with
               | (.ok sg m _, s') => s'.writeNow k g G.seq sg (fun _ => 0) (fun _ => false) m
               | _ => s2)
            else s2
          let s4 := s3.modGrp g (fun G' =>
            if G.lvl = 0 then { G' with held := held }.enter1 e t tb else G'.enter2 e t tb)
          s4.endChain g e

/-! ### Frame slots and the interrupted program's registers (R231, R416) -/

/-- The address of a word of a lane of slot `m`. -/
def slotWord (frame m j : Nat) : Nat := frame + 384 * m + 4 * j

/-- Translates the slots of a group's trap frame: 0x18E0 bytes from its start (R416). -/
def State.slotXl (s : State) (G : Group) (T : Team) (acc : Acc) : Range × State :=
  xlateRange s T.coreKey (s.ctxOf T) (s.tframe G T) 0x18E0 acc false

/-- One word and poison bit of a frame slot. A word of a poisoned sector is poisoned, and so is one whose page cannot be read,
with a free value: its readers have tested that it can (DEDUCED, log entry 95). -/
def State.slotRead (s : State) (G : Group) (T : Team) (m j : Nat) : LW :=
  let frame := s.tframe G T
  let k := T.coreKey
  let ctx := s.ctxOf T
  match xlateRange s k ctx (slotWord frame m j) 4 .read false with
  | (.ok segs _ _, s1) =>
    let rd := (s1.readNow k segs).1
    let w := leNat (rd.map (fun b => b.2.1))
    let bad := rd.any (fun b => b.2.2)
    (match xlateRange s1 k ctx (frame + 0x1800 + 12 * m + j / 8) 1 .read false with
     | (.ok sg _ _, s2) =>
       let pb := (s2.readNow k sg).1
       { val := BitVec.ofNat 32 w, psn := bad || pb.any (fun b => b.2.2) || (leNat (pb.map (fun b => b.2.1))).testBit (j % 8) }
     | _ => { val := BitVec.ofNat 32 w, psn := true })
  | _ => { val := Config.freeWord s.free, psn := true }

/-- Writes words and poison bits of lanes of a frame slot. -/
def State.slotWrite (s : State) (g m : Nat) (vs : List (Nat × LW)) : State :=
  match s.grp g with
  | none => s
  | some G =>
    match s.tm G.team with
    | none => s
    | some T =>
      let frame := s.tframe G T
      let k := T.coreKey
      let ctx := s.ctxOf T
      vs.foldl (fun s v =>
        let old := leNat ((match xlateRange s k ctx (frame + 0x1800 + 12 * m + v.1 / 8) 1 .read false with
          | (.ok sg _ _, s1) => (s1.readNow k sg).1.map (fun b => b.2.1)
          | _ => []))
        let b : Nat := v.1 % 8
        let p := (if old.testBit b then old - 2 ^ b else old) + (if v.2.psn then 2 ^ b else 0)
        let s1 := match xlateRange s k ctx (slotWord frame m v.1) 4 .write false with
          | (.ok sg mem _, s') => s'.writeNow k g G.seq sg (fun i => BitVec.ofNat 8 (v.2.val.toNat / 256 ^ i)) (fun _ => false) mem
          | _ => s
        match xlateRange s1 k ctx (frame + 0x1800 + 12 * m + v.1 / 8) 1 .write false with
        | (.ok sg mem _, s') => s'.writeNow k g G.seq sg (fun _ => BitVec.ofNat 8 p) (fun _ => false) mem
        | _ => s1) s

/-- Writes the state word of a frame slot (R416). -/
def State.slotState (s : State) (g m : Nat) (t : Option Nat) : State :=
  match s.grp g with
  | none => s
  | some G =>
    match s.tm G.team with
    | none => s
    | some T =>
      match xlateRange s T.coreKey (s.ctxOf T) (s.tframe G T + 0x18C0 + 2 * m) 2 .write false with
      | (.ok sg mem _, s') =>
        let v := match t with | some t => t + 256 | none => 0
        s'.writeNow T.coreKey g G.seq sg (fun i => BitVec.ofNat 8 (v / 256 ^ i)) (fun _ => false) mem
      | _ => s

/-- A word of a register of the interrupted program, wherever its value stands: with REGS8 = 32 v240-v255 stand in the frame
(R335, R415). -/
def State.progWord (s : State) (G : Group) (T : Team) (r j : Nat) : LW :=
  if G.lvl ≠ 0 ∧ 240 ≤ r ∧ G.regs8 = 32 then s.slotRead G T (r - 240) j
  else if r ≤ 3 then G.reg r j
  else Map.getD G.regs (96 * r + j) {}

/-! ### Completions (R168, R172) -/

/-- Delivers words to lanes of a claim: `vs` gives, for each lane, one word per destination place. Dead and exited lanes,
registers that no longer wait for the ticket, and discarded places take nothing; a register whose last outstanding lane
has completed becomes FULL, and the ticket is free when every lane has arrived. -/
def State.completeClaim (s : State) (g t : Nat) (vs : List (Nat × List LW)) : State :=
  match s.grp g with
  | none => s
  | some G =>
    match Map.find G.claims t with
    | none => s
    | some c =>
      let lanes := vs.foldl (fun m v => m ||| Lanes.one v.1) (0 : Lanes)
      let live := vs.filter (fun v => c.lanes.has v.1)
      let places := (List.range c.dests.length).filterMap (fun i => (c.dests.getD i none).map (fun r => (i, r)))
      let word (v : Nat × List LW) (i : Nat) : Nat × LW := (v.1, v.2.getD i {})
      let s1 := s.modGrp g (fun G =>
        places.foldl (fun G p =>
          if p.2 < 256 ∧ G.pendOf p.2 = some t then G.setRegs p.2 (live.map (fun v => word v p.1)) else G) G)
      let s2 := places.foldl (fun s p =>
        if 256 ≤ p.2 then s.slotWrite g (p.2 - 256) (live.map (fun v => word v p.1)) else s) s1
      let s3 := s2.modGrp g (fun G =>
        (({ G with claims := Map.modify G.claims t (fun c =>
            { c with lanes := c.lanes &&& ~~~ lanes, arriving := c.arriving &&& ~~~ lanes }) }).settleClaim t).sweepClaims)
      if (c.lanes &&& ~~~ lanes) = 0 then
        places.foldl (fun s p => if 256 ≤ p.2 then s.slotState g (p.2 - 256) none else s) s3
      else s3

/-- A claim delivers to frame slots whose page does not translate: the state that follows, in which the completion has not been
applied. It waits for the service of the page as a frame write does, and a fatal condition ends the team (R415, log entry 95). -/
def State.slotGate (s : State) (g t : Nat) : Option State :=
  match s.grp g with
  | none => none
  | some G =>
    match s.tm G.team with
    | none => none
    | some T =>
      if !((Map.find G.claims t).map (fun c => c.dests.any (fun d => match d with | some r => decide (256 ≤ r) | none => false))).getD false
      then none
      else
        match s.slotXl G T .write with
        | (.ok _ _ _, _) => none
        | (.fatal _ cause, s1) => some (s1.terminate G.team cause)
        | (.recov va lvl cls, s1) =>
          if s1.tr.faults.any (fun p => p.2.reqs.contains (.slot g)) then some s1
          else some (attachFault s1 T.coreKey (s.ctxOf T) T.index va lvl cls .write (.slot g)).2

/-- A step on behalf of a claim's completion: it is applied where the claim may be served in this cycle, in ticket order before
any slice of the core issues (R170), and where its destinations can be written; otherwise nothing happens yet. -/
def State.serveClaim (s : State) (g t : Nat) (k : State → State) : State :=
  match s.grp g with
  | none => k s
  | some G =>
    match Map.find G.claims t, s.tm G.team with
    | some c, some T =>
      if !s.mayComplete T.coreKey g c.seq then s
      else (s.slotGate g t).getD (k (s.noteComplete T.coreKey g c.seq))
    | _, _ => k s

/-- Completes lanes of a claim whose producer cannot deliver them: poisoned, with free values (R172). -/
def State.completePoisoned (s : State) (g t : Nat) (lanes : List Nat) : State :=
  match s.grp g with
  | none => s
  | some G =>
    let n := ((Map.find G.claims t).map (fun c => c.dests.length)).getD 0
    let (vs, s1) := lanes.foldl (fun (r : List (Nat × List LW) × State) j =>
      let (ws, s') := (List.range n).foldl (fun (q : List LW × State) _ =>
        let (w, s') := q.2.draw
        (q.1 ++ [{ val := w, psn := true }], s')) ([], r.2)
      (r.1 ++ [(j, ws)], s')) ([], s)
    s1.completeClaim g t vs

/-! ### Team barriers (R392) -/

/-- The groups of a team that are live: each has a member lane that has not exited. -/
def State.liveGroups (s : State) (T : Team) : Nat :=
  (T.groups.filter (fun g => ((s.grp g).map (fun G => !G.valid.isEmpty)).getD false)).length

/-- test(N) of a team's barrier. -/
def State.testBar (s : State) (t n : Nat) : State :=
  match s.tm t with
  | none => s
  | some T =>
    let b := T.tb n
    let need := if b.tgt = 0 then s.liveGroups T else b.tgt
    if need ≤ b.arr then s.setTm t { T with tbars := Map.put T.tbars n { b with arr := 0, ph := !b.ph } {} } else s

/-- A group's last lane has exited: every barrier of its team that groups have arrived at is tested again. -/
def State.testBars (s : State) (t : Nat) : State :=
  (List.range 8).foldl (fun s n =>
    match s.tm t with
    | some T => if (T.tb n).arr = 0 then s else s.testBar t n
    | none => s) s

/-! ### Lane death (R447, R448) -/

/-- A held SEAMSEND of an entry is given up: it leaves its batch (R400). -/
def Group.unjoin (G : Group) (e : Nat) : Group :=
  match (G.sp e).joined with
  | some b => (G.batchOpDone 2 b).modSp e (fun sp => { sp with joined := none })
  | none => G

/-- Held SEAMSENDs of entries that are no longer valid are given up. -/
def Group.unjoinDead (G : Group) : Group :=
  ([0, 1, 2, 3] : List Nat).foldl (fun (G : Group) e => if (G.sp e).v then G else G.unjoin e) G

/-- Kills lanes of a group: dead bits, membership, claims (R447). Entries that lose their last member become invalid;
those of `keep` keep their members until RFE (R457). -/
def Group.kill (G : Group) (lanes : Lanes) (keep : List Nat) : Group :=
  let G1 := { G with dead := G.dead ||| lanes }
  let die (e : Nat) (sp : Split) : Split :=
    if !sp.v then sp
    else if keep.contains e then sp.setLanes sp.memb (sp.mask &&& ~~~ lanes)
    else
      let sp1 := sp.setLanes (sp.memb &&& ~~~ lanes) (sp.mask &&& ~~~ lanes)
      if sp1.memb = 0 then { sp1 with v := false, st := .ready, wait := .none, chain := 0 } else sp1
  let G2 := { G1 with splits := ((List.range G1.splits.length).zip G1.splits).map (fun (p : Nat × Split) => die p.1 p.2) }
  let G3 := { G2 with rq := G2.rq.filter (fun e => (G2.sp e).v) }
  G3.unjoinDead.unclaim lanes

/-- The lanes of a group that have neither died nor exited. -/
def Group.live (G : Group) : Lanes := Lanes.all &&& ~~~ G.dead &&& ~~~ G.exited

/-- Kills lanes and ends the team where the group's last live lanes die (R447, R448). -/
def State.killLanes (s : State) (g : Nat) (lanes : Lanes) (keep : List Nat) : State :=
  match s.grp g with
  | none => s
  | some G =>
    let G1 := G.kill lanes keep
    let s1 := s.setGrp g G1
    if G.live ≠ 0 ∧ G1.live = 0 then s1.terminate G.team cLaneDeath else s1

/-! ### Issuing (R118, R176-R179, R276) -/

/-- What an issuing instruction carries: the group and entry, the opcode, the fields, the instruction, snapshots of split,
group and team when it issues, the core's key, the context, and the active lanes (R7). -/
structure Ctx where
  g : Nat
  e : Nat
  o : Op
  x : Ops
  i : Instr
  sp : Split
  G : Group
  T : Team
  k : Nat
  ctx : Nat
  act : Lanes
deriving DecidableEq, Repr

/-- The lanes on which the instruction executes: the active lanes, with their shadows in duplex mode (R449). -/
def Ctx.ex (c : Ctx) : Lanes := c.G.exLanes c.act

/-- The instruction executes at user level. -/
def Ctx.user (c : Ctx) : Bool := c.G.lvl == 0

/-- The length of the instruction in bytes. -/
def Ctx.len (c : Ctx) : Nat := c.x.fmt.bytes

/-- The instruction traps (R414). -/
def Ctx.trapAt (c : Ctx) (s : State) (cause : Nat) (tpc : DWord) (lanes : Lanes) (tva : Nat) : State :=
  s.deliver c.g c.e
    { cause := cause, tpc := tpc, tva := BitVec.ofNat 64 tva, tlanes := lanes, tmask := c.sp.mask, tinst := instrWord c.i }

/-- The instruction traps at its own PC. -/
def Ctx.trap (c : Ctx) (s : State) (cause : Nat) (lanes : Lanes) (tva : Nat) : State := c.trapAt s cause c.sp.pc lanes tva

/-- The split stops at the instruction, and takes it again from step 8 of R118 (R169, R427, R432). -/
def Ctx.stay (c : Ctx) (s : State) (st : SplitSt) (w : Wait) : State :=
  (s.hold c.g c.e st w).modGrp c.g (fun G => G.modSp c.e (fun sp => { sp with inst := some (instrWord c.i) }))

/-- The split parks on registers (R169, R335). -/
def Ctx.park (c : Ctx) (s : State) (pend held : List Nat) : State := c.stay s .parked (.regs pend held)

/-- The split waits at the instruction. -/
def Ctx.wait (c : Ctx) (s : State) (w : Wait) : State := c.stay s .waiting w

/-- The split waits behind an earlier store that is held on a fault: it is attached to the same entry (R141). -/
def Ctx.stayBehind (c : Ctx) (s : State) (fe : Nat) : State := c.wait (s.joinFault fe (.split c.g c.e)) (.behind fe)

/-- The charge of an opcode (R179). -/
def opCharge (o : Op) : Nat :=
  let n := o.code.toNat
  if n ≤ 0x02B then 1 else if n ≤ 0x04E then 2 else if n ≤ 0x058 then 3 else if n ≤ 0x065 then 1
  else if 0x0A0 ≤ n ∧ n ≤ 0x0C9 then 2 else if 0x0D0 ≤ n ∧ n ≤ 0x0D4 then 1 else if 0x0E0 ≤ n ∧ n ≤ 0x0E9 then 2 else 1

/-- The 16 steps of the signature update (R276). -/
def crc16 : Nat → BitVec 16 → BitVec 16
  | 0, w => w
  | n + 1, w => crc16 n (if w.getLsbD 15 then (w <<< 1) ^^^ 0x1021 else w <<< 1)

/-- The signature word after an instruction with opcode `op` (R276). -/
def sigNext (w : BitVec 16) (op : BitVec 9) (mi : Bool) : BitVec 16 :=
  crc16 16 (w ^^^ (op.zeroExtend 16 ^^^ (if mi then 0x8000 else 0)))

/-- The issue-time check of the mask fails (R276). -/
def Split.maskBad (sp : Split) (dead : Lanes) : Bool :=
  sp.parMemb != parity sp.memb || sp.parMask != parity sp.mask || sp.mask &&& ~~~ sp.memb != 0 || sp.mask &&& dead != 0

/-- The opcodes that the signature does not count (R276). -/
def opUncounted (o : Op) : Bool := decide (0x080 ≤ o.code.toNat ∧ o.code.toNat ≤ 0x08E)

/-- Predicate "never" (R112). -/
def isNever (x : Ops) : Bool := x.p == 0 && !x.pn

/-- The effects of issuing the instruction on its split, its group, its slice and its core: signature, latch chain, charge,
the slice's owner, counters, and the wtime of the launch's first issue (R36, R176, R179, R276, R478). What the split
carried for this instruction is forgotten. -/
def Ctx.issue (c : Ctx) (s : State) : State :=
  let s1 := s.modGrp c.g (fun G =>
    { G.modSp c.e (fun sp =>
        { sp with
            sig := if opUncounted c.o || isNever c.x then sp.sig else sigNext sp.sig c.o.code (c.sp.maskBad c.G.dead)
            chain := if c.x.live then c.sp.chain + 1 else 0
            xlat := [], relDone := false, arrived := 0, msg := none, exempt := false, inst := none, joined := none }) with
        issued := true, seq := G.seq + 1 })
  let s2 := s1.modSlice (sliceKey c.k c.G.slice) (fun sl =>
    { sl with
        c := max (sl.c - opCharge c.o) (-32768)
        owner := some c.g
        chain := if c.x.live then some (c.g, c.e) else none })
  let s3 := s2.modCore c.k (fun k => { k with ctr := { k.ctr with inst := k.ctr.inst + 1 } })
  s3.modLaunch c.T.launch (fun l => if l.started then l else { l with started := true, wstart := s.wtime c.T.domain })

/-- After an instruction a split rejoins its ready queue, unless its latch chain goes on (R178). -/
def Ctx.requeue (c : Ctx) (s : State) : State :=
  s.modGrp c.g (fun G =>
    if (G.sp c.e).v then { G with rq := if c.x.live then c.e :: G.rq.erase c.e else G.rq.erase c.e ++ [c.e] }
    else { G with rq := G.rq.erase c.e })

/-- The PC of a split takes a sequential value; leaving the half of the current instruction traps ACCESS (R93). -/
def Ctx.advance (c : Ctx) (s : State) : State :=
  let npc := c.sp.pc + BitVec.ofNat 64 c.len
  let s1 := s.modGrp c.g (fun G => G.modSp c.e (fun sp => { sp with pc := npc }))
  if canonical npc.toNat && handlerHalf npc.toNat == handlerHalf c.sp.pc.toNat then s1
  else
    let m := ((s1.grp c.g).map (fun G => (G.sp c.e).mask)).getD 0
    s1.deliver c.g c.e { cause := cAccess, tpc := npc, tva := npc, tlanes := m, tmask := m, tinst := 0 }

/-- The instruction has issued and the split goes on after it. -/
def Ctx.done (c : Ctx) (s : State) : State := c.advance (c.requeue (c.issue s))

/-- The instruction has issued and the split goes on at `pc`. -/
def Ctx.jump (c : Ctx) (s : State) (pc : DWord) : State :=
  c.requeue ((c.issue s).modGrp c.g (fun G => G.modSp c.e (fun sp => { sp with pc := pc })))

end Sys2Proof.Machine
end

