-- ==== Sys2Proof/Machine/Forme.lean ====
section
/-! DEFINITION. The forme (R21-R35): its fields, its validation with the offset of the first failing word, and the reads
that Encon and the wafer dispatcher make through a context's translation. -/

namespace Sys2Proof.Machine

/-- The 64-bit word at an offset. -/
def w64 (bs : List Byte) (o : Nat) : Nat := leNat ((bs.drop o).take 8)

/-- Field [lo + n − 1 : lo] of a number. -/
def fld (v lo n : Nat) : Nat := v / 2 ^ lo % 2 ^ n

/-- One role of the role table (R23). -/
def parseRole (bs : List Byte) (i : Nat) : Role :=
  let w := w64 bs (0x88 + 16 * i)
  { entry := w64 bs (0x80 + 16 * i), groups := fld w 0 8, regs8 := fld w 8 8, narg := fld w 16 6
    argofs := fld w 24 6, shed := w.testBit 22, crit := w.testBit 23 }

/-- The fields of a forme (R22, R23, R33). -/
def parseForme (bs : List Byte) : Forme :=
  let h := w64 bs 0
  let c := w64 bs 8
  let g := w64 bs 0x10
  let r := w64 bs 0x18
  let m := w64 bs 0x28
  let n := w64 bs 0x40
  { ver := fld h 0 8, nrole := fld h 8 8, nql := fld h 16 3, tailovl := h.testBit 32, cor := h.testBit 33
    quire := h.testBit 34, qmem := h.testBit 35, duplex := h.testBit 36, rsv := h.testBit 37, notify := h.testBit 38
    region := h.testBit 39, ctx := fld c 0 16, tag := BitVec.ofNat 32 (fld c 32 32)
    gx := fld g 0 16, gy := fld g 16 16, gz := fld g 32 16
    galley := fld r 0 16, bbars := fld r 16 7, acc := fld r 24 4, crec := w64 bs 0x20
    hmode := fld m 0 2, hhard := m.testBit 2, hbase := fld m 8 6, htpd := fld m 16 16, htab := w64 bs 0x30
    routes := w64 bs 0x38, nroute := fld n 0 16, orgx := fld n 16 7, orgy := fld n 24 6, regw := fld n 32 7
    regh := fld n 40 7
    qlinks := (List.range 7).map (fun i => w64 bs (0x48 + 8 * i))
    roles := (List.range (min (fld h 8 8) 4)).map (parseRole bs)
    args := (List.range 64).map (fun i => BitVec.ofNat 32 (leNat ((bs.drop (0x100 + 4 * i)).take 4))) }

/-- The number of teams of a launch (R12). -/
def Forme.teams (f : Forme) : Nat := f.gx * f.gy * f.gz

/-- The groups of one team. -/
def Forme.groups (f : Forme) : Nat := (f.roles.map (fun r => r.groups)).sum

/-- Some bit of a word outside a list of fields (low bit, width) is set. -/
def strayBits (w : Nat) (fields : List (Nat × Nat)) : Bool :=
  (List.range 64).any (fun i => w.testBit i && !fields.any (fun f => f.1 ≤ i && i < f.1 + f.2))

/-- The forme is part of a quire: its head, or a body. -/
def Forme.inQuire (f : Forme) : Bool := f.quire || f.qmem

/-- The tests of R35 in order of offset: an offset and whether its word passes. `body` says that the forme is a quire body
(R31), `ctx` is the ctxid that it must carry (R47, R31). Where QUIRE and QMEM are 0 and NQL is not, the spec gives no outcome: the
links below NQL are checked as in use, and are then ignored (DESIGN CHOICE, log entry 19). -/
def formeChecks (bs : List Byte) (body : Bool) (ctx : Nat) : List (Nat × Bool) :=
  let f := parseForme bs
  let addr (v al : Nat) : Bool := canonical v && v % al == 0
  let sums (i : Nat) : Nat := ((f.roles.take (i + 1)).map (fun r => r.groups)).sum
  [ (0x000, f.ver == 1 && decide (1 ≤ f.nrole ∧ f.nrole ≤ 4) &&
      !strayBits (w64 bs 0) [(0, 19), (32, 8)] && (f.qmem == body) &&
      (!body || (!f.quire && f.nql == 0 && !f.tailovl)) && (!f.rsv || f.inQuire)),
    (0x008, f.ctx == ctx && !strayBits (w64 bs 8) [(0, 16), (32, 32)]),
    (0x010, decide (1 ≤ f.gx ∧ 1 ≤ f.gy ∧ 1 ≤ f.gz ∧ f.teams ≤ 0xFFFFFFFF) &&
      !strayBits (w64 bs 0x10) [(0, 48)] && (!f.region || f.gz == 1)),
    (0x018, decide (f.galley ≤ 4096 ∧ f.bbars ≤ 64 ∧ f.acc ≤ 8 ∧ f.galSize ≤ 2 ^ 21) &&
      !strayBits (w64 bs 0x18) [(0, 23), (24, 4)]),
    (0x020, addr f.crec 32),
    (0x028, decide (f.hmode ≤ 2) && !strayBits (w64 bs 0x28) [(0, 3), (8, 6), (16, 16)] &&
      (f.hmode != 1 || decide (1 ≤ f.htpd)) && (!f.region || f.hmode == 0)),
    (0x030, f.hmode != 2 || addr f.htab 8),
    (0x038, f.nroute == 0 || addr f.routes 32),
    (0x040, !strayBits (w64 bs 0x40) [(0, 23), (24, 6), (32, 7), (40, 7)] && (f.nroute == 0 || f.region) &&
      (!f.region || decide (f.orgx ≤ 71 ∧ 1 ≤ f.regw ∧ f.regw ≤ 72 ∧ 1 ≤ f.regh ∧ f.regh ≤ 64 ∧ f.regh = f.gy ∧
        f.orgx + f.regw ≤ 72 ∧ f.orgy + f.regh ≤ 64))) ] ++
  (List.range 7).map (fun i =>
    let q := f.qlinks.getD i 0
    (0x48 + 8 * i, if i < f.nql then addr q 512 else q == 0)) ++
  (List.range 4).flatMap (fun i =>
    let e := w64 bs (0x80 + 16 * i)
    let w := w64 bs (0x88 + 16 * i)
    let r := parseRole bs i
    if i < f.nrole then
      [ (0x80 + 16 * i, addr e 32),
        (0x88 + 16 * i, decide (1 ≤ r.groups ∧ r.groups ≤ 32 ∧ 1 ≤ r.regs8 ∧ r.regs8 ≤ 32 ∧ r.narg ≤ 60 ∧
            r.argofs + r.narg ≤ 64 ∧ 4 + r.narg ≤ 8 * r.regs8 ∧ sums i ≤ 32) &&
          !w.testBit 30 && !w.testBit 31 && (!r.crit || f.inQuire)) ]
    else [(0x80 + 16 * i, e == 0), (0x88 + 16 * i, w == 0)]) ++
  (List.range 8).map (fun i => (0xC0 + 8 * i, w64 bs (0xC0 + 8 * i) == 0))

/-! ### Reads through a context's translation -/

/-- A walk from the root with no structure used and none filled, on behalf of whichever domain owns the page: the reads and
writes that Encon and the dispatchers make for a launch (R27, R30, R36, R56; log entry 12). -/
def plainXl (s : State) (ctx va : Nat) (acc : Acc) : XRes :=
  let r : Root := Map.getD s.tr.roots ctx {}
  if !canonical va || !r.en then .fatal cAccess
  else
    let res := (List.range 64).findSome? (fun d =>
      match (walkFrom s d ctx va [3, 2, 1, 0] r.root).1 with
      | .classify => none
      | x => some x)
    xlCheck s ctx va acc false (res.getD (.fatal cNotMapped))

/-- Reads bytes of device memory; none where a byte faults, is poisoned, or lies outside region 0 (R27, R56). For a route section R30
says only "cannot be read": that one outside region 0 cannot be is the model's (DESIGN CHOICE, log entry 100). -/
def plainRead (s : State) (ctx va n : Nat) : Option (List Byte) :=
  (pieces va n).foldl (fun acc p =>
    match acc with
    | none => none
    | some bs =>
      match plainXl s ctx p.1 .read with
      | .ok l pa =>
        if paRegion pa ≠ 0 then none
        else
          let r := (List.range p.2.1).map (fun i => s.pocByte 0 (pa + i) l.cls l.owner true)
          if r.any (fun b => b.2) || s.fencedAcc pa l.cls l.owner then none else some (bs ++ r.map (fun b => b.1))
      | _ => none) (some [])

/-- One route-table entry (R29): its team, its number and its hops; none where it is malformed. -/
def parseRoute (bs : List Byte) : Option (Nat × Nat × List Nat) :=
  let w0 := w64 bs 0
  let n := fld w0 40 7
  let hops := leNat ((bs.drop 8).take 24)
  if strayBits w0 [(0, 36), (40, 7)] || n == 0 || decide (96 < n) || hops / 4 ^ n != 0 then none
  else some (fld w0 0 32, fld w0 32 4, (List.range n).map (fun i => hops / 4 ^ i % 4))

/-- The entries of a launch's route section (R29, R30): none where it cannot be read, an entry is malformed or names no team of the
launch, or two share TEAM and ROUTE. -/
def State.routeSection (s : State) (f : Forme) : Option (List (Nat × Nat × List Nat)) :=
  match plainRead s f.ctx f.routes (32 * f.nroute) with
  | none => none
  | some bs =>
    let es := (List.range f.nroute).map (fun i => parseRoute ((bs.drop (32 * i)).take 32))
    let rs := es.filterMap id
    let keys := rs.map (fun r => 16 * r.1 + r.2.1)
    if es.any Option.isNone || rs.any (fun r => decide (f.teams ≤ r.1)) || (dedup keys).length != keys.length then none
    else some rs

/-- One quire body: its bytes, or none where the read fails (R56). -/
def readBody (s : State) (ctx : Nat) (f : Forme) (i : Nat) : Option (List Byte) :=
  plainRead s ctx (f.qlinks.getD (i - 1) 0) 512

/-- The words of a forme that fail at validation: those of its own checks, ROUTES where the section fails (R30), and the link of a
body that cannot be read (R56). -/
def badWords (s : State) (bs : List Byte) (body : Bool) (ctx : Nat) : List Nat :=
  let f := parseForme bs
  let own := ((formeChecks bs body ctx).filter (fun c => !c.2)).map (fun c => c.1)
  let routes := f.region && f.nroute != 0 && !own.contains 0x38 && (s.routeSection f).isNone
  let links := (List.range f.nql).filter (fun i =>
    f.quire && !body && !own.contains (0x48 + 8 * i) && (readBody s ctx f (i + 1)).isNone)
  own ++ (if routes then [0x38] else []) ++ links.map (fun i => 0x48 + 8 * i)

/-- The offset of the first failing word of a forme, whatever the order of the checks (R35). -/
def formeFails (s : State) (bs : List Byte) (body : Bool) (ctx : Nat) : Option Nat :=
  (badWords s bs body ctx).foldl (fun (b : Option Nat) o =>
    match b with
    | some x => some (min x o)
    | none => some o) none

/-- DETAIL of a forme and its bodies that fail validation: the head first, then the bodies in order (R35, R56). -/
def quireFails (s : State) (bs : List Byte) (ctx : Nat) : Option Nat :=
  match formeFails s bs false ctx with
  | some o => some o
  | none =>
    let f := parseForme bs
    if !f.quire then none
    else ((List.range f.nql).map (fun i => i + 1)).findSome? (fun i =>
      (formeFails s ((readBody s ctx f i).getD []) true ctx).map (fun o => 0x200 * i + o))

end Sys2Proof.Machine
end

