-- ==== Sys2Proof/Machine/Encon.lean ====
section
/-! DEFINITION. The Encon cores (R57-R65): registers, exceptions, the four Xencon instructions, encsig and the ends of
SWAIT. The entry to an exception is the RISC-V privileged architecture's (log entry 10). -/

namespace Sys2Proof.Machine

/-- An Encon core. -/
def State.enc (s : State) (k : Nat) : EnCore := Map.getD s.en.cores k {}

/-- Replaces an Encon core. -/
def State.setEnc (s : State) (k : Nat) (c : EnCore) : State :=
  { s with en := { s.en with cores := Map.insert s.en.cores k c } }

/-- x[r]; x0 reads zero. -/
def EnCore.get (c : EnCore) (r : BitVec 5) : BitVec 64 := if r = 0 then 0 else Map.getD c.x r.toNat 0

/-- Writes x[r]; x0 discards. -/
def EnCore.put (c : EnCore) (r : BitVec 5) (v : BitVec 64) : EnCore :=
  if r = 0 then c else { c with x := Map.put c.x r.toNat v 0 }

/-- The instruction after a four-byte one. -/
def EnCore.step4 (c : EnCore) : EnCore := { c with pc := c.pc + 4 }

/-- A RISC-V exception: mepc, mcause, mtval, MPIE and MPP in mstatus, machine mode, and the pc at mtvec's base (R59, log
entry 10). -/
def EnCore.trap (c : EnCore) (cause mtval : BitVec 64) : EnCore :=
  let mie := c.mstatus.getLsbD 3
  let clear := c.mstatus &&& ~~~ (0x1888 : BitVec 64)
  { c with
      mepc := c.pc, mcause := cause, mtval := mtval
      mstatus := clear ||| (if mie then 0x80 else 0) ||| (if c.machine then 0x1800 else 0)
      machine := true, pc := c.mtvec &&& ~~~ (3 : BitVec 64) }

/-- The illegal-instruction exception of core `k` (R58, R63): mcause 2; the spec gives mtval no value, so it is free. -/
def State.enIllegal (s : State) (k : Nat) : State :=
  let (lo, s1) := s.draw
  let (hi, s2) := s1.draw
  s2.setEnc k ((s2.enc k).trap 2 (hi ++ lo))

/-- The frame of an instruction of an Encon core: the core whose turn it is executes it in machine mode; in user mode the
illegal-instruction exception is raised (R58, R63). Its turn ends. -/
def enconRun (s : State) (body : Nat → EnCore → State → State) : Host.Outcome State Fault Refusal :=
  match s.cur with
  | .encon k =>
    let s0 := { s with cur := .idle }
    let c := s0.enc k
    let s1 :=
      if c.machine then body k c s0
      else s0.enIllegal k
    .next s1.finish
  | _ => .fault .noSplit

/-- A queue. -/
def State.queue (s : State) (q : Nat) : Queue := Map.getD s.ct.queues q {}

/-- Changes a queue. -/
def State.modQueue (s : State) (q : Nat) (f : Queue → Queue) : State :=
  { s with ct := { s.ct with queues := Map.put s.ct.queues q (f (s.queue q)) {} } }

/-- The number of slots of a queue (R43). -/
def Queue.slots (q : Queue) : Nat := 2 ^ q.log2n

/-- QFETCH (R60): the forme is read where a completed write of the host has put it (R42). -/
def execQfetch (rd rs1 : BitVec 5) (s : State) : Host.Outcome State Fault Refusal :=
  enconRun s (fun k c s =>
    let q := (c.get rs1).toNat
    let Q := s.queue q
    if 255 < q then s.setEnc k (c.trap 24 (BitVec.ofNat 64 (q % 256 + 256)))
    else if !Q.en || Q.acc == Q.tail then s.setEnc k ((c.put rd (BitVec.allOnes 64)).step4)
    else
      match Map.free c.bufs 16 with
      | none => s.setEnc k ((c.put rd (BitVec.allOnes 64 - 1)).step4)
      | some b =>
        let pa := Q.base + 512 * (Q.acc.toNat % Q.slots)
        let bs : List (Byte × Bool) := (List.range 512).map (fun i => s.hostRead (pa + i))
        if bs.any (fun b => b.2) then
          (s.modQueue q (fun Q => { Q with err := 5, en := false })).setEnc k (c.trap 24 (BitVec.ofNat 64 (q + 512)))
        else
          let c1 := { c with bufs := Map.insert c.bufs b { bytes := bs.map Prod.fst, queue := q, slot := Q.acc } }
          (s.modQueue q (fun Q => { Q with acc := Q.acc + 1 })).setEnc k
            ((c1.put rd (Q.acc ++ BitVec.ofNat 32 b)).step4))

/-- BFXU (R61): `len1` holds len − 1. -/
def execBfxu (rd rs1 : BitVec 5) (pos len1 : BitVec 6) (s : State) : Host.Outcome State Fault Refusal :=
  enconRun s (fun k c s =>
    if 64 < pos.toNat + len1.toNat + 1 then
      s.setEnc k (c.trap 25 (((enconWord (.bfxu rd rs1 pos len1)).getD 0).zeroExtend 64))
    else s.setEnc k ((c.put rd (BitVec.ofNat 64 ((c.get rs1).toNat / 2 ^ pos.toNat % 2 ^ (len1.toNat + 1)))).step4))

/-- The wtime that Encon reads: that of the module, without a domain's skew (R1). -/
def State.wtimeEnc (s : State) : Nat := s.clk.cycle * 2 / 3

/-- SWAIT (R62): the core starts to wait; the pc stays at the instruction. -/
def execSwait (rd rs1 rs2 : BitVec 5) (s : State) : Host.Outcome State Fault Refusal :=
  enconRun s (fun k c s =>
    let m := c.get rs1
    let t := (c.get rs2).toNat
    if m.toNat / 2 ^ 16 ≠ 0 then s.setEnc k (c.trap 26 2)
    else if m = 0 ∧ t = 0 then s.setEnc k (c.trap 26 1)
    else s.setEnc k { c with
      swait := some { mask := m.truncate 16, until_ := if t = 0 then none else some (s.wtimeEnc + t), rd := rd } })

/-- An SWAIT ends: it writes the signals that it takes, and clears them (R62). -/
def EnCore.endWait (c : EnCore) (w : Swait) (got : BitVec 16) : EnCore :=
  ({ c with swait := none, sigs := c.sigs &&& ~~~ got }.put w.rd (got.zeroExtend 64)).step4

/-- SWAIT_COMPLETE (R62). -/
def execSwaitComplete (core : Nat) (s : State) : Host.Outcome State Fault Refusal :=
  .next (match (s.enc core).swait with
    | some w =>
      let got := (s.enc core).sigs &&& w.mask
      if got ≠ 0 then (s.setEnc core ((s.enc core).endWait w got)).finish else s.finish
    | none => s.finish)

/-- SWAIT_TIMEOUT (R62): signals of the mask that are pending end the wait as they would have before it. -/
def execSwaitTimeout (core : Nat) (s : State) : Host.Outcome State Fault Refusal :=
  .next (match (s.enc core).swait with
    | some w =>
      (match w.until_ with
       | some t =>
         if t ≤ s.wtimeEnc then (s.setEnc core ((s.enc core).endWait w ((s.enc core).sigs &&& w.mask))).finish else s.finish
       | none => s.finish)
    | none => s.finish)

/-- The launches that count in the wafer dispatcher's table: one for each DISPATCH that has not retired (R64). -/
def State.liveLaunches (s : State) : Nat := (s.wk.launches.filter (fun p => p.1 % 8 == 0 && !p.2.retired)).length

/-- The bodies that a quire's head reaches: all of them where its first word and its links pass and every body can be
read; none otherwise (R35, R56). -/
def bodiesOf (s : State) (bs : List Byte) (ctx : Nat) : List Nat :=
  let f := parseForme bs
  let idx := (List.range f.nql).map (fun i => i + 1)
  let linked := (formeChecks bs false ctx).all (fun c => c.2 || (c.1 != 0 && !(decide (0x48 ≤ c.1 ∧ c.1 < 0x80))))
  if f.quire && linked && idx.all (fun i => (readBody s f.ctx f i).isSome) then idx else []

/-- The launches of a dispatched forme: the head and its bodies, each with the offset at which it fails (R31, R35, R39,
R56). CTX of the check and PRIO are those of the queue's word 0x08 as it stands at DISPATCH: a queue whose EN has gone to 0 may have
been written anew since the fetch, and the spec does not say which value holds (DESIGN CHOICE, log entry 100). -/
def newLaunches (s : State) (n : Nat) (b : FBuf) : List (Nat × Launch) :=
  let f := parseForme b.bytes
  let Q := s.queue b.queue
  let fails := quireFails s b.bytes Q.ctx
  let bodies := bodiesOf s b.bytes Q.ctx
  let mk (f' : Forme) (i : Nat) (invalid : Option Nat) : Launch :=
    { queue := b.queue, slot := b.slot, prio := Q.prio, forme := f', head := 8 * n, sub := i
      cancelled := b.cancelled
      bodies := if i = 0 then bodies.map (fun i => 8 * n + i) else []
      invalid := invalid, qfail := if f.quire then fails.map (fun o => o / 0x200) else none }
  (8 * n, mk f 0 (match fails with | some o => if o < 0x200 then some o else none | none => none)) ::
    bodies.map (fun i =>
      let bs := (readBody s f.ctx f i).getD []
      (8 * n + i, mk (parseForme bs) i ((formeFails s bs true Q.ctx).map (fun o => 0x200 * i + o))))

/-- DISPATCH (R64): Encon's checks of R35 are made here, and a forme that fails them makes a launch that only retires. -/
def execDispatch (rd rs1 : BitVec 5) (s : State) : Host.Outcome State Fault Refusal :=
  enconRun s (fun k c s =>
    let b := (c.get rs1).toNat
    if 15 < b then s.setEnc k (c.trap 27 (BitVec.ofNat 64 (b % 256 + 256)))
    else
      match Map.find c.bufs b with
      | none => s.setEnc k (c.trap 27 (BitVec.ofNat 64 (b + 512)))
      | some f =>
        if 1024 ≤ s.liveLaunches then s.setEnc k ((c.put rd (BitVec.allOnes 64)).step4)
        else
          let n := s.wk.next
          let c1 := { c with bufs := Map.erase c.bufs b }
          let s1 := { s with wk := { s.wk with
            launches := (newLaunches s n f).foldl (fun (m : Map Launch) (l : Nat × Launch) => Map.insert m l.1 l.2) s.wk.launches
            next := n + 1 } }
          s1.setEnc k ((c1.put rd (BitVec.ofNat 64 n)).step4))

/-- Core `k` sends signal bit 8 + k to the cores of a mask (R63). -/
def sendSignals (s : State) (k : Nat) (m : Nat) : State :=
  (List.range 8).foldl (fun s j =>
    if m.testBit j then s.setEnc j { s.enc j with sigs := (s.enc j).sigs ||| BitVec.twoPow 16 (8 + k) } else s) s

/-- An access to encsig (ENCSIG_WRITE, R63). A CSRRC or CSRRCI of any source writes bits that are all 0, so it sends nothing and
raises nothing (DESIGN CHOICE, log entry 100). -/
def execEncsigWrite (f : CsrOp) (rd src : BitVec 5) (s : State) : Host.Outcome State Fault Refusal :=
  enconRun s (fun k c s =>
    let v : Nat := match f with
      | .rw | .rs => (c.get src).toNat
      | .rwi | .rsi => src.toNat
      | .rc | .rci => 0
    let sends : Bool := match f with
      | .rw | .rwi => true
      | .rs | .rsi => src != 0
      | .rc | .rci => false
    if sends && decide (256 ≤ v) then s.enIllegal k
    else
      let s1 := s.setEnc k ((c.put rd 0).step4)
      if sends then sendSignals s1 k v else s1)

/-! ### Fetch of an Encon core -/

/-- What an Encon core fetches at its pc. -/
inductive EnFetched where
  | stop (s : State)
  | run (i : Instr)
  | base (w : BitVec 32)

/-- Fetches and decodes for core `k`: a core that waits in SWAIT executes nothing, a reserved custom-0 word raises the
illegal-instruction exception (R58), and any other word is one of the base architecture (R57). -/
def enconFetch (s : State) (k : Nat) : EnFetched :=
  let c := s.enc k
  if c.swait.isSome then .stop { s with cur := .idle }
  else
    let w : BitVec 32 := BitVec.ofNat 32 (leNat ((List.range 4).map (fun i => Map.getD s.en.mem (c.pc.toNat + i) 0)))
    match decodeEncon w with
    | .ok i => .run i
    | .illegal => .stop ({ s with cur := .idle }.enIllegal k)
    | .base => .base w

end Sys2Proof.Machine
end

