-- ==== Sys2Proof/Machine/Start.lean ====
section
/-! DEFINITION. The state of a started group and of a team at its start (R91, R33). -/

namespace Sys2Proof.Machine

/-- The argument registers of a group: argument word ARGOFS + k in v(4 + k) of every lane (R33). -/
def argRegs (f : Forme) (r : Role) : Map LW :=
  (List.range r.narg).flatMap (fun k =>
    let v := f.args.getD (r.argofs + k) 0
    if v = 0 then [] else (List.range 96).map (fun j => (96 * (4 + k) + j, { val := v })))

/-- The members of a group at its start: every lane, or the primaries in duplex mode (R91). -/
def startLanes (duplex : Bool) : Lanes := if duplex then BitVec.ofNat 96 (2 ^ 48 - 1) else Lanes.all

/-- A group as it starts (R91): one split at its role's ENTRY. -/
def startGroup (f : Forme) (team index role slice slot cycle : Nat) : Group :=
  let r := f.roles.getD role { entry := 0, groups := 0, regs8 := 1, narg := 0, argofs := 0, shed := false, crit := false }
  let lanes := startLanes f.duplex
  let sp : Split := ({ pc := BitVec.ofNat 64 r.entry, v := true } : Split).setLanes lanes lanes
  { team := team, index := index, role := role, regs8 := r.regs8, slice := slice, slot := slot, shed := r.shed
    crit := r.crit, duplex := f.duplex, splits := [sp, {}, {}, {}], regs := argRegs f r, cyclesAt := cycle }

/-- The role of each group of a team, in sys.group order (R11). -/
def Forme.roleOf (f : Forme) : List Nat :=
  ((List.range f.roles.length).zip f.roles).flatMap (fun p => List.replicate p.2.groups p.1)

end Sys2Proof.Machine
end

