-- ==== Sys2Proof/Machine/Flags.lean ====
section
/-! DEFINITION. Number formats, rounding and status flags (R186-R201), and the floating-point element operations of
R240-R246 and R248: exact arithmetic on dyadic values, narrowed once at the end. -/

namespace Sys2Proof.Machine

/-- The status flags an element operation raises, in the layout of sys.fflags (R200). -/
abbrev Fl := BitVec 32

/-- Inexact (R200). -/
def Fl.nx : Fl := 1
/-- Underflow (R195). -/
def Fl.uf : Fl := 2
/-- Overflow (R194). -/
def Fl.ovf : Fl := 4
/-- Exact infinite result from a finite operand (R200). -/
def Fl.dz : Fl := 8
/-- Invalid operation (R197). -/
def Fl.nv : Fl := 16
/-- Integer saturation (R187). -/
def Fl.sv : Fl := 32
/-- A flag that is raised when a condition holds. -/
def Fl.ofCond (c : Bool) (f : Fl) : Fl := if c then f else 0

/-- A floating-point format (R188, R190): width, exponent and fraction bits, bias, and whether it has infinities and
which NaN codes. `nanAll` is e4m3, whose only NaN is the all-ones code. -/
structure FF where
  width : Nat
  eb : Nat
  mb : Nat
  bias : Nat
  ieee : Bool
  nanAll : Bool := false
  maxFin : Nat
  canon : Nat
deriving DecidableEq, Repr

/-- The format of a type; f32 for a type that is no floating-point type. -/
def FF.of : Ty → FF
  | .f16 => { width := 16, eb := 5, mb := 10, bias := 15, ieee := true, maxFin := 0x7BFF, canon := 0x7E00 }
  | .bf16 => { width := 16, eb := 8, mb := 7, bias := 127, ieee := true, maxFin := 0x7F7F, canon := 0x7FC0 }
  | .e4m3 =>
    { width := 8, eb := 4, mb := 3, bias := 7, ieee := false, nanAll := true, maxFin := 0x7E, canon := 0x7F }
  | .e5m2 => { width := 8, eb := 5, mb := 2, bias := 15, ieee := true, maxFin := 0x7B, canon := 0x7E }
  | .e2m3 => { width := 6, eb := 2, mb := 3, bias := 1, ieee := false, maxFin := 0x1F, canon := 0 }
  | .e3m2 => { width := 6, eb := 3, mb := 2, bias := 3, ieee := false, maxFin := 0x1F, canon := 0 }
  | .e2m1 => { width := 4, eb := 2, mb := 1, bias := 1, ieee := false, maxFin := 0x7, canon := 0 }
  | _ => { width := 32, eb := 8, mb := 23, bias := 127, ieee := true, maxFin := 0x7F7FFFFF, canon := 0x7FC00000 }

/-- The format f32. -/
abbrev FF.f32 : FF := FF.of .f32

/-- The types that are floating-point or MX element types. -/
def isFloatTy : Ty → Bool
  | .f32 | .f16 | .bf16 | .e4m3 | .e5m2 | .e2m3 | .e3m2 | .e2m1 => true
  | _ => false

/-- A value: NaN, an infinity, a zero, or ±m × 2^e with m positive. -/
inductive FVal where
  | nan (signalling : Bool)
  | inf (neg : Bool)
  | zero (neg : Bool)
  | fin (neg : Bool) (m : Nat) (e : Int)
deriving DecidableEq, Repr

/-- The exponent of the smallest unit of a format. -/
def FF.qmin (f : FF) : Int := 1 - (f.bias : Int) - (f.mb : Int)

/-- The value of a code of a format (R188, R190). -/
def FF.val (f : FF) (bits : Nat) : FVal :=
  let b := bits % 2 ^ f.width
  let neg := b / 2 ^ (f.width - 1) = 1
  let mag := b % 2 ^ (f.width - 1)
  let ef := mag / 2 ^ f.mb
  let fr := mag % 2 ^ f.mb
  if f.ieee ∧ ef = 2 ^ f.eb - 1 then
    if fr = 0 then .inf neg else .nan (decide (fr < 2 ^ (f.mb - 1)))
  else if f.nanAll ∧ mag = 2 ^ (f.width - 1) - 1 then .nan false
  else if mag = 0 then .zero neg
  else if ef = 0 then .fin neg fr f.qmin
  else .fin neg (2 ^ f.mb + fr) (f.qmin + ef - 1)

/-- The sign bit of a format over a magnitude code. -/
def FF.signed (f : FF) (neg : Bool) (mag : Nat) : Nat := if neg then 2 ^ (f.width - 1) + mag else mag

/-- The infinity of a format, or its largest finite value where it has none. -/
def FF.infBits (f : FF) (neg : Bool) : Nat := f.signed neg (if f.ieee then (2 ^ f.eb - 1) * 2 ^ f.mb else f.maxFin)

/-- Rounding modes by their code (R193): 0 nearest even, 1 toward zero, 2 down, 3 up. -/
abbrev RMode := Nat

/-- The decision to round the kept part up: `half` compares the discarded part with half a unit (0 below, 1 equal,
2 above), `odd` is the kept part's last bit. -/
def roundUp (mode : RMode) (neg odd : Bool) (half : Nat) (inexact : Bool) : Bool :=
  match mode with
  | 0 => half = 2 || (half = 1 && odd)
  | 1 => false
  | 2 => neg && inexact
  | _ => !neg && inexact

/-- m × 2^e, plus something below one unit of 2^e when `sticky`, as an integer in units of 2^q, rounded once; and whether
it was inexact. -/
def roundTo (mode : RMode) (neg : Bool) (m : Nat) (e q : Int) (sticky : Bool) : Nat × Bool :=
  if q ≤ e then
    let r := m * 2 ^ (e - q).toNat
    (if roundUp mode neg (r % 2 = 1) 0 sticky then r + 1 else r, sticky)
  else
    let sh := min (q - e).toNat (m.log2 + 3)
    let r := m / 2 ^ sh
    let rem := m % 2 ^ sh
    let h := 2 ^ (sh - 1)
    let half := if rem > h ∨ (rem = h ∧ sticky) then 2 else if rem = h then 1 else 0
    let inexact := rem ≠ 0 || sticky
    (if roundUp mode neg (r % 2 = 1) half inexact then r + 1 else r, inexact)

/-- The code of ±m × 2^e (m positive, `sticky` as in `roundTo`) in a format, rounded once, and its flags (R193-R196). -/
def FF.round (f : FF) (mode : RMode) (sat : Bool) (neg : Bool) (m : Nat) (e : Int) (sticky : Bool) : Nat × Fl :=
  let top : Int := (m.log2 : Int) + e
  let qn : Int := top - f.mb
  let q : Int := max qn f.qmin
  let (ru, _) := roundTo mode neg m e qn sticky
  let tiny : Bool := qn + ((ru.log2 : Nat) : Int) < f.qmin + f.mb
  let (r, inexact) := roundTo mode neg m e q sticky
  let mag : Int := (q - f.qmin) * 2 ^ f.mb + r
  let beyond : Bool :=
    if f.ieee then decide (mag > f.maxFin)
    else
      let (t, ix) := roundTo 1 false m e q sticky
      decide ((q - f.qmin) * 2 ^ f.mb + (t : Int) > f.maxFin) ||
        (decide ((q - f.qmin) * 2 ^ f.mb + (t : Int) = f.maxFin) && ix)
  if beyond then
    let toInf : Bool := f.ieee && !sat && (match mode with | 0 => true | 1 => false | 2 => neg | _ => !neg)
    (if toInf then f.infBits neg else f.signed neg f.maxFin, Fl.ovf ||| Fl.nx)
  else
    (f.signed neg mag.toNat, Fl.ofCond inexact Fl.nx ||| Fl.ofCond (tiny && inexact) Fl.uf)

/-- An infinite result: under `.sat` it becomes the largest finite value and sets NX (R196); a format without
infinities always holds its largest finite value (R194). -/
def FF.infinite (f : FF) (sat neg : Bool) : Nat × Fl :=
  if sat then (f.signed neg f.maxFin, Fl.nx) else (f.infBits neg, 0)

/-- Negation of a value. -/
def FVal.neg : FVal → FVal
  | .nan s => .nan s
  | .inf n => .inf (!n)
  | .zero n => .zero (!n)
  | .fin n m e => .fin (!n) m e

/-- The exact product; none for 0 × ∞. A NaN factor gives NaN. -/
def FVal.mul : FVal → FVal → Option FVal
  | .nan s, .nan s' => some (.nan (s || s'))
  | .nan s, _ => some (.nan s)
  | _, .nan s => some (.nan s)
  | .inf _, .zero _ => none
  | .zero _, .inf _ => none
  | .inf a, .inf b => some (.inf (a != b))
  | .inf a, .fin b _ _ => some (.inf (a != b))
  | .fin a _ _, .inf b => some (.inf (a != b))
  | .zero a, .zero b => some (.zero (a != b))
  | .zero a, .fin b _ _ => some (.zero (a != b))
  | .fin a _ _, .zero b => some (.zero (a != b))
  | .fin a m e, .fin b m' e' => some (.fin (a != b) (m * m') (e + e'))

/-- A value is NaN. -/
def FVal.isNan : FVal → Bool
  | .nan _ => true
  | _ => false

/-- A value is a signalling NaN. -/
def FVal.isSnan : FVal → Bool
  | .nan s => s
  | _ => false

/-- The exact sum of finite terms as an integer in units of 2^lo. -/
def finSum (lo : Int) : List FVal → Int
  | [] => 0
  | .fin n m e :: ts =>
    let v : Int := (m : Int) * 2 ^ (e - lo).toNat
    (if n then -v else v) + finSum lo ts
  | _ :: ts => finSum lo ts

/-- The least exponent of the finite terms. -/
def finLow : List FVal → Int
  | [] => 4096
  | .fin _ _ e :: ts => min e (finLow ts)
  | _ :: ts => finLow ts

/-- Some term is an infinity of the sign. -/
def hasInf (neg : Bool) (ts : List FVal) : Bool := ts.any (fun t => t == .inf neg)

/-- The element rule of R240: inputs decide NaN and NV first, then infinities, then the exact sum rounded once. A term is
none for a product 0 × ∞. -/
def sumRound (f : FF) (mode : RMode) (sat : Bool) (inputs : List FVal) (terms : List (Option FVal)) : Nat × Fl :=
  let bad := terms.any (fun t => t == none)
  if inputs.any FVal.isNan || bad then
    (f.canon, Fl.ofCond (inputs.any FVal.isSnan || bad) Fl.nv)
  else
    let ts := terms.filterMap id
    if hasInf true ts && hasInf false ts then (f.canon, Fl.nv)
    else if hasInf true ts then f.infinite sat true
    else if hasInf false ts then f.infinite sat false
    else
      let lo := finLow ts
      let s := finSum lo ts
      if s = 0 then
        if ts.all (fun t => t == .zero true) then (f.signed true 0, 0)
        else if ts.all (fun t => t == .zero false) then (0, 0)
        else (f.signed (mode = 2) 0, 0)
      else f.round mode sat (s < 0) s.natAbs lo false

/-- FADD of one element (R240). -/
def fAdd (f : FF) (mode : RMode) (sat : Bool) (a b : Nat) : Nat × Fl :=
  let x := f.val a; let y := f.val b
  sumRound f mode sat [x, y] [some x, some y]

/-- FSUB of one element (R240). -/
def fSub (f : FF) (mode : RMode) (sat : Bool) (a b : Nat) : Nat × Fl :=
  let x := f.val a; let y := f.val b
  sumRound f mode sat [x, y] [some x, some y.neg]

/-- FMUL of one element (R240). -/
def fMul (f : FF) (mode : RMode) (sat : Bool) (a b : Nat) : Nat × Fl :=
  let x := f.val a; let y := f.val b
  sumRound f mode sat [x, y] [x.mul y]

/-- FFMA of one element (R240). -/
def fFma (f : FF) (mode : RMode) (sat : Bool) (a b c : Nat) : Nat × Fl :=
  let x := f.val a; let y := f.val b; let z := f.val c
  sumRound f mode sat [x, y, z] [x.mul y, some z]

/-- FDOT2 and FDOT4: products of corresponding elements plus an f32 c, rounded once to f32 (R240, R246). -/
def fDot (fa fb : FF) (mode : RMode) (sat : Bool) (as bs : List Nat) (c : Nat) : Nat × Fl :=
  let xs := as.map fa.val
  let ys := bs.map fb.val
  let z := FF.f32.val c
  sumRound FF.f32 mode sat (z :: xs ++ ys) (some z :: (xs.zip ys).map (fun p => p.1.mul p.2))

/-- Order of two numbers with −0 below +0: −1, 0 or 1 as the sign of x − y. -/
def FVal.ordKey : FVal → FVal → Ordering
  | .nan _, _ => .eq
  | _, .nan _ => .eq
  | .inf a, .inf b => if a = b then .eq else if a then .lt else .gt
  | .inf a, _ => if a then .lt else .gt
  | _, .inf b => if b then .gt else .lt
  | .zero a, .zero b => if a = b then .eq else if a then .lt else .gt
  | .zero _, .fin n _ _ => if n then .gt else .lt
  | .fin n _ _, .zero _ => if n then .lt else .gt
  | .fin a m e, .fin b m' e' =>
    let lo := min e e'
    let v : Int := (if a then -1 else 1) * ((m : Int) * 2 ^ (e - lo).toNat)
    let w : Int := (if b then -1 else 1) * ((m' : Int) * 2 ^ (e' - lo).toNat)
    compare v w

/-- Numeric order, in which −0 equals +0. -/
def FVal.cmp (x y : FVal) : Ordering :=
  match x, y with
  | .zero _, .zero _ => .eq
  | x, y => x.ordKey y

/-- FMIN and FMAX of one element (R241). -/
def fMinMax (f : FF) (isMax : Bool) (a b : Nat) : Nat × Fl :=
  let x := f.val a; let y := f.val b
  let fl := Fl.ofCond (x.isSnan || y.isSnan) Fl.nv
  if x.isNan && y.isNan then (f.canon, fl)
  else if x.isNan then (b, fl)
  else if y.isNan then (a, fl)
  else
    match x.ordKey y with
    | .lt => (if isMax then b else a, fl)
    | .gt => (if isMax then a else b, fl)
    | .eq => (a, fl)

/-- The condition of FSETC on one element, and its flag (R242). -/
def fCond (f : FF) (cc : Nat) (a b : Nat) : Bool × Fl :=
  let x := f.val a; let y := f.val b
  let un := x.isNan || y.isNan
  let c := x.cmp y
  let sig := Fl.ofCond (x.isSnan || y.isSnan) Fl.nv
  let any := Fl.ofCond un Fl.nv
  match cc with
  | 0 => (!un && c == .eq, sig)
  | 1 => (un || c != .eq, sig)
  | 2 => (!un && c == .lt, any)
  | 3 => (!un && c != .gt, any)
  | 4 => (!un && c == .gt, any)
  | 5 => (!un && c != .lt, any)
  | 6 => (un, sig)
  | _ => (!un, sig)

/-- The class bit of FCLASS (R243). -/
def fClass (f : FF) (a : Nat) : Nat :=
  match f.val a with
  | .inf true => 0
  | .inf false => 7
  | .zero true => 3
  | .zero false => 4
  | .nan true => 8
  | .nan false => 9
  | .fin neg m _ => if m < 2 ^ f.mb then (if neg then 2 else 5) else (if neg then 1 else 6)

/-- FRND of one element (R244). -/
def fRnd (f : FF) (mode : RMode) (a : Nat) : Nat × Fl :=
  match f.val a with
  | .nan s => (f.canon, Fl.ofCond s Fl.nv)
  | .fin neg m e =>
    if 0 ≤ e then (a, 0)
    else
      let (r, inexact) := roundTo mode neg m e 0 false
      if inexact then (if r = 0 then f.signed neg 0 else (f.round 1 false neg r 0 false).1, 0) else (a, 0)
  | _ => (a, 0)

/-- FSCALE of one element by 2^n (R245). -/
def fScale (f : FF) (mode : RMode) (sat : Bool) (a : Nat) (n : Int) : Nat × Fl :=
  match f.val a with
  | .nan s => (f.canon, Fl.ofCond s Fl.nv)
  | .inf neg => f.infinite sat neg
  | .zero neg => (f.signed neg 0, 0)
  | .fin neg m e => f.round mode sat neg m (e + n) false

/-- An integer type: its width and whether it is signed (R186). -/
def intTy : Ty → Option (Nat × Bool)
  | .i8 => some (8, true) | .i16 => some (16, true) | .i32 => some (32, true) | .i64 => some (64, true)
  | .n32 => some (32, false) | .n64 => some (64, false)
  | _ => none

/-- The least and greatest value of an integer type (R186). -/
def intRange (w : Nat) (signed : Bool) : Int × Int :=
  if signed then (-(2 ^ (w - 1) : Nat), (2 ^ (w - 1) : Nat) - 1) else (0, (2 ^ w : Nat) - 1)

/-- An exact integer in an integer type: wrapped, or clamped with SV under `.sat` (R187). -/
def intDeliver (w : Nat) (signed sat : Bool) (x : Int) : Nat × Fl :=
  let (lo, hi) := intRange w signed
  if sat && (x < lo || hi < x) then (((if x < lo then lo else hi) % (2 ^ w : Nat)).toNat, Fl.sv)
  else ((x % (2 ^ w : Nat)).toNat, 0)

/-- The value of an integer element. -/
def intVal (w : Nat) (signed : Bool) (bits : Nat) : Int :=
  let b := bits % 2 ^ w
  if signed ∧ 2 ^ (w - 1) ≤ b then (b : Int) - (2 ^ w : Nat) else b

/-- A finite value ±m × 2^e converted to an integer type (R199). -/
def finToInt (w : Nat) (signed : Bool) (mode : RMode) (neg : Bool) (m : Nat) (e : Int) : Nat × Fl :=
  let (lo, hi) := intRange w signed
  if 64 < (m.log2 : Int) + e then (((if neg then lo else hi) % (2 ^ w : Nat)).toNat, Fl.nv)
  else
    let (r, inexact) := roundTo mode neg m e 0 false
    let v : Int := if neg then -(r : Int) else r
    if v < lo then ((lo % (2 ^ w : Nat)).toNat, Fl.nv)
    else if hi < v then ((hi % (2 ^ w : Nat)).toNat, Fl.nv)
    else ((v % (2 ^ w : Nat)).toNat, Fl.ofCond inexact Fl.nx)

/-- The value of an element of any numeric type. -/
def elemVal (t : Ty) (bits : Nat) : FVal :=
  match intTy t with
  | some (w, s) =>
    let v := intVal w s bits
    if v = 0 then .zero false else .fin (v < 0) v.natAbs 0
  | none => (FF.of t).val bits

/-- A source value scaled by 2^n and converted once to a target type (R198, R199, R248). -/
def convert (src dst : Ty) (mode : RMode) (sat : Bool) (n : Int) (bits : Nat) : Nat × Fl :=
  match intTy dst with
  | some (w, s) =>
    match intTy src, n with
    | some (ws, ss), 0 => intDeliver w s sat (intVal ws ss bits)
    | _, n =>
      let (lo, hi) := intRange w s
      match elemVal src bits with
      | .nan _ => (0, Fl.nv)
      | .inf neg => (((if neg then lo else hi) % (2 ^ w : Nat)).toNat, Fl.nv)
      | .zero _ => (0, 0)
      | .fin neg m e => finToInt w s mode neg m (e + n)
  | none =>
    let f := FF.of dst
    match elemVal src bits with
    | .nan sg => if f.ieee || f.nanAll then (f.canon, Fl.ofCond sg Fl.nv) else (0, Fl.nv)
    | .inf neg => if f.ieee then f.infinite sat neg else (f.signed neg f.maxFin, Fl.nv)
    | .zero neg => (f.signed neg 0, 0)
    | .fin neg m e => f.round mode sat neg m (e + n) false

/-- Bits that an element of a type occupies in a register (R114). -/
def tyStep (t : Ty) : Nat := if t.wide then 64 else 32 / t.elems

/-- The elements of a register value of a type (R114). -/
def elemsOf (t : Ty) (v : DWord) : List Nat :=
  (List.range t.elems).map (fun k => v.toNat / 2 ^ ((tyStep t) * k) % 2 ^ (tyStep t))

/-- The register value of elements; element k at its place, 6-bit types with zero above (R114). -/
def ofElems (step : Nat) : List Nat → Nat
  | [] => 0
  | x :: xs => x % 2 ^ step + 2 ^ step * ofElems step xs

/-- Applies an operation with flags to each element. -/
def mapElems (t : Ty) (v : DWord) (f : Nat → Nat × Fl) : DWord × Fl :=
  let rs := (elemsOf t v).map f
  (BitVec.ofNat 64 (ofElems (tyStep t) (rs.map (fun r => r.1))), rs.foldl (fun a r => a ||| r.2) 0)

/-- Applies an operation with flags to each pair of elements. -/
def zipElems (t : Ty) (u v : DWord) (f : Nat → Nat → Nat × Fl) : DWord × Fl :=
  let rs := ((elemsOf t u).zip (elemsOf t v)).map (fun p => f p.1 p.2)
  (BitVec.ofNat 64 (ofElems (tyStep t) (rs.map (fun r => r.1))), rs.foldl (fun a r => a ||| r.2) 0)

/-- Applies an operation with flags to each triple of elements. -/
def zip3Elems (t : Ty) (u v w : DWord) (f : Nat → Nat → Nat → Nat × Fl) : DWord × Fl :=
  let rs := ((elemsOf t u).zip ((elemsOf t v).zip (elemsOf t w))).map (fun p => f p.1 p.2.1 p.2.2)
  (BitVec.ofNat 64 (ofElems (tyStep t) (rs.map (fun r => r.1))), rs.foldl (fun a r => a ||| r.2) 0)

/-- The value that a ten-bit immediate supplies to a lane, read in a type (R106). -/
def immVal (t : Ty) (v : Int) : DWord :=
  match t with
  | .i64 | .n64 => BitVec.ofInt 64 v
  | .i16 => (BitVec.ofNat 64 (ofElems 16 [(v % 65536).toNat, (v % 65536).toNat]))
  | .i8 =>
    let b := (v % 256).toNat
    BitVec.ofNat 64 (ofElems 8 [b, b, b, b])
  | .i32 | .n32 | .b32 => (BitVec.ofInt 32 v).zeroExtend 64
  | t =>
    let f := FF.of t
    let b := if v = 0 then 0 else (f.round 0 false (v < 0) v.natAbs 0 false).1
    BitVec.ofNat 64 (ofElems (tyStep t) (List.replicate t.elems b))

end Sys2Proof.Machine
end

