-- ==== Sys2Proof/Machine/Operands.lean ====
section
/-! DEFINITION. Operand forms (R103-R110, R298, R317), the registers that an instruction names, the checks and waits before
an instruction executes (R112, R118, R160, R168, R169, R335, R421), results and the latch history (R111, R160, R174), and
the frame of every Limov meaning. -/

namespace Sys2Proof.Machine

/-! ### Lanes that operands are read from (R108-R110, R449) -/

/-- The lane of the same beat that a short pattern names (R108). -/
def shortLane (pat j : Nat) : Nat :=
  let k := j % 32
  let base := j - k
  match pat with
  | 0 => j
  | 1 => base + (k ^^^ 1)
  | 2 => base + (31 - k)
  | _ => base

/-- The lane of the same beat that a full pattern names (R109). -/
def fullLane (code p j : Nat) : Nat :=
  let k := j % 32
  let base := j - k
  match code with
  | 1 => base + (k + p) % 32
  | 2 => base + p
  | 3 => base + (k ^^^ p)
  | 4 => base + (k ^^^ (2 ^ (p + 1) - 1))
  | _ => j

/-- The lane that lane `j` reads an operand from. -/
def opdLane (o : Opd) (j : Nat) : Nat :=
  match o with
  | .reg _ p => shortLane p.toNat j
  | .latch _ p => shortLane p.toNat j
  | .imm _ => j
  | .full _ c p => fullLane c.toNat p.toNat j

/-- In duplex mode a shadow reads the shadow of the lane that its primary reads (R449). -/
def duplexLane (G : Group) (f : Nat → Nat) (j : Nat) : Nat :=
  if G.duplex ∧ 48 ≤ j then
    let l := f (j - 48)
    if l < 48 then l + 48 else l - 48
  else f j

/-! ### Reading operands -/

/-- A 32-bit word of a register as lane `j` reads it; a dead source lane gives a poisoned word (R110). -/
def Ctx.word (c : Ctx) (r src : Nat) : LW :=
  let v := c.G.reg r src
  if c.G.dead.has src then { v with psn := true } else v

/-- A value of one or two words from two lane words. -/
def pairUp (lo hi : LW) : LW2 :=
  { val := lo.val.zeroExtend 64 ||| (hi.val.zeroExtend 64 <<< 32), pLo := lo.psn, pHi := hi.psn }

/-- One word as a value. -/
def single (lo : LW) : LW2 := { val := lo.val.zeroExtend 64, pLo := lo.psn }

/-- A register value of one word or of a pair. -/
def Ctx.regVal (c : Ctx) (n src : Nat) (wide : Bool) : LW2 :=
  if wide then pairUp (c.word n src) (c.word (n + 1) src) else single (c.word n src)

/-- A latch value (R105, R175). -/
def Ctx.latchVal (c : Ctx) (k src : Nat) (wide : Bool) : LW2 :=
  let v := c.sp.latchAt k src
  let v := if c.G.dead.has src then { v with pLo := true, pHi := true } else v
  if wide then v else { val := (v.val.truncate 32 : Word).zeroExtend 64, pLo := v.pLo, pHi := false }

/-- IMM32 as a value of a type (R107). -/
def imm32Val (imm : BitVec 32) (wide : Bool) : LW2 :=
  { val := if wide then imm.signExtend 64 else imm.zeroExtend 64 }

/-- The value of an operand as lane `j` reads it in a type. `sb32` says that an immediate stands in IMM32 (R103-R110). -/
def Ctx.opd (c : Ctx) (o : Opd) (t : Ty) (sb32 : Bool) (j : Nat) : LW2 :=
  let src := duplexLane c.G (opdLane o) j
  match o with
  | .reg n _ => c.regVal n.toNat src t.wide
  | .full n _ _ => c.regVal n.toNat src t.wide
  | .latch k _ => c.latchVal k.toNat src t.wide
  | .imm v => if sb32 then imm32Val c.x.imm t.wide else { val := immVal t v.toInt }

/-- Operand A of a lane. -/
def Ctx.opA (c : Ctx) (t : Ty) (j : Nat) : LW2 := c.opd c.x.a t false j

/-- Operand B of a lane; in format C an immediate stands in IMM32 (R107). -/
def Ctx.opB (c : Ctx) (t : Ty) (j : Nat) : LW2 := c.opd c.x.b t (c.x.fmt == .c) j

/-- Operand B where IMM32 has another use (R107). -/
def Ctx.opB10 (c : Ctx) (t : Ty) (j : Nat) : LW2 := c.opd c.x.b t false j

/-- Operand C of a lane. -/
def Ctx.opC (c : Ctx) (t : Ty) (j : Nat) : LW2 := c.opd c.x.c t false j

/-- Some word of a value is poisoned. -/
def lwAny (v : LW2) : Bool := v.pLo || v.pHi

/-- Some word of a value of a type is poisoned. -/
def lwPsn (v : LW2) (t : Ty) : Bool := if t.wide then v.pLo || v.pHi else v.pLo

/-- The low word of a value. -/
def lwLo (v : LW2) : Word := v.val.truncate 32

/-! ### Registers that an instruction names (R25, R169) -/

/-- Consecutive registers. -/
def regRange (n m : Nat) : List Nat := (List.range m).map (fun i => n + i)

/-- The registers that an operand field names by its use. -/
def useRegs (u : Use) (o : Opd) : List Nat :=
  let n : Option Nat := match o with
    | .reg n _ => some n.toNat
    | .full n _ _ => some n.toNat
    | _ => none
  match n with
  | none => []
  | some n =>
    match u with
    | .zero | .target | .ra | .port => []
    | .val t => regRange n t.regs
    | .pairF | .base64 _ | .pair => regRange n 2
    | .many t m => regRange n (t.regs * m)
    | .num _ _ _ | .reg32 | .optNum | .base32 _ | .off _ | .codeCount => [n]
    | .plain _ m _ => regRange n m
    | .codeBase => if n = 0 then [] else regRange n 2
    | .scale => if n = 0 then [] else [n]

/-- The registers that D names as a destination. -/
def destRegs (u : DUse) (x : Ops) : List Nat :=
  if x.w then []
  else
    let d := x.d.toNat
    match u with
    | .zero | .own | .data _ => []
    | .one => [d]
    | .pair => regRange d 2
    | .range n => regRange d n
    | .claim n _ => if d = 0 then [] else regRange d n
    | .link => if d = 0 then [] else regRange d 2

/-- The register that SA names. -/
def aReg (x : Ops) : Nat := match x.a with | .reg n _ => n.toNat | .full n _ _ => n.toNat | _ => 0

/-- The register that SB names. -/
def bReg (x : Ops) : Nat := match x.b with | .reg n _ => n.toNat | .full n _ _ => n.toNat | _ => 0

/-- CPY and CPYS with a shape name eight registers and read the first seven (R318). -/
def shapeRead (o : Op) (x : Ops) (rs : List Nat) : List Nat :=
  if (o == .cpy || o == .cpys) && x.mf 0 1 = 1 then rs.take 7 else rs

/-- The source registers that an instruction parks on (R169): TAKE does not park on vs (R171), MDRAINMX writes its vs, and
MLOOP parks on its scalar operands alone (R337). -/
def sourceRegs (o : Op) (x : Ops) : List Nat :=
  let s := o.spec x
  let a := if o == .take || o == .mdrainmx then (if x.mf 3 1 = 1 then useRegs s.a x.a else []) else useRegs s.a x.a
  let b := if o == .mloop then [] else useRegs s.b x.b
  let c := shapeRead o x (useRegs s.c x.c)
  let d := match s.d with
    | .data n => regRange x.d.toNat n
    | _ => []
  a ++ b ++ c ++ d

/-- The destination registers of an instruction. -/
def targetRegs (o : Op) (x : Ops) : List Nat :=
  destRegs (o.spec x).d x ++ (if o == .mdrainmx && x.mf 3 1 = 0 && aReg x != 0 then [aReg x] else [])

/-- The registers of A, the A scales and the B scales that an MLOOP names (R337). -/
def mloopRegs (x : Ops) : List Nat :=
  regRange x.d.toNat ((mloopKs x - 1) * mloopAstr x + mloopRps x.t) ++
  (if bReg x = 0 then [] else regRange (bReg x) ((mloopKs x - 1) / 4 + 1))

/-- Every register that an instruction names, the predicate among them (R25). -/
def namedRegs (o : Op) (x : Ops) : List Nat :=
  let s := o.spec x
  useRegs s.a x.a ++ useRegs s.b x.b ++ useRegs s.c x.c ++
  (match s.d with | .data n => regRange x.d.toNat n | _ => []) ++ destRegs s.d x ++
  (if o == .mloop then mloopRegs x else []) ++ [x.p.toNat]

/-- A register that the group may name: within the budget, or a handler register at handler level (R25, R418). -/
def Group.mayName (G : Group) (r : Nat) : Bool :=
  decide (r < 8 * G.regs8) || (decide (0 < G.lvl) && decide (240 ≤ r ∧ r < 256))

/-- The tile that an instruction names (R26). -/
def tileOf (o : Op) (x : Ops) : Option Nat :=
  match o with
  | .mloop | .mzero | .mdrain | .mdrainmx | .mstat => some (x.mf 0 3)
  | _ => none

/-- The registers that their own rule holds below the role's budget at either level (log entry 91): link pairs (R262), ranges of
results, of sources and of claims (R238, R323, R349, R399), the registers of MASKP and MASKR (R262), the words that a message
captures (R394), shapes (R317), and what an MLOOP reads (R337). -/
def budgetRegs (o : Op) (x : Ops) : List Nat :=
  let s := o.spec x
  (match s.d with | .range _ => destRegs s.d x | .link => destRegs s.d x | _ => []) ++
  (match s.a with | .many _ _ => useRegs s.a x.a | _ => []) ++
  (match o with
   | .maskr | .seamred | .seamsend => useRegs s.a x.a
   | .mdrainmx => if x.mf 3 1 = 0 then useRegs s.a x.a else []
   | .cpy | .cpys => if x.mf 0 1 = 1 then useRegs s.c x.c else []
   | .mloop => mloopRegs x
   | _ => [])

/-- The limits of R25, R26, R261, R262 and R418 that depend on the running group. -/
def dynOk (o : Op) (x : Ops) (G : Group) (acc : Nat) : Bool :=
  (namedRegs o x).all G.mayName && (budgetRegs o x).all (fun r => decide (r < 8 * G.regs8)) &&
  (match tileOf o x with | some t => decide (t < acc) | none => true) &&
  !(o == .exit && decide (0 < G.lvl)) &&
  (match o with
   | .lanekill => decide (aReg x + 3 ≤ 8 * G.regs8) || decide (240 ≤ aReg x)
   | _ => true)

/-- The latch entries that an instruction reads. -/
def latchReads (x : Ops) : List Nat :=
  [x.a, x.b, x.c].filterMap (fun o => match o with | .latch k _ => some k.toNat | _ => none)

/-- Instructions that with `active` empty park on their predicate alone (R299, R317, R349, R383, R422). -/
def lazyPark (o : Op) : Bool :=
  let n := o.code.toNat
  decide (0x0A0 ≤ n ∧ n ≤ 0x0C9) || decide (0x0D1 ≤ n ∧ n ≤ 0x0D4) || decide (0x0E0 ≤ n ∧ n ≤ 0x0E9) || decide (0x120 ≤ n ∧ n ≤ 0x126)

/-- Instructions that make accesses to memory or the galley: they wait for an acquire of the group that has not been performed
(R366). -/
def makesAccess (o : Op) (x : Ops) : Bool :=
  match o with
  | .ld | .st | .stash | .unstash | .flush | .cpy | .cpyl | .cpys | .cpyg | .mloop | .ldacq | .strel | .atom | .red => true
  | .mdrain | .mdrainmx => x.mf 3 1 == 1
  | _ => false

/-- Instructions that store: a FENCE.rel holds them (R390). -/
def makesStore (o : Op) (x : Ops) : Bool :=
  match o with
  | .ld | .cpyg | .ldacq | .mloop => false
  | o => makesAccess o x

/-! ### Before execution (R118 steps 6 to 10) -/

/-- The active lanes: those of MASK that pass the predicate; dead lanes never (R7, R112). -/
def activeLanes (G : Group) (sp : Split) (p : Nat) (pn : Bool) : Lanes :=
  Lanes.ofPred (fun j => sp.mask.has j && !G.dead.has j && (((G.reg p j).val != 0) != pn))

/-- The lanes of MASK whose predicate value is poisoned (R112). -/
def hemLanes (G : Group) (sp : Split) (p : Nat) : Lanes :=
  Lanes.ofPred (fun j => sp.mask.has j && !G.dead.has j && (G.reg p j).psn)

/-- The lanes that an instruction's result is written in: MASKP writes every member lane (R273). -/
def Ctx.writeLanes (c : Ctx) : Lanes := if c.o == .maskp then c.G.exLanes c.sp.memb else c.ex

/-- Destinations whose claim the written lanes do not cover, and registers that an MLOOP holds (R168, R335). TAKE judges
its own write (R171), and a hold on its vs parks it too. -/
def Ctx.blocked (c : Ctx) : List Nat × List Nat :=
  let ds := (targetRegs c.o c.x).filter (fun r => decide (4 ≤ r))
  if c.writeLanes = 0 then ([], [])
  else if c.o == .take then ([], (aReg c.x :: ds).filter c.G.isHeldReg)
  else (ds.filter (fun r => (c.G.pendOf r).isSome && c.G.outstanding r &&& ~~~ c.writeLanes != 0), ds.filter c.G.isHeldReg)

/-- What precedes the execution of an instruction: it stops there, or goes on with its context. -/
inductive Front where
  | stop (s : State)
  | go (c : Ctx)
deriving DecidableEq, Repr

/-- The split carries on an instruction that it has begun: its release is done, or what it waited for has come. -/
def Split.resumes (sp : Split) : Bool := sp.relDone || sp.arrived != 0

/-- The registers that an instruction parks on, and those whose hold it waits for (R169, R335): the predicate and the sources
that are PENDING, at once; once the predicate is FULL, destinations under the partial-write row of R168 and held registers. An
instruction that with `active` empty parks on its predicate alone parks on that alone while the predicate is PENDING, since
`active` is not known (DEDUCED, log entry 92). -/
def Ctx.pending (c : Ctx) : List Nat × List Nat :=
  let p := c.x.p.toNat
  let full (r : Nat) : Bool := (c.G.pendOf r).isNone
  let srcs := (sourceRegs c.o c.x).filter (fun r => !full r)
  if c.sp.resumes then c.blocked
  else if !full p then (p :: (if lazyPark c.o then [] else srcs), [])
  else ((if lazyPark c.o && c.act = 0 then [] else srcs) ++ c.blocked.1, c.blocked.2)

/-- The checks of R118 from the limits of the group (step 6) to the predicate hem (step 10), with the parking of step 9 and
the breakpoint of R421. -/
def Ctx.front (c : Ctx) (s : State) : Front :=
  let x := c.x
  let brk := s.trapBlk c.ctx
  let p := x.p.toNat
  if !dynOk c.o x c.G (s.accOf c.T) then .stop (c.trap s cIllegal c.sp.mask 0)
  else if c.o.priv && c.user then .stop (c.trap s cPriv c.sp.mask 0)
  else if !isNever x && (latchReads x).any (fun k => c.sp.lval ≤ k) then .stop (c.trap s cLatchStale c.sp.mask 0)
  else if x.live && decide (9 ≤ c.sp.chain) then .stop (c.trap s cLatchChain c.sp.mask 0)
  else if isNever x then .stop (c.done s)
  else
    let (pend, held) := c.pending
    if !pend.isEmpty || !held.isEmpty then .stop (c.park s pend held)
    else if c.user && brk.brken && brk.brkpc == (c.sp.pc >>> 2).truncate 62 && c.act != 0 && !c.sp.exempt && !c.sp.resumes then
      .stop (c.trap s cBreak c.act c.sp.pc.toNat)
    else if hemLanes c.G c.sp p != 0 then .stop (c.trap s cPoison (hemLanes c.G c.sp p) 0)
    else if makesAccess c.o x && c.act != 0 && !c.sp.resumes && (s.acquireOut c.g || c.G.inFence (makesStore c.o x)) then
      .stop (c.wait s .acquire)
    else .go c

/-- Runs the body of an instruction after its front, and ends the step. -/
def Ctx.run (c : Ctx) (s : State) (body : Ctx → State → State) : State :=
  (match c.front s with
   | .stop s' => s'
   | .go c => body c s).finish

/-- The state in which an instruction of group `g` issues: the turn has been taken, and latch histories that another group's
beat has cost are lost (R175). -/
def State.begun (s : State) (g : Nat) : State := { s with cur := .idle }.loseLatches g

/-- The context of an instruction of the split whose turn it is; none where the turn names no valid split. -/
def State.context (s : State) (o : Op) (x : Ops) : Option Ctx :=
  match s.cur with
  | .split g e =>
    match (s.begun g).grp g with
    | none => none
    | some G =>
      match s.tm G.team with
      | none => none
      | some T =>
        if (G.sp e).v then
          some { g := g, e := e, o := o, x := x, i := o.instr x, sp := G.sp e, G := G, T := T, k := T.coreKey
                 ctx := s.ctxOf T, act := activeLanes G (G.sp e) x.p.toNat x.pn }
        else none
  | _ => none

/-- The frame of every Limov meaning: the instruction issues from the split whose turn it is. Its turn ends. -/
def limov (o : Op) (x : Ops) (s : State) (body : Ctx → State → State) : Host.Outcome State Fault Refusal :=
  match s.context o x with
  | some c => .next (c.run (s.begun c.g) body)
  | none => .fault .noSplit

/-! ### Results (R111, R160, R168, R174, R200) -/

/-- The latch history after a result is pushed (R174): `b0` takes the result in the executing lanes, zero elsewhere. -/
def pushLatch (old : Map LW2) (vs : List (Nat × LW2)) : Map LW2 :=
  Map.putAll ((old.filter (fun p => decide (p.1 < 288))).map (fun p => (p.1 + 96, p.2))) {} vs

/-- Pushes a result (R174, R175). -/
def Split.push (sp : Split) (vs : List (Nat × LW2)) : Split :=
  { sp with latch := pushLatch sp.latch vs, lval := min (sp.lval + 1) 4 }

/-- Flags of the executing lanes whose result is not poisoned join sys.fflags (R200, R201, R239). -/
def gatherFlags (rs : List (Nat × LW2 × Fl)) : Fl :=
  rs.foldl (fun a r => if lwAny r.2.1 then a else a ||| r.2.2) 0

/-- The split's mask after a word of it is written (R160). -/
def maskWrite (G : Group) (sp : Split) (d : Nat) (w : Word) : Lanes :=
  let keep := sp.mask &&& ~~~ ((BitVec.allOnes 32).zeroExtend 96 <<< (32 * (d - 1)))
  keep ||| (((w.zeroExtend 96) <<< (32 * (d - 1))) &&& sp.memb &&& ~~~ G.dead)

/-- Writes a result to D: a register, a pair, the mask, or nothing (R111, R160). -/
def Ctx.writeD (c : Ctx) (G : Group) (wide : Bool) (vs : List (Nat × LW2)) : Group :=
  let d := c.x.d.toNat
  if c.x.w ∨ d = 0 then G
  else if d ≤ 3 then
    match c.act.lowest with
    | none => G
    | some j =>
      match vs.find? (fun v => v.1 == j) with
      | some v => G.modSp c.e (fun sp => sp.setMask (maskWrite G c.sp d (lwLo v.2)))
      | none => G
  else G.writeVal d wide vs

/-- A poisoned result bound for the mask: the lowest active lane (R160). -/
def Ctx.maskHem (c : Ctx) (vs : List (Nat × LW2)) : Option Nat :=
  let d := c.x.d.toNat
  if c.x.w ∨ d = 0 ∨ 4 ≤ d then none
  else match c.act.lowest with
    | some j => if vs.any (fun v => v.1 == j && v.2.pLo) then some j else none
    | none => none

/-- The end of an instruction with a lane result: the hem of R160, the write of D, the latch history where `push`, and the
status flags. -/
def Ctx.result (c : Ctx) (s : State) (wide push : Bool) (rs : List (Nat × LW2 × Fl)) : State :=
  let vs := rs.map (fun r => (r.1, r.2.1))
  match c.maskHem vs with
  | some j => c.trap s cPoison (Lanes.one j) 0
  | none =>
    c.done (s.modGrp c.g (fun G =>
      let G1 := c.writeD G wide vs
      let G2 := if push then G1.modSp c.e (fun sp => sp.push vs) else G1
      { G2 with fflags := G2.fflags ||| gatherFlags rs }))

/-- A lane-local instruction: `f` gives each executing lane its result. -/
def Ctx.lanewise (c : Ctx) (s : State) (wide : Bool) (f : Nat → LW2 × Fl) : State :=
  c.result s wide true (c.ex.list.map (fun j => (j, (f j).1, (f j).2)))

/-- A result of `wide` width with one poison bit (R210). -/
def mkVal (wide : Bool) (v : DWord) (p : Bool) : LW2 :=
  if wide then { val := v, pLo := p, pHi := p } else { val := (v.truncate 32 : Word).zeroExtend 64, pLo := p }

end Sys2Proof.Machine
end

