-- ==== Sys2Proof/Machine/Fetch.lean ====
section
/-! DEFINITION. Instruction fetch (R94-R97, R118, R139-R142, R147-R149): translation of a window for fetch, and its bytes
from fetch buffer, instruction cache, pin area or home. -/

namespace Sys2Proof.Machine

/-- What a translation at issue comes to: resolved, or something that the split must wait for. -/
inductive IRes where
  | done (r : XRes)
  | wait (w : Wait)
deriving DecidableEq, Repr

/-- The outcome that a split has kept for a unit (R139). -/
def Split.kept (sp : Split) (unit : Nat) : Option Xl := (sp.xlat.find? (fun p => p.1 == unit)).map (fun p => p.2)

/-- Translates an address for a split at issue (R138, R139): from the structures that its core reaches, from what the
split's own walk has resolved, or by a walk that the split waits for. -/
def issueXl (s : State) (k ctx : Nat) (sp : Split) (va : Nat) (acc : Acc) (user : Bool) : IRes × State :=
  if ptrBad va user then (.done (.fatal cAccess), s)
  else
    let fetch := acc == .fetch
    match sp.kept (vaUnit va), tlbFind s k ctx va fetch with
    | some x, _ => (.done (xlCheck s ctx va acc user x), s)
    | none, some l => (.done (xlCheck s ctx va acc user (.leaf l)), tlbFill s k ctx fetch l)
    | none, none =>
      match startWalk s (k / 72) ctx (vaUnit va) with
      | some (id, s1) => (.wait (.walks [id]), s1)
      | none => (.wait .walkRoom, s)

/-- The first address of the window of an address (R94). -/
def windowOf (va : Nat) : Nat := va / 32 * 32

/-- What a fetch translation of a window comes to: its leaf and physical address, a fatal cause, or a wait, for which the
split has been attached to a fault entry where the fault is recoverable (R140, R141). -/
inductive FRes where
  | ok (l : Leaf) (pa : Nat)
  | fatal (cause : Nat)
  | wait (w : Wait)
deriving DecidableEq, Repr

/-- Translates a window for fetch on behalf of entry `e` of group `g`. -/
def fetchXl (s : State) (g e : Nat) (T : Team) (sp : Split) (va : Nat) (user : Bool) : FRes × State :=
  let k := T.coreKey
  let ctx := s.ctxOf T
  match issueXl s k ctx sp va .fetch user with
  | (.wait w, s1) => (.wait w, s1)
  | (.done (.ok l pa), s1) => (.ok l pa, s1)
  | (.done (.fatal c), s1) => (.fatal c, s1)
  | (.done (.recov level cls), s1) =>
    let (id, s2) := attachFault s1 k ctx T.index va level cls .fetch (.split g e)
    (.wait (.fault id), s2)

/-- A window read at its home (R147): its bytes and its poison mark. -/
def readWindow (s : State) (d ctx va : Nat) (l : Leaf) (pa : Nat) : CodeWin :=
  { ctx := ctx, va := va
    bytes := (List.range 32).map (fun i => (s.pocByte d (pa + i) l.cls l.owner true).1)
    mark := (s.pocByte d pa l.cls l.owner true).2 || s.fencedAcc pa l.cls l.owner }

/-- A window in a list of windows. -/
def winFind (ws : List CodeWin) (ctx va : Nat) : Option CodeWin := ws.find? (fun w => w.ctx == ctx && w.va == va)

/-- A window lies in the 128-byte line of an address. -/
def CodeWin.inLine (w : CodeWin) (ctx va : Nat) : Bool := w.ctx == ctx && w.va / 128 == va / 128

/-- The windows of the first `n` lines of an instruction cache (R147). -/
def takeLines : Nat → List CodeWin → List CodeWin
  | 0, _ => []
  | _, [] => []
  | n + 1, w :: ws =>
    let rest := ws.takeWhile (fun x => x.inLine w.ctx w.va)
    w :: rest ++ takeLines n (ws.drop rest.length)

/-- Puts the line that holds a window into a core's instruction cache: the four windows of 128 bytes, which are read together.
The cache holds 96 KiB, 768 lines, beside the pin area (R147). -/
def icachePut (s : State) (k : Nat) (ctx va : Nat) (l : Leaf) (pa : Nat) : State :=
  if (winFind (s.coreAt k).icache ctx va).isSome then s
  else
    let o := va % 128
    let line := ([0, 32, 64, 96] : List Nat).map (fun i => readWindow s (k / 72) ctx (va - o + i) l (pa - o + i))
    s.modCore k (fun c => { c with icache := takeLines 768 (line ++ c.icache.filter (fun w => !w.inLine ctx va)) })

/-- The window at `va`, whose translation is given, as a split of core `k` fetches it (R147, R149). -/
def codeWin (s : State) (k ctx : Nat) (fbuf : List CodeWin) (va : Nat) (l : Leaf) (pa : Nat) : CodeWin × State :=
  match winFind fbuf ctx va with
  | some w => (w, s)
  | none =>
    match winFind ((s.tr.pins.filter (fun p => p.domain == k / 72)).map (fun p => p.win)) ctx va with
    | some w => (w, s)
    | none =>
      match winFind (s.coreAt k).icache ctx va with
      | some w => (w, s)
      | none =>
        (readWindow s (k / 72) ctx va l pa, icachePut s k ctx va l pa)

/-- A fetch buffer of two windows takes one more (R147). -/
def Split.buffer (sp : Split) (w : CodeWin) : Split :=
  { sp with fbuf := (w :: sp.fbuf.filter (fun x => x.va != w.va || x.ctx != w.ctx)).take 2 }

/-- Bytes from an address to the end of its window. -/
def CodeWin.from_ (w : CodeWin) (va : Nat) : List Byte := w.bytes.drop (va % 32)

/-- The 16 bytes from the PC, zero beyond the window (R119). -/
def rawInst (bs : List Byte) : BitVec 128 := BitVec.ofNat 128 (leNat (bs.take 16))

/-- A trap of steps 1 to 6 of R118, delivered to the whole split (R119). -/
def State.encTrap (s : State) (g e : Nat) (sp : Split) (cause : Nat) (tva : DWord) (inst : BitVec 128) : State :=
  (s.deliver g e { cause := cause, tpc := sp.pc, tva := tva, tlanes := sp.mask, tmask := sp.mask, tinst := inst }).finish

/-- What a fetch comes to: the step ends, or an instruction executes. -/
inductive Fetched where
  | stop (s : State)
  | run (i : Instr) (s : State)
deriving DecidableEq, Repr

/-- The instruction at which a split has stopped. -/
def Split.again (sp : Split) : Option Instr :=
  match sp.inst.map (fun w => decode (leBytes 16 w.toNat)) with
  | some (.ok i _) => some i
  | _ => none

/-- Fetches and decodes for entry `e` of group `g` (steps 1 to 6 of R118); a split with a trap to take takes it, and a split
that has stopped at an instruction takes that again, from step 8 of R118 (R169), and a split whose duplex partner died while it was held
traps at the next instruction (R448). The turn stays with the split where an
instruction executes. -/
def fetchSplit (s : State) (g e : Nat) : Fetched :=
  let s0 := { s with cur := .idle }
  match s.grp g with
  | none => .stop s0
  | some G =>
    match s.tm G.team with
    | none => .stop s0
    | some T =>
      let sp := G.sp e
      match sp.pendingTrap with
      | some t => .stop (((s0.modGrp g (fun G => G.modSp e (fun sp => { sp with wait := .none }))).deliver g e t).finish)
      | none =>
      match sp.again with
      | some i => .run i { s0 with cur := .split g e }
      | none =>
      if sp.doomed ≠ 0 then
        .stop (((s0.modGrp g (fun G => G.modSp e (fun sp => { sp with doomed := 0 }))).deliver g e
          { cause := cLaneDeath, tpc := sp.pc, tva := 0, tlanes := sp.doomed, tmask := sp.mask, tinst := 0 }).finish)
      else
        let win := windowOf sp.pc.toNat
        match fetchXl s0 g e T sp win (G.lvl == 0) with
        | (.wait w, s1) => .stop ((s1.hold g e .waiting w).finish)
        | (.fatal c, s1) => .stop (s1.encTrap g e sp c (BitVec.ofNat 64 win) 0)
        | (.ok l pa, s1) =>
          let (w, s2) := codeWin s1 T.coreKey (s.ctxOf T) sp.fbuf win l pa
          let s3 := s2.modGrp g (fun G => G.modSp e (fun sp => sp.buffer w))
          if w.mark then .stop (s3.encTrap g e sp cPoison sp.pc 0)
          else
            let bs := w.from_ sp.pc.toNat
            match decode bs with
            | .noLength => .stop (s3.encTrap g e sp cIllegal 0 (rawInst bs))
            | .straddle => .stop (s3.encTrap g e sp cStraddle (BitVec.ofNat 64 (win + 32)) (rawInst bs))
            | .illegal _ w => .stop (s3.encTrap g e sp cIllegal 0 w)
            | .ok i _ => .run i { s3 with cur := .split g e }

/-- An unassigned opcode raises ILLEGAL_INSTR (R117, R118 step 5). -/
def execUnassignedOpcode (_f : Fmt) (w : BitVec 128) (s : State) : Host.Outcome State Fault Refusal :=
  match s.cur with
  | .split g e =>
    match s.grp g with
    | some G => .next ({ s with cur := .idle }.encTrap g e (G.sp e) cIllegal 0 w)
    | none => .fault .noSplit
  | _ => .fault .noSplit

end Sys2Proof.Machine
end

