-- ==== Sys2Proof/Machine/Int.lean ====
section
/-! DEFINITION. The meanings of the integer, address and bit instructions (R207-R232). -/

namespace Sys2Proof.Machine

/-! ### Shared forms -/

/-- One source read in T: an operation on each element (R210). -/
def Ctx.un (c : Ctx) (s : State) (f : Nat → Nat × Fl) : State :=
  let t := c.x.t
  c.lanewise s t.wide (fun j =>
    let a := c.opA t j
    let r := mapElems t a.val f
    (mkVal t.wide r.1 (lwPsn a t), r.2))

/-- Two sources read in T: an operation on each pair of elements (R210). -/
def Ctx.bin (c : Ctx) (s : State) (f : Nat → Nat → Nat × Fl) : State :=
  let t := c.x.t
  c.lanewise s t.wide (fun j =>
    let a := c.opA t j; let b := c.opB t j
    let r := zipElems t a.val b.val f
    (mkVal t.wide r.1 (lwPsn a t || lwPsn b t), r.2))

/-- Three sources read in T (R210). -/
def Ctx.tri (c : Ctx) (s : State) (f : Nat → Nat → Nat → Nat × Fl) : State :=
  let t := c.x.t
  c.lanewise s t.wide (fun j =>
    let a := c.opA t j; let b := c.opB t j; let d := c.opC t j
    let r := zip3Elems t a.val b.val d.val f
    (mkVal t.wide r.1 (lwPsn a t || lwPsn b t || lwPsn d t), r.2))

/-- Width and signedness of the elements of an integer type. -/
def intOf (t : Ty) : Nat × Bool := (intTy t).getD (32, false)

/-- The signed or unsigned value of an element of T. -/
def elemInt (t : Ty) (a : Nat) : Int := intVal (intOf t).1 (intOf t).2 a

/-- An exact result delivered into T by wrap or saturation (R187, R212). -/
def deliverInt (t : Ty) (sat : Bool) (x : Int) : Nat × Fl := intDeliver (intOf t).1 (intOf t).2 sat x

/-- `.sat` of the integer instructions: M[0] (R207). -/
def Ctx.sat (c : Ctx) : Bool := c.x.mf 0 1 = 1

/-- The number of bits of a value of T: 32 or 64. -/
def tyBits (t : Ty) : Nat := if t.wide then 64 else 32

/-- Two sources of a 32- or 64-bit type, as one number each, and no flag. -/
def Ctx.bits2 (c : Ctx) (s : State) (f : Nat → Nat → Nat) : State := c.bin s (fun a b => (f a b, 0))

/-- A source in T and a control word read as n32 (R208). -/
def Ctx.withCtl (c : Ctx) (s : State) (f : Nat → Nat → Nat) : State :=
  let t := c.x.t
  c.lanewise s t.wide (fun j =>
    let a := c.opA t j; let b := c.opB .n32 j
    (mkVal t.wide (BitVec.ofNat 64 (f a.val.toNat (lwLo b).toNat)) (lwPsn a t || b.pLo), 0))

/-! ### Addition, multiplication and division (R212-R215) -/

/-- IADD (R212). -/
def execIadd (x : Ops) (s : State) : Host.Outcome State Fault Refusal :=
  limov .iadd x s (fun c s => c.bin s (fun a b => deliverInt x.t c.sat (elemInt x.t a + elemInt x.t b)))

/-- ISUB (R212). -/
def execIsub (x : Ops) (s : State) : Host.Outcome State Fault Refusal :=
  limov .isub x s (fun c s => c.bin s (fun a b => deliverInt x.t c.sat (elemInt x.t a - elemInt x.t b)))

/-- IADD3 (R212). -/
def execIadd3 (x : Ops) (s : State) : Host.Outcome State Fault Refusal :=
  limov .iadd3 x s (fun c s =>
    c.tri s (fun a b d => deliverInt x.t c.sat (elemInt x.t a + elemInt x.t b + elemInt x.t d)))

/-- IMUL (R212). -/
def execImul (x : Ops) (s : State) : Host.Outcome State Fault Refusal :=
  limov .imul x s (fun c s => c.bin s (fun a b => deliverInt x.t c.sat (elemInt x.t a * elemInt x.t b)))

/-- IMULH (R213): the upper half of the exact product. -/
def execImulh (x : Ops) (s : State) : Host.Outcome State Fault Refusal :=
  limov .imulh x s (fun c s =>
    c.bin s (fun a b => deliverInt x.t false (elemInt x.t a * elemInt x.t b / (2 ^ tyBits x.t : Nat))))

/-- IMAD (R212). -/
def execImad (x : Ops) (s : State) : Host.Outcome State Fault Refusal :=
  limov .imad x s (fun c s =>
    c.tri s (fun a b d => deliverInt x.t c.sat (elemInt x.t a * elemInt x.t b + elemInt x.t d)))

/-- IMADW (R213): a 32-bit product plus a pair, into a pair. -/
def execImadw (x : Ops) (s : State) : Host.Outcome State Fault Refusal :=
  limov .imadw x s (fun c s =>
    let w : Ty := if x.t == .i32 then .i64 else .n64
    c.lanewise s true (fun j =>
      let a := c.opA x.t j; let b := c.opB x.t j; let d := c.opC w j
      let r := deliverInt w c.sat (elemInt x.t a.val.toNat * elemInt x.t b.val.toNat + elemInt w d.val.toNat)
      (mkVal true (BitVec.ofNat 64 r.1) (a.pLo || b.pLo || lwAny d), r.2)))

/-- The quotient table of R214. -/
def divide (t : Ty) (sat : Bool) (a b : Nat) : Nat × Fl :=
  if elemInt t b = 0 then (2 ^ tyBits t - 1, 0) else deliverInt t sat (Int.tdiv (elemInt t a) (elemInt t b))

/-- The remainder table of R214. -/
def remain (t : Ty) (a b : Nat) : Nat × Fl :=
  if elemInt t b = 0 then (a, 0) else deliverInt t false (Int.tmod (elemInt t a) (elemInt t b))

/-- IDIV (R214). -/
def execIdiv (x : Ops) (s : State) : Host.Outcome State Fault Refusal :=
  limov .idiv x s (fun c s => c.bin s (divide x.t c.sat))

/-- IREM (R214). -/
def execIrem (x : Ops) (s : State) : Host.Outcome State Fault Refusal :=
  limov .irem x s (fun c s => c.bin s (remain x.t))

/-- IMIN (R215). -/
def execImin (x : Ops) (s : State) : Host.Outcome State Fault Refusal :=
  limov .imin x s (fun c s => c.bin s (fun a b => (if elemInt x.t a ≤ elemInt x.t b then a else b, 0)))

/-- IMAX (R215). -/
def execImax (x : Ops) (s : State) : Host.Outcome State Fault Refusal :=
  limov .imax x s (fun c s => c.bin s (fun a b => (if elemInt x.t a ≤ elemInt x.t b then b else a, 0)))

/-- IABS (R215). -/
def execIabs (x : Ops) (s : State) : Host.Outcome State Fault Refusal :=
  limov .iabs x s (fun c s => c.un s (fun a => deliverInt x.t c.sat ((elemInt x.t a).natAbs : Int)))

/-- INEG (R215). -/
def execIneg (x : Ops) (s : State) : Host.Outcome State Fault Refusal :=
  limov .ineg x s (fun c s => c.un s (fun a => deliverInt x.t c.sat (-(elemInt x.t a))))

/-! ### Compare, select and address (R216-R218) -/

/-- The conditions of R216. -/
def intCond (cc : Nat) (a b : Int) : Bool :=
  match cc with
  | 0 => a = b | 1 => a ≠ b | 2 => a < b | 3 => a ≤ b | 4 => b < a | _ => b ≤ a

/-- ISETC (R216): one word in every type. -/
def execIsetc (x : Ops) (s : State) : Host.Outcome State Fault Refusal :=
  limov .isetc x s (fun c s =>
    c.lanewise s false (fun j =>
      let a := c.opA x.t j; let b := c.opB x.t j
      let ones := 2 ^ (if x.t.wide then 32 else tyStep x.t) - 1
      let es := ((elemsOf x.t a.val).zip (elemsOf x.t b.val)).map (fun p =>
        if intCond (x.mf 0 3) (elemInt x.t p.1) (elemInt x.t p.2) then ones else 0)
      (mkVal false (BitVec.ofNat 64 (ofElems (if x.t.wide then 32 else tyStep x.t) es)) (lwPsn a x.t || lwPsn b x.t), 0)))

/-- ISEL (R217, R210): the poison of the condition and of the operand that it selects. -/
def execIsel (x : Ops) (s : State) : Host.Outcome State Fault Refusal :=
  limov .isel x s (fun c s =>
    c.lanewise s x.t.wide (fun j =>
      let d := c.opC .n32 j
      let v := if lwLo d != 0 then c.opA x.t j else c.opB x.t j
      (mkVal x.t.wide v.val (d.pLo || lwPsn v x.t), 0)))

/-- LEA (R218). -/
def execLea (x : Ops) (s : State) : Host.Outcome State Fault Refusal :=
  limov .lea x s (fun c s =>
    c.lanewise s true (fun j =>
      let a := c.opA .n64 j; let b := c.opB x.t j
      let i : DWord := if x.t == .i32 then (lwLo b).signExtend 64 else (lwLo b).zeroExtend 64
      (mkVal true (a.val + (i <<< (x.mf 0 3))) (lwAny a || b.pLo), 0)))

/-! ### Shifts (R219, R220) -/

/-- Rotation left by `q` of `n` bits. -/
def rotl (n a q : Nat) : Nat := (a * 2 ^ q + a / 2 ^ (n - q)) % 2 ^ n

/-- SHL (R219). -/
def execShl (x : Ops) (s : State) : Host.Outcome State Fault Refusal :=
  limov .shl x s (fun c s => c.withCtl s (fun a k => if tyBits x.t ≤ k then 0 else a * 2 ^ k % 2 ^ tyBits x.t))

/-- SHR (R219). -/
def execShr (x : Ops) (s : State) : Host.Outcome State Fault Refusal :=
  limov .shr x s (fun c s => c.withCtl s (fun a k => if tyBits x.t ≤ k then 0 else a / 2 ^ k))

/-- SAR (R219). -/
def execSar (x : Ops) (s : State) : Host.Outcome State Fault Refusal :=
  limov .sar x s (fun c s => c.withCtl s (fun a k =>
    let n := tyBits x.t
    ((intVal n true a / (2 ^ (min k n) : Nat)) % (2 ^ n : Nat)).toNat))

/-- ROL (R219). -/
def execRol (x : Ops) (s : State) : Host.Outcome State Fault Refusal :=
  limov .rol x s (fun c s => c.withCtl s (fun a k => rotl (tyBits x.t) a (k % tyBits x.t)))

/-- ROR (R219). -/
def execRor (x : Ops) (s : State) : Host.Outcome State Fault Refusal :=
  limov .ror x s (fun c s => c.withCtl s (fun a k =>
    rotl (tyBits x.t) a ((tyBits x.t - k % tyBits x.t) % tyBits x.t)))

/-- XWIN (R220). -/
def execXwin (x : Ops) (s : State) : Host.Outcome State Fault Refusal :=
  limov .xwin x s (fun c s =>
    c.lanewise s false (fun j =>
      let a := c.opA .b32 j; let b := c.opB .b32 j; let d := c.opC .i32 j
      let v := (lwLo b).toNat * 2 ^ 32 + (lwLo a).toNat
      let p := (lwLo d).toInt
      let r := if x.mf 0 1 = 0 then v / 2 ^ (min (max p 0) 32).toNat else (v * 2 ^ 64 + v) / 2 ^ (p % 64).toNat
      (mkVal false (BitVec.ofNat 64 r) (a.pLo || b.pLo || d.pLo), 0)))

/-! ### Logic and bits (R221-R227) -/

/-- AND (R221). -/
def execAnd (x : Ops) (s : State) : Host.Outcome State Fault Refusal :=
  limov .andB x s (fun c s => c.bits2 s (fun a b => a &&& b))

/-- OR (R221). -/
def execOr (x : Ops) (s : State) : Host.Outcome State Fault Refusal :=
  limov .orB x s (fun c s => c.bits2 s (fun a b => a ||| b))

/-- XOR (R221). -/
def execXor (x : Ops) (s : State) : Host.Outcome State Fault Refusal :=
  limov .xorB x s (fun c s => c.bits2 s (fun a b => a ^^^ b))

/-- ANDN (R221). -/
def execAndn (x : Ops) (s : State) : Host.Outcome State Fault Refusal :=
  limov .andn x s (fun c s => c.bits2 s (fun a b => a &&& (b ^^^ (2 ^ tyBits x.t - 1))))

/-- A number from its bits below `n`. -/
def ofBits (n : Nat) (f : Nat → Bool) : Nat := (List.range n).foldl (fun r i => if f i then r + 2 ^ i else r) 0

/-- BFN3 (R221). -/
def execBfn3 (x : Ops) (s : State) : Host.Outcome State Fault Refusal :=
  limov .bfn3 x s (fun c s => c.tri s (fun a b d =>
    (ofBits (tyBits x.t) (fun i =>
      x.m.toNat.testBit ((if a.testBit i then 1 else 0) + (if b.testBit i then 2 else 0) + (if d.testBit i then 4 else 0))), 0)))

/-- A count over one source, one word in every type (R222). -/
def Ctx.count (c : Ctx) (s : State) (f : Nat → Nat) : State :=
  let t := c.x.t
  c.lanewise s false (fun j =>
    let a := c.opA t j
    (mkVal false (BitVec.ofNat 64 (f a.val.toNat)) (lwPsn a t), 0))

/-- The number of set bits below `n`. -/
def popcount (n a : Nat) : Nat := ((List.range n).filter (fun i => a.testBit i)).length

/-- CLZ (R222). -/
def execClz (x : Ops) (s : State) : Host.Outcome State Fault Refusal :=
  limov .clz x s (fun c s => c.count s (fun a => if a = 0 then tyBits x.t else tyBits x.t - 1 - a.log2))

/-- CTZ (R222). -/
def execCtz (x : Ops) (s : State) : Host.Outcome State Fault Refusal :=
  limov .ctz x s (fun c s => c.count s (fun a => ((List.range (tyBits x.t)).find? (fun i => a.testBit i)).getD (tyBits x.t)))

/-- POPC (R222). -/
def execPopc (x : Ops) (s : State) : Host.Outcome State Fault Refusal :=
  limov .popc x s (fun c s => c.count s (popcount (tyBits x.t)))

/-- BREV (R222). -/
def execBrev (x : Ops) (s : State) : Host.Outcome State Fault Refusal :=
  limov .brev x s (fun c s => c.un s (fun a => (ofBits (tyBits x.t) (fun i => a.testBit (tyBits x.t - 1 - i)), 0)))

/-- BSWAP (R222). -/
def execBswap (x : Ops) (s : State) : Host.Outcome State Fault Refusal :=
  limov .bswap x s (fun c s => c.un s (fun a =>
    (ofBits (tyBits x.t) (fun i => a.testBit (tyBits x.t - 8 - i / 8 * 8 + i % 8)), 0)))

/-- BFE (R223). -/
def execBfe (x : Ops) (s : State) : Host.Outcome State Fault Refusal :=
  limov .bfe x s (fun c s => c.withCtl s (fun a ctl =>
    let w := tyBits x.t
    let sg := (intOf x.t).2
    let p := ctl % 256
    let l := min (ctl / 256 % 256) w
    let v : Int := intVal w sg a
    let f : Nat := (v / (2 ^ p : Nat) % (2 ^ l : Nat)).toNat
    if l = 0 then 0 else ((if sg then intVal l true f else (f : Int)) % (2 ^ w : Nat)).toNat))

/-- BFI (R224). -/
def execBfi (x : Ops) (s : State) : Host.Outcome State Fault Refusal :=
  limov .bfi x s (fun c s =>
    c.lanewise s x.t.wide (fun j =>
      let a := c.opA x.t j; let k := c.opB .n32 j; let b := c.opC x.t j
      let w := tyBits x.t
      let p := (lwLo k).toNat % 256
      let l := min ((lwLo k).toNat / 256 % 256) w
      let m := (2 ^ l - 1) * 2 ^ p % 2 ^ w
      let r := (b.val.toNat &&& (m ^^^ (2 ^ w - 1))) ||| (a.val.toNat * 2 ^ p % 2 ^ w &&& m)
      (mkVal x.t.wide (BitVec.ofNat 64 r) (lwPsn a x.t || k.pLo || lwPsn b x.t), 0)))

/-- Bits of `a` placed under the set bits of the mask (R225): the number of mask bits below `i` picks the bit. -/
def deposit (n a m : Nat) : Nat := ofBits n (fun i => m.testBit i && a.testBit (popcount i m))

/-- Bits of `a` under the set bits of the mask, gathered at the low end (R225). -/
def extract (n a m : Nat) : Nat :=
  ((List.range n).foldl (fun (r : Nat × Nat) i =>
    if m.testBit i then (if a.testBit i then r.1 + 2 ^ r.2 else r.1, r.2 + 1) else r) (0, 0)).1

/-- PDEP (R225). -/
def execPdep (x : Ops) (s : State) : Host.Outcome State Fault Refusal :=
  limov .pdep x s (fun c s => c.bits2 s (deposit (tyBits x.t)))

/-- PEXT (R225). -/
def execPext (x : Ops) (s : State) : Host.Outcome State Fault Refusal :=
  limov .pext x s (fun c s => c.bits2 s (extract (tyBits x.t)))

/-- BPERM (R225). -/
def execBperm (x : Ops) (s : State) : Host.Outcome State Fault Refusal :=
  limov .bperm x s (fun c s => c.bits2 s (fun a m =>
    let n := tyBits x.t
    extract n a m + extract n a (m ^^^ (2 ^ n - 1)) * 2 ^ popcount n m))

/-- GF2MM (R226). -/
def execGf2mm (x : Ops) (s : State) : Host.Outcome State Fault Refusal :=
  limov .gf2mm x s (fun c s => c.bits2 s (fun a b =>
    ofBits 64 (fun i => (List.range 8).foldl (fun p k => p != (a.testBit (i / 8 * 8 + k) && b.testBit (8 * k + i % 8))) false)))

/-- One byte that BYSEL selects (R227). -/
def byselByte (tbl c : Nat) : Nat :=
  let s := tbl / 256 ^ (c % 8) % 256
  if c.testBit 4 then 0 else if c.testBit 3 then (if s.testBit 7 then 0xFF else 0) else s

/-- BYSEL (R227). -/
def execBysel (x : Ops) (s : State) : Host.Outcome State Fault Refusal :=
  limov .bysel x s (fun c s =>
    c.lanewise s false (fun j =>
      let a := c.opA .b32 j; let k := c.opB .b32 j; let b := c.opC .b32 j
      let tbl := (lwLo a).toNat + (lwLo b).toNat * 2 ^ 32
      let r := ofElems 8 ((List.range 4).map (fun i => byselByte tbl ((lwLo k).toNat / 256 ^ i % 256)))
      (mkVal false (BitVec.ofNat 64 r) (a.pLo || k.pLo || b.pLo), 0)))

/-! ### Moves (R228-R232) -/

/-- MOV (R228): values with their poison bits. -/
def execMov (x : Ops) (s : State) : Host.Outcome State Fault Refusal :=
  limov .mov x s (fun c s => c.lanewise s x.t.wide (fun j => (c.opA x.t j, 0)))

/-- MOVI (R229). -/
def execMovi (x : Ops) (s : State) : Host.Outcome State Fault Refusal :=
  limov .movi x s (fun c s =>
    c.lanewise s x.t.wide (fun _ =>
      ({ val := if x.t == .i64 then x.imm.signExtend 64 else x.imm.zeroExtend 64 }, 0)))

/-- A claim delivers to `d` where it delivered to `v`; its place for `d`, where it had one, is discarded (R230). -/
def Claim.move (c : Claim) (v : Nat) (d : Option Nat) : Claim :=
  { c with dests := (c.drop (d.getD 0)).dests.map (fun r => if r = some v then d else r) }

/-- Sets a register to clean zero in lanes (R171). -/
def Group.zero (G : Group) (r : Nat) (lanes : Lanes) : Group := G.setRegs r (lanes.list.map (fun j => (j, {})))

/-- TAKE of a PENDING vs on ticket `t` (R171, R230): the claim moves to vd, and vs becomes FULL with clean zeros in the
claim's lanes. -/
def Group.takeClaim (G : Group) (d v t : Nat) (lanes : Lanes) : Group :=
  let G1 := if d ≠ 0 ∧ G.pendOf d ≠ some t then G.orphan d else G
  let G2 := { (G1.setFull v) with claims := Map.modify G1.claims t (fun c => c.move v (if d = 0 then none else some d)) }
  let G3 := if d = 0 then G2 else G2.setPend d t
  G3.zero v lanes

/-- TAKE of a FULL vs (R171): values move in the executing lanes. -/
def Group.takeFull (G : Group) (d v : Nat) (lanes : Lanes) : Group :=
  let vals := lanes.list.map (fun j => (j, G.reg v j))
  ((if d = 0 then G else G.writeReg d vals).zero v lanes)

/-- The lanes of a claim. -/
def Group.claimLanes (G : Group) (t : Nat) : Lanes := ((Map.find G.claims t).map (fun c => c.all)).getD 0

/-- TAKE (R171, R230). -/
def execTake (x : Ops) (s : State) : Host.Outcome State Fault Refusal :=
  limov .take x s (fun c s =>
    let d := x.d.toNat
    let v := aReg x
    if c.act = 0 ∨ d = v then c.done s
    else
      match c.G.pendOf v with
      | some t =>
        let lanes := c.G.claimLanes t
        if d ≠ 0 ∧ (c.G.pendOf d).isSome ∧ c.G.pendOf d ≠ some t ∧ c.G.outstanding d &&& ~~~ lanes ≠ 0 then c.park s [d] []
        else c.done (s.modGrp c.g (fun G => G.takeClaim d v t lanes))
      | none =>
        if d ≠ 0 ∧ c.G.outstanding d &&& ~~~ c.ex ≠ 0 then c.park s [d] []
        else c.done (s.modGrp c.g (fun G => G.takeFull d v c.ex)))

/-- The register number that RGET and RPUT take from the lowest active lane, where it may be named (R231, R232). -/
def Ctx.progReg (c : Ctx) (s : State) (k : Nat → State) : State :=
  match c.act.lowest with
  | none => c.done s
  | some i =>
    let n := c.opA .n32 i
    let r := (lwLo n).toNat
    if n.pLo then c.trap s cPoison (Lanes.one i) 0
    else if 255 < r ∨ 8 * c.G.regs8 ≤ r then c.trap s cIllegal c.act 0
    else k r

/-- A register of the interrupted program is PENDING: in the file, or in its frame slot (R231). -/
def Group.progPend (G : Group) (r : Nat) : Option Nat :=
  if 240 ≤ r then (if Map.has G.slots (r - 240) then some (r + 16) else none)
  else (G.pendOf r).map (fun _ => r)

/-- The slots of the trap frame can be reached for an access of an instruction: a recoverable fault holds the split until
service, and a fatal condition ends the team, as for the frame accesses of R415 and R423 (DEDUCED, log entry 95). -/
def Ctx.slots (c : Ctx) (s : State) (acc : Acc) (k : State → State) : State :=
  match s.slotXl c.G c.T acc with
  | (.ok _ _ _, s1) => k s1
  | (.fatal _ cause, s1) => s1.terminate c.G.team cause
  | (.recov va lvl cls, s1) =>
    let (id, s2) := attachFault s1 c.k c.ctx c.T.index va lvl cls acc (.split c.g c.e)
    c.wait s2 (.fault id)

/-- RGET (R231): v240-v255 are read from the frame's slots, which R415 writes as zero with REGS8 below 32. -/
def execRget (x : Ops) (s : State) : Host.Outcome State Fault Refusal :=
  limov .rget x s (fun c s => c.progReg s (fun r =>
    match c.G.progPend r with
    | some p => c.park s [p] []
    | none =>
      let out (s : State) (v : Nat → LW) : State := c.result s false false (c.ex.list.map (fun j => (j, single (v j), 0)))
      if 240 ≤ r then c.slots s .read (fun s => out s (fun j => s.slotRead c.G c.T (r - 240) j))
      else out s (fun j =>
        if r = 0 then {}
        else if r ≤ 3 then { val := c.G.tmask.word (r - 1) }
        else s.progWord c.G c.T r j)))

/-- RPUT (R232). A register that an MLOOP holds parks it (R335). -/
def execRput (x : Ops) (s : State) : Host.Outcome State Fault Refusal :=
  limov .rput x s (fun c s => c.progReg s (fun r =>
    let vals := c.ex.list.map (fun j =>
      let v := c.opB .i32 j
      (j, ({ val := lwLo v, psn := v.pLo } : LW)))
    if r = 0 then c.done s
    else if r ≤ 3 then c.trap s cIllegal c.act 0
    else if c.G.isHeldReg r then c.park s [] [r]
    else if r < 240 then
      (if c.G.outstanding r &&& ~~~ c.ex ≠ 0 then c.park s [r] []
       else c.done (s.modGrp c.g (fun G => G.writeReg r vals)))
    else
      match Map.find c.G.slots (r - 240) with
      | some t =>
        let out := ((Map.find c.G.claims t).map (fun c => c.lanes)).getD 0
        if out &&& ~~~ c.ex ≠ 0 then c.park s [r + 16] []
        else c.slots s .write (fun s =>
          let s1 := s.modGrp c.g (fun G =>
            { G with slots := Map.erase G.slots (r - 240), claims := Map.modify G.claims t (fun c => c.drop (r + 16)) })
          c.done ((s1.slotWrite c.g (r - 240) vals).slotState c.g (r - 240) none))
      | none => c.slots s .write (fun s => c.done (s.slotWrite c.g (r - 240) vals))))

end Sys2Proof.Machine
end

