-- ==== Sys2Proof/Machine/Sfu.lean ====
section
/-! DEFINITION. The special functions (R249-R252). RCP, SQRT and RRED are computed exactly and rounded once. For the
others the spec gives a bound: the delivered word is the free value of `Config.sfu` wherever it lies within the bound, and
the nearest value where it does not, so that nothing but the bound is known of it. The exact result is approximated by
integers of about 160 bits, far below the bound. -/

namespace Sys2Proof.Machine

/-- One in the fixed-point scale of this file. -/
def fxOne : Nat := 2 ^ 160
/-- ln 2 times `fxOne`, rounded down. -/
def fxLn2 : Nat := 0xb17217f7d1cf79abc9e3b39803f2f6af40f34326
/-- π times `fxOne`, rounded down. -/
def fxPi : Nat := 0x3243f6a8885a308d313198a2e03707344a4093822

/-- The integer square root, bit by bit from bit `n − 1`. -/
def isqrt : Nat → Nat → Nat → Nat
  | 0, _, r => r
  | b + 1, n, r => isqrt b n (if (r + 2 ^ b) * (r + 2 ^ b) ≤ n then r + 2 ^ b else r)

/-- The sum of `t·z^i / ((c+1)(c+2)…)` terms, `step` factorial factors at a time: Σ ± terms of an exponential series in
fixed point. -/
def fxSeries (alt : Bool) (step : Nat) : Nat → Nat → Nat → Nat → Bool → Int
  | 0, _, _, _, _ => 0
  | n + 1, t, z, c, neg =>
    let d := if step = 1 then c + 1 else (c + 1) * (c + 2)
    (if neg then -(t : Int) else t) + fxSeries alt step n (t * z / fxOne / d) z (c + step) (alt && !neg)

/-- e^g for a fixed-point g below 1. -/
def fxExp (g : Nat) : Nat := (fxSeries false 1 60 fxOne g 0 false).toNat

/-- x^(2^n) in fixed point. -/
def fxSquares : Nat → Nat → Nat
  | 0, x => x
  | n + 1, x => fxSquares n (x * x / fxOne)

/-- The binary digits of log2 z for a fixed-point z in [1, 2), `n` of them, as an integer in units of 2^−n. -/
def fxLog2 : Nat → Nat → Nat → Nat
  | 0, _, acc => acc
  | n + 1, z, acc =>
    let s := z * z / fxOne
    if 2 * fxOne ≤ s then fxLog2 n (s / 2) (2 * acc + 1) else fxLog2 n s (2 * acc)

/-- A fixed-point value of an exact result that is known to lie below 1: it stays in the binade of the exact one, so that the ulp of a bound is that of
the exact result (R250). -/
def fxBelowOne (v : Nat) : Nat := min v (fxOne - 1)

/-- A signed dyadic m × 2^e that stands for an exact result. -/
structure Dya where
  neg : Bool
  m : Nat
  e : Int
deriving DecidableEq, Repr

/-- The nearest f32 code. -/
def Dya.nearest (y : Dya) : Nat := if y.m = 0 then FF.f32.signed y.neg 0 else (FF.f32.round 0 false y.neg y.m y.e true).1

/-- The code `c` lies within a bound of y: `half` halves of the ulp of y (R250), or 2^−23 where `abs`. -/
def Dya.within (y : Dya) (half : Nat) (abs : Bool) (c : Nat) : Bool :=
  let bin : Int := max ((y.m.log2 : Int) + y.e) (-126)
  let unit : Int := if abs then -24 else bin - 24
  let dist (sv : Int) (lo : Int) : Bool :=
    let yv : Int := (if y.neg then -1 else 1) * ((y.m : Int) * 2 ^ (y.e - lo).toNat)
    decide ((sv - yv).natAbs ≤ (if abs then 2 else half) * 2 ^ (unit - lo).toNat)
  match FF.f32.val c with
  | .zero _ => dist 0 (min y.e unit)
  | .fin n m e =>
    let lo := min (min y.e e) unit
    dist ((if n then -1 else 1) * ((m : Int) * 2 ^ (e - lo).toNat)) lo
  | _ => false

/-- The delivered code and flags for an inexact result y (R249). -/
def sfuPick (op : Nat) (r w : Word) (y : Dya) (half : Nat) (abs : Bool) : Nat × Fl :=
  let c := (Config.sfu op r w).toNat
  let d := if y.within half abs c then c else y.nearest
  (d, Fl.nx ||| Fl.ofCond (y.m = 0 || (y.m.log2 : Int) + y.e < -126) Fl.uf)

/-- RCP: correctly rounded 1/x (R250). -/
def sfuRcp (mode : RMode) (sat : Bool) (x : Nat) : Nat × Fl :=
  let f := FF.f32
  match f.val x with
  | .nan s => (f.canon, Fl.ofCond s Fl.nv)
  | .inf n => (f.signed n 0, 0)
  | .zero n => ((f.infinite sat n).1, (f.infinite sat n).2 ||| Fl.dz)
  | .fin n m e =>
    let k := m.log2 + 40
    f.round mode sat n (2 ^ k / m) (-e - k) (2 ^ k % m ≠ 0)

/-- SQRT: correctly rounded √x (R250). -/
def sfuSqrt (mode : RMode) (sat : Bool) (x : Nat) : Nat × Fl :=
  let f := FF.f32
  match f.val x with
  | .nan s => (f.canon, Fl.ofCond s Fl.nv)
  | .inf true => (f.canon, Fl.nv)
  | .inf false => f.infinite sat false
  | .zero n => (f.signed n 0, 0)
  | .fin true _ _ => (f.canon, Fl.nv)
  | .fin false m e =>
    let sh : Nat := if e % 2 = 0 then 80 else 81
    let n := m * 2 ^ sh
    let r := isqrt 56 n 0
    f.round mode sat false r ((e - sh) / 2) (r * r ≠ n)

/-- RSQ: 1/√x within 1 ulp (R250). -/
def sfuRsq (r : Word) : Nat × Fl :=
  let f := FF.f32
  match f.val r.toNat with
  | .nan s => (f.canon, Fl.ofCond s Fl.nv)
  | .inf true => (f.canon, Fl.nv)
  | .inf false => (0, 0)
  | .zero n => (f.infBits n, Fl.dz)
  | .fin true _ _ => (f.canon, Fl.nv)
  | .fin false m e =>
    -- 1/√(m·2^e) with e made even: √(2^(2k)/m') in units of 2^(−k − e'/2)
    let m' := if e % 2 = 0 then m else 2 * m
    let e' : Int := if e % 2 = 0 then e else e - 1
    let q := 2 ^ 240 / m'
    let s := isqrt 121 q 0
    let y : Dya := { neg := false, m := s, e := -120 - e' / 2 }
    let c := (Config.sfu 0x51 r 0).toNat
    let d := if y.within 2 false c then c else y.nearest
    -- exact where the delivered value squared times x is 1
    let exact := match f.val d with
      | .fin false dm de => decide (2 * (dm.log2 : Int) + 2 * de + m.log2 + e ≥ -2 ∧
          (dm * dm * m : Nat) * 2 ^ (2 * de + e + 200).toNat = 2 ^ 200 * 2 ^ (-(2 * de + e + 200)).toNat)
      | _ => false
    (d, Fl.ofCond (!exact) Fl.nx)

/-- EX2: 2^x within 1 ulp (R250). -/
def sfuEx2 (r : Word) : Nat × Fl :=
  let f := FF.f32
  match f.val r.toNat with
  | .nan s => (f.canon, Fl.ofCond s Fl.nv)
  | .inf true => (0, 0)
  | .inf false => (f.infBits false, 0)
  | .zero _ => (0x3F800000, 0)
  | .fin neg m e =>
    if 8 ≤ (m.log2 : Int) + e then
      if neg then sfuPick 0x53 r 0 { neg := false, m := 1, e := -400 } 2 false else (f.infBits false, Fl.ovf ||| Fl.nx)
    else
      -- x in units of 2^-160, rounded toward −∞ where x is below that unit
      let v : Int := if 0 ≤ e + 160 then (m : Int) * 2 ^ (e + 160).toNat else (m / 2 ^ (-(e + 160)).toNat : Nat)
      let x : Int := if neg then -v else v
      let n : Int := x / (fxOne : Int)
      let g : Nat := (x % (fxOne : Int)).toNat
      if g = 0 ∧ (0 ≤ e ∨ decide ((m : Int) % 2 ^ (-e).toNat = 0)) then
        if 128 ≤ n then (f.infBits false, Fl.ovf ||| Fl.nx)
        else if n < -149 then sfuPick 0x53 r 0 { neg := false, m := 1, e := n } 2 false
        else f.round 0 false false 1 n false
      else if 128 ≤ n then (f.infBits false, Fl.ovf ||| Fl.nx)
      else sfuPick 0x53 r 0 { neg := false, m := fxExp (g * fxLn2 / fxOne), e := n - 160 } 2 false

/-- LG2: log2 x within 1 ulp, or within 2^−23 for 0.5 ≤ x ≤ 2 (R250). -/
def sfuLg2 (r : Word) : Nat × Fl :=
  let f := FF.f32
  match f.val r.toNat with
  | .nan s => (f.canon, Fl.ofCond s Fl.nv)
  | .inf true => (f.canon, Fl.nv)
  | .inf false => (f.infBits false, 0)
  | .zero _ => (f.infBits true, Fl.dz)
  | .fin true _ _ => (f.canon, Fl.nv)
  | .fin false m e =>
    let k : Int := (m.log2 : Int) + e
    if m = 2 ^ m.log2 then
      (if k = 0 then 0 else (f.round 0 false (k < 0) k.natAbs 0 false).1, 0)
    else
      let z := m * fxOne / 2 ^ m.log2
      let l : Int := k * 2 ^ 120 + (fxLog2 120 z 0 : Nat)
      let half : Bool := k = 0 || k = -1
      sfuPick 0x54 r 0 { neg := l < 0, m := l.natAbs, e := -120 } 2 half

/-- TANH within 2 ulp (R250). -/
def sfuTanh (r : Word) : Nat × Fl :=
  let f := FF.f32
  match f.val r.toNat with
  | .nan s => (f.canon, Fl.ofCond s Fl.nv)
  | .inf n => (f.signed n 0x3F800000, 0)
  | .zero n => (f.signed n 0, 0)
  | .fin neg m e =>
    let top : Int := (m.log2 : Int) + e
    if top < -10 then
      -- x(1 − x²/3 + 2x⁴/15 − 17x⁶/315)
      let u : Nat := if 0 ≤ 2 * e + 160 then m * m * 2 ^ (2 * e + 160).toNat else m * m / 2 ^ (min (-(2 * e + 160)).toNat 200)
      let u2 := u * u / fxOne
      let s := fxBelowOne (fxOne - u / 3 + 2 * u2 / 15 - 17 * (u2 * u / fxOne) / 315)
      sfuPick 0x57 r 0 { neg := neg, m := m * s, e := e - 160 } 4 false
    else if 6 ≤ top then sfuPick 0x57 r 0 { neg := neg, m := fxOne - 1, e := -160 } 4 false
    else
      -- t = e^(−2|x|): |x| < 64, so 2|x|/256 < 1
      let g : Nat := if 0 ≤ e + 153 then m * 2 ^ (e + 153).toNat else m / 2 ^ (-(e + 153)).toNat
      let t := fxSquares 8 (fxOne * fxOne / fxExp g)
      sfuPick 0x57 r 0 { neg := neg, m := fxBelowOne ((fxOne - t) * fxOne / (fxOne + t)), e := -160 } 4 false

/-- The nearest integer to ±m × 2^e, ties to even. -/
def nearestInt (neg : Bool) (m : Nat) (e : Int) : Int :=
  let (r, _) := roundTo 0 neg m e 0 false
  if neg then -(r : Int) else r

/-- x − n/2 for x = ±m × 2^e, as a signed mantissa and exponent. -/
def lessHalves (neg : Bool) (m : Nat) (e n : Int) : Int × Int :=
  let lo := min e (-1)
  ((if neg then -1 else 1) * ((m : Int) * 2 ^ (e - lo).toNat) - n * 2 ^ (-1 - lo).toNat, lo)

/-- RRED of x: the remainder, the quadrant word and the flags (R251). -/
def sfuRred (x : Nat) : Nat × Nat × Fl :=
  let f := FF.f32
  match f.val x with
  | .nan s => (f.canon, 0, Fl.ofCond s Fl.nv)
  | .inf _ => (f.canon, 0, Fl.nv)
  | .zero n => (x, if n then 2 ^ 31 else 0, 0)
  | .fin neg m e =>
    let n := nearestInt neg m (e + 1)
    let w := (n % 4).toNat + (if neg then 2 ^ 31 else 0)
    if n = 0 then (x, w, 0)
    else
      let (v, lo) := lessHalves neg m e n
      (if v = 0 then 0 else (f.round 0 false (v < 0) v.natAbs lo false).1, w, 0)

/-- SINP (`cos` false) and COSP of the pair (r, w) (R252). -/
def sfuSinCos (cos : Bool) (r w : Word) : Nat × Fl :=
  let f := FF.f32
  let zeroBits : Nat := if !cos ∧ w.getLsbD 31 then f.signed true 0 else 0
  -- the value of quadrant q at t = v × 2^lo: whether it is a cosine, and its sign
  let pick (q : Nat) (v : Int) (lo : Int) : Nat × Fl :=
    let isCos : Bool := (q % 2 = 1) != cos
    let neg : Bool := if cos then q = 1 || q = 2 else q = 2 || q = 3
    if v = 0 then (if isCos then f.signed neg 0x3F800000 else zeroBits, 0)
    else
      let a := v.natAbs
      let t2 : Nat := if 0 ≤ 2 * lo + 160 then a * a * 2 ^ (2 * lo + 160).toNat else a * a / 2 ^ (min (-(2 * lo + 160)).toNat 1000)
      let z := t2 * fxPi / fxOne * fxPi / fxOne
      let y : Dya :=
        if isCos then { neg := neg, m := fxBelowOne (fxSeries true 2 30 fxOne z 0 false).toNat, e := -160 }
        else
          { neg := neg != (v < 0), m := a * ((fxSeries true 2 30 fxOne z 1 false).toNat * fxPi / fxOne), e := lo - 160 }
      sfuPick (if cos then 0x56 else 0x55) r w y 3 false
  match f.val r.toNat with
  | .nan s => (f.canon, Fl.ofCond s Fl.nv)
  | .inf _ => (f.canon, Fl.nv)
  | .zero _ => pick (w.toNat % 4) 0 0
  | .fin neg m e =>
    let n := nearestInt neg m (e + 1)
    let (v, lo) := if n = 0 then ((if neg then -1 else 1) * (m : Int), e) else lessHalves neg m e n
    pick (((w.toNat % 4 : Nat) + n) % 4).toNat v lo

end Sys2Proof.Machine
end

