-- ==== Sys2Proof/Machine/Float.lean ====
section
/-! DEFINITION. The meanings of the floating-point, conversion and special-function instructions (R233-R252). -/

namespace Sys2Proof.Machine

/-! ### Arithmetic (R240-R246) -/

/-- The rounding mode of M[1:0] (R234). -/
def Ctx.rnd (c : Ctx) : RMode := c.x.mf 0 2

/-- `.sat` of the floating-point instructions: M[2] (R234). -/
def Ctx.fsat (c : Ctx) : Bool := c.x.mf 2 1 = 1

/-- FADD (R240). -/
def execFadd (x : Ops) (s : State) : Host.Outcome State Fault Refusal :=
  limov .fadd x s (fun c s => c.bin s (fAdd (FF.of x.t) c.rnd c.fsat))

/-- FSUB (R240). -/
def execFsub (x : Ops) (s : State) : Host.Outcome State Fault Refusal :=
  limov .fsub x s (fun c s => c.bin s (fSub (FF.of x.t) c.rnd c.fsat))

/-- FMUL (R240). -/
def execFmul (x : Ops) (s : State) : Host.Outcome State Fault Refusal :=
  limov .fmul x s (fun c s => c.bin s (fMul (FF.of x.t) c.rnd c.fsat))

/-- FFMA (R240). -/
def execFfma (x : Ops) (s : State) : Host.Outcome State Fault Refusal :=
  limov .ffma x s (fun c s => c.tri s (fFma (FF.of x.t) c.rnd c.fsat))

/-- FMIN (R241). -/
def execFmin (x : Ops) (s : State) : Host.Outcome State Fault Refusal :=
  limov .fmin x s (fun c s => c.bin s (fMinMax (FF.of x.t) false))

/-- FMAX (R241). -/
def execFmax (x : Ops) (s : State) : Host.Outcome State Fault Refusal :=
  limov .fmax x s (fun c s => c.bin s (fMinMax (FF.of x.t) true))

/-- FSETC (R242). -/
def execFsetc (x : Ops) (s : State) : Host.Outcome State Fault Refusal :=
  limov .fsetc x s (fun c s => c.bin s (fun a b =>
    let r := fCond (FF.of x.t) (x.mf 0 3) a b
    (if r.1 then 2 ^ tyStep x.t - 1 else 0, r.2)))

/-- FCLASS (R243). -/
def execFclass (x : Ops) (s : State) : Host.Outcome State Fault Refusal :=
  limov .fclass x s (fun c s => c.un s (fun a => (2 ^ fClass (FF.of x.t) a, 0)))

/-- FRND (R244). -/
def execFrnd (x : Ops) (s : State) : Host.Outcome State Fault Refusal :=
  limov .frnd x s (fun c s => c.un s (fRnd (FF.of x.t) c.rnd))

/-- FSCALE (R245). -/
def execFscale (x : Ops) (s : State) : Host.Outcome State Fault Refusal :=
  limov .fscale x s (fun c s =>
    c.lanewise s false (fun j =>
      let a := c.opA x.t j
      let n := c.opB (if x.t == .f32 then .i32 else .i16) j
      let r := zipElems x.t a.val n.val (fun a n => fScale (FF.of x.t) c.rnd c.fsat a (intVal (tyStep x.t) true n))
      (mkVal false r.1 (a.pLo || n.pLo), r.2)))

/-- FDOT2 (R246). -/
def execFdot2 (x : Ops) (s : State) : Host.Outcome State Fault Refusal :=
  limov .fdot2 x s (fun c s =>
    c.lanewise s false (fun j =>
      let a := c.opA x.t j; let b := c.opB x.t j; let d := c.opC .f32 j
      let r := fDot (FF.of x.t) (FF.of x.t) c.rnd c.fsat (elemsOf x.t a.val) (elemsOf x.t b.val) (lwLo d).toNat
      (mkVal false (BitVec.ofNat 64 r.1) (a.pLo || b.pLo || d.pLo), r.2)))

/-- FDOT4 of i8 elements: c + Σ a_k × b_k (R246). -/
def iDot4 (sat : Bool) (as bs : List Nat) (d : Nat) : Nat × Fl :=
  intDeliver 32 true sat
    ((as.zip bs).foldl (fun (n : Int) p => n + intVal 8 true p.1 * intVal 8 true p.2) (intVal 32 true d))

/-- FDOT4 (R246). -/
def execFdot4 (x : Ops) (s : State) : Host.Outcome State Fault Refusal :=
  limov .fdot4 x s (fun c s =>
    let tb := fdot4TyB x
    c.lanewise s false (fun j =>
      let a := c.opA x.t j; let b := c.opB tb j; let d := c.opC (if x.t == .i8 then .i32 else .f32) j
      let as := elemsOf x.t a.val
      let bs := elemsOf tb b.val
      let r := if x.t == .i8 then iDot4 c.fsat as bs (lwLo d).toNat
        else fDot (FF.of x.t) (FF.of tb) c.rnd c.fsat as bs (lwLo d).toNat
      (mkVal false (BitVec.ofNat 64 r.1) (a.pLo || b.pLo || d.pLo), r.2)))

/-! ### Conversions (R247, R248) -/

/-- One element converted as M says: rounding mode M[5:4], `.sat` M[6], scaled by 2^n (R248). -/
def cvtElem (x : Ops) (n : Int) (bits : Nat) : Nat × Fl := convert (cvtSrc x) x.t (x.mf 4 2) (x.mf 6 1 = 1) n bits

/-- The OR of flags. -/
def orFlags (rs : List (Nat × Fl)) : Fl := rs.foldl (fun a r => a ||| r.2) 0

/-- The register value of converted elements. -/
def packed (t : Ty) (rs : List (Nat × Fl)) : DWord := BitVec.ofNat 64 (ofElems (tyStep t) (rs.map (fun r => r.1)))

/-- CVT (R248). -/
def execCvt (x : Ops) (s : State) : Host.Outcome State Fault Refusal :=
  limov .cvt x s (fun c s =>
    let src := cvtSrc x
    c.lanewise s x.t.wide (fun j =>
      let a := c.opA src j; let n := c.opB .i32 j
      let rs := (elemsOf src a.val).map (cvtElem x (lwLo n).toInt)
      (mkVal x.t.wide (packed x.t rs) (lwPsn a src || n.pLo), orFlags rs)))

/-- The operand field of the `i`-th register of a source range (R248): a latch or an immediate supplies every one. -/
def opdShift (o : Opd) (i : Nat) : Opd :=
  match o with
  | .reg n p => .reg (n + BitVec.ofNat 8 i) p
  | .full n k p => .full (n + BitVec.ofNat 8 i) k p
  | o => o

/-- PACK (R248). -/
def execPack (x : Ops) (s : State) : Host.Outcome State Fault Refusal :=
  limov .pack x s (fun c s =>
    let src := cvtSrc x
    c.lanewise s x.t.wide (fun j =>
      let n := c.opB .i32 j
      let as := (List.range (x.t.elems / src.elems)).map (fun i => c.opd (opdShift x.a (src.regs * i)) src false j)
      let rs := (as.flatMap (fun a => elemsOf src a.val)).map (cvtElem x (lwLo n).toInt)
      (mkVal x.t.wide (packed x.t rs) (as.any (fun a => lwPsn a src) || n.pLo), orFlags rs)))

/-- The end of an instruction that writes several registers from D upward and no latch entry (R237): for each lane, one
value per place of the range, `regs` registers apart. -/
def Ctx.results (c : Ctx) (s : State) (wide : Bool) (n : Nat) (rs : List (Nat × List LW2 × Fl)) : State :=
  let regs := if wide then 2 else 1
  c.done (s.modGrp c.g (fun G =>
    let G1 := (List.range n).foldl (fun G i =>
      G.writeVal (c.x.d.toNat + regs * i) wide (rs.map (fun r => (r.1, r.2.1.getD i {})))) G
    { G1 with fflags := G1.fflags ||| rs.foldl (fun a r => if r.2.1.any lwAny then a else a ||| r.2.2) 0 }))

/-- UNPACK (R248). -/
def execUnpack (x : Ops) (s : State) : Host.Outcome State Fault Refusal :=
  limov .unpack x s (fun c s =>
    let src := cvtSrc x
    let et := x.t.elems
    c.results s x.t.wide (src.elems / et) (c.ex.list.map (fun j =>
      let a := c.opA src j; let n := c.opB .i32 j
      let rs := (elemsOf src a.val).map (cvtElem x (lwLo n).toInt)
      (j, (List.range (src.elems / et)).map (fun i =>
        mkVal x.t.wide (packed x.t ((rs.drop (i * et)).take et)) (lwPsn a src || n.pLo)), orFlags rs))))

/-! ### Special functions (R249-R252) -/

/-- A special function of one f32 value. -/
def Ctx.sfu (c : Ctx) (s : State) (f : Word → Nat × Fl) : State :=
  c.lanewise s false (fun j =>
    let a := c.opA .f32 j
    let r := f (lwLo a)
    (mkVal false (BitVec.ofNat 64 r.1) a.pLo, r.2))

/-- RCP (R250). -/
def execRcp (x : Ops) (s : State) : Host.Outcome State Fault Refusal :=
  limov .rcp x s (fun c s => c.sfu s (fun a => sfuRcp c.rnd c.fsat a.toNat))

/-- RSQ (R250). -/
def execRsq (x : Ops) (s : State) : Host.Outcome State Fault Refusal :=
  limov .rsq x s (fun c s => c.sfu s sfuRsq)

/-- SQRT (R250). -/
def execSqrt (x : Ops) (s : State) : Host.Outcome State Fault Refusal :=
  limov .sqrt x s (fun c s => c.sfu s (fun a => sfuSqrt c.rnd c.fsat a.toNat))

/-- EX2 (R250). -/
def execEx2 (x : Ops) (s : State) : Host.Outcome State Fault Refusal :=
  limov .ex2 x s (fun c s => c.sfu s sfuEx2)

/-- LG2 (R250). -/
def execLg2 (x : Ops) (s : State) : Host.Outcome State Fault Refusal :=
  limov .lg2 x s (fun c s => c.sfu s sfuLg2)

/-- The pair (r, w) that SINP and COSP read: an immediate supplies (x, 0), a latch its two halves (R235). -/
def Ctx.pairRW (c : Ctx) (j : Nat) : LW2 :=
  match c.x.a with
  | .imm v => { val := immVal .f32 v.toInt }
  | o => c.opd o .n64 false j

/-- SINP and COSP (R252). -/
def Ctx.trig (c : Ctx) (s : State) (cos : Bool) : State :=
  c.lanewise s false (fun j =>
    let a := c.pairRW j
    let r := sfuSinCos cos (lwLo a) ((a.val >>> 32).truncate 32)
    (mkVal false (BitVec.ofNat 64 r.1) (lwAny a), r.2))

/-- SINP (R252). -/
def execSinp (x : Ops) (s : State) : Host.Outcome State Fault Refusal :=
  limov .sinp x s (fun c s => c.trig s false)

/-- COSP (R252). -/
def execCosp (x : Ops) (s : State) : Host.Outcome State Fault Refusal :=
  limov .cosp x s (fun c s => c.trig s true)

/-- TANH (R250). -/
def execTanh (x : Ops) (s : State) : Host.Outcome State Fault Refusal :=
  limov .tanh x s (fun c s => c.sfu s sfuTanh)

/-- RRED (R251): r in vd, the quadrant word in vd + 1. -/
def execRred (x : Ops) (s : State) : Host.Outcome State Fault Refusal :=
  limov .rred x s (fun c s =>
    c.lanewise s true (fun j =>
      let a := c.opA .f32 j
      let r := sfuRred (lwLo a).toNat
      (mkVal true (BitVec.ofNat 64 (r.1 + r.2.1 * 2 ^ 32)) a.pLo, r.2.2)))

end Sys2Proof.Machine
end

