-- ==== Sys2Proof/Machine/Lane.lean ====
section
/-! DEFINITION. The meanings of the lane instructions and RDSYS (R253-R260). -/

namespace Sys2Proof.Machine

/-- In duplex mode an instruction that combines lanes runs over the primaries and, apart, over the shadows (R449). -/
def Ctx.halves (c : Ctx) : List (List Nat) :=
  if c.G.duplex then [c.act.list, (c.ex &&& ~~~ c.act).list] else [c.act.list]

/-- A lane instruction: nothing changes where no lane is active (R253); else `f` gives the results of one set of lanes. -/
def Ctx.lanes (c : Ctx) (s : State) (wide : Bool) (f : List Nat → List (Nat × LW2 × Fl)) : State :=
  if c.act = 0 then c.done s else c.result s wide true (c.halves.flatMap f)

/-- The lane that lane `j` takes its value from under a mode of LXCH (R254). -/
def lxchSrc (mode j : Nat) (b : Word) : Int :=
  match mode with
  | 0 => (b.toNat : Int)
  | 1 => (j : Int) + b.toInt
  | 2 => ((j + b.toNat) % 96 : Nat)
  | _ => (j ^^^ b.toNat : Nat)

/-- LXCH (R254, R449). -/
def execLxch (x : Ops) (s : State) : Host.Outcome State Fault Refusal :=
  limov .lxch x s (fun c s =>
    c.lanes s x.t.wide (fun js => js.map (fun j =>
      let a := c.opA x.t j
      -- a shadow reads the shadow of the lane that its primary reads
      let b := c.opB (if x.mf 0 2 = 1 then .i32 else .n32) (c.G.primary j)
      let src := lxchSrc (x.mf 0 2) (c.G.primary j) (lwLo b)
      let from_ : Nat := if c.G.duplex ∧ 48 ≤ j then src.toNat + 48 else src.toNat
      let v :=
        if b.pLo then mkVal x.t.wide a.val true
        else if src < 0 ∨ (if c.G.duplex then 47 else 95) < src then a
        else if c.G.dead.has from_ then mkVal x.t.wide (c.opA x.t from_).val true
        else c.opA x.t from_
      (j, v, 0))))

/-- The value that POLL writes for one set of lanes (R255). -/
def pollWord (mode : Nat) (vs : List Word) : Bool :=
  match mode with
  | 0 => vs.all (fun v => v != 0)
  | 1 => vs.any (fun v => v != 0)
  | _ => vs.all (fun v => v == vs.headD 0)

/-- POLL (R255). -/
def execPoll (x : Ops) (s : State) : Host.Outcome State Fault Refusal :=
  limov .poll x s (fun c s =>
    let mode := x.mf 0 2
    let vals (js : List Nat) := js.map (fun j => (j, c.opA .b32 j))
    if mode = 3 then
      if c.act = 0 then c.done s
      else
        c.results s false 3 (c.halves.flatMap (fun js =>
          let vs := vals js
          let p := vs.any (fun v => v.2.pLo)
          let m := Lanes.ofPred (fun i => vs.any (fun v => c.G.primary v.1 == i && lwLo v.2 != 0))
          js.map (fun j => (j, (List.range 3).map (fun b => mkVal false ((m.word b).zeroExtend 64) p), 0))))
    else
      c.lanes s false (fun js =>
        let vs := vals js
        let p := vs.any (fun v => v.2.pLo)
        let w : DWord := if pollWord mode (vs.map (fun v => lwLo v.2)) then 0xFFFFFFFF else 0
        js.map (fun j => (j, mkVal false w p, 0))))

/-- The operations of REDUX and SCAN on values of T (R256). -/
def reduxOp (t : Ty) (op a b : Nat) : Nat :=
  match op with
  | 0 => (deliverInt t false (elemInt t a + elemInt t b)).1
  | 1 => if elemInt t a ≤ elemInt t b then a else b
  | 2 => if elemInt t a ≤ elemInt t b then b else a
  | 3 => a &&& b
  | 4 => a ||| b
  | _ => a ^^^ b

/-- A combination with the flags of its steps. -/
abbrev Step2 := Nat → Nat → Nat × Fl

/-- Values combined from the first, in order, with the flags of every step (R202). -/
def combineAll (f : Step2) : List Nat → Nat × Fl
  | [] => (0, 0)
  | v :: vs => vs.foldl (fun r w => let q := f r.1 w; (q.1, r.2 ||| q.2)) (v, 0)

/-- REDUX (R256). -/
def execRedux (x : Ops) (s : State) : Host.Outcome State Fault Refusal :=
  limov .redux x s (fun c s =>
    c.lanes s x.t.wide (fun js =>
      let vs := js.map (fun j => c.opA x.t j)
      let r := combineAll (fun a b => (reduxOp x.t (x.mf 0 3) a b, 0)) (vs.map (fun v => v.val.toNat))
      let p := vs.any (fun v => lwPsn v x.t)
      js.map (fun j => (j, mkVal x.t.wide (BitVec.ofNat 64 r.1) p, 0))))

/-- One step of FREDUX on an element (R257). -/
def freduxStep (x : Ops) : Step2 := fun a b =>
  match x.mf 0 2 with
  | 0 => fAdd (FF.of x.t) (x.mf 2 2) (x.mf 4 1 = 1) a b
  | 1 => fMinMax (FF.of x.t) false a b
  | _ => fMinMax (FF.of x.t) true a b

/-- FREDUX (R257, R202): each element is combined on its own. -/
def execFredux (x : Ops) (s : State) : Host.Outcome State Fault Refusal :=
  limov .fredux x s (fun c s =>
    c.lanes s false (fun js =>
      let vs := js.map (fun j => c.opA x.t j)
      let rs := (List.range x.t.elems).map (fun k =>
        combineAll (freduxStep x) (vs.map (fun v => (elemsOf x.t v.val).getD k 0)))
      let p := vs.any (fun v => v.pLo)
      js.map (fun j => (j, mkVal false (packed x.t rs) p, orFlags rs))))

/-- The identity of an operation of SCAN (R258). -/
def scanIdentity (t : Ty) (op : Nat) : Nat :=
  let n := tyBits t
  let sg := (intOf t).2
  match op with
  | 0 => if t == .f32 then 0x80000000 else 0
  | 1 => if sg then 2 ^ (n - 1) - 1 else 2 ^ n - 1
  | 2 => if sg then 2 ^ (n - 1) else 0
  | 3 => 2 ^ n - 1
  | _ => 0

/-- One step of SCAN (R258). -/
def scanStep (x : Ops) : Step2 := fun a b =>
  if x.t == .f32 then fAdd FF.f32 (x.mf 4 2) false a b else (reduxOp x.t (x.mf 0 3) a b, 0)

/-- The inclusive prefixes: each lane's value, poison and the flags of the addition that made it. -/
def prefixes (f : Step2) : Option (Nat × Bool) → List (Nat × Bool) → List (Nat × Bool × Fl)
  | _, [] => []
  | none, v :: vs => (v.1, v.2, 0) :: prefixes f (some v) vs
  | some r, v :: vs =>
    let q := f r.1 v.1
    (q.1, r.2 || v.2, q.2) :: prefixes f (some (q.1, r.2 || v.2)) vs

/-- SCAN (R258). -/
def execScan (x : Ops) (s : State) : Host.Outcome State Fault Refusal :=
  limov .scan x s (fun c s =>
    c.lanes s x.t.wide (fun js =>
      let vs := js.map (fun j => let v := c.opA x.t j; (v.val.toNat, lwPsn v x.t))
      let inc := prefixes (scanStep x) none vs
      let res := if x.mf 3 1 = 1 then (scanIdentity x.t (x.mf 0 3), false, 0) :: inc.dropLast else inc
      (js.zip res).map (fun r => (r.1, mkVal x.t.wide (BitVec.ofNat 64 r.2.1) r.2.2.1, r.2.2.2))))

/-- Slice cycles counted while the group has been resident (R259, R182): at ratio code r, (2 + r) / 2 in a cluster
cycle. -/
def State.groupCycles (s : State) (G : Group) (k : Nat) : Nat :=
  (G.halfCycles + (s.clk.cycle - G.cyclesAt) * (2 + (s.sliceAt (sliceKey k G.slice)).ratio)) / 2

/-- The value of a system name for a lane (R259); a shadow reads sys.lane as its primary (R449). -/
def Ctx.sysName (c : Ctx) (s : State) (code j : Nat) : Nat :=
  match code with
  | 0 => c.G.primary j
  | 1 => c.G.index
  | 2 => c.T.index
  | 3 => c.G.role
  | 4 => c.T.core
  | 5 => c.T.domain
  | 6 => s.wtime c.T.domain
  | 7 => s.groupCycles c.G c.k
  | 8 => (c.G.dead.word 0).toNat
  | 9 => (c.G.dead.word 1).toNat
  | 10 => (c.G.dead.word 2).toNat
  | 11 => if c.G.lostst then 1 else 0
  | _ => c.G.fflags.toNat

/-- RDSYS (R259, R260): with `.clr` the word is cleared once it has been returned. -/
def execRdsys (x : Ops) (s : State) : Host.Outcome State Fault Refusal :=
  limov .rdsys x s (fun c s =>
    let code := x.mf 0 6
    let wide : Bool := code = 6 || code = 7
    let clr : Bool := x.mf 6 1 = 1 && c.act != 0
    let s1 := if clr then s.modGrp c.g (fun G =>
      if code = 11 then { G with lostst := false } else { G with fflags := 0 }) else s
    c.result s1 wide true (c.ex.list.map (fun j => (j, mkVal wide (BitVec.ofNat 64 (c.sysName s code j)) false, 0))))

end Sys2Proof.Machine
end

