-- ==== Sys2Proof/Machine/Control.lean ====
section
/-! DEFINITION. The meanings of the control-flow instructions (R261-R280) and the division of a split (R162). -/

namespace Sys2Proof.Machine

/-! ### Duplex comparison (R265, R449) -/

/-- The pairs of live member lanes j and j + 48 that differ under a test: both lanes of each. -/
def Ctx.pairsThat (c : Ctx) (memb : Lanes) (differ : Nat → Nat → Bool) : Lanes :=
  if c.G.duplex then
    (List.range 48).foldl (fun m j =>
      if memb.has j && !c.G.dead.has j && !c.G.dead.has (j + 48) && differ j (j + 48) then
        m ||| Lanes.one j ||| Lanes.one (j + 48)
      else m) 0
  else 0

/-- The outcome of the predicate in a lane (R112). -/
def Ctx.passes (c : Ctx) (j : Nat) : Bool := ((c.G.reg c.x.p.toNat j).val != 0) != c.x.pn

/-- A control-flow instruction: predicate outcomes of shadowed pairs are compared before any effect (R265). -/
def Ctx.ctl (c : Ctx) (s : State) (body : State) : State :=
  let d := c.pairsThat c.sp.memb (fun i j => c.passes i != c.passes j)
  if d ≠ 0 then c.trap s cDuplex d 0 else body

/-! ### Division (R162) -/

/-- An outcome of a division: its lanes, its PC, and whether it leaves for a target (R162, R269). -/
structure Out where
  lanes : Lanes
  pc : DWord
  target : Bool
deriving DecidableEq, Repr

/-- A split-table entry that takes an outcome with members `memb`: latch history, LVAL, CHAIN and signature word are those
of the dividing split. -/
def Split.outcome (sp : Split) (o : Out) (memb : Lanes) (rpc : DWord) : Split :=
  { sp.setLanes memb o.lanes with
      pc := o.pc, rpc := rpc, v := true, st := .ready, wait := .none, xlat := [], relDone := false
      arrived := 0, msg := none, exempt := false }

/-- The free entries in increasing number. -/
def Group.freeEntries (G : Group) : List Nat := (List.range 4).filter (fun e => !(G.sp e).v)

/-- Places outcomes in entries. -/
def Group.place (G : Group) (s0 : Split) (rpc : DWord) (ps : List (Out × Nat)) : Group :=
  ps.foldl (fun G p => G.setSp p.2 (s0.outcome p.1 p.1.lanes rpc)) G

/-- Entry `e` divides into outcomes, at least two of them, with at least one free entry (R162). -/
def Group.divide (G : Group) (e : Nat) (outs : List Out) (ra : Option DWord) (live : Bool) : Group :=
  let s0 := G.sp e
  let rpc := ra.getD s0.rpc
  let free := G.freeEntries
  if outs.length ≤ free.length + 1 then
    match outs with
    | [] => G
    | o :: rest =>
      let union := outs.foldl (fun m o => m ||| o.lanes) (0 : Lanes)
      let ps := rest.zip free
      let G1 := (G.setSp e (s0.outcome o (o.lanes ||| (s0.memb &&& ~~~ union)) rpc)).place s0 rpc ps
      let new := ps.map (fun p => p.2)
      { G1 with rq := if live then e :: (G.rq.erase e ++ new) else G.rq.erase e ++ (e :: new) }
  else
    let ps := outs.zip free
    let gone := (outs.take free.length).foldl (fun m o => m ||| o.lanes) (0 : Lanes)
    let G1 := (G.setSp e (s0.setLanes (s0.memb &&& ~~~ gone) (s0.mask &&& ~~~ gone))).place s0 rpc ps
    let new := ps.map (fun p => p.2)
    { G1 with rq := if live then e :: (G.rq.erase e ++ new) else G.rq.erase e ++ new ++ [e] }

/-- The outcomes that a division places now. -/
def Group.placed (G : Group) (outs : List Out) : List Out :=
  let f := G.freeEntries.length
  if outs.length ≤ f + 1 then outs else outs.take f

/-- Writes the link pair D in the lanes of outcomes at targets (R269). -/
def Ctx.link (c : Ctx) (s : State) (outs : List Out) : State :=
  let lanes := (outs.filter (fun o => o.target)).foldl (fun m o => m ||| o.lanes) (0 : Lanes)
  let v : LW2 := { val := c.sp.pc + BitVec.ofNat 64 c.len }
  if c.x.d = 0 then s
  else s.modGrp c.g (fun G => G.writeVal c.x.d.toNat true ((c.G.exLanes lanes).list.map (fun j => (j, v))))

/-- The split takes outcomes: its only one, or by division; with no free entry it is held until one frees (R162). -/
def Ctx.split (c : Ctx) (s : State) (outs : List Out) (ra : Option DWord) : State :=
  match outs with
  | [o] => c.link (c.jump s o.pc) outs
  | _ =>
    if c.G.freeEntries.isEmpty then s.hold c.g c.e .heldEntry (.entry (instrWord c.i))
    else
      let s1 := (c.issue s).modGrp c.g (fun G => G.divide c.e outs ra c.x.live)
      c.link s1 (c.G.placed outs)

/-! ### Targets (R263) -/

/-- PC + 4 × count. -/
def Ctx.rel (c : Ctx) (count : Int) : DWord := c.sp.pc + BitVec.ofInt 64 (4 * count)

/-- The target of SB: ten bits, or IMM32 in format C (R263). -/
def Ctx.target (c : Ctx) : DWord :=
  match c.x.fmt, c.x.b with
  | .c, _ => c.rel c.x.imm.toInt
  | _, .imm v => c.rel v.toInt
  | _, _ => c.sp.pc

/-- The reconvergence address of an RA field (R262, R263). -/
def Ctx.reconv (c : Ctx) (o : Opd) : Option DWord :=
  match o with
  | .imm v => some (c.rel v.toInt)
  | _ => none

/-- A target that is not canonical or lies in the other half (R263). -/
def Ctx.outside (c : Ctx) (t : DWord) : Bool := !canonical t.toNat || handlerHalf t.toNat != handlerHalf c.sp.pc.toNat

/-- The address after the instruction. -/
def Ctx.next (c : Ctx) : DWord := c.sp.pc + BitVec.ofNat 64 c.len

/-- A transfer of the active lanes to a target, the others going on (R266). -/
def Ctx.branch (c : Ctx) (s : State) (t : DWord) (ra : Option DWord) : State :=
  let f := c.sp.mask &&& ~~~ c.act
  if c.act = 0 then c.done s
  else if c.outside t then c.trap s cAccess c.act t.toNat
  else
    let a : Out := { lanes := c.act, pc := t, target := true }
    c.split s (if f = 0 then [a] else [{ lanes := f, pc := c.next, target := false }, a]) ra

/-- BRA (R266). -/
def execBra (x : Ops) (s : State) : Host.Outcome State Fault Refusal :=
  limov .bra x s (fun c s => c.ctl s (c.branch s c.target (c.reconv x.a)))

/-- CALL (R269). -/
def execCall (x : Ops) (s : State) : Host.Outcome State Fault Refusal :=
  limov .call x s (fun c s => c.ctl s (c.branch s c.target (some c.next)))

/-! ### Register targets (R267-R270) -/

/-- What a register target is. -/
inductive TClass where
  | bad
  | valid
  /-- A walk, or room for one. -/
  | wait (w : Wait)
  /-- A recoverable fault. -/
  | recov (level : Nat) (cls : Bool)
deriving DecidableEq, Repr

/-- The word of a window at an address. -/
def CodeWin.word (w : CodeWin) (va : Nat) : Nat := leNat ((w.bytes.drop (va % 32)).take 4)

/-- A word is LAND with a non-zero length code (R267). -/
def isLand (w : Nat) : Bool := w % 2048 == 0x229 || w % 2048 == 0x22A || w % 2048 == 0x22B

/-- Classifies a target (R267). -/
def Ctx.classify (c : Ctx) (s : State) (t : Nat) (land : Bool) : TClass × State :=
  if t % 4 ≠ 0 ∨ c.outside (BitVec.ofNat 64 t) then (.bad, s)
  else
    match issueXl s c.k c.ctx c.sp (windowOf t) .fetch c.user with
    | (.wait w, s1) => (.wait w, s1)
    | (.done (.fatal _), s1) => (.bad, s1)
    | (.done (.recov level cls), s1) => (.recov level cls, s1)
    | (.done (.ok l pa), s1) =>
      let (w, s2) := codeWin s1 c.k c.ctx c.sp.fbuf (windowOf t) l pa
      (if land && !w.mark && !isLand (w.word t) then .bad else .valid, s2)

/-- Classifies every target, in order. -/
def Ctx.classifyAll (c : Ctx) (land : Bool) : List Nat → State → List (Nat × TClass) × State
  | [], s => ([], s)
  | t :: ts, s =>
    let (k, s1) := c.classify s t land
    let r := c.classifyAll land ts s1
    ((t, k) :: r.1, r.2)

/-- A wait for walks joined to another. -/
def alsoWait (w : Option Wait) (v : Wait) : Option Wait :=
  match w, v with
  | none, v => some v
  | some (.walks a), .walks b => some (.walks (a ++ b))
  | some w, _ => some w

/-- What classified targets wait for: the walks of their windows, and then the fault entries of those that meet a recoverable fault, to which the
split is attached (R141, R267). -/
def Ctx.targetWait (c : Ctx) (s : State) (ts : List (Nat × TClass)) : Option Wait × State :=
  let walks := ts.foldl (fun (w : Option Wait) t => match t.2 with | .wait v => alsoWait w v | _ => w) none
  if walks.isSome then (walks, s)
  else
    let (ids, s1) := ts.foldl (fun (r : List Nat × State) t =>
      match t.2 with
      | .recov level cls =>
        let (id, s1) := attachFault r.2 c.k c.ctx c.T.index (windowOf t.1) level cls .fetch (.split c.g c.e)
        (r.1 ++ [id], s1)
      | _ => r) ([], s)
    (if ids.isEmpty then none else some (.faults ids), s1)

/-- BRX, CALLX and RET (R267-R269): `land` asks for the LAND check. In duplex mode the targets of every pair of member lanes are compared,
with `active` empty too (R265). -/
def Ctx.indirect (c : Ctx) (s : State) (land : Bool) (ra : Option DWord) : State :=
  let tgt (j : Nat) : LW2 := c.opA .n64 j
  let hem := Lanes.ofPred (fun j => c.act.has j && lwAny (tgt j))
  let diff := c.pairsThat c.sp.memb (fun i j => (tgt i).val != (tgt j).val)
  if hem ≠ 0 then c.trap s cPoison hem 0
  else if diff ≠ 0 then c.trap s cDuplex diff 0
  else if c.act = 0 then c.done s
  else
    let lanesTo (t : Nat) : Lanes := Lanes.ofPred (fun j => c.act.has j && (tgt j).val.toNat == t)
    let cl := c.classifyAll land (dedup (c.act.list.map (fun j => (tgt j).val.toNat))) s
    match c.targetWait cl.2 cl.1 with
    | (some w, s1) => c.wait s1 w
    | (none, s1) =>
      let ts := cl.1.map (fun t => (t.1, t.2 == .valid))
      let b := (ts.filter (fun t => !t.2)).foldl (fun m t => m ||| lanesTo t.1) (0 : Lanes)
      let f := c.sp.mask &&& ~~~ c.act
      let outs : List Out :=
        (if b = 0 then [] else [{ lanes := b, pc := c.sp.pc, target := false }]) ++
        (if f = 0 then [] else [{ lanes := f, pc := c.next, target := false }]) ++
        (ts.filter (fun t => t.2)).map (fun t => { lanes := lanesTo t.1, pc := BitVec.ofNat 64 t.1, target := true })
      let bad : TrapRec :=
        { cause := cBadTarget, tpc := c.sp.pc, tva := ((b.lowest).map (fun j => (tgt j).val)).getD 0
          tlanes := b, tmask := b, tinst := instrWord c.i }
      let linked := ((c.G.placed outs).filter (fun o => o.target)).foldl (fun m o => m ||| o.lanes) (0 : Lanes)
      let short := (targetRegs c.o c.x).filter (fun r => c.G.outstanding r &&& ~~~ c.G.exLanes linked != 0)
      if linked ≠ 0 ∧ !short.isEmpty then c.park s1 short []
      else if b = 0 then c.split s1 outs ra
      else
        match outs with
        | [_] => s1.deliver c.g c.e bad
        | _ =>
          let s2 := c.split s1 outs ra
          let free := c.G.freeEntries
          if free.isEmpty then s2
          else s2.deliver c.g (if outs.length ≤ free.length + 1 then c.e else free.headD c.e) bad

/-- BRX (R268). -/
def execBrx (x : Ops) (s : State) : Host.Outcome State Fault Refusal :=
  limov .brx x s (fun c s => c.ctl s (c.indirect s true (c.reconv x.b)))

/-- CALLX (R269). -/
def execCallx (x : Ops) (s : State) : Host.Outcome State Fault Refusal :=
  limov .callx x s (fun c s => c.ctl s (c.indirect s true (some c.next)))

/-- RET (R270): no LAND check. -/
def execRet (x : Ops) (s : State) : Host.Outcome State Fault Refusal :=
  limov .ret x s (fun c s => c.ctl s (c.indirect s false (c.reconv x.b)))

/-! ### EXIT (R271) -/

/-- Lanes leave an entry; it becomes invalid where it has no member left (R165, R271). -/
def Group.leave (G : Group) (e : Nat) (act all : Lanes) : Group :=
  let G1 := { G with exited := G.exited ||| all }
  let G2 := G1.modSp e (fun sp =>
    let sp1 := sp.setLanes (sp.memb &&& ~~~ act) (sp.mask &&& ~~~ act)
    if sp1.memb = 0 then { sp1 with v := false, chain := 0 } else sp1)
  G2.unclaim all

/-- EXIT (R271). -/
def execExit (x : Ops) (s : State) : Host.Outcome State Fault Refusal :=
  limov .exit x s (fun c s => c.ctl s (
    if c.act = 0 then c.done s
    else
      let s1 := (c.issue s).modGrp c.g (fun G => G.leave c.e c.act c.ex)
      if c.sp.memb &&& ~~~ c.act = 0 then
        let s2 := (c.requeue s1).endChain c.g c.e
        if ((s2.grp c.g).map (fun G => G.valid.isEmpty)).getD false then s2.testBars c.G.team else s2
      else c.advance (c.requeue s1)))

/-! ### Masks (R272-R274) -/

/-- A transfer of the whole split where a condition holds (R272). -/
def Ctx.whole (c : Ctx) (s : State) (taken : Bool) : State :=
  if !taken then c.done s
  else if c.outside c.target then c.trap s cAccess c.sp.mask c.target.toNat
  else c.jump s c.target

/-- BMZ (R272). -/
def execBmz (x : Ops) (s : State) : Host.Outcome State Fault Refusal :=
  limov .bmz x s (fun c s => c.ctl s (c.whole s (c.act == 0)))

/-- BMNZ (R272). -/
def execBmnz (x : Ops) (s : State) : Host.Outcome State Fault Refusal :=
  limov .bmnz x s (fun c s => c.ctl s (c.whole s (c.act != 0)))

/-- MASKP (R273). -/
def execMaskp (x : Ops) (s : State) : Host.Outcome State Fault Refusal :=
  limov .maskp x s (fun c s => c.ctl s (
    c.done (s.modGrp c.g (fun G =>
      let G1 := (List.range 3).foldl (fun G b =>
        G.writeReg (x.d.toNat + b) (c.writeLanes.list.map (fun j => (j, { val := c.sp.mask.word b })))) G
      G1.modSp c.e (fun sp => sp.setMask c.act)))))

/-- MASKR (R274). -/
def execMaskr (x : Ops) (s : State) : Host.Outcome State Fault Refusal :=
  limov .maskr x s (fun c s =>
    let i := (c.sp.memb.lowest).getD 0
    let w (b : Nat) : LW := c.word (aReg x + b) i
    if (w 0).psn || (w 1).psn || (w 2).psn then c.trap s cPoison (Lanes.one i) 0
    else
      let m := Lanes.ofWords (w 0).val (w 1).val (w 2).val
      let n := if x.mf 0 1 = 1 then m &&& ~~~ c.sp.mask else m
      c.done (s.modGrp c.g (fun G => G.modSp c.e (fun sp => sp.setMask (n &&& sp.memb &&& ~~~ G.dead)))))

/-! ### LAND, SIG, TRAP, NOP, YIELD (R275-R280) -/

/-- LAND (R275). -/
def execLand (x : Ops) (s : State) : Host.Outcome State Fault Refusal :=
  limov .land x s (fun c s => c.done s)

/-- SIG (R277). -/
def execSig (x : Ops) (s : State) : Host.Outcome State Fault Refusal :=
  limov .sig x s (fun c s =>
    if c.sp.sig = x.m ++ x.d then c.done (s.modGrp c.g (fun G => G.modSp c.e (fun sp => { sp with sig := 0xFFFF })))
    else c.trap s cSigMismatch c.sp.mask c.sp.sig.toNat)

/-- TRAP (R279): tpc holds PC + len. -/
def execTrap (x : Ops) (s : State) : Host.Outcome State Fault Refusal :=
  limov .trap x s (fun c s => c.ctl s (
    if c.act = 0 then c.done s else c.trapAt s cSwTrap c.next c.act 0))

/-- NOP (R280). -/
def execNop (x : Ops) (s : State) : Host.Outcome State Fault Refusal :=
  limov .nop x s (fun c s => c.ctl s (c.done s))

/-- YIELD (R280): the group gives up its slice's next choice, unless the latch chain goes on. -/
def execYield (x : Ops) (s : State) : Host.Outcome State Fault Refusal :=
  limov .yield x s (fun c s => c.ctl s (
    let s1 := c.done s
    if x.live then s1 else s1.modSlice (sliceKey c.k c.G.slice) (fun sl => { sl with yield := some c.g })))

end Sys2Proof.Machine
end

