-- ==== Sys2Proof/Machine/MemOps.lean ====
section
/-! DEFINITION. What the memory and synchronisation instructions share: addresses (R299), the checks of R300 with the
translations of R139, requests with their faulted lanes (R140, R141), and the stash windows (R293-R296). -/

namespace Sys2Proof.Machine

/-! ### Addresses -/

/-- One lane's access before translation: its address, whether an address word is poisoned, its store data. A galley
address may be negative. -/
structure Req where
  lane : Nat
  a : Int
  aPsn : Bool := false
  data : Nat := 0
  data2 : Nat := 0
  psn : Bool := false
deriving DecidableEq, Repr

/-- The address of a lane (R299). -/
def Ctx.addr (c : Ctx) (gal : Bool) (j : Nat) : Req :=
  let o := c.opB .i32 j
  if gal then
    let b := c.opA .n32 j
    { lane := j, a := ((lwLo b).toNat : Int) + (lwLo o).toInt, aPsn := b.pLo || o.pLo }
  else
    let b := c.opA .n64 j
    { lane := j, a := ((b.val + (lwLo o).signExtend 64).toNat : Int), aPsn := lwAny b || o.pLo }

/-- The data of a lane: `n` registers from D, low word first (R302). -/
def Ctx.dataOf (c : Ctx) (n size j : Nat) : Nat × Bool :=
  let ws := (List.range n).map (fun i => c.G.reg (c.x.d.toNat + i) j)
  (ofElems 32 (ws.map (fun w => w.val.toNat)) % 256 ^ size, ws.any (fun w => w.psn))

/-- The lanes that make accesses: primaries alone in duplex mode (R449). -/
def Ctx.accLanes (c : Ctx) : List Nat := c.act.list

/-- Bytes of a size code (R298). -/
def sizeBytes (code : Nat) : Nat := if code = 1 then 8 else if code = 2 then 16 else if code = 3 ∨ code = 4 then 1 else if code = 5 ∨ code = 6 then 2 else 4

/-! ### Checks (R300) -/

/-- Lanes that go on, or the state in which the step ends. -/
inductive Chk (α : Type) where
  | stop (s : State)
  | go (a : α) (s : State)

/-- The trap of a failing step of R300: `fs` are its failing lanes in increasing number, each with its cause and address. -/
def Ctx.failing (c : Ctx) (s : State) (fs : List (Nat × Nat × Int)) : Option State :=
  match fs with
  | [] => none
  | (_, cause, a) :: _ =>
    let lanes := (fs.filter (fun f => f.2.1 == cause)).foldl (fun m f => m ||| Lanes.one f.1) (0 : Lanes)
    some (c.trap s cause lanes (a % (2 ^ 64 : Nat)).toNat)

/-- Resolves translation units for the split (R138, R139): what each resolves to, or what the split must wait for. -/
def Ctx.resolve (c : Ctx) (s : State) (units : List Nat) : List (Nat × Xl) × Option Wait × State :=
  (dedup units).foldl (fun r u =>
    let (xs, w, s) := r
    match c.sp.kept u, tlbFind s c.k c.ctx (u * 65536) false with
    | some x, _ => ((u, x) :: xs, w, s)
    | none, some l => ((u, .leaf l) :: xs, w, tlbFill s c.k c.ctx false l)
    | none, none =>
      match startWalk s (c.k / 72) c.ctx u with
      | some (id, s1) =>
        (xs, some (match w with | some (.walks ids) => .walks (ids ++ [id]) | some w => w | none => .walks [id]), s1)
      | none => (xs, some .walkRoom, s)) ([], none, s)

/-- The outcome of a resolved address. -/
def Ctx.lookup (c : Ctx) (s : State) (xs : List (Nat × Xl)) (va : Nat) (acc : Acc) : XRes :=
  xlCheck s c.ctx va acc c.user (((xs.find? (fun x => x.1 == vaUnit va)).map (fun x => x.2)).getD (.fatal cNotMapped))

/-- The first or last byte of an access may not be named (R300 step 2, global). -/
def badRange (a size : Nat) (user : Bool) : Bool :=
  let z := (a + size - 1) % 2 ^ 64
  !canonical a || !canonical z || handlerHalf a != handlerHalf z || (user && handlerHalf a)

/-- Two pages differ in an attribute that R289 names. -/
def straddles (l l' : Leaf) (pa pa' : Nat) : Bool :=
  l.rd != l'.rd || l.wr != l'.wr || l.x != l'.x || l.hnd != l'.hnd || l.lease != l'.lease || l.mem != l'.mem ||
    paRegion pa != paRegion pa'

/-- A lane's access with its pieces translated. -/
structure Tr1 where
  r : Req
  ps : List ((Nat × Nat × Nat) × XRes)
deriving DecidableEq, Repr

/-- The fatal cause of a translated access; with `atom`, a device page is ACCESS (R300, R323, R387). -/
def Tr1.fatal (t : Tr1) (atom : Bool) : Option Nat :=
  t.ps.findSome? (fun p => match p.2 with
    | .fatal c => some c
    | .ok l _ => if atom && l.mem == 2 then some cAccess else none
    | _ => none)

/-- The first piece that meets a recoverable fault: its address, level, and whether it is a classification fault. -/
def Tr1.recov (t : Tr1) : Option (Nat × Nat × Bool) :=
  t.ps.findSome? (fun p => match p.2 with | .recov level cls => some (p.1.1, level, cls) | _ => none)

/-- The leaf and physical address of each piece that has one. -/
def Tr1.oks (t : Tr1) : List (Leaf × Nat) := t.ps.filterMap (fun p => match p.2 with | .ok l pa => some (l, pa) | _ => none)

/-- An access crosses into a page that differs (R289). -/
def Tr1.straddle (t : Tr1) : Bool :=
  match t.oks with
  | (l, pa) :: rest => rest.any (fun q => straddles l q.1 pa q.2)
  | [] => false

/-- The access of a lane whose pieces all resolve. -/
def Tr1.acc (t : Tr1) : LaneAcc :=
  let segs := t.ps.filterMap (fun p => match p.2 with
    | .ok l pa => some { pa := pa, len := p.1.2.1, ofs := p.1.2.2, cls := l.cls, owner := l.owner : Seg }
    | _ => none)
  { lane := t.r.lane, va := t.r.a.toNat, segs := segs
    mem := ((t.oks.head?).map (fun q => q.1.mem)).getD 0, lease := ((t.oks.head?).map (fun q => q.1.lease)).getD 0
    data := t.r.data, data2 := t.r.data2, psn := t.r.psn }

/-- A lane of a request: its access, and the page where it meets a recoverable fault. -/
abbrev Lane1 := LaneAcc × Option (Nat × Nat × Bool)

/-- The fault entry that holds an access of a group, earlier in its order than lane `lane` of request `fid`, which touches bytes at
`va` (R141, R378). -/
def State.heldBefore (s : State) (f : Flight) (fid lane va size : Nat) : Option FaultEnt :=
  s.ms.flights.findSome? (fun p =>
    let f' := p.2
    if (f'.before p.1 f fid && !f'.kind.apart f.kind) || p.1 = fid then
      f'.lanes.findSome? (fun l => if (p.1 != fid || decide (l.lane < lane)) && l.meets f'.size va size then
        l.fault.bind (fun fe => Map.find s.tr.faults fe) else none)
    else none)

/-- Where a fault entry's requests stand: an access that attaches there names its page. -/
def FaultEnt.place (f : FaultEnt) : Nat × Nat × Bool := (f.page * 65536, f.level, f.cls)

/-- Lanes that overlap an earlier access of the group which a fault holds, one of a lower lane included, attach behind it and
translate afresh when it has been served (R141). An access behind a held load does the same (DEDUCED, log entry 99). -/
def Ctx.behind (c : Ctx) (s : State) (size : Nat) (ls : List Lane1) : List Lane1 :=
  let f : Flight := { g := c.g, seq := c.G.seq, kind := .load, ctx := c.ctx }
  ls.foldl (fun r l =>
    let place :=
      match l.2, r.find? (fun q => q.2.isSome && q.1.meets size l.1.va size) with
      | some x, _ => some x
      | none, some q => q.2
      | none, none => (s.heldBefore f s.ms.next 0 l.1.va size).map FaultEnt.place
    r ++ [(l.1, place)]) []

/-- Steps 2 to 6 of R300 for global accesses of `size` bytes. `atom` asks for the checks of R387 and R323 with alignment
`al`; `hem` says that poisoned data trap in every region. -/
def Ctx.globalReq (c : Ctx) (s : State) (size al : Nat) (acc : Acc) (atom hem : Bool) (rs : List Req) : Chk (List Lane1) :=
  let user := c.user
  match c.failing s ((rs.filter (fun r => badRange r.a.toNat size user)).map (fun r => (r.lane, cAccess, r.a))) with
  | some s' => .stop s'
  | none =>
    match c.resolve s (rs.flatMap (fun r => (pieces r.a.toNat size).map (fun p => vaUnit p.1))) with
    | (_, some w, s1) => .stop (c.wait s1 w)
    | (xs, none, s1) =>
      let ts : List Tr1 := rs.map (fun r =>
        { r := r, ps := (pieces r.a.toNat size).map (fun p => (p, c.lookup s1 xs p.1 acc)) })
      let step3 := ts.filterMap (fun t => (t.fatal atom).map (fun cause => (t.r.lane, cause, t.r.a)))
      let step4 := (ts.filter Tr1.straddle).map (fun t => (t.r.lane, cAttrStraddle, t.r.a))
      let step5 := (ts.filter (fun t => t.r.a.toNat % al != 0 && (atom || t.oks.any (fun q => q.1.mem == 2)))).map
        (fun t => (t.r.lane, cAlign, t.r.a))
      let step6 := (ts.filter (fun t => t.r.psn &&
          (hem || t.oks.any (fun q => decide (1 ≤ paRegion q.2 ∧ paRegion q.2 ≤ 3))))).map (fun t => (t.r.lane, cPoison, t.r.a))
      match c.failing s1 step3, c.failing s1 step4, c.failing s1 step5, c.failing s1 step6 with
      | some s', _, _, _ => .stop s'
      | none, some s', _, _ => .stop s'
      | none, none, some s', _ => .stop s'
      | none, none, none, some s' => .stop s'
      | none, none, none, none => .go (c.behind s1 size (ts.map (fun t => (t.acc, t.recov)))) s1

/-! ### Requests -/

/-- Sends a request whose lanes have passed the checks: lanes on a faulted page are held and attached to its fault entry
(R140, R141). The answer is the request's number. -/
def Ctx.send (c : Ctx) (s : State) (f : Flight) (ls : List Lane1) (acc : Acc) : Nat × State :=
  let id := s.ms.next
  let (lanes, s1) := ls.foldl (fun (r : List LaneAcc × State) l =>
    match l.2 with
    | none => (r.1 ++ [l.1], r.2)
    | some (va, level, cls) =>
      let (fe, s') := attachFault r.2 c.k c.ctx c.T.index va level cls acc (.lane id l.1.lane)
      (r.1 ++ [{ l.1 with fault := some fe, segs := [], left := [] }], s')) ([], s)
  s1.addFlight { f with lanes := lanes }

/-- An earlier access of the group to a lane's bytes has not been performed: one that reads, or one that a fault holds. What an
unheld store writes stands in the core's L1 copy (R281, R288, R378). -/
def State.readAhead (s : State) (g ctx : Nat) (l : LaneAcc) (size : Nat) : Bool :=
  s.ms.flights.any (fun p =>
    p.2.g == g && p.2.ctx == ctx && decide (p.2.seq < 2 ^ 64) && p.2.kind != .stashFill &&
      p.2.lanes.any (fun q => !q.isDone && (q.fault.isSome || p.2.kind == .load || p.2.kind == .atom) && q.clash p.2.size l size))

/-- A load's lane reads its core's L1 where every line may serve it (R281, R361); otherwise its lines are left to read. -/
def Ctx.tryL1 (c : Ctx) (s : State) (size : Nat) (l : LaneAcc) : LaneAcc :=
  let lines := linesOf l.segs
  let hits := lines.map (fun line => (line, s.l1Hit c.k line))
  if l.mem = 0 ∧ hits.all (fun h => h.2.isSome) ∧ !s.readAhead c.g c.ctx l size then
    hits.foldl (fun l h =>
      match h.2 with
      | some L => l.take h.1 ((l.bytesIn h.1).map (fun b => (b.2.1, Map.getD L.bytes (b.1 % 128) 0, L.marks.getLsbD (b.1 % 128 / 32))))
      | none => l) l
  else { l with left := lines }

/-- The claim of a load: its registers, or nothing for D = 0, in every executing lane (R166, R301). -/
def Ctx.claim (c : Ctx) (s : State) (t : Nat) (dests : List (Option Nat)) : State :=
  s.modGrp c.g (fun G => G.mkClaim t c.ex dests)

/-- The destination places of `n` registers from D. -/
def Ctx.places (c : Ctx) (n : Nat) : List (Option Nat) := (List.range n).map (fun i => some (c.x.d.toNat + i))

/-- The ticket of a load's claim: none is taken with D = 0, whose data are discarded (R166); no answer where all are in use. -/
def Ctx.loadTicket (c : Ctx) : Option (Option Nat) := if c.x.d = 0 then some none else c.G.freeTicket.map some

/-- The claim of a load of `n` registers, where it makes one. -/
def Ctx.claimLoad (c : Ctx) (s : State) (t : Option Nat) (n : Nat) : State :=
  match t with
  | some t => c.claim s t (c.places n)
  | none => s

/-- The lanes of a global load as they are sent: each reads the core's L1 where that may serve it, but under `direct`, and where it
overlaps an earlier lane that must itself go out it follows that lane (R281, R288, R361). -/
def Ctx.readLanes (c : Ctx) (s : State) (size : Nat) (direct : Bool) (ls : List Lane1) : List Lane1 :=
  (ls.foldl (fun (r : List Lane1 × List LaneAcc) l =>
    if l.2.isSome then (r.1 ++ [l], r.2)
    else
      let a := if direct || r.2.any (fun q => q.clash size l.1 size) then { l.1 with left := linesOf l.1.segs } else c.tryL1 s size l.1
      (r.1 ++ [(a, none)], if a.left.isEmpty then r.2 else a :: r.2)) ([], [])).1

/-- What a global load does after its checks (R301, R384). -/
def Ctx.loadGlobal (c : Ctx) (s : State) (size n : Nat) (sext noAlloc acq : Bool) (scope : Nat) (ls : List Lane1) : State :=
  match c.loadTicket with
  | none => c.wait s .ticket
  | some t =>
    let f : Flight :=
      { g := c.g, seq := c.G.seq, core := c.k, kind := .load, size := size, sext := sext, scope := scope, acq := acq
        noAlloc := noAlloc, op := if c.o == .cpyg then 1 else 0, ticket := t, user := c.user, ctx := c.ctx }
    let (id, s1) := c.send s f (c.readLanes s size (acq && decide (1 ≤ scope)) ls) .read
    c.done (c.claimLoad (s1.sweepFlight id) t n)

/-- The lines and held lanes for which a store owes completion times (R363). -/
def owedBy (ls : List Lane1) : Nat :=
  (dedup ((ls.filter (fun l => l.2.isNone)).flatMap (fun l => linesOf l.1.segs))).length + (ls.filter (fun l => l.2.isSome)).length

/-- What a global store does after its checks (R302, R385): L1 copies take its bytes, and it goes to its lines. -/
def Ctx.storeGlobal (c : Ctx) (s : State) (size : Nat) (stream : Bool) (scope : Nat) (ls : List Lane1) : State :=
  let oks := (ls.filter (fun l => l.2.isNone)).map (fun l => l.1)
  let ws : List WByte := (dedup (oks.flatMap (fun l => linesOf l.segs))).flatMap (fun line => storeBytes oks line)
  let s1 := s.l1Store c.k stream ws
  let f : Flight :=
    { g := c.g, seq := c.G.seq, core := c.k, kind := .store, size := size, scope := scope, user := c.user, ctx := c.ctx }
  let (_, s2) := c.send s1 f (ls.map (fun l => if l.2.isSome then l else ({ l.1 with left := linesOf l.1.segs }, none))) .write
  c.done (s2.modGrp c.g (fun G => G.owe c.G.seq (owedBy ls)))

/-! ### Stash windows (R293-R296) -/

/-- A window line: its window, its index, its galley offset and its virtual address. -/
structure WLine where
  w : Nat
  i : Nat
  gal : Nat
  va : Nat
deriving DecidableEq, Repr

/-- The number of a window line in the lists of lines that a galley load waits for. -/
def WLine.id (l : WLine) : Nat := 8 * l.i + l.w

/-- The window line that holds a galley offset. -/
def Team.lineAt (T : Team) (o : Nat) : Option WLine :=
  T.windows.findSome? (fun p =>
    if p.2.g ≤ o ∧ o < p.2.g + p.2.len then
      let i := (o - p.2.g) / 128
      some { w := p.1, i := i, gal := p.2.g + 128 * i, va := (p.2.va + 128 * i) % 2 ^ 64 }
    else none)

/-- The window lines that an access touches, and whether it crosses a window's edge (R289). -/
def Team.linesAt (T : Team) (o size : Nat) : List WLine × Bool :=
  let a := T.lineAt o
  let b := T.lineAt (o + size - 1)
  match a, b with
  | some x, some y => (if x = y then [x] else [x, y], x.w != y.w)
  | some x, none => ([x], true)
  | none, some y => ([y], true)
  | none, none => ([], false)

/-- The state of a window line; none is empty (R293). -/
def Team.winLine (T : Team) (w i : Nat) : Option WinLine :=
  match Map.find T.windows w with
  | some W => Map.find W.lines i
  | none => none

/-- Changes a window that is open. -/
def Team.modWin (T : Team) (w : Nat) (f : Window → Window) : Team := { T with windows := Map.modify T.windows w f }

/-- Sets the state of a window line. -/
def Team.setWinLine (T : Team) (w i : Nat) (l : Option WinLine) : Team :=
  T.modWin w (fun W => { W with lines := match l with | some l => Map.insert W.lines i l | none => Map.erase W.lines i })

/-- A window line that a load may read without a fill: filled, its lease not expired (R294). -/
def State.lineFresh (s : State) (T : Team) (l : WLine) : Bool :=
  match T.winLine l.w l.i with
  | some w => w.filled && decide (s.wtime T.domain < w.expiry)
  | none => false

/-- The dirty mask of a window line. -/
def Team.dirty (T : Team) (w i : Nat) : BitVec 128 := ((T.winLine w i).map (fun l => l.dirty)).getD 0

/-- A galley access after its checks: its request, its window lines and their translations. -/
structure Gal1 where
  r : Req
  ls : List (WLine × XRes)
deriving DecidableEq, Repr

/-- Steps 2 to 6 of R300 for galley accesses: a load translates the lines that it must fill, a store every window line; a
device page is ACCESS to a CPYG (R323). -/
def Ctx.galleyReq (c : Ctx) (s : State) (size : Nat) (store hem : Bool) (rs : List Req) : Chk (List Gal1) :=
  let lo : Int := (16 * s.bbarsOf c.T : Nat)
  let hi : Int := (s.galSizeOf c.T : Nat)
  match c.failing s ((rs.filter (fun r => decide (r.a < lo ∨ hi < r.a + size))).map (fun r => (r.lane, cGalley, r.a))) with
  | some s' => .stop s'
  | none =>
    let need (r : Req) : List WLine := ((c.T.linesAt r.a.toNat size).1).filter (fun l => store || !s.lineFresh c.T l)
    match c.resolve s (rs.flatMap (fun r => (need r).map (fun l => vaUnit l.va))) with
    | (_, some w, s1) => .stop (c.wait s1 w)
    | (xs, none, s1) =>
      let acc : Acc := if store then .write else .read
      let gs : List Gal1 := rs.map (fun r => { r := r, ls := (need r).map (fun l => (l, c.lookup s1 xs l.va acc)) })
      let bad (x : XRes) : Option Nat := match x with
        | .fatal cause => some cause
        | .ok lf _ => if c.o == .cpyg && lf.mem == 2 then some cAccess else none
        | _ => none
      let step3 := gs.filterMap (fun g => (g.ls.findSome? (fun l => bad l.2)).map (fun cause => (g.r.lane, cause, g.r.a)))
      let step4 := (gs.filter (fun g => (c.T.linesAt g.r.a.toNat size).2)).map (fun g => (g.r.lane, cAttrStraddle, g.r.a))
      let step6 := (gs.filter (fun g => g.r.psn && (hem || g.ls.any (fun l => match l.2 with
          | .ok _ pa => decide (1 ≤ paRegion pa ∧ paRegion pa ≤ 3)
          | _ => false)))).map (fun g => (g.r.lane, cPoison, g.r.a))
      match c.failing s1 step3, c.failing s1 step4, c.failing s1 step6 with
      | some s', _, _ => .stop s'
      | none, some s', _ => .stop s'
      | none, none, some s' => .stop s'
      | none, none, none => .go gs s1

/-- The place of galley addresses among the addresses of requests: above every virtual address. -/
def galVa (o : Nat) : Nat := 2 ^ 64 + o

/-- The fault entry of a store to window bytes that is held and that a lane's access touches (R141). -/
def State.heldBehind (s : State) (g ctx size : Nat) (rs : List Req) : Option Nat :=
  s.ms.flights.findSome? (fun p =>
    if p.2.g = g ∧ p.2.ctx = ctx ∧ p.2.win.isSome ∧ !p.2.kind.reads then
      p.2.lanes.findSome? (fun l =>
        if rs.any (fun r => decide (l.va < galVa r.a.toNat + size) && decide (galVa r.a.toNat < l.va + p.2.size)) then l.fault
        else none)
    else none)

/-- The fault entry of a galley store of any group of a team, held on a window page, that touches a window line of a test: what is
done to the windows of a core is done in issue order (R293). -/
def State.heldWindow (s : State) (t : Nat) (T : Team) (f : WLine → Bool) : Option Nat :=
  s.ms.flights.findSome? (fun p =>
    match p.2.win with
    | some (t', _, _) =>
      if t' = t ∧ p.2.kind = .store then
        p.2.lanes.findSome? (fun l => if (T.linesAt (l.va - 2 ^ 64) p.2.size).1.any f then l.fault else none)
      else none
    | none => none)

/-- The value of galley bytes as a number, and its poisoned 4-byte words. -/
def Team.galNat (T : Team) (o size : Nat) (want : Nat → Bool) : Nat × Nat :=
  (List.range size).foldl (fun (r : Nat × Nat) i =>
    if want (o + i) then
      (r.1 + (T.gb (o + i)).toNat * 256 ^ i, if T.gmark (o + i) then r.2 ||| 2 ^ (i / 4) else r.2)
    else r) (0, 0)

/-- A lane of a galley load as it is sent: the bytes that need no fill have been read, and the window lines that need one are left
(R294). -/
def Ctx.galLane (c : Ctx) (size : Nat) (g : Gal1) : LaneAcc :=
  let o := g.r.a.toNat
  let clean (b : Nat) : Bool := g.ls.any (fun l =>
    decide (l.1.gal ≤ b ∧ b < l.1.gal + 128) && !(c.T.dirty l.1.w l.1.i).getLsbD (b - l.1.gal))
  let v := c.T.galNat o size (fun b => !clean b)
  { lane := g.r.lane, va := galVa o, left := g.ls.map (fun l => l.1.id), got := v.1, gotPsn := v.2 }

/-- The fills of a galley load `id`: one request for each window line that some lane leaves to fill (R294). -/
def Ctx.sendFills (c : Ctx) (id : Nat) (gs : List Gal1) (s : State) : State :=
  let lines := (gs.flatMap (fun g => g.ls)).foldl (fun (m : Map (WLine × XRes)) l => Map.insert m l.1.id l) []
  lines.foldl (fun s p =>
    let (l, x) := p.2
    let ff : Flight :=
      { g := c.g, seq := c.G.seq, core := c.k, kind := .stashFill, size := 128, scope := 1, user := c.user, ctx := c.ctx
        parent := some id, galLine := l.gal, win := some (c.G.team, l.w, l.i) }
    let a : LaneAcc := { lane := 0, va := l.va, data := (c.T.dirty l.w l.i).toNat, data2 := l.id }
    let one : Lane1 := match x with
      | .ok lf pa =>
        let segs : List Seg := [{ pa := pa, len := 128, ofs := 0, cls := lf.cls, owner := lf.owner }]
        ({ a with segs := segs, mem := lf.mem, lease := lf.lease, left := linesOf segs }, none)
      | .recov level cls => (a, some (l.va, level, cls))
      | .fatal _ => (a, none)
    (c.send s ff [one] .read).2) s

/-- What a galley load does after its checks (R294, R301, R384): bytes that need no fill are read at issue, and each line
that needs one makes a fill. -/
def Ctx.loadGalley (c : Ctx) (s : State) (size n : Nat) (sext acq : Bool) (scope : Nat) (gs : List Gal1) : State :=
  match s.heldBehind c.g c.ctx size (gs.map (fun g => g.r)) with
  | some fe => c.stayBehind s fe
  | none =>
    match c.loadTicket with
    | none => c.wait s .ticket
    | some t =>
      let f : Flight :=
        { g := c.g, seq := c.G.seq, core := c.k, kind := .load, size := size, sext := sext, scope := scope, acq := acq
          op := if c.o == .cpyg then 1 else 0, ticket := t, user := c.user, ctx := c.ctx }
      let (id, s1) := c.send s f (gs.map (fun g => (c.galLane size g, none))) .read
      c.done (c.claimLoad ((c.sendFills id gs s1).sweepFlight id) t n)

/-- Galley bytes of store lanes: offset, byte, poison. -/
def galBytes (size : Nat) (rs : List Req) : List (Nat × Byte × Bool) :=
  rs.flatMap (fun r => (List.range size).map (fun i => (r.a.toNat + i, BitVec.ofNat 8 (r.data / 256 ^ i), r.psn)))

/-- The record of the galley sectors that lanes of one instruction have written (R292, R303). -/
def galSecs (m : Map (BitVec 33)) (size : Nat) (rs : List Req) : Map (BitVec 33) :=
  (galBytes size rs).foldl (fun m w => secAdd m w.1 w.2.2) m

/-- Sets dirty bits of the window bytes among offsets; an empty line becomes partial (R295). -/
def Team.setDirty (T : Team) (os : List Nat) : Team :=
  os.foldl (fun T o =>
    match T.lineAt o with
    | none => T
    | some l =>
      let w : WinLine := (T.winLine l.w l.i).getD { filled := false, expiry := 0, dirty := 0 }
      T.setWinLine l.w l.i (some { w with dirty := w.dirty ||| BitVec.twoPow 128 (o - l.gal) })) T

/-- A store to the galley by lanes that pass (R295, R302). -/
def Team.galStore (T : Team) (size : Nat) (rs : List Req) : Team :=
  let ws := galBytes size rs
  (T.galWrite ws).setDirty (ws.map (fun w => w.1))

/-- What a galley store does after its checks: lanes on a faulted window page are held, with the lanes whose bytes they
overlap from above; the others write at issue (R140, R295, R302). -/
def Ctx.storeGalley (c : Ctx) (s : State) (size : Nat) (gs : List Gal1) : State :=
  match s.heldBehind c.g c.ctx size (gs.map (fun g => g.r)) with
  | some fe => c.stayBehind s fe
  | none =>
    let rec_ (g : Gal1) : Option (Nat × Nat × Bool) :=
      g.ls.findSome? (fun l => match l.2 with | .recov level cls => some (l.1.va, level, cls) | _ => none)
    let overlap (g h : Gal1) : Bool := decide (g.r.a < h.r.a + size) && decide (h.r.a < g.r.a + size)
    let heldRec (g : Gal1) : Option (Nat × Nat × Bool) :=
      match rec_ g with
      | some r => some r
      | none => gs.findSome? (fun h => if h.r.lane < g.r.lane ∧ overlap g h then rec_ h else none)
    let now := (gs.filter (fun g => (heldRec g).isNone)).map (fun g => g.r)
    let held := gs.filter (fun g => (heldRec g).isSome)
    let s1 := s.modTm c.G.team (fun T => T.galStore size now)
    if held.isEmpty then c.done s1
    else
      let f : Flight :=
        { g := c.g, seq := c.G.seq, core := c.k, kind := .store, size := size, user := c.user, ctx := c.ctx
          win := some (c.G.team, 0, 0), secs := galSecs [] size now }
      let (_, s2) := c.send s1 f (held.map (fun g =>
        ({ lane := g.r.lane, va := galVa g.r.a.toNat, data := g.r.data, psn := g.r.psn }, heldRec g))) .write
      c.done (s2.modGrp c.g (fun G => G.owe c.G.seq held.length))

/-! ### Write-back (R296) -/

/-- Fills in flight for lines that satisfy a test no longer fill the window: they serve their loads alone (R293, R308). -/
def State.detachFills (s : State) (t : Nat) (f : Nat → Nat → Bool) : State :=
  s.modMs (fun m => { m with flights := m.flights.map (fun p =>
    match p.2.kind, p.2.win with
    | .stashFill, some (t', w, i) => if t' = t ∧ f w i then (p.1, { p.2 with win := none }) else p
    | _, _ => p) })

/-- A loss sets lostst in the group of the request, or in every group of its team for a write-back of pre-emption or retirement
(R142, R296). -/
def State.loseFor (s : State) (f : Flight) : State :=
  if f.all then (((s.grp f.g).bind (fun G => s.tm G.team)).map (fun T => T.groups.foldl State.setLost s)).getD s
  else s.setLost f.g

/-- The dirty bytes of a sector of a window line as offsets in the line. -/
def dirtyOf (d : BitVec 128) (sec : Nat) : List Nat := (List.range 32).filterMap (fun i => if d.getLsbD (32 * sec + i) then some (32 * sec + i) else none)

/-- A window line's dirty bytes go to memory as a byte-masked store of group `g`, one lane for each sector; a poisoned
sector bound for region 1, 2 or 3 is lost (R296, R142). The dirty mask is cleared. `batch` is the class-3 batch that the
store joins; with `all` its losses are every group's of the team (R296). -/
def State.writeBack (s : State) (t w i g seq : Nat) (user all : Bool) (batch : Option Nat) : State :=
  match s.tm t with
  | none => s
  | some T =>
    let d := T.dirty w i
    match Map.find T.windows w with
    | none => s
    | some W =>
      if d = 0 then s
      else
        let k := T.coreKey
        let ctx := s.ctxOf T
        let va := (W.va + 128 * i) % 2 ^ 64
        let gal := W.g + 128 * i
        let s0 := s.modTm t (fun T => T.setWinLine w i (((T.winLine w i).map (fun l => { l with dirty := 0 })).bind
          (fun l => if l.filled then some l else none)))
        let (x, s1) := xlateNow s0 k ctx va .write user
        let secs := (List.range 4).filter (fun q => !(dirtyOf d q).isEmpty)
        let lane (q : Nat) : LaneAcc :=
          { lane := q, va := va, psn := T.gmark (gal + 32 * q)
            data := leNat ((List.range 128).map (fun b => T.gb (gal + b)))
            data2 := (dirtyOf d q).foldl (fun n b => n + 2 ^ b) 0 }
        let f : Flight :=
          { g := g, seq := seq, core := k, kind := .store, size := 128, user := user, ctx := ctx
            batch := batch.map (fun b => (3, b)), all := all }
        let join (s : State) : State := match batch with
          | some _ => s.modGrp g (fun G => (G.joinBatch 3).2)
          | none => s
        match x with
        | .fatal _ => s1.loseFor f
        | .ok l pa =>
          let far : Bool := decide (1 ≤ paRegion pa ∧ paRegion pa ≤ 3)
          let lost := secs.any (fun q => far && (lane q).psn)
          let s2 := if lost then s1.loseFor f else s1
          let lanes := (secs.filter (fun q => !(far && (lane q).psn))).map (fun q =>
            { lane q with
                segs := (dirtyOf d q).map (fun b => { pa := pa + b, len := 1, ofs := b, cls := l.cls, owner := l.owner })
                mem := l.mem, left := [pa / 128] })
          if lanes.isEmpty then s2
          else
            let ws := storeBytes lanes (pa / 128)
            let s3 := (join s2).l1Store k false ws
            ((s3.addFlight { f with lanes := lanes }).2).modGrp g (fun G => G.owe seq 1)
        | .recov level cls =>
          let id := s1.ms.next
          let (fe, s2) := attachFault s1 k ctx T.index va level cls .write (.lane id 0)
          let s3 := (secs.drop 1).foldl (fun s q =>
            { s with tr := { s.tr with faults := Map.modify s.tr.faults fe (fun f => { f with reqs := f.reqs ++ [.lane id q] }) } }) s2
          -- the request to lane 0 of the list stands for its first sector
          let first := secs.headD 0
          let s4 := { s3 with tr := { s3.tr with faults := Map.modify s3.tr.faults fe (fun f =>
            { f with reqs := f.reqs.map (fun r => if r = .lane id 0 then .lane id first else r) }) } }
          (((join s4).addFlight { f with lanes := secs.map (fun q => { lane q with fault := some fe }) }).2).modGrp g
            (fun G => G.owe seq secs.length)

/-- Writes back every dirty line of a team's windows that satisfies a test on window, galley offset and address. -/
def State.writeBackAll (s : State) (t g seq : Nat) (user all : Bool) (batch : Option Nat) (f : Nat → WLine → Bool) : State :=
  match s.tm t with
  | none => s
  | some T =>
    T.windows.foldl (fun s p =>
      p.2.lines.foldl (fun s q =>
        let l : WLine := { w := p.1, i := q.1, gal := p.2.g + 128 * q.1, va := (p.2.va + 128 * q.1) % 2 ^ 64 }
        if f p.1 l then s.writeBack t p.1 q.1 g seq user all batch else s) s) s

end Sys2Proof.Machine
end

