-- ==== Sys2Proof/Machine/Mem.lean ====
section
/-! DEFINITION. The meanings of the memory instructions (R298-R308). -/

namespace Sys2Proof.Machine

/-- The trap of the lanes with a poisoned address word (R300 step 1). -/
def Ctx.addrHem (c : Ctx) (s : State) (rs : List Req) : Option State :=
  c.failing s ((rs.filter (fun r => r.aPsn)).map (fun r => (r.lane, cPoison, 0)))

/-- A load of the size that M names: LD, and LDACQ at a scope (R300, R301, R384). -/
def Ctx.load (c : Ctx) (s : State) (noAlloc acq : Bool) (scope : Nat) : State :=
  let code := c.x.mf 0 3
  let size := sizeBytes code
  let n := sizeRegs code
  let sext : Bool := code == 4 || code == 6
  let gal : Bool := c.x.mf 3 1 == 1
  let rs := c.accLanes.map (c.addr gal)
  if c.act = 0 then c.done s
  else
    match c.addrHem s rs with
    | some s' => s'
    | none =>
      if gal then
        match c.galleyReq s size false false rs with
        | .stop s' => s'
        | .go gs s1 => c.loadGalley s1 size n sext acq scope gs
      else
        match c.globalReq s size size .read false false rs with
        | .stop s' => s'
        | .go ls s1 => c.loadGlobal s1 size n sext noAlloc acq scope ls

/-- LD (R301). -/
def execLd (x : Ops) (s : State) : Host.Outcome State Fault Refusal :=
  limov .ld x s (fun c s => c.load s (x.mf 4 2 == 1) false 0)

/-- The access of a storing lane with its data (R299, R302). -/
def Ctx.storeReq (c : Ctx) (gal : Bool) (j : Nat) : Req :=
  let code := c.x.mf 0 3
  let d := c.dataOf (sizeRegs code) (sizeBytes code) j
  { c.addr gal j with data := d.1, psn := d.2 }

/-- The shadowed pairs of a store that differ in address or data (R449). -/
def Ctx.storeDiff (c : Ctx) (gal : Bool) : Lanes :=
  c.pairsThat c.act (fun i j =>
    (c.storeReq gal i).a != (c.storeReq gal j).a || (c.storeReq gal i).data != (c.storeReq gal j).data)

/-- A store of the size that M names: ST, and STREL after its release (R300, R302, R385); `hem` says that poisoned data
trap in every region. -/
def Ctx.store (c : Ctx) (s : State) (stream hem : Bool) (scope : Nat) : State :=
  let size := sizeBytes (c.x.mf 0 3)
  let gal : Bool := c.x.mf 3 1 == 1
  let rs := c.accLanes.map (c.storeReq gal)
  if c.act = 0 then c.done s
  else
    match c.addrHem s rs with
    | some s' => s'
    | none =>
      let diff := c.storeDiff gal
      if diff ≠ 0 then c.trap s cDuplex diff 0
      else if gal then
        match c.galleyReq s size true hem rs with
        | .stop s' => s'
        | .go gs s1 => c.storeGalley s1 size gs
      else
        match c.globalReq s size size .write false hem rs with
        | .stop s' => s'
        | .go ls s1 => c.storeGlobal s1 size stream scope ls

/-- ST (R302). -/
def execSt (x : Ops) (s : State) : Host.Outcome State Fault Refusal :=
  limov .st x s (fun c s => c.store s (x.mf 4 2 == 1) false 0)

/-! ### STASH and UNSTASH (R305, R306) -/

/-- Another open window than `n` overlaps galley bytes. -/
def Team.overlapsWindow (T : Team) (n g len : Nat) : Bool :=
  T.windows.any (fun p => p.1 != n && decide (p.2.g < g + len) && decide (g < p.2.g + p.2.len))

/-- What is done to window lines that satisfy a test, in issue order after every galley store that a fault holds (R293). -/
def Ctx.afterHeld (c : Ctx) (s : State) (f : WLine → Bool) (body : State) : State :=
  match s.heldWindow c.G.team c.T f with
  | some fe => c.stayBehind s fe
  | none => body

/-- Windows that satisfy a test are written back by the instruction's group and closed (R296, R305, R306). -/
def Ctx.closeWindows (c : Ctx) (s : State) (f : Nat → Bool) : State :=
  let s1 := s.writeBackAll c.G.team c.g c.G.seq c.user false (some (c.G.bat 3).opened) (fun w _ => f w)
  (s1.detachFills c.G.team (fun w _ => f w)).modTm c.G.team (fun T =>
    { T with windows := T.windows.filter (fun p => !f p.1) })

/-- STASH (R305). -/
def execStash (x : Ops) (s : State) : Host.Outcome State Fault Refusal :=
  limov .stash x s (fun c s =>
    match c.act.lowest with
    | none => c.done s
    | some i =>
      let g := c.opA .n32 i
      let v := c.opB .n64 i
      let l := c.opC .n32 i
      let G := (lwLo g).toNat
      let L := (lwLo l).toNat
      let VA := v.val.toNat
      let n := x.mf 0 3
      let one := Lanes.one i
      if g.pLo || lwAny v || l.pLo then c.trap s cPoison one 0
      else if G % 128 != 0 || L == 0 || L % 128 != 0 || decide (G < 16 * s.bbarsOf c.T) || decide (s.galSizeOf c.T < G + L) ||
          c.T.overlapsWindow n G L then c.trap s cGalley one G
      else if VA % 128 ≠ 0 then c.trap s cAlign one VA
      else if badRange VA L c.user then c.trap s cAccess one VA
      else c.afterHeld s (fun l => l.w == n)
        (c.done ((c.closeWindows s (fun w => w == n)).modTm c.G.team (fun T =>
          { T with windows := Map.insert T.windows n { g := G, va := VA, len := L, lines := [] } }))))

/-- UNSTASH (R306). -/
def execUnstash (x : Ops) (s : State) : Host.Outcome State Fault Refusal :=
  limov .unstash x s (fun c s =>
    if c.act = 0 then c.done s
    else
      let f (w : Nat) : Bool := x.mf 3 1 == 1 || w == x.mf 0 3
      c.afterHeld s (fun l => f l.w) (c.done (c.closeWindows s f)))

/-! ### FLUSH and INVAL (R307, R308) -/

/-- The range of FLUSH or INVAL from the lowest active lane: base and length, after steps 1 and 2 of R300; none where
there is nothing to do. -/
def Ctx.range (c : Ctx) (s : State) : Chk (Option (Nat × Nat)) :=
  match c.act.lowest with
  | none => .go none s
  | some i =>
    let gal : Bool := c.x.mf 3 1 == 1
    let b := if gal then c.opA .n32 i else c.opA .n64 i
    let l := c.opB .n32 i
    let base := b.val.toNat
    let len := (lwLo l).toNat
    let one := Lanes.one i
    if lwAny b || l.pLo then .stop (c.trap s cPoison one 0)
    else if len = 0 then .go none s
    else if gal && (decide (base < 16 * s.bbarsOf c.T) || decide (s.galSizeOf c.T < base + len)) then
      .stop (c.trap s cGalley one base)
    else if !gal && badRange base len c.user then .stop (c.trap s cAccess one base)
    else .go (some (base, len)) s

/-- A window line lies in a range of galley offsets or of virtual addresses. -/
def WLine.inRange (l : WLine) (gal : Bool) (base len : Nat) : Bool :=
  let a := if gal then l.gal else l.va
  decide (a < base + len) && decide (base < a + 128)

/-- The window lines of a team that are not empty. -/
def Team.winLines (T : Team) : List WLine :=
  T.windows.flatMap (fun p => p.2.lines.map (fun q =>
    { w := p.1, i := q.1, gal := p.2.g + 128 * q.1, va := (p.2.va + 128 * q.1) % 2 ^ 64 }))

/-- Every line combined in a domain's L2 goes home (R307). -/
def State.sendAll (s : State) (d : Nat) : State :=
  (s.ms.combs.filter (fun p => p.1 % 64 == d)).foldl (fun s p => s.flushComb d (p.1 / 64) 0) s

/-- FLUSH (R307). The sends are performed at once; the write-backs join the open batch of class 3. -/
def execFlush (x : Ops) (s : State) : Host.Outcome State Fault Refusal :=
  limov .flush x s (fun c s =>
    match c.range s with
    | .stop s' => s'
    | .go none s1 => c.done s1
    | .go (some (base, len)) s1 =>
      let gal : Bool := x.mf 3 1 == 1
      let s2 := s1.writeBackAll c.G.team c.g c.G.seq c.user false (some (c.G.bat 3).opened) (fun _ l => l.inRange gal base len)
      c.afterHeld s1 (fun l => l.inRange gal base len) (c.done (if gal then s2 else s2.sendAll (c.k / 72))))

/-- A window line after an INVAL of its bytes (R308). -/
def WinLine.inval (gal : Bool) (l : WinLine) : Option WinLine :=
  if gal || l.dirty == 0 then none else some { l with filled := false }

/-- INVAL (R308): every L1 line of the core is dropped for a global range. -/
def execInval (x : Ops) (s : State) : Host.Outcome State Fault Refusal :=
  limov .inval x s (fun c s =>
    match c.range s with
    | .stop s' => s'
    | .go none s1 => c.done s1
    | .go (some (base, len)) s1 =>
      let gal : Bool := x.mf 3 1 == 1
      let hit (w i : Nat) : Bool :=
        match Map.find c.T.windows w with
        | some W => ({ w := w, i := i, gal := W.g + 128 * i, va := (W.va + 128 * i) % 2 ^ 64 } : WLine).inRange gal base len
        | none => false
      let s2 := (s1.detachFills c.G.team hit).modTm c.G.team (fun T =>
        T.winLines.foldl (fun T l =>
          if hit l.w l.i then T.setWinLine l.w l.i ((T.winLine l.w l.i).bind (WinLine.inval gal)) else T) T)
      c.afterHeld s1 (fun l => l.inRange gal base len) (c.done (if gal then s2 else s2.modCore c.k (fun k => { k with l1 := [] }))))

/-! ### PREF (R304) -/

/-- The prefetch of one lane: a read of its line, where its translation holds and its page is cacheable; a lane that would
fail a later check is dropped (R140, R300). -/
def Ctx.prefetch (c : Ctx) (xs : List (Nat × Xl)) (l2 : Bool) (s1 : State) (r : Req) : State :=
  let va := r.a.toNat
  match c.lookup s1 xs va .read with
  | .ok l pa =>
    if l.mem = 0 then
      let a : LaneAcc :=
        { lane := r.lane, va := va, segs := [{ pa := pa, len := 1, ofs := 0, cls := l.cls, owner := l.owner }]
          mem := l.mem, lease := l.lease, left := [pa / 128] }
      (s1.addFlight
        { g := c.g, seq := 2 ^ 64, core := c.k, kind := .load, size := 1, noAlloc := l2, lanes := [a], user := c.user
          ctx := c.ctx }).2
    else s1
  | _ => s1

/-- PREF (R304): its lanes are translated at issue as those of other accesses are (R138, R300). -/
def execPref (x : Ops) (s : State) : Host.Outcome State Fault Refusal :=
  limov .pref x s (fun c s =>
    let rs := c.accLanes.map (c.addr false)
    match c.addrHem s rs with
    | some s' => s'
    | none =>
      let go := rs.filter (fun r => !ptrBad r.a.toNat c.user)
      match c.resolve s (go.map (fun r => vaUnit r.a.toNat)) with
      | (_, some w, s1) => c.wait s1 w
      | (xs, none, s1) => c.done (go.foldl (c.prefetch xs (x.mf 0 2 == 1)) s1))

end Sys2Proof.Machine
end

