-- ==== Sys2Proof/Machine/Sync.lean ====
section
/-! DEFINITION. The meanings of LDACQ, STREL, ATOM, RED, FENCE and BAR (R381-R392): the steps of a release (R365), the
read-modify-writes at the home (R388), and the end of a wait for completion times (R363). -/

namespace Sys2Proof.Machine

/-! ### Release (R365) -/

/-- The bytes that a core has combined in its domain's L2 go home (R365 step 3, R372). -/
def State.sendCore (s : State) (k : Nat) : State :=
  (s.ms.combs.filter (fun p => p.1 % 64 == k / 72 && p.2.cores.getLsbD (k % 72))).foldl
    (fun s p => s.flushComb (k / 72) (p.1 / 64) 0) s

/-- A batch has completed (R328). -/
def Group.batchOver (G : Group) (cls n : Nat) : Bool :=
  decide (n < (G.bat cls).opened) && (G.bat cls).sealedOps.all (fun p => p.1 != n)

/-- A store of a group is held on a recoverable fault (R141). -/
def State.storeHeld (s : State) (g seq : Nat) : Bool :=
  s.ms.flights.any (fun p => p.2.g == g && !p.2.kind.reads && decide (p.2.seq ≤ seq) && p.2.lanes.any (fun l => l.fault.isSome))

/-- The latest completion time of a group's stores at a scope. -/
def Group.tAt (G : Group) (scope : Nat) : Nat :=
  match scope with
  | 0 => 0 | 1 => G.tDom | 2 => G.tWafer | _ => G.tSys

/-- A store owes no completion time at a scope. -/
def StoreRec.known (r : StoreRec) (scope : Nat) : Bool :=
  match scope with
  | 0 => true | 1 => r.pDom == 0 | _ => r.pWafer == 0

/-- Step 4 of R365 for a group on core `k`: every counted store up to issue number `seq` has its completion time at the
scope, and the core's wtime has reached it. -/
def State.storesDone (s : State) (g : Nat) (G : Group) (k scope seq : Nat) : Bool :=
  !s.storeHeld g seq && decide (G.tAt scope ≤ s.wtimeCore k) &&
    G.stores.all (fun p =>
      p.2.known scope || !(decide (p.1 ≤ seq) || (decide (2 ^ 64 ≤ p.1) && G.batchOver 1 (p.1 - 2 ^ 64))))

/-- Steps 2 and 3 of R365, and the wait for steps 1 and 4; later accesses of the group have later issue numbers. -/
def Ctx.startRelease (c : Ctx) (s : State) (scope : Nat) (w : Wait) : State :=
  let s1 := if 1 ≤ scope then s.writeBackAll c.G.team c.g c.G.seq c.user false none (fun _ _ => true) else s
  let s2 := if 2 ≤ scope then s1.sendCore c.k else s1
  c.wait (s2.modGrp c.g (fun G => { G with seq := G.seq + 1 })) w

/-- Step 5 of R365 (R379). -/
def Ctx.lostTrap (c : Ctx) (s : State) (scope : Nat) (body : State) : State :=
  if 2 ≤ scope ∧ ((s.grp c.g).map (fun G => G.lostst)).getD false then c.trap s cLostStore c.act 0 else body

/-- A release at a scope before the rest of an instruction: the split is held until its steps are done (R385). -/
def Ctx.afterRelease (c : Ctx) (s : State) (scope : Nat) (msg : Option SeamWords) (body : State) : State :=
  if c.sp.relDone then c.lostTrap s scope body
  else c.startRelease s scope (.release scope c.G.seq msg)

/-- The wait of a release or fence ends (R363, R365, R390). -/
def State.releaseEnds (s : State) (g : Nat) (G : Group) (k : Nat) (w : Wait) : Bool :=
  match w with
  | .release scope seq _ => !s.loadsOut g seq && s.storesDone g G k scope seq
  | .fence scope seq kind => !(kind ≠ 2 && s.loadsOut g seq) && !(kind ≠ 1 && !(!s.loadsOut g seq && s.storesDone g G k scope seq))
  | _ => false

/-- The scope at which a wait flushes combined bytes (R365 step 3); 0 where it flushes none. -/
def Wait.flushScope (w : Wait) : Nat :=
  match w with
  | .release scope _ _ => scope
  | .fence scope _ kind => if kind = 1 then 0 else scope
  | _ => 0

/-- The words that a waiting SEAMSEND has captured (R396). -/
def Wait.words (w : Wait) : Option SeamWords :=
  match w with
  | .release _ _ m => m
  | _ => Option.none

/-- COMPLETION_TIME_REACHED (R363): bytes that have combined since the release began go home first, where its scope asks
for it. -/
def execCompletionTimeReached (g e : Nat) (s : State) : Host.Outcome State Fault Refusal :=
  .next (match s.grp g with
    | none => s.finish
    | some G =>
      match s.tm G.team with
      | none => s.finish
      | some T =>
        let sp := G.sp e
        if sp.v && sp.st == .waiting then
          let s1 := if 2 ≤ sp.wait.flushScope then s.sendCore T.coreKey else s
          match s1.grp g with
          | some G1 =>
            if s1.releaseEnds g G1 T.coreKey sp.wait then
              (s1.modGrp g (fun G => (G.modSp e (fun sp => { sp with relDone := true, msg := sp.wait.words })).wake e)).finish
            else s1.finish
          | none => s1.finish
        else s.finish)

/-! ### LDACQ, STREL, FENCE -/

/-- LDACQ (R384). -/
def execLdacq (x : Ops) (s : State) : Host.Outcome State Fault Refusal :=
  limov .ldacq x s (fun c s => c.load s false true (x.mf 4 2))

/-- An access whose shadowed pairs differ traps before its release has any effect (R449); poisoned addresses are met first, where the access
checks them. -/
def Ctx.pairsFirst (c : Ctx) (s : State) (rs : List Req) (diff : Lanes) (body : State) : State :=
  if (c.addrHem s rs).isNone ∧ diff ≠ 0 then c.trap s cDuplex diff 0 else body

/-- STREL (R385). -/
def execStrel (x : Ops) (s : State) : Host.Outcome State Fault Refusal :=
  limov .strel x s (fun c s =>
    let gal : Bool := x.mf 3 1 == 1
    if c.act = 0 then c.done s
    else c.pairsFirst s (c.accLanes.map (c.storeReq gal)) (c.storeDiff gal)
      (c.afterRelease s (x.mf 4 2) none (c.store s false (x.mf 4 2 == 3) (x.mf 4 2))))

/-- FENCE (R390). -/
def execFence (x : Ops) (s : State) : Host.Outcome State Fault Refusal :=
  limov .fence x s (fun c s =>
    let scope := x.mf 0 2
    let kind := x.mf 2 2
    if c.act = 0 then c.done s
    else if c.sp.relDone then (if kind = 1 then c.done s else c.lostTrap s scope (c.done s))
    else c.startRelease s (if kind = 1 then 0 else scope) (.fence scope c.G.seq kind))

/-! ### BAR (R392) -/

/-- One arrival at a barrier: the first of a phase fixes its target. -/
def TeamBar.arrive (b : TeamBar) (count groups : Nat) : TeamBar :=
  { b with arr := b.arr + 1, tgt := if b.arr = 0 then (if count = 0 then 0 else min count groups) else b.tgt }

/-- The phase of a barrier of a team. -/
def State.barPhase (s : State) (t n : Nat) : Bool := ((s.tm t).map (fun T => (T.tb n).ph)).getD false

/-- BAR (R392). -/
def execBar (x : Ops) (s : State) : Host.Outcome State Fault Refusal :=
  limov .bar x s (fun c s =>
    match c.act.lowest with
    | none => c.done s
    | some i =>
      let v := c.opA .n32 i
      let n := x.mf 0 3
      if c.sp.arrived ≠ 0 then c.done s
      else if v.pLo then c.trap s cPoison (Lanes.one i) 0
      else
        let ph := s.barPhase c.G.team n
        let s1 := (s.modTm c.G.team (fun T =>
          { T with tbars := Map.put T.tbars n ((T.tb n).arrive (lwLo v).toNat T.groups.length) {} })).testBar c.G.team n
        c.afterRelease s 0 none
          (if x.mf 3 2 = 1 ∨ s1.barPhase c.G.team n ≠ ph then c.done s1 else c.wait s1 (.teamBar n ph)))

/-! ### ATOM and RED (R386-R389) -/

/-- The new value of R386 from the old value, b and c; none where nothing is written. -/
def atomNew (op : Nat) (t : Ty) (o b c : Nat) : Option Nat :=
  match op with
  | 6 => some b
  | 7 => if o = c then some b else none
  | 8 => some (zipElems t (BitVec.ofNat 64 o) (BitVec.ofNat 64 b) (fAdd (FF.of t) 0 false)).1.toNat
  | 9 => some (zipElems t (BitVec.ofNat 64 o) (BitVec.ofNat 64 b) (fMinMax (FF.of t) false)).1.toNat
  | 10 => some (zipElems t (BitVec.ofNat 64 o) (BitVec.ofNat 64 b) (fMinMax (FF.of t) true)).1.toNat
  | 11 => some (if b ≤ o then 0 else o + 1)
  | 12 => some (if o = 0 ∨ b < o then b else o - 1)
  | op => some (reduxOp t op o b)

/-- The access of a lane: the address (in format C with its byte offset), b and c. -/
def Ctx.atomReq (c : Ctx) (j : Nat) : Req :=
  let t := c.x.t
  let base := c.opA .n64 j
  let ofs : DWord := if c.x.fmt = .c then c.x.imm.signExtend 64 else 0
  let b := c.opB10 t j
  let v := c.opC t j
  let cas : Bool := c.x.mf 0 4 == 7
  { lane := j, a := ((base.val + ofs).toNat : Int), aPsn := lwAny base, data := b.val.toNat
    data2 := if cas then v.val.toNat else 0, psn := lwPsn b t || (cas && lwPsn v t) }

/-- Sends the request of an atomic: the core's L1 copies of its lines give way. -/
def Ctx.sendAtomic (c : Ctx) (s : State) (ls : List Lane1) (acc : Acc) (ticket : Option Nat) (size scope : Nat) (atom : Bool) :
    State :=
  let lines := dedup ((ls.filter (fun l => l.2.isNone)).flatMap (fun l => linesOf l.1.segs))
  let s1 := lines.foldl (fun s line => s.l1Drop c.k line) s
  let f : Flight :=
    { g := c.g, seq := c.G.seq, core := c.k, kind := if atom then .atom else .red, size := size, op := c.x.mf 0 4
      ty := c.x.t, scope := scope, acq := atom && c.x.mf 6 1 == 1, ticket := ticket, user := c.user, ctx := c.ctx }
  let (_, s2) := c.send s1 f (ls.map (fun l => if l.2.isSome then l else ({ l.1 with left := linesOf l.1.segs }, none))) acc
  let s3 := match ticket with
    | some t => c.claim s2 t (c.places (if size = 8 then 2 else 1))
    | none => s2
  c.done (s3.modGrp c.g (fun G => G.owe c.G.seq (owedBy ls)))

/-- The shadowed pairs of an atomic that differ in address, b or c (R449). -/
def Ctx.atomDiff (c : Ctx) : Lanes :=
  c.pairsThat c.act (fun i j =>
    (c.atomReq i).a != (c.atomReq j).a || (c.atomReq i).data != (c.atomReq j).data || (c.atomReq i).data2 != (c.atomReq j).data2)

/-- ATOM and RED after their release (R387-R389). -/
def Ctx.atomic (c : Ctx) (s : State) (atom : Bool) : State :=
  let x := c.x
  let size := if x.t.wide then 8 else 4
  let scope := x.mf 4 2
  let rs := c.accLanes.map c.atomReq
  match c.addrHem s rs with
  | some s' => s'
  | none =>
    let diff := c.atomDiff
    if diff ≠ 0 then c.trap s cDuplex diff 0
    else
      let acc : Acc := if atom then .atom else .write
      match c.globalReq s size size acc true (scope == 3) rs with
      | .stop s' => s'
      | .go ls s1 =>
        let claims : Bool := atom && x.d != 0
        match c.G.freeTicket with
        | none => if claims then c.wait s1 .ticket else c.sendAtomic s1 ls acc none size scope atom
        | some t => c.sendAtomic s1 ls acc (if claims then some t else none) size scope atom

/-- ATOM and RED with their order (R389). -/
def Ctx.ordered (c : Ctx) (s : State) (atom : Bool) : State :=
  if c.act = 0 then c.done s
  else if c.x.mf 7 1 = 1 then
    c.pairsFirst s (c.accLanes.map c.atomReq) c.atomDiff (c.afterRelease s (c.x.mf 4 2) none (c.atomic s atom))
  else c.atomic s atom

/-- ATOM (R388). -/
def execAtom (x : Ops) (s : State) : Host.Outcome State Fault Refusal :=
  limov .atom x s (fun c s => c.ordered s true)

/-- RED (R388). -/
def execRed (x : Ops) (s : State) : Host.Outcome State Fault Refusal :=
  limov .red x s (fun c s => c.ordered s false)

/-! ### Read-modify-writes at the home (R388) -/

/-- What the lanes of an atomic have done to a line so far: bytes written, newest first, sectors marked, lanes performed. -/
structure Rmw where
  wr : List (Nat × Byte) := []
  marks : List Nat := []
  lanes : List LaneAcc := []
deriving DecidableEq, Repr

/-- One lane's read-modify-write. -/
def State.rmwLane (s : State) (f : Flight) (line : Nat) (r : Rmw) (l : LaneAcc) : Rmw :=
  let bs := l.bytesIn line
  let old (b : Nat × Nat × Nat × Nat) : Byte × Bool := s.pocByte (f.core / 72) b.1 b.2.2.1 b.2.2.2 true
  let byte (b : Nat × Nat × Nat × Nat) : Byte := ((r.wr.find? (fun w => w.1 == b.1)).map (fun w => w.2)).getD (old b).1
  let p := bs.any (fun b => r.marks.contains (b.1 / 32) || (old b).2)
  let o := bs.foldl (fun n b => n + (byte b).toNat * 256 ^ b.2.1) 0
  let l' := l.take line (bs.map (fun b => (b.2.1, byte b, p)))
  match atomNew f.op f.ty o l.data l.data2 with
  | none => { r with lanes := r.lanes ++ [l'] }
  | some n =>
    { wr := bs.map (fun b => (b.1, BitVec.ofNat 8 (n / 256 ^ b.2.1))) ++ r.wr
      marks := if l.psn then bs.map (fun b => b.1 / 32) ++ r.marks else r.marks
      lanes := r.lanes ++ [l'] }

/-- An atomic reaches the home with the lanes that name a line (R388): its domain's combined bytes go home first. -/
def State.atomAt (s : State) (fid line : Nat) : State :=
  match Map.find s.ms.flights fid with
  | none => s
  | some f =>
    let ls := s.lanesAt fid f line
    if ls.isEmpty then s
    else
      let (cls, owner) := f.lineAttr line
      let ref : StoreRef := { g := f.g, seq := f.seq, dom := true }
      let now := s.wtimeCore f.core
      let s1 :=
        if s.fencedAcc (128 * line) cls owner then
          let (w, s1) := s.freeLanes line ls
          (s1.modFlight fid (fun f => f.setLanes w)).lose [ref] now
        else
          let s1 := s.flushComb (f.core / 72) line 0
          let r := ls.foldl (s1.rmwLane f line) {}
          let s2 := s1.modFlight fid (fun f => f.setLanes r.lanes)
          let ms := (dedup r.marks).map (fun m => (m, true))
          if r.wr.isEmpty then s2.paid [ref] now
          else
            let s3 := if cls = 1 then s2.l2Room owner line else s2.l2Merge (f.core / 72) line r.wr.reverse ms
            s3.performHome fid line cls owner 0 r.wr.reverse ms [ref]
      let more := ((Map.find s1.ms.flights fid).map (fun f => f.lanes.any (fun l => l.left.contains line))).getD false
      (if more then s1.modGrp f.g (fun G => G.owe f.seq 1) else s1).sweepFlight fid

end Sys2Proof.Machine
end

