-- ==== Sys2Proof/Machine/Seam.lean ====
section
/-! DEFINITION. The Seam engine (R393-R402): the four Seam instructions, the arrival of messages and the operations that
take them. -/

namespace Sys2Proof.Machine

/-! ### Messages -/

/-- Register vs + k of every lane, k below n, as an instruction captures them at issue (R394). -/
def Ctx.capture (c : Ctx) (n : Nat) : SeamWords :=
  { n := n
    words := (List.range n).flatMap (fun k => (List.range 96).filterMap (fun j =>
      let w := c.word (aReg c.x + k) j
      if w = {} then none else some (96 * k + j, w))) }

/-- The words of a message that an instruction of `n` words takes: those beyond the message are poisoned, with free values
(R397-R399). -/
def SeamWords.take (m : SeamWords) (n : Nat) (free : Nat → Word) : SeamWords :=
  { n := n
    words := (m.words.filter (fun p => p.1 < 96 * min n m.n)) ++
      ((List.range (96 * n)).drop (96 * m.n)).map (fun i => (i, { val := free i, psn := true })) }

/-- A word of one element of 32 bits, or of two of 16 bits, combined (R397). -/
def seamOp (t : Ty) (op a b : Nat) : Nat :=
  if isFloatTy t then
    (zipElems t (BitVec.ofNat 64 a) (BitVec.ofNat 64 b)
      (match op with | 0 => fAdd (FF.of t) 0 false | 1 => fMinMax (FF.of t) false | _ => fMinMax (FF.of t) true)).1.toNat
  else reduxOp t op a b

/-- The message that SEAMRED sends from the words it took and its own (R397). -/
def SeamWords.combine (m x : SeamWords) (t : Ty) (op : Nat) : SeamWords :=
  { n := x.n
    words := (List.range (96 * x.n)).filterMap (fun i =>
      let a := Map.getD m.words i {}
      let b := Map.getD x.words i {}
      let y : LW := { val := BitVec.ofNat 32 (seamOp t op a.val.toNat b.val.toNat), psn := a.psn || b.psn }
      if y = {} then none else some (i, y)) }

/-- The team of a launch that stands on a core. -/
def State.teamAt (s : State) (launch k : Nat) : Option Nat :=
  (s.exe.teams.find? (fun p => p.2.launch == launch && p.2.coreKey == k)).map (fun p => p.1)

/-- Sends a message on a route of a team (R395). -/
def State.seamSend (s : State) (g team route port : Nat) (batch : Option Nat) (body : SeamWords) : State :=
  match s.tm team with
  | none => s
  | some T =>
    let dest := ((Map.getD T.routes route []).getLast?).bind (s.teamAt T.launch)
    let m : SeamMsg := { g := g, team := team, route := route, dest := dest, port := port, seq := s.eng.next, batch := batch, body := body }
    { s with eng := { s.eng with smsgs := Map.insert s.eng.smsgs s.eng.next m, next := s.eng.next + 1 } }

/-- The operation of class 2 that sent a message has been performed (R400). -/
def State.seamDone (s : State) (m : SeamMsg) : State :=
  match m.batch with
  | some b => s.modGrp m.g (fun G => G.batchOpDone 2 b)
  | none => s

/-- A team takes messages: it has neither ended nor been lost. -/
def TeamSt.takes (t : TeamSt) : Bool :=
  match t with
  | .started | .stopping | .saved | .reserved | .inFlight => true
  | .terminated | .retired | .lost => false

/-- SEAM_MESSAGE_ARRIVAL (R395, R401, R402): messages of one route arrive at their port in order; a full port lets none in; a message
whose path enters a fenced domain, or whose team is gone, is discarded. -/
def execSeamMessageArrival (msg : Nat) (s : State) : Host.Outcome State Fault Refusal :=
  .next (match Map.find s.eng.smsgs msg with
    | none => s.finish
    | some m =>
      let early := s.eng.smsgs.any (fun p =>
        decide (p.1 < msg) && p.2.team == m.team && p.2.route == m.route && p.2.port == m.port)
      let path := ((s.tm m.team).map (fun T => Map.getD T.routes m.route [])).getD []
      let s1 := { s with eng := { s.eng with smsgs := Map.erase s.eng.smsgs msg } }
      if early then s.finish
      else if path.any (fun k => s.fencedD (k / 72)) then (s1.seamDone m).finish
      else
        match m.dest.bind (fun d => (s.tm d).map (fun T => (d, T))) with
        | none => (s1.seamDone m).finish
        | some (d, T) =>
          let q := Map.getD T.ports m.port []
          if !T.st.takes then (s1.seamDone m).finish
          else if 4 ≤ q.length then s.finish
          else ((s1.setTm d { T with ports := Map.insert T.ports m.port (q ++ [m.body]) }).seamDone m).finish)

/-! ### Operations that take messages -/

/-- A launch has lost teams (R402, R443). -/
def State.launchLost (s : State) (T : Team) : Bool := ((s.launch T.launch).map (fun l => decide (0 < l.nlost))).getD false

/-- A waiting operation has its message (R397-R399). -/
def State.seamApply (s : State) (o : SeamOp) (m : SeamWords) : State :=
  match o.kind with
  | .sred t op x route port =>
    let (free, s1) := s.draws (96 * x.n)
    s1.seamSend o.g o.team route port o.batch ((m.take x.n free).combine x t op)
  | .sbc _ n route port =>
    let (free, s1) := s.draws (96 * n)
    s1.seamSend o.g o.team route port o.batch (m.take n free)
  | .recv ticket n _ _ =>
    let (free, s1) := s.draws (96 * n)
    let w := m.take n free
    match ticket with
    | none => s1
    | some t =>
      let lanes := ((s.grp o.g).bind (fun G => (Map.find G.claims t).map (fun c => c.arriving.list))).getD []
      s1.completeClaim o.g t (lanes.map (fun j => (j, (List.range n).map (fun k => Map.getD w.words (96 * k + j) {}))))

/-- The operation leaves its message at the head of the port (R398). -/
def SKind.keeps (k : SKind) : Bool := match k with | .sbc keep _ _ _ => keep | _ => false

/-- The first waiting operation of a port takes the next message; in a launch that has lost teams an empty port gives it
poison (R402). What completes a claim is taken where the claim may be served in this cycle (R170). -/
def State.seamMatch (s : State) (id : Nat) : State :=
  match Map.find s.eng.sops id with
  | none => s
  | some o =>
    match s.tm o.team with
    | none => s
    | some T =>
      let first := s.eng.sops.all (fun p => !(p.2.team == o.team && p.2.port == o.port) || decide (id ≤ p.1))
      let took (s : State) : State := { s with eng := { s.eng with sops := Map.erase s.eng.sops id } }
      let serve (k : State → State) : State := match o.kind with
        | .recv (some t) _ _ _ => s.serveClaim o.g t k
        | _ => k s
      if !first then s
      else
        match Map.getD T.ports o.port [] with
        | m :: rest =>
          let left : Map (List SeamWords) :=
            if o.kind.keeps then T.ports
            else if rest.isEmpty then Map.erase T.ports o.port else Map.insert T.ports o.port rest
          serve (fun s => ((took s).modTm o.team (fun T => { T with ports := left })).seamApply o m)
        | [] => if s.launchLost T then serve (fun s => (took s).seamApply o { n := 0, words := [] }) else s

/-- SEAM_OPERATION_MATCH (R397). -/
def execSeamOperationMatch (op : Nat) (s : State) : Host.Outcome State Fault Refusal :=
  .next (match (Map.find s.eng.sops op).bind (fun o => s.tm o.team) with
    | some T => if T.st == .started then (s.seamMatch op).finish else s.finish
    | none => s.finish)

/-! ### The instructions -/

/-- A Seam operation issues: it waits in the engine for the next message of its port. -/
def Ctx.seamWait (c : Ctx) (s : State) (port : Nat) (batch : Option Nat) (k : SKind) : State :=
  let id := s.eng.next
  let o : SeamOp := { g := c.g, team := c.G.team, port := port, seq := id, batch := batch, kind := k }
  let s1 := { s with eng := { s.eng with sops := Map.insert s.eng.sops id o, next := id + 1 } }
  c.done (if s1.launchLost c.T then s1.seamMatch id else s1)

/-- The issuing operation joins the open batch of class 2. -/
def Ctx.joinSeam (c : Ctx) (s : State) : Nat × State :=
  let b := ((s.grp c.g).map (fun (G : Group) => (G.bat 2).opened)).getD 0
  (b, s.modGrp c.g (fun G => (G.joinBatch 2).2))

/-- The checks of an instruction that sends on a route, and the wait for room in the engine (R383, R393). -/
def Ctx.onRoute (c : Ctx) (s : State) (body : State) : State :=
  match c.act.lowest with
  | none => c.done s
  | some i =>
    let route := c.x.mf 0 4
    if !Map.has c.T.routes route then c.trap s cBadTarget (Lanes.one i) route
    else if 16 ≤ s.seamLoad c.k then c.wait s .seamSlot
    else body

/-- The receive port P in SB: in format C its value stands in IMM32 (R107, R381). -/
def portOf (x : Ops) : Nat :=
  match x.b with
  | .imm v => (if x.fmt == .c then x.imm.toNat else v.toNat) % 16
  | _ => 0

/-- n of an instruction that holds n − 1 in D. -/
def seamN (x : Ops) : Nat := x.d.toNat % 16 + 1

/-- SEAMSEND (R396): it joins its batch when it issues, and with `.rel` is held in it; where the release traps the message does not
leave, and the batch is left (R400). -/
def execSeamsend (x : Ops) (s : State) : Host.Outcome State Fault Refusal :=
  limov .seamsend x s (fun c s =>
    let words := c.sp.msg.getD (c.capture (seamN x))
    let (b, s1) := match c.sp.joined with
      | some b => (b, s)
      | none => c.joinSeam s
    let sent (s : State) : State := c.done (s.seamSend c.g c.G.team (x.mf 0 4) (x.mf 4 4) (some b) words)
    let lost : Bool := ((s.grp c.g).map (fun G => G.lostst)).getD false
    c.onRoute s (
      if !x.d.getLsbD 4 then sent s1
      else if !c.sp.relDone then
        (c.afterRelease s1 2 (some words) s1).modGrp c.g (fun G => G.modSp c.e (fun sp => { sp with joined := some b }))
      else if lost then c.lostTrap (s1.modGrp c.g (fun G => G.unjoin c.e)) 2 s1
      else sent s1))

/-- SEAMRED (R397). -/
def execSeamred (x : Ops) (s : State) : Host.Outcome State Fault Refusal :=
  limov .seamred x s (fun c s =>
    let (b, s1) := c.joinSeam s
    c.onRoute s (c.seamWait s1 (portOf x) (some b)
      (.sred x.t (x.d.toNat / 32 % 4) (c.capture (seamN x)) (x.mf 0 4) (x.mf 4 4))))

/-- SEAMBC (R398). -/
def execSeambc (x : Ops) (s : State) : Host.Outcome State Fault Refusal :=
  limov .seambc x s (fun c s =>
    let (b, s1) := c.joinSeam s
    c.onRoute s (c.seamWait s1 (portOf x) (some b) (.sbc (x.d.getLsbD 4) (seamN x) (x.mf 0 4) (x.mf 4 4))))

/-- SEAMRECV (R399). -/
def execSeamrecv (x : Ops) (s : State) : Host.Outcome State Fault Refusal :=
  limov .seamrecv x s (fun c s =>
    let n := x.mf 0 4 + 1
    if c.act = 0 then c.done s
    else if 16 ≤ s.seamLoad c.k then c.wait s .seamSlot
    else
      match c.G.freeTicket with
      | none => c.wait s .ticket
      | some t =>
        c.seamWait (c.claim s t ((List.range n).map (fun i => some (x.d.toNat + i)))) (portOf x) none
          (.recv (some t) n (x.mf 4 1 == 1) c.G.seq))

end Sys2Proof.Machine
end

