-- ==== Sys2Proof/Machine/Copy.lean ====
section
/-! DEFINITION. The copy engine (R312-R331): byte barriers, batches, the copies with their checks at issue, the units that
they move, and CPYG. -/

namespace Sys2Proof.Machine

/-! ### Byte barriers (R324-R327) -/

/-- The test that follows each update (R325). -/
def ByteBar.test (b : ByteBar) : ByteBar :=
  if 1 ≤ b.expa ∧ b.expa ≤ b.arra ∧ b.expb ≤ b.arrb then
    { b with plast := b.psn || decide (b.expb < b.arrb), psn := false, arra := 0, arrb := 0, expb := 0, ph := !b.ph }
  else b

/-- Bytes are counted; a count past 2^32 − 1 stays there and poisons the phase (R325). -/
def ByteBar.count (b : ByteBar) (n : Nat) (p : Bool) : ByteBar :=
  { b with arrb := min (b.arrb + n) (2 ^ 32 - 1), psn := b.psn || p || decide (2 ^ 32 ≤ b.arrb + n) }

/-- Bytes are expected (R325, R326). -/
def ByteBar.expect (b : ByteBar) (n : Nat) : ByteBar :=
  { b with expb := min (b.expb + n) (2 ^ 32 - 1), psn := b.psn || decide (2 ^ 32 ≤ b.expb + n) }

/-- One arrival (R325, R326). -/
def ByteBar.arrive (b : ByteBar) : ByteBar :=
  { b with arra := min (b.arra + 1) 65535, psn := b.psn || decide (65536 ≤ b.arra + 1) }

/-- BBINIT (R326). -/
def ByteBar.init (b : ByteBar) (n : Nat) : ByteBar :=
  { b with expa := n, expb := 0, arrb := 0, arra := 0, psn := false, plast := false }

/-- Updates a barrier of a team and tests it (R325). -/
def State.bbMod (s : State) (t n : Nat) (f : ByteBar → ByteBar) : State :=
  s.modTm t (fun T => { T with bbars := Map.put T.bbars n (f (T.bb n)).test {} })

/-- Counts a unit to a copy's or a drain's barrier (R313, R314). -/
def State.bbCount (s : State) (t : Nat) (bb : Option Nat) (n : Nat) (p : Bool) : State :=
  match bb with
  | some b => s.bbMod t b (fun B => B.count n p)
  | none => s

/-- The frame of the barrier instructions: the barrier number from the lowest active lane, the second operand, the hem of
R317 and the bound of R326. -/
def Ctx.bbOp (c : Ctx) (s : State) (body : Nat → Nat → Nat → State) : State :=
  match c.act.lowest with
  | none => c.done s
  | some i =>
    let b := c.opA .n32 i
    let v := c.opB .n32 i
    let n := (lwLo b).toNat
    if b.pLo || v.pLo then c.trap s cPoison (Lanes.one i) 0
    else if s.bbarsOf c.T ≤ n then c.trap s cGalley (Lanes.one i) (16 * n)
    else body i n (lwLo v).toNat

/-- BBINIT (R326). -/
def execBbinit (x : Ops) (s : State) : Host.Outcome State Fault Refusal :=
  limov .bbinit x s (fun c s => c.bbOp s (fun i n v =>
    if v = 0 ∨ 65535 < v then c.trap s cGalley (Lanes.one i) (16 * n)
    else c.done (s.bbMod c.G.team n (fun b => b.init v))))

/-- BBEXP (R326). -/
def execBbexp (x : Ops) (s : State) : Host.Outcome State Fault Refusal :=
  limov .bbexp x s (fun c s => c.bbOp s (fun _ n v => c.done (s.bbMod c.G.team n (fun b => b.expect v))))

/-- The barrier of a team. -/
def State.bbAt (s : State) (t n : Nat) : ByteBar := ((s.tm t).map (fun T => T.bb n)).getD {}

/-- The same unpoisoned word in every executing lane. -/
def Ctx.uniform (c : Ctx) (v : DWord) : List (Nat × LW2 × Fl) := c.ex.list.map (fun j => (j, { val := v }, 0))

/-- BBARR (R326): a release at team scope (R327). -/
def execBbarr (x : Ops) (s : State) : Host.Outcome State Fault Refusal :=
  limov .bbarr x s (fun c s => c.bbOp s (fun _ n v =>
    let ph := (s.bbAt c.G.team n).ph
    c.afterRelease s 0 none
      (c.result (s.bbMod c.G.team n (fun b => (b.expect v).arrive)) false false (c.uniform (if ph then 1 else 0)))))

/-- BBWAIT (R327). -/
def execBbwait (x : Ops) (s : State) : Host.Outcome State Fault Refusal :=
  limov .bbwait x s (fun c s => c.bbOp s (fun _ n v =>
    let b := s.bbAt c.G.team n
    let ph := decide (v % 2 = 1)
    if b.ph = ph ∧ c.sp.arrived = 0 then c.wait s (.byteBar n ph)
    else c.result s false false (c.uniform (if b.plast then 0xFFFFFFFF else 0))))

/-! ### Batches (R328-R330) -/

/-- Seals the open batch of a class. -/
def Group.sealBatch (G : Group) (cls : Nat) : Group :=
  let b := G.bat cls
  G.setBat cls { opened := b.opened + 1, openOps := 0, sealedOps := b.sealedOps ++ [(b.opened, b.openOps)] }

/-- The oldest sealed batch of a class completes, where its operations have been performed (R328). -/
def Group.batchComplete (G : Group) (cls : Nat) : Group :=
  let b := G.bat cls
  match b.sealedOps with
  | (_, 0) :: rest => G.setBat cls { b with sealedOps := rest }
  | _ => G

/-- BATCH_COMPLETE (R328). -/
def execBatchComplete (g cls : Nat) (s : State) : Host.Outcome State Fault Refusal :=
  .next (s.modGrp g (fun G => G.batchComplete cls)).finish

/-- SEAL (R329): a class with 63 sealed batches holds the split; the classes before it stay sealed. -/
def execSeal (x : Ops) (s : State) : Host.Outcome State Fault Refusal :=
  limov .seal x s (fun c s =>
    if c.act = 0 then c.done s
    else
      let classes := (List.range 4).filter (fun k => x.m.getLsbD k && decide (c.sp.arrived ≤ k + 1))
      let full (k : Nat) : Bool := decide (63 ≤ (c.G.bat k).sealedOps.length)
      let now := match classes.find? full with
        | some k => classes.filter (fun j => j < k)
        | none => classes
      let s1 := s.modGrp c.g (fun G => now.foldl Group.sealBatch G)
      match classes.find? full with
      | some k => c.wait s1 (.sealRoom k)
      | none => c.done s1)

/-- WAITB (R330): a poisoned count is 0. -/
def execWaitb (x : Ops) (s : State) : Host.Outcome State Fault Refusal :=
  limov .waitb x s (fun c s =>
    match c.act.lowest with
    | none => c.done s
    | some i =>
      let v := c.opA .n32 i
      let n := if v.pLo then 0 else min (lwLo v).toNat 63
      let cls := x.mf 0 2
      if n < (c.G.bat cls).sealedOps.length then c.wait s (.batches cls n) else c.done s)

/-! ### Extents (R318-R321) -/

/-- The least i below n with need ≤ a + i × st, for a step that is not negative. -/
def firstReach (a st : Int) (n : Nat) (need : Int) : Option Nat :=
  if n = 0 then none
  else if need ≤ a then some 0
  else if st ≤ 0 then none
  else
    let i := ((need - a + st - 1) / st).toNat
    if i < n then some i else none

/-- The least i below n for which a run of values from a + i × st + lo to a + i × st + hi leaves [min, max]. -/
def firstOut (a st lo hi : Int) (n : Nat) (mn mx : Int) : Option Nat :=
  if n = 0 then none
  else if a + lo < mn ∨ mx < a + hi then some 0
  else if 0 ≤ st then firstReach (a + hi) st n (mx + 1)
  else firstReach (-(a + lo)) (-st) n (1 - mn)

/-- The first address, in copy order, of rows of n0 bytes, n1 to a plane, n2 planes, that leaves [mn, mx]. -/
def firstRowOut (a : Int) (n0 n1 n2 : Nat) (s1 s2 mn mx : Int) : Option Int :=
  let span : Int := (n1 - 1 : Int) * s1
  match firstOut a s2 (min 0 span) (max 0 span + (n0 - 1 : Int)) n2 mn mx with
  | none => none
  | some z =>
    let b := a + z * s2
    match firstOut b s1 0 (n0 - 1 : Int) n1 mn mx with
    | none => none
    | some y =>
      let r := b + y * s1
      some (if r < mn ∨ mx < r then r else mx + 1)

/-- The addresses of the half of a first byte, as exact integers (R15); none where it may not be named. -/
def halfOf (va : Nat) (user : Bool) : Option (Int × Int × Int) :=
  if ptrBad va user then none
  else if handlerHalf va then some ((va : Int) - 2 ^ 64, -(2 ^ 56), -1)
  else some ((va : Int), 0, 2 ^ 56 - 1)

/-- A fraction of an integer address modulo 2^64. -/
def vaOf (a : Int) : Nat := (a % (2 ^ 64 : Int)).toNat

/-- Where byte n of a copy comes from or goes to in global memory (none: padding), its galley offset, and the padding. -/
def Copy.byteAt (c : Copy) (n : Nat) : Option Nat × Nat × Byte :=
  match c.kind with
  | .rows _ va n0 n1 _ s1 s2 g1 g2 =>
    let x := n % n0
    let y := n / n0 % n1
    let z := n / (n0 * n1)
    (some (vaOf ((va : Int) + z * s2 + y * s1 + x)), c.gal + z * g2 + y * g1 + x, 0)
  | .layout img wid hgt ox oy ow _ sx sy cb ps pad rs kx ky =>
    let p := n / cb
    let x : Int := ox + (p % ow : Nat) * (sx : Nat) + kx
    let y : Int := oy + (p / ow : Nat) * (sy : Nat) + ky
    if 0 ≤ x ∧ x < wid ∧ 0 ≤ y ∧ y < hgt then
      (some (vaOf ((img : Int) + y * (rs : Nat) + x * (ps : Nat) + (n % cb : Nat))), c.gal + n, 0)
    else (none, c.gal + n, BitVec.ofNat 8 pad)

/-- A copy out of the galley. -/
def Copy.out (c : Copy) : Bool :=
  match c.kind with
  | .rows out _ _ _ _ _ _ _ _ => out
  | .layout _ _ _ _ _ _ _ _ _ _ _ _ _ _ _ => false

/-- Units of a copy (R313). -/
def Copy.units (c : Copy) : Nat := (c.total + 127) / 128

/-- The bytes of unit u, in copy order. -/
def Copy.unit (c : Copy) (u : Nat) : List (Option Nat × Nat × Byte) :=
  (List.range (min 128 (c.total - 128 * u))).map (fun i => c.byteAt (128 * u + i))

/-- The address of the first global byte of a copy in copy order. -/
def Copy.first (c : Copy) : Option Nat :=
  if c.total = 0 then none
  else
    match c.kind with
    | .rows _ _ _ _ _ _ _ _ _ => (c.byteAt 0).1
    | .layout _ wid hgt ox oy ow oh sx sy cb _ _ _ kx ky =>
      match firstReach (oy + ky) sy oh 0, firstReach (ox + kx) sx ow 0 with
      | some j, some i =>
        if oy + ky + (j : Nat) * (sy : Nat) < hgt ∧ ox + kx + (i : Nat) * (sx : Nat) < wid then
          (c.byteAt ((i + ow * j) * cb)).1
        else none
      | _, _ => none

/-- The first galley offset of a copy in copy order that is out of bounds (R321 step 4). -/
def Copy.galOut (c : Copy) (lo hi : Nat) : Option Int :=
  if c.total = 0 then none
  else
    match c.kind with
    | .rows _ _ n0 n1 n2 _ _ g1 g2 => firstRowOut c.gal n0 n1 n2 g1 g2 lo (hi - 1 : Int)
    | .layout _ _ _ _ _ _ _ _ _ _ _ _ _ _ _ => firstRowOut c.gal c.total 1 1 0 0 lo (hi - 1 : Int)

/-- The first global address of a copy's extent that may not be named (R321 step 5). -/
def Copy.globalOut (c : Copy) : Option Nat :=
  if c.total = 0 then none
  else
    match c.kind with
    | .rows _ va n0 n1 n2 s1 s2 _ _ =>
      match halfOf va c.user with
      | none => some va
      | some (a, mn, mx) => (firstRowOut a n0 n1 n2 s1 s2 mn mx).map vaOf
    | .layout img wid hgt _ _ _ _ _ _ cb ps _ rs _ _ =>
      match halfOf img c.user with
      | none => some img
      | some (a, mn, mx) => (firstRowOut a ((hgt - 1) * rs + (wid - 1) * ps + cb) 1 1 0 0 mn mx).map vaOf

/-! ### Issue (R321) -/

/-- A copy ends: its operation in its batch has been performed. -/
def State.endCopy (s : State) (id : Nat) (c : Copy) : State :=
  { s with eng := { s.eng with copies := Map.erase s.eng.copies id } }.modGrp c.g (fun G => G.batchOpDone c.cls c.batch)

/-- Steps 4 to 7 of R321 for a copy whose operands have been read, and its issue. A copy of no bytes joins its batch and has
been performed (R318). -/
def Ctx.copyIssue (c : Ctx) (s : State) (i : Nat) (cp : Copy) : State :=
  let one := Lanes.one i
  let go (s : State) : State :=
    if 64 ≤ s.copiesOn c.k then c.wait s .copySlot
    else
      let id := s.eng.next
      let s1 := { s with eng := { s.eng with copies := Map.insert s.eng.copies id cp, next := id + 1 } }.modGrp c.g
        (fun G => (G.joinBatch cp.cls).2)
      c.done (if cp.total = 0 then s1.endCopy id cp else s1)
  match cp.galOut (16 * s.bbarsOf c.T) (s.galSizeOf c.T), cp.globalOut with
  | some o, _ => c.trap s cGalley one (vaOf o)
  | none, some a => c.trap s cAccess one a
  | none, none =>
    match cp.first with
    | none => go s
    | some va =>
      match c.resolve s [vaUnit va] with
      | (_, some w, s1) => c.wait s1 w
      | (xs, none, s1) =>
        match c.lookup s1 xs va (if cp.out then .write else .read) with
        | .fatal cause => c.trap s1 cause one va
        | .ok l _ => if l.mem = 2 then c.trap s1 cAccess one va else go s1
        | .recov _ _ => go s1

/-- The barrier that M names (R316). -/
def copyBar (x : Ops) : Option Nat := if x.mf 1 1 = 1 then some (x.mf 2 6) else none

/-- The register that SC names. -/
def cReg (x : Ops) : Nat := match x.c with | .reg n _ => n.toNat | .full n _ _ => n.toNat | _ => 0

/-- Step 2 of R321. -/
def Ctx.badBar (c : Ctx) (s : State) : Option Nat :=
  match copyBar c.x with
  | some n => if s.bbarsOf c.T ≤ n then some n else none
  | none => none

/-- A copy of rows from the lowest active lane's operands (R318). -/
def Ctx.copyRows (c : Ctx) (s : State) (out : Bool) : State :=
  match c.act.lowest with
  | none => c.done s
  | some i =>
    let x := c.x
    let shape : Bool := x.mf 0 1 == 1
    let g := c.opA .n32 i
    let v := c.opB .n64 i
    let w (k : Nat) : LW := c.word (cReg x + k) i
    let l := c.opC .n32 i
    let ext : List LW := if shape then (List.range 7).map w else [{ val := lwLo l, psn := l.pLo }]
    let n (k : Nat) : Nat := (w k).val.toNat
    if g.pLo || lwAny v || ext.any (fun e => e.psn) then c.trap s cPoison (Lanes.one i) 0
    else
      match c.badBar s with
      | some b => c.trap s cGalley (Lanes.one i) (16 * b)
      | none =>
        let kind : CopyKind :=
          if shape then .rows out v.val.toNat (n 0) (n 1) (n 2) (w 3).val.toInt (w 4).val.toInt (n 5) (n 6)
          else .rows out v.val.toNat (lwLo l).toNat 1 1 0 0 0 0
        let cls := if out then 1 else 0
        c.copyIssue s i
          { g := c.g, team := c.G.team, core := c.k, seq := c.G.seq, cls := cls, batch := (c.G.bat cls).opened, bb := copyBar x
            gal := (lwLo g).toNat, kind := kind, total := if shape then n 0 * n 1 * n 2 else (lwLo l).toNat, done := 0
            suspended := none, user := c.user, ctx := c.ctx }

/-- CPY (R318). -/
def execCpy (x : Ops) (s : State) : Host.Outcome State Fault Refusal := limov .cpy x s (fun c s => c.copyRows s false)

/-- CPYS (R318). -/
def execCpys (x : Ops) (s : State) : Host.Outcome State Fault Refusal := limov .cpys x s (fun c s => c.copyRows s true)

/-- A layout record is out of range (R319, R321 step 3). -/
def badRecord (r : Nat) : Bool :=
  fld r 64 16 == 0 || fld r 80 16 == 0 || fld r 128 16 == 0 || fld r 144 16 == 0 || fld r 160 8 == 0 || fld r 168 8 == 0 ||
    fld r 176 16 == 0 || fld r 216 8 != 0

/-- CPYL (R319, R320). The record's sectors are judged with the other operands, whether or not its offset is aligned (R321);
it observes the group's earlier galley stores, so the split waits for one that is held on a fault (R141, R288). -/
def execCpyl (x : Ops) (s : State) : Host.Outcome State Fault Refusal :=
  limov .cpyl x s (fun c s =>
    match c.act.lowest with
    | none => c.done s
    | some i =>
      let one := Lanes.one i
      let g := c.opA .n32 i
      let o := c.opB .n32 i
      let tap := c.opC .b32 i
      let ro := (lwLo o).toNat
      let off : Bool := ro % 32 != 0 || decide (ro < 16 * s.bbarsOf c.T) || decide (s.galSizeOf c.T < ro + 32)
      let r := leNat (c.T.gbs ro 32)
      if g.pLo || o.pLo || tap.pLo then c.trap s cPoison one 0
      else
        match s.heldBehind c.g c.ctx 32 [{ lane := i, a := (ro : Int) }] with
        | some fe => c.stayBehind s fe
        | none =>
        if c.T.gmarked ro 32 then c.trap s cPoison one 0
        else
        match c.badBar s with
        | some b => c.trap s cGalley one (16 * b)
        | none =>
          if off || badRecord r then c.trap s cGalley one ro
          else
            let k : CopyKind := .layout (fld r 0 64) (fld r 64 16) (fld r 80 16)
              (BitVec.ofNat 16 (fld r 96 16)).toInt (BitVec.ofNat 16 (fld r 112 16)).toInt (fld r 128 16) (fld r 144 16)
              (fld r 160 8) (fld r 168 8) (fld r 176 16) (fld r 192 16) (fld r 208 8) (fld r 224 32)
              ((lwLo tap).truncate 16 : BitVec 16).toInt ((lwLo tap >>> 16).truncate 16 : BitVec 16).toInt
            c.copyIssue s i
              { g := c.g, team := c.G.team, core := c.k, seq := c.G.seq, cls := 0, batch := (c.G.bat 0).opened
                bb := copyBar x, gal := (lwLo g).toNat, kind := k, total := fld r 128 16 * fld r 144 16 * fld r 176 16
                done := 0, suspended := none, user := c.user, ctx := c.ctx })

/-! ### CPYG (R323) -/

/-- CPYG: a load of a row of N words for each lane. -/
def execCpyg (x : Ops) (s : State) : Host.Outcome State Fault Refusal :=
  limov .cpyg x s (fun c s =>
    let n := x.mf 0 5 + 1
    let gal : Bool := x.mf 5 1 == 1
    let rs := c.accLanes.map (c.addr gal)
    if c.act = 0 then c.done s
    else
      match c.addrHem s rs with
      | some s' => s'
      | none =>
        if gal then
          match c.galleyReq s (4 * n) false false rs with
          | .stop s' => s'
          | .go gs s1 => c.loadGalley s1 (4 * n) n false false 0 gs
        else
          match c.globalReq s (4 * n) 4 .read true false rs with
          | .stop s' => s'
          | .go ls s1 => c.loadGlobal s1 (4 * n) n false false false 0 ls)

/-! ### Units (R313-R315, R322) -/

/-- The pages of a unit translated, or where it fails. -/
inductive UnitXl where
  | ok (ps : List (Nat × Leaf × Nat))
  | recov (va level : Nat) (cls : Bool)
  | fatal

/-- Translates the 4 KiB pieces that a unit touches, in copy order. -/
def Copy.translate (c : Copy) (s : State) (vas : List Nat) : UnitXl × State :=
  vas.foldl (fun r va =>
    match r.1 with
    | .ok ps =>
      if ps.any (fun p => p.1 == va / 4096) then r
      else
        match xlateNow r.2 c.core c.ctx va (if c.out then .write else .read) c.user with
        | (.ok l pa, s1) => (if l.mem = 2 then .fatal else .ok (ps ++ [(va / 4096, l, pa - pa % 4096)]), s1)
        | (.recov level cls, s1) => (.recov va level cls, s1)
        | (.fatal _, s1) => (.fatal, s1)
    | _ => r) (.ok [], s)

/-- Earlier accesses of a copy's group to a unit's source bytes have not been performed (R315, R288). -/
def Copy.blocked (c : Copy) (s : State) (bs : List (Option Nat × Nat × Byte)) : Bool :=
  let srcs := bs.filterMap (fun b => if c.out then some (galVa b.2.1) else b.1)
  s.ms.flights.any (fun p =>
    p.2.g == c.g && p.2.ctx == c.ctx && decide (p.2.seq < c.seq) &&
      p.2.lanes.any (fun l => !l.isDone && srcs.any (fun a => decide (l.va ≤ a) && decide (a < l.va + p.2.size))))

/-- Changes a copy. -/
def State.setCopy (s : State) (id : Nat) (c : Copy) : State :=
  { s with eng := { s.eng with copies := Map.insert s.eng.copies id c } }

/-- The written bytes of a unit of a CPY or CPYL: offset, byte, poison. -/
def Copy.fetchIn (c : Copy) (s : State) (ps : List (Nat × Leaf × Nat)) (bs : List (Option Nat × Nat × Byte)) :
    List (Nat × Byte × Bool) × State :=
  let (free, s1) := s.draws 128
  (((List.range bs.length).zip bs).map (fun q =>
    let (i, ga, gg, pad) := q
    match ga with
    | none => (gg, pad, false)
    | some a =>
      match ps.find? (fun p => p.1 == a / 4096) with
      | none => (gg, pad, false)
      | some (_, l, base) =>
        let pa := base + a % 4096
        if s.fencedAcc pa l.cls l.owner then (gg, (free i).truncate 8, true)
        else
          let b := s.pocByte (c.core / 72) pa l.cls l.owner (l.mem != 0)
          (gg, b.1, b.2)), s1)

/-- A unit's bytes arrive in the galley: bytes, marks of poisoned sectors, and sectors that the copy has completed clean. -/
def Copy.moveIn (c : Copy) (s : State) (id : Nat) (ws : List (Nat × Byte × Bool)) : State :=
  let secs := ws.foldl (fun m w => secAdd m w.1 w.2.2) c.secs
  let clean := secsClean secs
  (s.modTm c.team (fun T =>
    let T1 := ws.foldl (fun T w => T.setGb w.1 w.2.1) T
    let T2 := ws.foldl (fun T w => if w.2.2 then T.setGmark (w.1 / 32) true else T) T1
    clean.foldl (fun T q => T.setGmark q false) T2)).setCopy id { c with secs := secs.filter (fun p => !clean.contains p.1) }

/-- Bytes at rising physical addresses with one poison, as lanes of a store of one line. -/
def runsOf (l : Leaf) (line : Nat) : List WByte → Nat → List LaneAcc
  | [], _ => []
  | w :: rest, n =>
    { lane := n, va := 2 ^ 66 + w.1, segs := [{ pa := w.1, len := 1, ofs := 0, cls := l.cls, owner := l.owner }]
      mem := l.mem, data := w.2.1.toNat, psn := w.2.2, left := [line] } :: runsOf l line rest (n + 1)

/-- A unit's bytes leave the galley as byte-masked stores, one request for each line (R318, R376). -/
def Copy.moveOut (c : Copy) (s : State) (id : Nat) (T : Team) (ps : List (Nat × Leaf × Nat))
    (bs : List (Option Nat × Nat × Byte)) : State :=
  let ws : List (Leaf × WByte) := bs.filterMap (fun b =>
    match b.1 with
    | none => none
    | some a => (ps.find? (fun p => p.1 == a / 4096)).map (fun p =>
        (p.2.1, (p.2.2 + a % 4096, T.gb b.2.1, T.gmark b.2.1))))
  let far (w : Leaf × WByte) : Bool := w.2.2.2 && decide (1 ≤ paRegion w.2.1 ∧ paRegion w.2.1 ≤ 3)
  let sent := ws.filter (fun w => !far w)
  let secs := sent.foldl (fun m w => secAdd m w.2.1 w.2.2.2) c.secs
  let clean := secsClean secs
  let s1 := (if ws.any far then s.setLost c.g else s).setCopy id { c with secs := secs.filter (fun p => !clean.contains p.1) }
  (dedup (sent.map (fun w => w.2.1 / 128))).foldl (fun s line =>
    let mine := sent.filter (fun w => w.2.1 / 128 == line)
    match mine with
    | [] => s
    | (l, _) :: _ =>
      let wb := mine.map (fun w => w.2)
      let clears := ((List.range 4).filter (fun i => clean.contains (4 * line + i))).foldl (fun n i => n + 2 ^ i) 0
      let f : Flight :=
        { g := c.g, seq := c.seq, core := c.core, kind := .store, size := 1, op := clears, batch := some (1, c.batch)
          user := c.user, ctx := c.ctx, lanes := runsOf l line wb 0 }
      ((s.l1Store c.core false wb).addFlight f).2.modGrp c.g (fun G =>
        let b := G.bat 1
        let G1 := G.setBat 1 (if c.batch = b.opened then { b with openOps := b.openOps + 1 }
          else { b with sealedOps := b.sealedOps.map (fun p => if p.1 = c.batch then (p.1, p.2 + 1) else p) })
        G1.owe (2 ^ 64 + c.batch) 1)) s1

/-- A copy completes under R142 (R322): what it has not moved is poisoned or lost, and its uncounted units are counted with
poison. -/
def State.failCopy (s : State) (id : Nat) : State :=
  match Map.find s.eng.copies id with
  | none => s
  | some c =>
    let rest := (List.range (c.total - 128 * c.done)).map (fun i => (c.byteAt (128 * c.done + i)).2.1)
    let s1 :=
      if c.out then s.setLost c.g
      else s.modTm c.team (fun T => (sectorsOf rest).foldl (fun T q => T.setGmark q true) T)
    let s2 := (List.range (c.units - c.done)).foldl (fun s i =>
      s.bbCount c.team c.bb (min 128 (c.total - 128 * (c.done + i))) true) s1
    s2.endCopy id c

/-- A team's engines work: it is neither saved nor gone. -/
def TeamSt.works (t : TeamSt) : Bool :=
  match t with
  | .started | .stopping | .terminated => true
  | _ => false

/-- A copy is among the 64 that its core's engine works on; copies that a restore re-issues beyond them wait for a place
(R312, R331). -/
def State.seated (s : State) (id : Nat) (c : Copy) : Bool :=
  decide ((s.eng.copies.filter (fun p => decide (p.1 < id) && p.2.core == c.core &&
    ((s.tm p.2.team).map (fun T => T.st != .saved)).getD true)).length < 64)

/-- The next unit of a copy is moved and counted (R313), the copy is suspended on a recoverable fault, or it ends. -/
def State.copyUnit (s : State) (id : Nat) : State :=
  match Map.find s.eng.copies id with
  | none => s
  | some c =>
    match s.tm c.team with
    | none => s
    | some T =>
      let bs := c.unit c.done
      if c.suspended.isSome || !T.st.works || !s.seated id c || c.blocked s bs || (c.bb.isSome && !s.mayCount c.core id) ||
          !(bs.filterMap (fun b => b.1)).all (walkClear s c.core c.ctx) then s
      else
        match c.translate s (bs.filterMap (fun b => b.1)) with
        | (.fatal, s1) => s1.failCopy id
        | (.recov va level cls, s1) =>
          let (fe, s2) := attachFault s1 c.core c.ctx T.index va level cls (if c.out then .write else .read) (.copy id)
          s2.setCopy id { c with suspended := some fe }
        | (.ok ps, s1) =>
          let (s2, p) :=
            if c.out then (c.moveOut s1 id T ps bs, bs.any (fun b => T.gmark b.2.1))
            else
              let (ws, s2) := c.fetchIn s1 ps bs
              (c.moveIn s2 id ws, ws.any (fun w => w.2.2))
          let s3 := ((if c.bb.isSome then s2.noteCount c.core id else s2).bbCount c.team c.bb bs.length p).modCore c.core (fun k =>
            { k with ctr := { k.ctr with cpyb := (k.ctr.cpyb + bs.length) % 2 ^ 64 } })
          match Map.find s3.eng.copies id with
          | none => s3
          | some c' =>
            if c.done + 1 = c.units then s3.endCopy id c' else s3.setCopy id { c' with done := c.done + 1 }

/-- COPY_RESUME (R322): the fault entry of a suspended copy has been served. -/
def execCopyResume (copy : Nat) (s : State) : Host.Outcome State Fault Refusal :=
  .next (match Map.find s.eng.copies copy with
    | none => s.finish
    | some c =>
      match c.suspended with
      | none => s.finish
      | some fe => if Map.has s.tr.faults fe then s.finish else (s.setCopy copy { c with suspended := none }).finish)

end Sys2Proof.Machine
end

