-- ==== Sys2Proof/Machine/Platen.lean ====
section
/-! DEFINITION. The Platen matrix engine (R332-R354): its queue, the K-steps of MLOOP (R203-R205), zeroing, drains and MX
requantisation, and MSTAT. -/

namespace Sys2Proof.Machine

/-! ### One K-step of an element (R203-R205) -/

/-- The K-step of an MX mode on an accumulator bit pattern: pairs of elements as values, and the two scale bytes. -/
def mxStep (acc : Nat) (ps : List (FVal × FVal)) (sa sb : Nat) : Nat :=
  let f := FF.f32
  let prods := ps.map (fun p => FVal.mul p.1 p.2)
  let c := f.val acc
  let ts := prods.filterMap id
  if sa = 255 || sb = 255 || c.isNan || prods.any (fun p => p == none) || ts.any FVal.isNan then f.canon
  else if hasInf true ts && hasInf false ts then f.canon
  else if hasInf true ts || hasInf false ts then
    match c with
    | .inf neg => if hasInf (!neg) ts then f.canon else acc
    | _ => f.infBits (hasInf true ts)
  else
    let lo := finLow ts
    let s := finSum lo ts
    if s = 0 then acc
    else
      match c with
      | .inf _ => acc
      | c => (sumRound f 0 false [c] [some c, some (.fin (s < 0) s.natAbs (lo + sa + sb - 254))]).1

/-- The K-step of the INT8 mode. -/
def i8Step (acc : Nat) (ps : List (Nat × Nat)) : Nat :=
  let s : Int := ps.foldl (fun n p => n + intVal 8 true p.1 * intVal 8 true p.2) 0
  (((acc : Int) + s) % (2 ^ 32 : Int)).toNat

/-! ### Operands of a K-step (R337-R339) -/

/-- Bits of an element in the dense layout (R192). -/
def denseBits (t : Ty) : Nat := match t with | .e2m1 => 4 | .e2m3 | .e3m2 => 6 | _ => 8

/-- Bytes of 32 elements in the dense layout. -/
def blockBytes (t : Ty) : Nat := 4 * denseBits t

/-- Registers of A that K-step s reads. -/
def MLoop.aRegs (m : MLoop) (s : Nat) : List Nat := regRange (m.d + s * m.astr) (mloopRps m.ta)

/-- The A scale register that K-step s reads. -/
def MLoop.sReg (m : MLoop) (s : Nat) : Option Nat := if m.sb = 0 then none else some (m.sb + s / 4)

/-- Registers that K-step s reads. -/
def MLoop.regs (m : MLoop) (s : Nat) : List Nat := m.aRegs s ++ (m.sReg s).toList

/-- Registers that K-steps from s on read. -/
def MLoop.regsFrom (m : MLoop) (s : Nat) : List Nat :=
  dedup (((List.range m.ks).filter (fun i => s ≤ i)).flatMap m.regs)

/-- The A elements that the words of a K-step hold (R338). -/
def aElems (t : Ty) (ws : List Word) : List Nat := ws.flatMap (fun w => elemsOf t (w.zeroExtend 64))

/-- Element k of a dense block (R192). -/
def denseElem (t : Ty) (block k : Nat) : Nat := block / 2 ^ (denseBits t * k) % 2 ^ denseBits t

/-- The galley offset of column n of B for K-step s (R339). -/
def MLoop.bAt (m : MLoop) (s n : Nat) : Nat := m.b0 + m.binc * s + blockBytes m.tb * n

/-- A word of register r for lane j as the issuing MLOOP reads it; a dead lane supplies a poisoned word (R342). -/
def State.aWord (s : State) (G : Group) (T : Team) (user : Bool) (r j : Nat) : LW :=
  let v := if user then s.progWord G T r j else G.reg r j
  if G.dead.has j then { v with psn := true } else v

/-- A register that an MLOOP reads is FULL. -/
def Group.aFull (G : Group) (user : Bool) (r : Nat) : Bool :=
  if user ∧ G.lvl ≠ 0 ∧ 240 ≤ r ∧ G.regs8 = 32 then !Map.has G.slots (r - 240) else (G.pendOf r).isNone

/-- One row's A for a K-step: elements, scale byte, poison. -/
structure ARow where
  elems : List Nat
  scale : Nat
  psn : Bool
deriving DecidableEq, Repr

/-- A row from words and a scale word. -/
def aRow (t : Ty) (step : Nat) (ws : List LW) (sw : Option LW) : ARow :=
  { elems := aElems t (ws.map (fun w => w.val))
    scale := match sw with | some w => w.val.toNat / 256 ^ (step % 4) % 256 | none => 127
    psn := ws.any (fun w => w.psn) || (sw.map (fun w => w.psn)).getD false }

/-- The words that K-step `step` reads in lane j, from the registers or from the latch; none for a row that the latch does
not hold (R343). -/
def MLoop.rowWords (m : MLoop) (s : State) (G : Group) (T : Team) (j : Nat) : Option (List LW × Option LW) :=
  if m.fromLatch then
    match G.alatch with
    | some L =>
      if L.rows.has j then
        let n := mloopRps m.ta
        let dead (w : LW) : LW := if G.dead.has j then { w with psn := true } else w
        some ((List.range n).map (fun r => dead (Map.getD L.words (96 * (m.step * n + r) + j) {})),
          if L.scaled then some (dead (Map.getD L.scales (96 * m.step + j) {})) else none)
      else none
    | none => none
  else some ((m.aRegs m.step).map (fun r => s.aWord G T m.user r j), (m.sReg m.step).map (fun r => s.aWord G T m.user r j))

/-- A tile of a team. -/
def Team.tile (T : Team) (n : Nat) : Tile := Map.getD T.tiles n {}

/-- Replaces a tile. -/
def Team.setTile (T : Team) (n : Nat) (t : Tile) : Team := { T with tiles := Map.put T.tiles n t {} }

/-- A counter of a tile stops at 2^32 − 1 (R332). -/
def tileCount (n k : Nat) : Nat := min (n + k) 0xFFFFFFFF

/-- The row of a tile after a K-step. -/
def MLoop.rowStep (m : MLoop) (t : Tile) (j : Nat) (a : ARow) (bs : List (List Nat × Nat)) : List (Nat × Word) :=
  ((List.range 64).zip bs).map (fun q =>
    let acc := (Map.getD t.elems (64 * j + q.1) 0).toNat
    let (b, sb) := q.2
    let v :=
      if m.ta == .i8 then i8Step acc (a.elems.zip b)
      else mxStep acc (((a.elems.map (FF.of m.ta).val)).zip (b.map (FF.of m.tb).val)) a.scale sb
    (64 * j + q.1, BitVec.ofNat 32 v))

/-- B of a K-step: for each column its elements and its scale byte. -/
def MLoop.bCols (m : MLoop) (T : Team) : List (List Nat × Nat) :=
  (List.range 64).map (fun n =>
    let block := leNat (T.gbs (m.bAt m.step n) (blockBytes m.tb))
    ((List.range 32).map (denseElem m.tb block),
      match m.bs with | some bs => (T.gb (bs + 64 * m.step + n)).toNat | none => 127))

/-- A byte of B or of its scales of a K-step lies in a poisoned sector (R342). -/
def MLoop.bPoison (m : MLoop) (T : Team) : Bool :=
  T.gmarked (m.bAt m.step 0) (64 * blockBytes m.tb) ||
    (match m.bs with | some bs => T.gmarked (bs + 64 * m.step) 64 | none => false)

/-- Products that a K-step skips (R345): those of zero A elements, unless B holds a NaN or an infinity. -/
def MLoop.skipped (m : MLoop) (rows : List ARow) (bs : List (List Nat × Nat)) : Nat :=
  let special : Bool := m.tb != .i8 && bs.any (fun c => c.1.any (fun b =>
    match (FF.of m.tb).val b with | .nan _ | .inf _ => true | _ => false))
  let zero (e : Nat) : Bool := if m.ta == .i8 then e == 0 else (match (FF.of m.ta).val e with | .zero _ => true | _ => false)
  if special then 0 else 64 * ((rows.map (fun r => (r.elems.filter zero).length)).sum)

/-! ### The queue (R334, R335) -/

/-- Changes an operation of the Platen. -/
def State.setPop (s : State) (id : Nat) (p : POp) : State :=
  { s with eng := { s.eng with pops := Map.insert s.eng.pops id p } }

/-- An operation of the Platen completes. -/
def State.endPop (s : State) (id : Nat) : State :=
  { s with eng := { s.eng with pops := Map.erase s.eng.pops id } }

/-- The operations on a tile that have not completed. -/
def State.tileQueue (s : State) (t tile : Nat) : List Nat :=
  (s.eng.pops.filter (fun p => p.2.team == t && p.2.tile == tile)).map (fun p => p.1)

/-- Another MLOOP of the group that takes A from the latch has not completed. -/
def State.latchUsed (s : State) (id g : Nat) : Bool :=
  s.eng.pops.any (fun p => p.1 != id && p.2.g == g && (match p.2.kind with | .mloop m => m.fromLatch | _ => false))

/-- The latch after an MLOOP that takes A from it has read its last K-step (R343): it is emptied when no MLOOP that has
issued still takes from it. -/
def Group.leaveLatch (G : Group) (reuse used : Bool) : Group :=
  match G.alatch with
  | none => G
  | some L =>
    let ended := L.ended || !reuse
    { G with alatch := if ended && !used then none else some { L with ended := ended } }

/-- An MLOOP ends: its holds and its use of the latch end. -/
def State.endMloop (s : State) (id : Nat) (p : POp) (m : MLoop) : State :=
  let used := s.latchUsed id p.g
  (s.endPop id).modGrp p.g (fun G =>
    if m.fromLatch then G.leaveLatch m.reuse used
    else
      let G1 := (m.regsFrom m.step).foldl Group.unhold G
      if m.reuse then { G1 with alatch := G1.alatch.map (fun L => { L with full := true }) } else G1)

/-- Poisons rows of a tile. -/
def State.poisonRows (s : State) (t tile : Nat) (rows : Lanes) : State :=
  s.modTm t (fun T => T.setTile tile { T.tile tile with poison := (T.tile tile).poison ||| rows })

/-- Earlier accesses of the group to galley bytes have not been performed (R344, R288). -/
def State.galleyHeld (s : State) (g ctx seq o n : Nat) : Bool :=
  s.ms.flights.any (fun p => p.2.g == g && p.2.ctx == ctx && decide (p.2.seq < seq) &&
    p.2.lanes.any (fun l => !l.isDone && decide (l.va < galVa (o + n)) && decide (galVa o < l.va + p.2.size)))

/-- The engines of a group work: its team runs, and the group is not frozen (R347, R427). -/
def State.engineRuns (s : State) (p : POp) : Bool :=
  match s.tm p.team, s.grp p.g with
  | some T, some G => (T.st == .started || T.st == .terminated) && !G.frozen
  | _, _ => false

/-- One K-step of an MLOOP whose gate is released (R341, R342). -/
def MLoop.perform (m : MLoop) (s : State) (id : Nat) (p : POp) (G : Group) (T : Team) : State :=
  let rows := p.rows.list.filterMap (fun j => (m.rowWords s G T j).map (fun w => (j, w)))
  let arows := rows.map (fun r => (r.1, aRow m.ta m.step r.2.1 r.2.2))
  let bs := m.bCols T
  let bp := m.bPoison T
  let t := T.tile p.tile
  let latchBad : Bool := m.fromLatch && ((G.alatch.map (fun L => L.poisoned)).getD false)
  let psn := (arows.filter (fun r => r.2.psn || bp)).foldl (fun l r => l ||| Lanes.one r.1) (0 : Lanes)
  let t' : Tile :=
    { t with
      elems := Map.putAll t.elems 0 (arows.flatMap (fun r => m.rowStep t r.1 r.2 bs))
      poison := t.poison ||| psn ||| (if latchBad then p.rows else 0)
      kdone := tileCount t.kdone 1 }
  let n := mloopRps m.ta
  let s1 := (s.modTm p.team (fun T => T.setTile p.tile t')).modGrp p.g (fun G =>
    let G1 :=
      if m.fromLatch then G
      else ((m.regs m.step |> dedup).filter (fun r => !(m.regsFrom (m.step + 1)).contains r)).foldl Group.unhold G
    if m.reuse && !m.fromLatch then
      { G1 with alatch := G1.alatch.map (fun L =>
          { L with
            rows := p.rows
            words := Map.putAll L.words {} (rows.flatMap (fun r =>
              ((List.range n).zip r.2.1).map (fun w => (96 * (m.step * n + w.1) + r.1, w.2))))
            scales := rows.foldl (fun (q : Map LW) r =>
              match r.2.2 with | some w => Map.put q (96 * m.step + r.1) w {} | none => q) L.scales }) }
    else G1)
  let s2 := (s1.modSlice (sliceKey T.coreKey G.slice) (fun sl => { sl with c := max (sl.c - 8) (-32768) })).modCore T.coreKey
    (fun k => { k with ctr := { k.ctr with
      kstep := (k.ctr.kstep + 1) % 2 ^ 64, kskip := (k.ctr.kskip + m.skipped (arows.map (fun r => r.2)) bs) % 2 ^ 64 } })
  let m' := { m with step := m.step + 1 }
  if m'.step = m.ks then s2.endMloop id p m' else s2.setPop id { p with kind := .mloop m' }

/-- The K-step of an operation, where its gate and its A are ready (R341). -/
def State.kstep (s : State) (id : Nat) : State :=
  match Map.find s.eng.pops id with
  | none => s
  | some p =>
    match p.kind, s.grp p.g, s.tm p.team with
    | .mloop m, some G, some T =>
      if !s.engineRuns p || !s.firstOfTile id p then s
      else
        match m.gate, m.opened with
        | some _, none => s
        | some _, some true =>
          let s1 := s.poisonRows p.team p.tile Lanes.all
          let s2 := if m.reuse && !m.fromLatch then
              s1.modGrp p.g (fun G => { G with alatch := G.alatch.map (fun L => { L with poisoned := true }) })
            else s1
          s2.endMloop id p m
        | _, _ =>
          let ready : Bool :=
            if m.fromLatch then (G.alatch.map (fun L => L.full)).getD true
            else (m.regs m.step).all (G.aFull m.user)
          if !ready || s.galleyHeld p.g (s.ctxOf T) p.seq (m.bAt m.step 0) (64 * blockBytes m.tb) ||
              (match m.bs with | some b => s.galleyHeld p.g (s.ctxOf T) p.seq (b + 64 * m.step) 64 | none => false) then s
          else m.perform s id p G T
    | _, _, _ => s

/-- KSTEP (R341). -/
def execKstep (op : Nat) (s : State) : Host.Outcome State Fault Refusal := .next (s.kstep op).finish

/-! ### MLOOP (R336-R343) -/

/-- The lowest byte of a rising run of ranges of n bytes, st apart, outside [lo, hi). -/
def lowestOut (a st n cnt lo hi : Nat) : Option Nat :=
  if a < lo then some a
  else
    match (List.range cnt).find? (fun i => decide (hi < a + st * i + n)) with
    | some i => some (max hi (a + st * i))
    | none => none

/-- The operation of an MLOOP. -/
def Ctx.mloopOf (c : Ctx) (i : Nat) : MLoop :=
  let x := c.x
  let imm := x.imm.toNat
  { ta := x.t, tb := if x.e = 0 then x.t else (Ty.ofCode x.e).getD x.t, d := x.d.toNat, astr := mloopAstr x, sb := bReg x
    b0 := (lwLo (c.opA .n32 i)).toNat, binc := 32 * (imm / 2 ^ 20 % 2 ^ 12)
    bs := if x.c = Opd.zero then none else some (lwLo (c.opC .n32 i)).toNat
    ks := mloopKs x, reuse := x.mf 3 1 == 1, fromLatch := c.G.alatch.isSome
    gate := if x.mf 4 1 = 1 then some (imm / 64 % 64, x.mf 5 1 == 1) else none
    opened := none, step := 0, user := c.user }

/-- An operation enters the Platen's queue. -/
def Ctx.addPop (c : Ctx) (s : State) (k : PKind) : State :=
  let p : POp := { g := c.g, team := c.G.team, core := c.k, tile := c.x.mf 0 3, rows := c.ex, seq := c.G.seq, kind := k }
  { s with eng := { s.eng with pops := Map.insert s.eng.pops s.eng.next p, next := s.eng.next + 1 } }

/-- Operations in the Platen of a core (R334). -/
def State.popsOn (s : State) (k : Nat) : Nat := (s.eng.pops.filter (fun p => p.2.core == k)).length

/-- MLOOP (R340, R341). -/
def execMloop (x : Ops) (s : State) : Host.Outcome State Fault Refusal :=
  limov .mloop x s (fun c s =>
    match c.act.lowest with
    | none => c.done s
    | some i =>
      let one := Lanes.one i
      let m := c.mloopOf i
      let lo := 16 * s.bbarsOf c.T
      let hi := s.galSizeOf c.T
      let gateBad : Option Nat := m.gate.bind (fun g => if s.bbarsOf c.T ≤ g.1 then some g.1 else none)
      let scaleOut : Option Nat := m.bs.bind (fun b => lowestOut b 0 (64 * m.ks) 1 lo hi)
      if (c.opA .n32 i).pLo || (x.c != Opd.zero && (c.opC .n32 i).pLo) then c.trap s cPoison one 0
      else
        match gateBad, lowestOut m.b0 m.binc (64 * blockBytes m.tb) m.ks lo hi, scaleOut with
        | some n, _, _ => c.trap s cGalley one (16 * n)
        | none, some o, _ => c.trap s cGalley one o
        | none, none, some o => c.trap s cGalley one o
        | none, none, none =>
          if c.G.alatch.any (fun L => L.t != m.ta || L.ks != m.ks) then c.trap s cIllegal c.sp.mask 0
          else if 16 ≤ s.popsOn c.k then c.wait s .platenSlot
          else
            c.done ((c.addPop s (.mloop m)).modGrp c.g (fun G =>
              if m.fromLatch then G
              else
                let G1 := (m.regsFrom 0).foldl Group.hold G
                if m.reuse then
                  let L : ALatch :=
                    { t := m.ta, ks := m.ks, rows := 0, words := [], scales := [], scaled := m.sb != 0, poisoned := false, full := false
                      ended := false }
                  { G1 with alatch := some L }
                else G1)))

/-! ### Requantisation (R352) -/

/-- The unbiased exponent of the largest normal value (R190). -/
def emaxOf (t : Ty) : Int := match t with | .e4m3 => 8 | .e5m2 => 15 | .e3m2 => 4 | _ => 2

/-- A converted block: scale, codes, and the counts of SATC, NANB and UFC. -/
structure MxBlock where
  e : Nat
  codes : List Nat
  sat : Nat := 0
  nan : Nat := 0
  uf : Nat := 0
deriving DecidableEq, Repr

/-- Converts a block of 32 f32 values (R352). -/
def mxBlock (t : Ty) (xs : List Word) : MxBlock :=
  let f := FF.of t
  let vs := xs.map (fun x => FF.f32.val x.toNat)
  if vs.any FVal.isNan then { e := 255, codes := List.replicate 32 0, nan := 1 }
  else
    let logs : List Int := vs.filterMap (fun v => match v with | .fin _ m e => some ((m.log2 : Int) + e) | _ => none)
    let e : Nat := match logs with
      | [] => 0
      | l :: ls => (max 0 (min 254 (ls.foldl max l - emaxOf t + 127))).toNat
    let conv (v : FVal) : Nat × Bool × Bool :=
      match v with
      | .nan _ => (0, false, false)
      | .inf neg => (f.infBits neg, false, false)
      | .zero neg => (f.signed neg 0, false, false)
      | .fin neg m ex =>
        let r := f.round 0 true neg m (ex - ((e : Int) - 127)) false
        (r.1, r.2 &&& Fl.ovf != 0, r.1 % 2 ^ (f.width - 1) == 0)
    let cs := vs.map conv
    { e := e, codes := cs.map (fun c => c.1), sat := (cs.filter (fun c => c.2.1)).length
      uf := (cs.filter (fun c => c.2.2)).length }

/-! ### Drains (R350-R353) -/

/-- A row as a drain reads it: its words (MDRAIN) or its two blocks (MDRAINMX), and its poison. -/
structure DRow where
  row : Nat
  words : List Word
  blocks : List MxBlock
  psn : Bool
deriving DecidableEq, Repr

/-- A row of a tile. -/
def Tile.row (t : Tile) (mx : Option Ty) (j : Nat) : DRow :=
  let ws := (List.range 64).map (fun n => Map.getD t.elems (64 * j + n) 0)
  { row := j, words := ws, psn := t.poison.has j
    blocks := match mx with | some ty => [mxBlock ty (ws.take 32), mxBlock ty (ws.drop 32)] | none => [] }

/-- Two rows of a duplex pair agree (R333). -/
def DRow.agrees (a b : DRow) : Bool := a.words == b.words && a.psn == b.psn && a.blocks.map (fun k => k.e) == b.blocks.map (fun k => k.e)

/-- The rows of a drain, poisoned where a duplex pair differs (R333). -/
def drainRows (G : Group) (t : Tile) (mx : Option Ty) (rows : Lanes) : List DRow :=
  rows.list.map (fun j =>
    let r := t.row mx j
    let k := if j < 48 then j + 48 else j - 48
    if G.duplex && rows.has k && !G.dead.has j && !G.dead.has k && !r.agrees (t.row mx k) then { r with psn := true } else r)

/-- The words that a register drain delivers to a lane (R350, R353). -/
def DRow.regWords (r : DRow) (mx : Option Ty) : List LW :=
  match mx with
  | none => r.words.map (fun w => { val := w, psn := r.psn })
  | some t =>
    let codes := r.blocks.flatMap (fun b => b.codes)
    let n := t.elems
    ((List.range (64 / n)).map (fun i =>
      ({ val := BitVec.ofNat 32 (Machine.ofElems (tyStep t) ((codes.drop (n * i)).take n)), psn := r.psn } : LW))) ++
    [{ val := BitVec.ofNat 32 ((r.blocks.map (fun b => b.e)).headD 0 + 256 * ((r.blocks.drop 1).map (fun b => b.e)).headD 0)
       psn := r.psn }]

/-- The bytes of one row's elements in the galley form. -/
def DRow.elemBytes (r : DRow) (mx : Option Ty) : List Byte :=
  match mx with
  | none => r.words.flatMap (fun w => leBytes 4 w.toNat)
  | some t =>
    let w := denseBits t
    leBytes (8 * w) (Machine.ofElems w (r.blocks.flatMap (fun b => b.codes)))

/-- The bytes of a galley drain, in drain order (R351, R353). -/
def Drain.bytes (d : Drain) (rows : List DRow) : List (Nat × Byte × Bool) :=
  rows.flatMap (fun r =>
    let es := r.elemBytes d.mx
    ((List.range es.length).zip es).map (fun q => (d.g + d.rs * r.row + q.1, q.2, r.psn)) ++
    (match d.mx with
     | some _ => ((List.range r.blocks.length).zip r.blocks).map (fun q => (d.sg + 2 * r.row + q.1, BitVec.ofNat 8 q.2.e, r.psn))
     | none => []))

/-- A tile after a drain or MZERO has set rows to +0.0 (R350). -/
def Tile.zero (t : Tile) (rows : Lanes) : Tile :=
  { t with elems := t.elems.filter (fun p => !rows.has (p.1 / 64)), poison := t.poison &&& ~~~ rows }

/-- A tile after a drain has counted its conversions (R352). -/
def Tile.countMx (t : Tile) (rows : List DRow) : Tile :=
  let bs := rows.flatMap (fun r => r.blocks)
  { t with
      satc := tileCount t.satc ((bs.map (fun b => b.sat)).sum), nanb := tileCount t.nanb ((bs.map (fun b => b.nan)).sum)
      ufc := tileCount t.ufc ((bs.map (fun b => b.uf)).sum) }

/-- A queued drain or zeroing that is the first of its tile reads it (R350): a register drain delivers its rows, a galley
drain takes up its bytes. -/
def State.tileDrain (s : State) (id : Nat) : State :=
  match Map.find s.eng.pops id with
  | none => s
  | some p =>
    match s.grp p.g, s.tm p.team with
    | some G, some T =>
      if !s.engineRuns p || !s.firstOfTile id p then s
      else
        let t := T.tile p.tile
        match p.kind with
        | .mloop _ => s
        | .mzero => (s.setTm p.team (T.setTile p.tile (t.zero p.rows))).endPop id
        | .drain d =>
          if d.buf.isSome then s
          else
            let rows := drainRows G t d.mx p.rows
            let t1 := t.countMx rows
            let read (s : State) : State := s.setTm p.team (T.setTile p.tile (if d.z then t1.zero p.rows else t1))
            match d.ticket with
            | some tk => s.serveClaim p.g tk (fun s =>
                ((read s).endPop id).completeClaim p.g tk (rows.map (fun r => (r.row, r.regWords d.mx))))
            | none => (read s).setPop id { p with kind := .drain { d with buf := some (d.bytes rows) } }
    | _, _ => s

/-- TILE_DRAIN (R350). -/
def execTileDrain (op : Nat) (s : State) : Host.Outcome State Fault Refusal := .next (s.tileDrain op).finish

/-- The next unit of a galley drain is written and counted (R351); the drain completes with its last unit. -/
def State.drainUnit (s : State) (id : Nat) : State :=
  match Map.find s.eng.pops id with
  | none => s
  | some p =>
    match p.kind with
    | .drain d =>
      match d.buf with
      | none => s
      | some bs =>
        if d.bb.isSome && !s.mayCount p.core id then s
        else
        let ws := (bs.drop (128 * d.unit)).take 128
        let secs := ws.foldl (fun m w => secAdd m w.1 w.2.2) d.secs
        let clean := secsClean secs
        let s1 := s.modTm p.team (fun T =>
          let T1 := ws.foldl (fun T w => T.setGb w.1 w.2.1) T
          let T2 := ws.foldl (fun T w => if w.2.2 then T.setGmark (w.1 / 32) true else T) T1
          clean.foldl (fun T q => T.setGmark q false) T2)
        let s2 := (if d.bb.isSome then s1.noteCount p.core id else s1).bbCount p.team d.bb ws.length (ws.any (fun w => w.2.2))
        if bs.length ≤ 128 * (d.unit + 1) then (s2.endPop id).modGrp p.g (fun G => G.batchOpDone 0 d.batch)
        else s2.setPop id { p with kind := .drain { d with unit := d.unit + 1, secs := secs.filter (fun q => !clean.contains q.1) } }
    | _ => s

/-- COPY_UNIT_DONE (R313, R351): a unit of a copy, or of a galley drain. -/
def execCopyUnitDone (copy : Nat) (s : State) : Host.Outcome State Fault Refusal :=
  .next (match Map.find s.eng.pops copy with
    | some p => if s.engineRuns p || ((s.tm p.team).map (fun T => T.st == .stopping)).getD false then (s.drainUnit copy).finish else s.finish
    | none => (s.copyUnit copy).finish)

/-! ### MZERO, MDRAIN, MDRAINMX (R349-R353) -/

/-- MZERO (R350). -/
def execMzero (x : Ops) (s : State) : Host.Outcome State Fault Refusal :=
  limov .mzero x s (fun c s =>
    if c.act = 0 then c.done s
    else if 16 ≤ s.popsOn c.k then c.wait s .platenSlot
    else c.done (c.addPop s .mzero))

/-- The lowest byte that a galley drain would write outside the galley (R351). -/
def drainOut (rows : List Nat) (g rs n : Nat) (sg : Option Nat) (lo hi : Nat) : Option Nat :=
  let out (a n : Nat) : Option Nat := lowestOut a 0 n 1 lo hi
  let all := rows.filterMap (fun j => out (g + rs * j) n) ++
    (match sg with | some o => rows.filterMap (fun j => out (o + 2 * j) 2) | none => [])
  match all with
  | [] => none
  | a :: as => some (as.foldl min a)

/-- MDRAIN and MDRAINMX (R350-R353). The row size is the dense one where the field SB is 0. -/
def Ctx.drain (c : Ctx) (s : State) (mx : Option Ty) : State :=
  let x := c.x
  match c.act.lowest with
  | none => c.done s
  | some i =>
    let z : Bool := x.mf 4 1 == 1
    if x.mf 3 1 = 0 then
      if 16 ≤ s.popsOn c.k then c.wait s .platenSlot
      else
        match c.G.freeTicket with
        | none => c.wait s .ticket
        | some tk =>
          let n := match mx with | some t => drainRegs true t | none => 64
          let ds := (List.range n).map (fun r => some (x.d.toNat + r)) ++
            (if mx.isSome then [if aReg x = 0 then none else some (aReg x)] else [])
          c.done (c.claim (c.addPop s (.drain
            { mx := mx, z := z, ticket := some tk, g := 0, sg := 0, rs := 0, bb := none, batch := 0, buf := none, unit := 0
              secs := [] })) tk ds)
    else
      let one := Lanes.one i
      let g := c.opA .n32 i
      let rs := c.opB .n32 i
      let sg := c.opC .n32 i
      let dense := match mx with | some t => 8 * denseBits t | none => 256
      let bb : Option Nat := if x.mf 5 1 = 1 then some (x.d.toNat % 64) else none
      let d : Drain :=
        { mx := mx, z := z, ticket := none, g := (lwLo g).toNat, sg := (lwLo sg).toNat
          rs := if x.b = Opd.zero then dense else (lwLo rs).toNat, bb := bb, batch := (c.G.bat 0).opened, buf := none
          unit := 0, secs := [] }
      if g.pLo || rs.pLo || (mx.isSome && sg.pLo) then c.trap s cPoison one 0
      else if (bb.map (fun n => decide (s.bbarsOf c.T ≤ n))).getD false then c.trap s cGalley one (16 * bb.getD 0)
      else
        match drainOut c.ex.list d.g d.rs dense (if mx.isSome then some d.sg else none) (16 * s.bbarsOf c.T) (s.galSizeOf c.T) with
        | some o => c.trap s cGalley one o
        | none =>
          if 16 ≤ s.popsOn c.k then c.wait s .platenSlot
          else c.done ((c.addPop s (.drain d)).modGrp c.g (fun G => (G.joinBatch 0).2))

/-- MDRAIN (R350). -/
def execMdrain (x : Ops) (s : State) : Host.Outcome State Fault Refusal := limov .mdrain x s (fun c s => c.drain s none)

/-- MDRAINMX (R352, R353). -/
def execMdrainmx (x : Ops) (s : State) : Host.Outcome State Fault Refusal :=
  limov .mdrainmx x s (fun c s => c.drain s (some x.t))

/-! ### MSTAT (R354) -/

/-- The counter that a selector names. -/
def Tile.counter (t : Tile) (sel : Nat) : Nat :=
  match sel with
  | 4 => t.satc | 5 => t.nanb | 6 => t.ufc | _ => t.kdone

/-- Sets the counter that a selector names to 0. -/
def Tile.clear (t : Tile) (sel : Nat) : Tile :=
  match sel with
  | 4 => { t with satc := 0 } | 5 => { t with nanb := 0 } | 6 => { t with ufc := 0 } | _ => { t with kdone := 0 }

/-- MSTAT (R354): selectors 1 to 7 wait for the operations that stood in the tile's queue when it issued, and then read. -/
def execMstat (x : Ops) (s : State) : Host.Outcome State Fault Refusal :=
  limov .mstat x s (fun c s =>
    let n := x.mf 0 3
    let sel := x.mf 3 3
    let q := s.tileQueue c.G.team n
    let t := c.T.tile n
    if c.act = 0 then c.done s
    else if sel ≠ 0 ∧ !q.isEmpty ∧ c.sp.arrived = 0 then c.wait s (.tileOps q)
    else
      let v : Nat :=
        if sel = 0 then
          (if q.isEmpty then 0 else 1) + (if t.poison = 0 then 0 else 2) + (if c.G.alatch.isSome then 4 else 0) + 256 * q.length
        else if sel ≤ 3 then (t.poison.word (sel - 1)).toNat
        else t.counter sel
      let s1 := if x.mf 6 1 = 1 then s.modTm c.G.team (fun T => T.setTile n ((T.tile n).clear sel)) else s
      c.result s1 false false (c.uniform (BitVec.ofNat 64 v)))

end Sys2Proof.Machine
end

