-- ==== Sys2Proof/Machine/Code.lean ====
section
/-! DEFINITION. Code residency (R147-R156): IPREF, IPIN, IUNPIN and ICINV, and the removal and refetch of windows that
invalidations share. -/

namespace Sys2Proof.Machine

/-! ### Windows that leave, pins that are refetched (R145, R150, R156) -/

/-- Windows leave the instruction caches and fetch buffers of cores. -/
def State.dropWins (s : State) (inScope : Nat → Bool) (hit : CodeWin → Bool) : State :=
  let keep (ws : List CodeWin) : List CodeWin := ws.filter (fun w => !hit w)
  { s with exe := { s.exe with
      cores := s.exe.cores.foldl (fun (m : Map Core) p =>
        if inScope p.1 then Map.put m p.1 { p.2 with icache := keep p.2.icache } {} else m) s.exe.cores
      groups := s.exe.groups.map (fun p =>
        match s.tm p.2.team with
        | some T =>
          if inScope T.coreKey then
            (p.1, { p.2 with splits := p.2.splits.map (fun (sp : Split) => { sp with fbuf := keep sp.fbuf }) })
          else p
        | none => p) } }

/-- A window translated for fetch at either level, walking at once, for core `k` (R150). -/
def refetchXl (s : State) (k ctx va : Nat) : Option (Leaf × Nat) × State :=
  match xlateNow s k ctx va .fetch true with
  | (.ok l pa, s1) => (some (l, pa), s1)
  | (_, s1) =>
    match xlateNow s1 k ctx va .fetch false with
    | (.ok l pa, s2) => (some (l, pa), s2)
    | (_, s2) => (none, s2)

/-- Refetches the pins that satisfy a test; a refetch that meets a fault removes the pin (R150). -/
def State.refetchPins (s : State) (hit : Pin → Bool) : State :=
  let (pins, s1) := s.tr.pins.foldl (fun (r : List Pin × State) p =>
    if hit p then
      match refetchXl r.2 (72 * p.domain) p.win.ctx p.win.va with
      | (some (l, pa), s') => (r.1 ++ [{ p with win := readWindow s' p.domain p.win.ctx p.win.va l pa }], s')
      | (none, s') => (r.1, s')
    else (r.1 ++ [p], r.2)) ([], s)
  { s1 with tr := { s1.tr with pins := pins } }

/-! ### The window list (R152) -/

/-- The windows of the four instructions: the lowest active lane, the windows, and the count; traps on a poisoned operand. -/
def Ctx.windows (c : Ctx) (s : State) (cap : Nat) : Chk (Option (Nat × List Nat × Nat)) :=
  match c.act.lowest with
  | none => .go none s
  | some j =>
    let rel : Bool := c.x.a == Opd.zero
    let a := c.opA .n64 j
    let base : DWord := if rel then c.sp.pc + c.x.imm.signExtend 64 else a.val
    let b := c.opB10 .n32 j
    if (!rel && lwAny a) || b.pLo then .stop (c.trap s cPoison (Lanes.one j) 0)
    else
      let n := (lwLo b).toNat
      let w0 := windowOf base.toNat
      .go (some (j, (List.range (min n cap)).map (fun i => (w0 + 32 * i) % 2 ^ 64), n)) s

/-- A window that may not be named with the first of its list (R152). -/
def badWindow (w0 w : Nat) : Bool := !canonical w || handlerHalf w != handlerHalf w0

/-- The ACCESS trap of a list with a bad window (R152). -/
def Ctx.listTrap (c : Ctx) (s : State) (j : Nat) (ws : List Nat) : Option State :=
  (ws.find? (badWindow (ws.headD 0))).map (fun w => c.trap s cAccess (Lanes.one j) w)

/-- Fetches windows into the core's instruction cache, up to the first that must wait for a walk; one that faults is dropped
(R138, R140, R153). -/
def Ctx.prefAll (c : Ctx) : List Nat → State → Option Wait × State
  | [], s => (none, s)
  | w :: ws, s =>
    match issueXl s c.k c.ctx c.sp w .fetch c.user with
    | (.wait v, s1) => (some v, s1)
    | (.done (.ok l pa), s1) => c.prefAll ws (codeWin s1 c.k c.ctx [] w l pa).2
    | (.done _, s1) => c.prefAll ws s1

/-- IPREF (R153): its fetches are made at issue. -/
def execIpref (x : Ops) (s : State) : Host.Outcome State Fault Refusal :=
  limov .ipref x s (fun c s =>
    match c.windows s 256 with
    | .stop s' => s'
    | .go none s1 => c.done s1
    | .go (some (_, ws, _)) s1 =>
      match c.prefAll (ws.filter (fun w => !badWindow (ws.headD 0) w)) s1 with
      | (some w, s2) => c.wait s2 w
      | (none, s2) => c.done s2)

/-! ### Pins (R149, R154, R155) -/

/-- The window is pinned in a domain. -/
def State.pinned (s : State) (d ctx w : Nat) : Bool :=
  s.tr.pins.any (fun p => p.domain == d && p.win.ctx == ctx && p.win.va == w)

/-- A domain's pin table has no room for a pin of a context (R149). -/
def State.pinsFull (s : State) (d ctx : Nat) : Bool :=
  let mine := s.tr.pins.filter (fun p => p.domain == d)
  let r : Root := Map.getD s.tr.roots ctx {}
  decide (r.pinmax ≤ (mine.filter (fun p => p.win.ctx == ctx)).length) || decide (1024 ≤ mine.length)

/-- How the pinning of a list ends. -/
inductive PinEnd where
  | done
  | wait (w : Wait)
  | fatal (cause w : Nat)

/-- Pins the windows of a list in turn (R154). -/
def Ctx.pinAll (c : Ctx) : List Nat → State → PinEnd × State
  | [], s => (.done, s)
  | w :: ws, s =>
    let d := c.k / 72
    if s.pinned d c.ctx w then c.pinAll ws s
    else if s.pinsFull d c.ctx then (.done, s)
    else
      match fetchXl s c.g c.e c.T c.sp w c.user with
      | (.wait v, s1) => (.wait v, s1)
      | (.fatal cause, s1) => (.fatal cause w, s1)
      | (.ok l pa, s1) =>
        let p : Pin := { domain := d, win := readWindow s1 d c.ctx w l pa }
        c.pinAll ws { s1 with tr := { s1.tr with pins := s1.tr.pins ++ [p] } }

/-- IPIN (R154). -/
def execIpin (x : Ops) (s : State) : Host.Outcome State Fault Refusal :=
  limov .ipin x s (fun c s =>
    match c.windows s 1024 with
    | .stop s' => s'
    | .go none s1 => c.done s1
    | .go (some (j, ws, _)) s1 =>
      match c.listTrap s1 j ws with
      | some s' => s'
      | none =>
        match c.pinAll ws s1 with
        | (.wait w, s2) => c.wait s2 w
        | (.fatal cause w, s2) => c.trap s2 cause (Lanes.one j) w
        | (.done, s2) =>
          c.result s2 false false (c.uniform (BitVec.ofNat 64 (ws.filter (s2.pinned (c.k / 72) c.ctx)).length)))

/-- IUNPIN (R155). -/
def execIunpin (x : Ops) (s : State) : Host.Outcome State Fault Refusal :=
  limov .iunpin x s (fun c s =>
    match c.windows s 1024 with
    | .stop s' => s'
    | .go none s1 => c.done s1
    | .go (some (j, ws, _)) s1 =>
      match c.listTrap s1 j ws with
      | some s' => s'
      | none =>
        let d := c.k / 72
        let n := (ws.filter (s1.pinned d c.ctx)).length
        let s2 := { s1 with tr := { s1.tr with
          pins := s1.tr.pins.filter (fun p => !(p.domain == d && p.win.ctx == c.ctx && ws.contains p.win.va)) } }
        c.result s2 false false (c.uniform (BitVec.ofNat 64 n)))

/-! ### ICINV (R156) -/

/-- Removes windows of a context in a scope, and refetches the pins that it covers: scope 0 core, 1 domain, 2 partition. -/
def Ctx.icinv (c : Ctx) (s : State) (scope : Nat) (covers : Nat → Bool) : State :=
  let d := c.k / 72
  let inDomain (e : Nat) : Bool := if scope = 2 then s.inPartition c.ctx e else e == d
  let inCore (k : Nat) : Bool := if scope = 0 then k == c.k else inDomain (k / 72)
  let s1 := s.dropWins inCore (fun w => w.ctx == c.ctx && covers w.va)
  s1.refetchPins (fun p => inDomain p.domain && p.win.ctx == c.ctx && covers p.win.va)

/-- ICINV (R156): its steps are made at issue. -/
def execIcinv (x : Ops) (s : State) : Host.Outcome State Fault Refusal :=
  limov .icinv x s (fun c s =>
    if c.act = 0 then c.done s
    else if x.mf 2 1 = 1 then c.done (c.icinv s (x.mf 0 2) (fun _ => true))
    else
      match c.windows s 1024 with
      | .stop s' => s'
      | .go none s1 => c.done s1
      | .go (some (j, ws, n)) s1 =>
        match c.listTrap s1 j ws with
        | some s' => s'
        | none => c.done (c.icinv s1 (x.mf 0 2) (fun w => decide (1024 < n) || ws.contains w)))

end Sys2Proof.Machine
end

