-- ==== Sys2Proof/Machine/System.lean ====
section
/-! DEFINITION. SPL (R184) and the system instructions (R422-R427): return from a handler, system registers, invalidation,
termination, and the stopping of groups. -/

namespace Sys2Proof.Machine

/-! ### SPL (R184) -/

/-- SPL: a poisoned operand leaves the request unchanged. -/
def execSpl (x : Ops) (s : State) : Host.Outcome State Fault Refusal :=
  limov .spl x s (fun c s =>
    match c.act.lowest with
    | none => c.done s
    | some j =>
      let v := c.opA .n32 j
      if v.pLo then c.done s
      else c.done (s.modGrp c.g (fun G => { G with req := min (lwLo v).toNat 2 })))

/-! ### RFE (R423) -/

/-- Valid splits of the group, apart from entry e, that are not held: the other splits of the handler level. -/
def Group.otherHandlers (G : Group) (e : Nat) : List Nat := G.valid.filter (fun x => x != e && !G.held.getLsbD x)

/-- A little-endian number of `n` bytes of a read at offset `o`. -/
def frameNat (bs : Array Byte) (o n : Nat) : Nat := leNat ((List.range n).map (fun i => bs.getD (o + i) 0))

/-- The state of frame slot m: the ticket of a PENDING slot whose claim delivers there (R416). -/
def Group.slotTicket (G : Group) (bs : Array Byte) (m : Nat) : Option Nat :=
  let w := frameNat bs (0x18C0 + 2 * m) 2
  let t := w % 256
  if w.testBit 8 && ((Map.find G.claims t).map (fun c => c.dests.contains (some (256 + m)))).getD false then some t else none

/-- Claims that deliver to frame slots deliver to v240-v255 again where the slot is PENDING, and to nothing otherwise. -/
def Group.unbindSlots (G : Group) (bs : Array Byte) : Group :=
  let back (d : Option Nat) : Option Nat :=
    match d with
    | some r => if 256 ≤ r then (if (G.slotTicket bs (r - 256)).isSome then some (r - 16) else none) else some r
    | none => none
  { G with
      slots := []
      claims := G.claims.map (fun p => (p.1, { p.2 with dests := p.2.dests.map back })) }

/-- The registers v240-v255 of the interrupted program come back from the frame (R423). -/
def Group.restoreSlots (G : Group) (bs : Array Byte) : Group :=
  let ms := List.range 16
  let G1 := G.unbindSlots bs
  let words : List (Nat × LW) := ms.flatMap (fun m => (List.range 96).map (fun j =>
    (96 * (240 + m) + j,
      { val := BitVec.ofNat 32 (frameNat bs (384 * m + 4 * j) 4)
        psn := (bs.getD (0x1800 + 12 * m + j / 8) 0).getLsbD (j % 8) })))
  { G1 with
      regs := Map.putAll (G1.regs.filter (fun p => decide (p.1 < 96 * 240))) {} words
      pend := ms.foldl (fun p m => match G.slotTicket bs m with
        | some t => Map.insert p (240 + m) t
        | none => p) (G1.pend.filter (fun p => decide (p.1 < 240))) }

/-- The latch history that a frame holds (R416). -/
def frameLatch (bs : Array Byte) : Map LW2 :=
  Map.putAll [] {} (([0, 1, 2, 3] : List Nat).flatMap (fun k => (List.range 96).map (fun j =>
    let p := frameNat bs (0x2500 + 24 * k) 24
    (96 * k + j,
      { val := BitVec.ofNat 64 (frameNat bs (0x1900 + 768 * k + 8 * j) 8), pLo := p.testBit (2 * j), pHi := p.testBit (2 * j + 1) }))))

/-- The group after RFE from level 1 in entry `e`, from the frame's bytes (R423). -/
def Group.leave1 (G : Group) (e : Nat) (bs : Array Byte) : Group :=
  let G1 := (List.range 16).foldl (fun (G : Group) m => G.orphan (240 + m)) G
  let G2 := if G.bank then { G1 with bank := false, hregs := [], hpend := [] } else G1
  let G3 := if G.regs8 = 32 then G2.restoreSlots bs else G2
  let old : Split := Split.ofNat {} (frameNat bs 0x2560 48)
  let word := frameNat bs 0x2590 4
  { G3.modSp e (fun sp =>
      { sp.setLanes (sp.memb &&& ~~~ G.dead) (G.tmask &&& sp.memb &&& ~~~ G.dead) with
          pc := G.tpc, rpc := old.rpc, chain := min old.chain 9, lval := min (word / 2 ^ 16 % 256) 4
          sig := BitVec.ofNat 16 word, latch := frameLatch bs, exempt := true }) with
      lvl := 0, held := 0, held1 := 0 }

/-- The group after RFE from level 2 in entry `e`, from the bytes of the level-2 area (R420, R423). -/
def Group.leave2 (G : Group) (e : Nat) (bs : Array Byte) : Group :=
  let n (o k : Nat) : Nat := frameNat bs o k
  let old : Split := Split.ofNat {} (n 0x40 48)
  let pc := G.tpc
  let G1 := G.modSp e (fun sp =>
    { sp.setLanes (old.memb &&& ~~~ G.dead) (old.mask &&& old.memb &&& ~~~ G.dead) with
        pc := pc, rpc := old.rpc, chain := min old.chain 9, lval := 0, latch := [], sig := BitVec.ofNat 16 (n 0x70 2), st := .ready })
  { G1 with
      lvl := 1, held := G.held1
      tpc := BitVec.ofNat 64 (n 0 8), tva := BitVec.ofNat 64 (n 8 8), tcause := BitVec.ofNat 32 (n 0x10 4)
      tinst := BitVec.ofNat 128 (n 0x14 16), tlanes := BitVec.ofNat 96 (n 0x24 12), tmask := BitVec.ofNat 96 (n 0x30 12) }

/-- Stores of the group to a range of addresses that have not been performed (R288). -/
def State.storesTo (s : State) (g ctx va n : Nat) : Bool :=
  s.ms.flights.any (fun p => p.2.g == g && p.2.ctx == ctx && !p.2.kind.reads &&
    p.2.lanes.any (fun l => !l.isDone && decide (l.va < va + n) && decide (va < l.va + p.2.size)))

/-- A latch chain that RFE restores binds the slice again (R176, R423). -/
def Ctx.rechain (c : Ctx) (s : State) : State :=
  match s.grp c.g with
  | some G =>
    if (G.sp c.e).chain = 0 then s
    else (s.modSlice (sliceKey c.k G.slice) (fun sl => { sl with chain := some (c.g, c.e) })).modGrp c.g
      (fun G => { G with rq := c.e :: G.rq.erase c.e })
  | none => s

/-- RFE (R423): it reads the frame at its homes; a fault holds the split, and a fatal condition or poison ends the team. -/
def execRfe (x : Ops) (s : State) : Host.Outcome State Fault Refusal :=
  limov .rfe x s (fun c s =>
    if c.act = 0 then c.done s
    else if !(c.G.otherHandlers c.e).isEmpty then c.trap s cSplitState c.act 0
    else
      let base := s.tframe c.G c.T
      let (ofs, n) : Nat × Nat :=
        if c.G.lvl = 2 then (0x25A0, 128) else if c.G.regs8 = 32 then (0, 0x2598) else (0x1900, 0x2598 - 0x1900)
      if s.storesTo c.g c.ctx (base + ofs) n then c.wait s (.release 1 c.G.seq none)
      else
        match xlateRange s c.k c.ctx (base + ofs) n .read false with
        | (.recov va level cls, s1) =>
          let (fe, s2) := attachFault s1 c.k c.ctx c.T.index va level cls .read (.split c.g c.e)
          c.wait s2 (.fault fe)
        | (.fatal _ cause, s1) => s1.terminate c.G.team cause
        | (.ok segs _ _, s1) =>
          let (rd, s2) := s1.readNow c.k segs
          if rd.any (fun b => b.2.2) then s2.terminate c.G.team cPoison
          else
            let bs := (List.replicate (if c.G.lvl = 2 then 0 else ofs) (0 : Byte) ++ rd.map (fun b => b.2.1)).toArray
            c.rechain ((c.requeue (c.issue s2)).modGrp c.g (fun G =>
              if c.G.lvl = 2 then G.leave2 c.e bs else G.leave1 c.e bs)))

/-! ### MFS and MTS (R412, R424) -/

/-- The value of a system register (R412). -/
def Ctx.sysReg (c : Ctx) (s : State) (n : Nat) : DWord :=
  let G := c.G
  let B := s.trapBlk c.ctx
  let w (v : Word) : DWord := v.zeroExtend 64
  match n with
  | 0 => w G.psw
  | 1 => B.tbase
  | 2 => BitVec.ofNat 64 (s.tframe G c.T)
  | 3 => G.tpc
  | 4 => w G.tcause
  | 9 => G.tva
  | 16 => BitVec.ofNat 64 (c.ctx % 2 ^ 16)
  | 17 => B.fqbase.zeroExtend 64
  | n =>
    if n < 9 then w (BitVec.ofNat 32 (G.tinst.toNat / 2 ^ (32 * (n - 5))))
    else if n < 13 then w (G.tlanes.word (n - 10))
    else w (G.tmask.word (n - 13))

/-- MFS (R424). -/
def execMfs (x : Ops) (s : State) : Host.Outcome State Fault Refusal :=
  limov .mfs x s (fun c s =>
    let n := x.mf 0 5
    let wide : Bool := ((sysRegInfo n).map (fun r => r.1 == 2)).getD false
    let v := c.sysReg s n
    c.result s wide false (c.ex.list.map (fun j => (j, mkVal wide v false, 0))))

/-- Replaces the word of a beat. -/
def Lanes.putWord (m : Lanes) (b : Nat) (w : Word) : Lanes :=
  (m &&& ~~~ ((BitVec.allOnes 32).zeroExtend 96 <<< (32 * b))) ||| (w.zeroExtend 96 <<< (32 * b))

/-- MTS (R424). -/
def execMts (x : Ops) (s : State) : Host.Outcome State Fault Refusal :=
  limov .mts x s (fun c s =>
    match c.act.lowest with
    | none => c.done s
    | some i =>
      let n := x.mf 0 5
      let v := c.opA (if n = 3 then .n64 else .n32) i
      if lwAny v then c.trap s cPoison (Lanes.one i) 0
      else c.done (s.modGrp c.g (fun G =>
        if n = 3 then { G with tpc := v.val &&& ~~~ (3 : DWord) }
        else { G with tmask := Lanes.putWord G.tmask (n - 13) (lwLo v) })))

/-! ### Invalidations (R143-R145, R426) -/

/-- The units of a leaf overlap an invalidation's range, which is empty with a count of 0 (R143). -/
def Inval.covers (v : Inval) (unit n : Nat) : Bool :=
  v.all || (decide (0 < v.count) && decide (unit < v.first + v.count) && decide (v.first < unit + n))

/-- The units of a leaf (R131). -/
def Leaf.units (l : Leaf) : Nat := 2 ^ (pageBits l.level - 16)

/-- A translation that a split has kept lies in an invalidation's range: a leaf with every unit of its page (R143, R145). -/
def Inval.coversKept (v : Inval) (x : Nat × Xl) : Bool :=
  match x.2 with
  | .leaf l => v.covers (vaUnit l.va) l.units
  | _ => v.covers x.1 1

/-- The domain of a translation structure. -/
def TlbAt.domainOf (a : TlbAt) : Nat :=
  match a with
  | .data k | .instr k | .core k => k / 72
  | .domain d => d

/-- No TLB, no walk cache and no split of the invalidation's domains holds a translation of its range (R145). -/
def State.purge (s : State) (v : Inval) : State :=
  { s with
      tr := { s.tr with
        tlb := s.tr.tlb.filter (fun e =>
          !(e.ctx == v.ctx && v.domains.getLsbD e.at_.domainOf && v.covers (vaUnit e.leaf.va) e.leaf.units))
        walkCache := s.tr.walkCache.filter (fun w =>
          !(w.ctx == v.ctx && v.domains.getLsbD w.domain &&
            v.covers (w.va / 2 ^ levelShift w.level * 2 ^ levelShift w.level / 65536) (2 ^ (levelShift w.level - 16)))) }
      exe := { s.exe with groups := s.exe.groups.map (fun p =>
        match s.tm p.2.team with
        | some T =>
          if s.ctxOf T = v.ctx ∧ v.domains.getLsbD T.domain then
            (p.1, { p.2 with splits := p.2.splits.map (fun (sp : Split) =>
              { sp with xlat := sp.xlat.filter (fun x => !v.coversKept x) }) })
          else p
        | none => p) } }

/-- A group runs in a context. -/
def State.ctxOfGrp (s : State) (g : Nat) : Option Nat := (s.grp g).bind (fun G => (s.tm G.team).map s.ctxOf)

/-- An invalidation begins: the answer is its number. Walks of its range that run give no result any more. -/
def State.startInval (s : State) (v : Inval) : Nat × State :=
  let id := s.tr.next
  let stores := s.exe.groups.flatMap (fun p =>
    if s.ctxOfGrp p.1 = some v.ctx then (Map.keys p.2.stores).map (fun q => (p.1, q)) else [])
  let v1 := { v with began := s.ms.next, stores := stores }
  (id, { s with tr := { s.tr with
      next := id + 1
      invals := Map.insert s.tr.invals id v1
      walks := s.tr.walks.map (fun (w : Nat × Walk) =>
        if w.2.ctx = v.ctx ∧ v.domains.getLsbD w.2.domain ∧ v.covers w.2.unit 1 then (w.1, { w.2 with stale := true }) else w) } }.purge v1)

/-- TLBINV (R426). -/
def execTlbinv (x : Ops) (s : State) : Host.Outcome State Fault Refusal :=
  limov .tlbinv x s (fun c s =>
    match c.act.lowest with
    | none => c.done s
    | some i =>
      let all : Bool := x.mf 0 1 == 1
      let a := c.opA .n64 i
      let n := c.opB .n32 i
      if c.sp.relDone then c.done s
      else if !all && (lwAny a || n.pLo) then c.trap s cPoison (Lanes.one i) 0
      else if !all && !canonical a.val.toNat then c.trap s cAccess (Lanes.one i) a.val.toNat
      else
        let (id, s1) := s.startInval
          { ctx := c.ctx, all := all, first := vaUnit a.val.toNat, count := (lwLo n).toNat, domains := s.domainsOf c.ctx
            icache := x.mf 1 1 == 1, seq := none, began := 0, stores := [] }
        c.wait s1 (.inval id))

/-! ### HALT (R425) -/

/-- HALT: the team ends with the cause in tcause. -/
def execHalt (x : Ops) (s : State) : Host.Outcome State Fault Refusal :=
  limov .halt x s (fun c s =>
    if c.act = 0 then c.done s
    else (c.requeue (c.issue s)).terminate c.G.team (c.G.tcause.toNat % 256))

/-! ### FREEZE and THAW (R427) -/

/-- The groups that FREEZE and THAW of a scope name: the others of the team, or the others of the context on the core. -/
def Ctx.frozenSet (c : Ctx) (s : State) : List Nat :=
  (s.exe.groups.filter (fun p =>
    p.1 != c.g && !p.2.retired &&
      (if c.x.mf 0 1 = 0 then p.2.team == c.G.team
       else match s.tm p.2.team with
         | some T => T.coreKey == c.k && s.ctxOf T == c.ctx && (T.st == .started || T.st == .stopping)
         | none => false))).map (fun p => p.1)

/-- A group is frozen: splits that wait in a FREEZE of its own abandon it. -/
def Group.freeze (G : Group) : Group :=
  let G1 := { G with frozen := true }
  (G1.valid.filter (fun e => match (G1.sp e).wait with | .freeze _ => true | _ => false)).foldl Group.wake G1

/-- FREEZE (R427): a group that is frozen itself abandons it, and executes it again after THAW. -/
def execFreeze (x : Ops) (s : State) : Host.Outcome State Fault Refusal :=
  limov .freeze x s (fun c s =>
    let gs := c.frozenSet s
    if c.act = 0 then c.done s
    else if c.G.frozen then (c.wait s (.freeze [])).wake c.g c.e
    else
      let s1 := gs.foldl (fun s g => s.modGrp g Group.freeze) s
      if gs.all (fun g => !s1.inChain g) then c.done s1 else c.wait s1 (.freeze gs))

/-- A thawed group delivers FREEZE_STOP to its lowest valid entry (R427). -/
def State.freezeStop (s : State) (g : Nat) : State :=
  match s.grp g with
  | none => s
  | some G =>
    match G.valid with
    | [] => s
    | e :: _ =>
      let sp := G.sp e
      if G.lvl ≠ 0 then s
      else s.deliver g e { cause := cFreezeStop, tpc := sp.pc, tva := 0, tlanes := sp.mask, tmask := sp.mask, tinst := 0 }

/-- THAW (R427). -/
def execThaw (x : Ops) (s : State) : Host.Outcome State Fault Refusal :=
  limov .thaw x s (fun c s =>
    if c.act = 0 then c.done s
    else
      let gs := (c.frozenSet s).filter (fun g => ((s.grp g).map (fun G => G.frozen)).getD false)
      let s1 := gs.foldl (fun s g => s.modGrp g (fun G => { G with frozen := false })) s
      c.done (if x.mf 1 1 = 1 then gs.foldl State.freezeStop s1 else s1))

end Sys2Proof.Machine
end

