-- ==== Sys2Proof/Machine/Place.lean ====
section
/-! DEFINITION. Placement (R49-R56, R73-R92): what a core has free, the choice of domain and core, the checks made at
placement, co-resident units, and the start of teams. -/

namespace Sys2Proof.Machine

/-! ### What a core holds and has free (R77, R83, R84) -/

/-- A team's reservation stands on its core. -/
def TeamSt.holds (t : TeamSt) : Bool :=
  match t with
  | .reserved | .started | .stopping | .terminated => true
  | _ => false

/-- The teams that hold resources of a core. -/
def State.teamsOn (s : State) (k : Nat) : List Team :=
  (s.exe.teams.filter (fun p => p.2.st.holds && p.2.coreKey == k)).map (fun p => p.2)

/-- What the groups of a core have been charged: slices and register units. -/
def State.chargesOn (s : State) (k : Nat) : List (Nat × Nat) := (s.teamsOn k).flatMap (fun T => T.plan)

/-- FSLOT of a slice. -/
def State.freeSlots (s : State) (k sl : Nat) : Nat := 8 - ((s.chargesOn k).filter (fun c => c.1 == sl)).length

/-- FREEREG of a slice. -/
def State.freeRegs (s : State) (k sl : Nat) : Nat :=
  85 - (((s.chargesOn k).filter (fun c => c.1 == sl)).map (fun c => c.2)).sum

/-- FREEBB of a core. -/
def State.freeBbars (s : State) (k : Nat) : Nat := 256 - ((s.teamsOn k).map s.bbarsOf).sum

/-- FREEACC of a core. -/
def State.freeAcc (s : State) (k : Nat) : Nat := 8 - ((s.teamsOn k).map s.accOf).sum

/-- The galley runs in use on a core, in units of 512 bytes: first unit and length. -/
def State.galRuns (s : State) (k : Nat) : List (Nat × Nat) := (s.teamsOn k).map (fun T => (T.galBase, s.galSizeOf T / 512))

/-- The lowest offset at which `n` contiguous galley units are free. -/
def galFit (used : List (Nat × Nat)) (n : Nat) : Option Nat :=
  let fits (o : Nat) : Bool := decide (o + n ≤ 4096) && used.all (fun r => decide (r.1 + r.2 ≤ o) || decide (o + n ≤ r.1))
  ((0 :: used.map (fun r => r.1 + r.2)).filter fits).foldl (fun (b : Option Nat) o =>
    match b with
    | some x => some (min x o)
    | none => some o) none

/-- A launch has RSV. -/
def State.rsvOf (s : State) (l : Nat) : Bool := ((s.launch l).map (fun L => L.forme.rsv)).getD false

/-- RSVD: a slice is held by a launch with RSV (R77). -/
def State.rsvd (s : State) (k sl : Nat) : Bool :=
  (s.teamsOn k).any (fun T => T.plan.any (fun c => c.1 == sl) && s.rsvOf T.launch)

/-- A slice may hold groups of a launch (R84). -/
def State.rsvOk (s : State) (k sl l : Nat) (rsv : Bool) : Bool :=
  (s.teamsOn k).all (fun T => T.launch == l || !T.plan.any (fun c => c.1 == sl) || !(rsv || s.rsvOf T.launch))

/-- assign_slices (R83): `free` gives the slots and register units that each slice has left. -/
def assignSlices (ok : Nat → Bool) : List Nat → List (Nat × Nat) → Option (List (Nat × Nat))
  | [], _ => some []
  | r :: rs, free =>
    let cand := (List.range 6).filter (fun sl =>
      let f := free.getD sl (0, 0)
      ok sl && decide (1 ≤ f.1 ∧ r ≤ f.2))
    match cand.foldl (fun (b : Option Nat) sl =>
        match b with
        | some x => if (free.getD x (0, 0)).2 < (free.getD sl (0, 0)).2 then some sl else some x
        | none => some sl) none with
    | none => none
    | some sl =>
      let f := free.getD sl (0, 0)
      (assignSlices ok rs (free.set sl (f.1 - 1, f.2 - r))).map (fun p => (sl, r) :: p)

/-- Register units of each group of a team, in sys.group order. -/
def Forme.unitsOf (f : Forme) : List Nat := f.roleOf.map (fun r => ((f.roles[r]?).map (fun x => x.regs8)).getD 1)

/-- The plan and the galley offset of a team of launch `l` on a core, where it fits (R83). -/
def State.fitCore (s : State) (k l : Nat) (f : Forme) : Option (List (Nat × Nat) × Nat) :=
  let plan := assignSlices (fun sl => s.rsvOk k sl l f.rsv) f.unitsOf
    ((List.range 6).map (fun sl => (s.freeSlots k sl, s.freeRegs k sl)))
  match plan, galFit (s.galRuns k) (f.galSize / 512) with
  | some p, some o => if f.bbars ≤ s.freeBbars k ∧ f.acc ≤ s.freeAcc k then some (p, o) else none
  | _, _ => none

/-- Free group slots of a core. -/
def State.slotsLeft (s : State) (k : Nat) : Nat := 48 - (s.chargesOn k).length

/-- PLACE of a domain (R76). -/
def State.placeBit (s : State) (d : Nat) : Bool :=
  let r := s.domReady d
  r.disp && r.walk && r.l2 && r.dram && !r.lost

/-- FREESLOT of a domain (R76). -/
def State.freeSlotsOf (s : State) (d : Nat) : Nat :=
  (((List.range 72).filter (fun c => (s.coreAt (coreKey d c)).state == 0)).map (fun c => s.slotsLeft (coreKey d c))).sum

/-- The core that a domain's dispatcher chooses for a team, with its plan (R83): `only` is the tile of a region. -/
def State.chooseCore (s : State) (d l : Nat) (f : Forme) (only : Option Nat) : Option (Nat × List (Nat × Nat) × Nat) :=
  let cores := ((List.range 72).map (fun c => coreKey d c)).filter (fun k =>
    (s.coreAt k).state == 0 && (match only with | some t => t == k | none => true))
  let order := sortBy (fun a b => decide (s.slotsLeft b ≤ s.slotsLeft a)) cores
  order.findSome? (fun k => (s.fitCore k l f).map (fun p => (k, p)))

/-! ### Regions, hints and routes (R27-R30) -/

/-- The core at a row and a column of the wafer's tiles (R79). -/
def tileKey (row col : Nat) : Nat := coreKey (8 * (row / 8) + col / 9) (9 * (row % 8) + col % 9)

/-- The row and column of a core. -/
def tileAt (k : Nat) : Nat × Nat := (8 * (k / 72 / 8) + k % 72 / 9, 9 * (k / 72 % 8) + k % 72 % 9)

/-- The tiles of a region row that are not soft-disabled. -/
def State.regionRow (s : State) (f : Forme) (y : Nat) : List Nat :=
  ((List.range f.regw).map (fun i => tileKey (f.orgy + y) (f.orgx + i))).filter (fun k => (s.coreAt k).state != 2)

/-- The tile of a team placed by region (R28). -/
def State.regionTile (s : State) (f : Forme) (t : Nat) : Option Nat := (s.regionRow f (t / f.gx))[t % f.gx]?

/-- The domain that the hint proposes for a team (R27); `table` is the hint table. -/
def Forme.hint (f : Forme) (table : List Nat) (t : Nat) : Option Nat :=
  match f.hmode with
  | 1 => some ((f.hbase + t / f.htpd) % 64)
  | 2 => (table[t]?).bind (fun b => if b = 0xFF then none else some b)
  | _ => none

/-- The tile that a hop leads to; none off the wafer. -/
def hopFrom (k hop : Nat) : Option Nat :=
  let (r, c) := tileAt k
  match hop with
  | 0 => if r = 0 then none else some (tileKey (r - 1) c)
  | 1 => if 71 ≤ c then none else some (tileKey r (c + 1))
  | 2 => if 63 ≤ r then none else some (tileKey (r + 1) c)
  | _ => if c = 0 then none else some (tileKey r (c - 1))

/-- The tiles that hops enter, in order. -/
def hopPath : List Nat → Nat → Option (List Nat)
  | [], _ => some []
  | h :: hs, k =>
    match hopFrom k h with
    | none => none
    | some k' => (hopPath hs k').map (fun p => k' :: p)

/-- BORDER bits of both sides of a crossing are set (R73). -/
def State.crossOk (s : State) (a b hop : Nat) : Bool :=
  a / 72 == b / 72 ||
    ((s.domReady (a / 72)).border.getLsbD hop && (s.domReady (b / 72)).border.getLsbD ((hop + 2) % 4))

/-- The path of a valid route of a launch (R30, R73, R81); none where a condition fails. -/
def State.routePath (s : State) (f : Forme) (r : Nat × Nat × List Nat) : Option (List Nat) :=
  if f.teams ≤ r.1 then none
  else
    match s.regionTile f r.1 with
    | none => none
    | some k0 =>
      match hopPath r.2.2 k0 with
      | none => none
      | some p =>
        let teams := (List.range f.teams).filterMap (s.regionTile f)
        let ok : Bool :=
          p.all (fun k => (s.coreAt k).state != 2 && s.inPartition f.ctx (k / 72)) && !p.contains k0 && (dedup p).length == p.length &&
          ((k0 :: p).zip (p.zip r.2.2)).all (fun q => s.crossOk q.1 q.2.1 q.2.2) &&
          (match p.getLast? with | some l => teams.contains l | none => false)
        if ok then some p else none

/-- The routes of a launch: team, number, path; none where the section cannot be read or a route is not valid (R30). -/
def State.readRoutes (s : State) (f : Forme) : Option (List (Nat × Nat × List Nat)) :=
  match s.routeSection f with
  | none => none
  | some rs =>
    let ps := rs.map (fun r => (s.routePath f r).map (fun p => (r.1, r.2.1, p)))
    if ps.any Option.isNone then none else some (ps.filterMap id)

/-! ### Checks at placement (R27, R28, R30, R81, R88, R130, R411) -/

/-- A co-resident forme (R28, R31, R87). -/
def Forme.coRes (f : Forme) : Bool := f.cor || f.region || f.inQuire

/-- A team's demand fits an empty core. -/
def Forme.fitsEmpty (f : Forme) : Bool :=
  (assignSlices (fun _ => true) f.unitsOf (List.replicate 6 (8, 85))).isSome && decide (f.galSize / 512 ≤ 4096 ∧ f.bbars ≤ 256 ∧ f.acc ≤ 8)

/-- The partition has a core that may hold a team: one of STATE 0, or of STATE 3, which is not ready yet; the spec does not say
which states count (DESIGN CHOICE, log entry 100). -/
def State.anyCore (s : State) (ctx : Nat) : Bool :=
  (List.range 64).any (fun d => s.inPartition ctx d && (List.range 72).any (fun c =>
    let st := (s.coreAt (coreKey d c)).state
    st == 0 || st == 3))

/-- The hint table, where it is used and can be read. -/
def State.readHints (s : State) (f : Forme) : Option (List Nat) :=
  if f.hmode = 2 then (plainRead s f.ctx f.htab f.teams).map (fun bs => bs.map (fun b => b.toNat)) else some []

/-- The region of a launch has no tile for some team: a row holds fewer than GX enabled tiles, or a tile lies outside the partition
(R28, R81). -/
def State.misplaced (s : State) (f : Forme) : Bool :=
  f.region && ((List.range f.regh).any (fun y => decide ((s.regionRow f y).length < f.gx)) ||
    (List.range f.teams).any (fun t => match s.regionTile f t with
      | some k => !s.inPartition f.ctx (k / 72)
      | none => true))

/-- The offset of the first check at placement that a forme fails; `bad` says that its unit fails the test of R88. -/
def State.placeFail (s : State) (f : Forme) (bad : Bool) : Option Nat :=
  let r : Root := Map.getD s.tr.roots f.ctx {}
  let b := s.trapBlk f.ctx
  let hints := s.readHints f
  let table := hints.getD []
  let outside : Bool := f.hhard && (List.range f.teams).any (fun t =>
    match f.hint table t with
    | some d => !s.inPartition f.ctx d
    | none => false)
  if !decide (s.partOfCtx f.ctx < 16) || !r.en || b.tbase == 0 || b.fbase == 0 || !b.fqen ||
      decide (b.fqlog2n.toNat < 4 ∨ 16 < b.fqlog2n.toNat) then some 0x008
  else if bad then some 0x010
  else if f.hmode = 1 ∧ outside then some 0x028
  else if f.hmode = 2 ∧ (hints.isNone ∨ table.any (fun b => decide (64 ≤ b ∧ b ≤ 254)) ∨ outside) then some 0x030
  else if f.nroute ≠ 0 ∧ (s.readRoutes f).isNone then some 0x038
  else if s.misplaced f then some 0x040
  else if !f.fitsEmpty || !s.anyCore f.ctx then some 0x080
  else none

/-! ### Units and order (R49-R56, R87) -/

/-- The launches of the unit of a head: the head and its bodies. -/
def State.unit (s : State) (head : Nat) : List Nat := head :: (((s.launch head).map (fun L => L.bodies)).getD [])

/-- A launch has a team that the wafer dispatcher has still to send. -/
def Launch.unplaced (L : Launch) : Bool := decide (L.sent.length < L.forme.teams)

/-- The launch of a slot of a queue. -/
def State.launchAt (s : State) (q : Nat) (slot : BitVec 32) : Option Launch :=
  (s.wk.launches.find? (fun p => p.2.queue == q && p.2.slot == slot && p.2.sub == 0)).map (fun p => p.2)

/-- A launch and every launch of its unit have retired, and the records have been written or lost. -/
def State.unitRetired (s : State) (L : Launch) : Bool :=
  (s.unit L.head).all (fun l => ((s.launch l).map (fun M => M.retired && M.recorded)).getD true)

/-- A launch has a team that holds no reservation and has held none: one to be sent, or one on its way, which may be refused
(R51, R83). -/
def State.unplacedIn (s : State) (l : Nat) : Bool :=
  ((s.launch l).map Launch.unplaced).getD false || s.exe.teams.any (fun p => p.2.launch == l && p.2.st == .inFlight)

/-- The order of its queue lets a head launch place teams (R49-R51). A TAILOVL launch behind one that retired with no team placed
may place at once, whatever stands before that one: the spec does not say (DESIGN CHOICE, log entry 100). -/
def State.orderOk (s : State) (L : Launch) : Bool :=
  let Q := s.queue L.queue
  let n := (L.slot - Q.head).toNat
  let before (i : Nat) : Option Launch := s.launchAt L.queue (Q.head + BitVec.ofNat 32 i)
  if L.forme.tailovl then
    (List.range n).all (fun i => (before i).isSome) &&
      (n == 0 || (match before (n - 1) with
        | some M => s.unitRetired M || (s.unit M.head).all (fun l => !s.unplacedIn l)
        | none => false))
  else (List.range n).all (fun i => match before i with | some M => s.unitRetired M | none => false)

/-- Teams of a head's unit may be placed now. -/
def State.placeable (s : State) (L : Launch) : Bool :=
  (s.unit L.head).all (fun l => match s.launch l with
    | some M => !M.retired && !M.cancelled && M.invalid.isNone && M.qfail.isNone
    | none => false) && s.orderOk L

/-- The heads of the queues of a priority that may be placed, in round-robin order of queues after the one last served,
the oldest first within a queue (R82). -/
def State.headsOf (s : State) (p : Nat) : List (Nat × Launch) :=
  let last := Map.getD s.wk.rr p 255
  let key (x : Nat × Launch) : Nat := (x.2.queue + 255 - last) % 256 * 2 ^ 32 + (x.2.slot - (s.queue x.2.queue).head).toNat
  sortBy (fun a b => decide (key a ≤ key b))
    (s.wk.launches.filter (fun x => x.2.sub == 0 && x.2.prio == p && s.placeable x.2))

/-! ### Choosing a domain (R82) -/

/-- The logical neighbours of a domain: north, east, south, west. -/
def neighbours (d : Nat) : List Nat :=
  (if d < 8 then [] else [d - 8]) ++ (if d % 8 = 7 then [] else [d + 1]) ++ (if 56 ≤ d then [] else [d + 8]) ++
    (if d % 8 = 0 then [] else [d - 1])

/-- The partition's domains with PLACE, by FREESLOT descending and then by number. -/
def State.openDomains (s : State) (ctx : Nat) : List Nat :=
  sortBy (fun a b => decide (s.freeSlotsOf b ≤ s.freeSlotsOf a))
    ((List.range 64).filter (fun d => s.inPartition ctx d && s.placeBit d))

/-- candidates(L, t): `soft` says that soft hints count; `early` that the team has waited less than 2,000 ns. -/
def State.candidates (s : State) (L : Launch) (t : Nat) (soft early : Bool) : List Nat :=
  let f := L.forme
  if f.region then ((s.regionTile f t).map (fun k => k / 72)).toList.filter (s.inPartition f.ctx)
  else
    match (f.hint L.hints t).filter (fun d => s.inPartition f.ctx d && (soft || f.hhard)) with
    | none => s.openDomains f.ctx
    | some h => if f.hhard || early then [h] else h :: (neighbours h).filter (s.inPartition f.ctx)

/-- The tile that a team of a region must take. -/
def State.onlyTile (s : State) (f : Forme) (t : Nat) : Option Nat := if f.region then s.regionTile f t else none

/-- fits(dom, L, t). -/
def State.fits (s : State) (d l : Nat) (f : Forme) (t : Nat) : Bool :=
  s.placeBit d && (s.chooseCore d l f (s.onlyTile f t)).isSome

/-- A team with a reservation on a core. -/
def mkTeam (l t k : Nat) (plan : List (Nat × Nat)) (gal : Nat) (st : TeamSt) : Team :=
  { launch := l, index := t, domain := k / 72, core := k % 72, st := st, galBase := gal, plan := plan }

/-- The test of R88: every team of the unit is placed with every core empty, on the domains that its tiles and hard hints name, which
may still have to become ready (R73), or on those that R82 gives. -/
def State.unitFits (s : State) (head : Nat) : Bool :=
  let s0 := { s with exe := { s.exe with teams := [], groups := [] } }
  ((s.unit head).foldl (fun (r : Option State) l =>
    match r, s.launch l with
    | some s1, some L =>
      (List.range L.forme.teams).foldl (fun (r : Option State) t =>
        match r with
        | none => none
        | some s2 =>
          match (s2.candidates L t false true).findSome? (fun d =>
              if (s2.domReady d).lost then none else s2.chooseCore d l L.forme (s2.onlyTile L.forme t)) with
          | none => none
          | some (k, plan, gal) =>
            some { s2 with exe := { s2.exe with
              teams := Map.insert s2.exe.teams s2.exe.nextTeam (mkTeam l t k plan gal .reserved), nextTeam := s2.exe.nextTeam + 1 } })
        (some s1)
    | _, _ => none) (some s0)).isSome

/-- Launches of a unit fail at placement, each with an offset of its own and the first of them the cause: no team of the unit is
placed, and its reservations are released (R35, R39, R88). -/
def State.failUnit (s : State) (head : Nat) (fails : List (Nat × Nat)) : State :=
  let us := s.unit head
  let quire : Bool := ((s.launch head).map (fun L => L.forme.quire)).getD false
  let sub := ((fails.head?.bind (fun p => s.launch p.1)).map (fun L => L.sub)).getD 0
  let s1 := fails.foldl (fun s p => s.modLaunch p.1 (fun L => { L with invalid := some (0x200 * L.sub + p.2) })) s
  let s2 := if quire then us.foldl (fun s m => s.modLaunch m (fun L => { L with qfail := some sub })) s1 else s1
  { s2 with
      wk := { s2.wk with gathering := if s2.wk.gathering = some head then none else s2.wk.gathering }
      exe := { s2.exe with teams := s2.exe.teams.filter (fun p => !us.contains p.2.launch) } }

/-- Teams of a launch that are not placed, nor on their way, and whose hard hint names a domain. -/
def Launch.hinted (L : Launch) (d : Nat) : List Nat :=
  if L.forme.hhard then
    (List.range L.forme.teams).filter (fun t => !Map.has L.sent t && L.forme.hint L.hints t == some d)
  else []

/-- Unplaced teams of a launch whose hard hint names a fenced domain are lost: they are counted, and wait no more (R443). -/
def State.loseHinted (s : State) (l d : Nat) : State :=
  match s.launch l with
  | none => s
  | some L =>
    let ts := if L.retired then [] else L.hinted d
    if ts.isEmpty then s
    else (s.modLaunch l (fun L =>
      { L with sent := ts.foldl (fun (m : Map Bool) t => Map.insert m t true) L.sent, nlost := L.nlost + ts.length })).failQuire l

/-- The checks at placement of a unit, made once; the answer is whether it may be placed. R88's test needs a tile for every team of
its regions: where one has none, that failure stands (R28, R81). -/
def State.checkUnit (s : State) (head : Nat) : Bool × State :=
  match s.launch head with
  | none => (false, s)
  | some H =>
    if H.checked then (true, s)
    else
      let us := s.unit head
      let s1 := us.foldl (fun s l => s.modLaunch l (fun L => { L with hints := (s.readHints L.forme).getD [] })) s
      let tiled := us.all (fun l => ((s.launch l).map (fun L => !s.misplaced L.forme)).getD true)
      let bad := H.forme.coRes && tiled && !s1.unitFits head
      match us.filterMap (fun l => (s1.launch l).bind (fun L => (s1.placeFail L.forme (bad && l == head)).map (fun o => (l, o)))) with
      | f :: fs => (false, s1.failUnit head (f :: fs))
      | [] =>
        let s2 := us.foldl (fun s l => s.modLaunch l (fun L =>
          { L with checked := true, routeTab := if L.forme.nroute = 0 then [] else (s.readRoutes L.forme).getD [] })) s1
        let lost := (List.range 64).filter (fun d => s.fencedD d)
        (true, us.foldl (fun s l => lost.foldl (fun s d => s.loseHinted l d) s) s2)

/-! ### One placement cycle (R82) -/

/-- Considers one unplaced team: the state and the domains sent to in this cycle. -/
def placeTeam (l : Nat) (r : State × List Nat) (t : Nat) : State × List Nat :=
  let (s, sent) := r
  match s.launch l with
  | none => r
  | some L =>
    if Map.has L.sent t then r
    else
      let seen := Map.getD L.seen t s.clk.cycle
      let s1 := s.modLaunch l (fun L => { L with seen := Map.insert L.seen t seen })
      let early := decide ((s.clk.cycle - seen) * 2 < 2000 * 3)
      match (s1.candidates L t true early).find? (fun d => !sent.contains d && s1.fits d l L.forme t) with
      | none => (s1, sent)
      | some d =>
        let T : Team := { launch := l, index := t, domain := d, core := 0, st := .inFlight, galBase := 0 }
        let s2 := s1.modLaunch l (fun L => { L with sent := Map.insert L.sent t true })
        ({ s2 with
            exe := { s2.exe with teams := Map.insert s2.exe.teams s2.exe.nextTeam T, nextTeam := s2.exe.nextTeam + 1 }
            wk := { s2.wk with rr := Map.insert s2.wk.rr L.prio L.queue } }, sent ++ [d])

/-- Considers the teams of a unit: a co-resident one gathers, unless another does (R87). -/
def placeUnit (r : State × List Nat) (head : Nat) : State × List Nat :=
  let (s, sent) := r
  match s.launch head with
  | none => r
  | some H =>
    let co := H.forme.coRes
    if co && s.wk.gathering.isSome && s.wk.gathering != some head then r
    else
      match s.checkUnit head with
      | (false, s1) => (s1, sent)
      | (true, s1) =>
        let s2 := if co && (s1.unit head).any (fun l => ((s1.launch l).map Launch.unplaced).getD false) then
            { s1 with wk := { s1.wk with gathering := some head } }
          else s1
        (s2.unit head).foldl (fun r l =>
          (List.range (((r.1.launch l).map (fun L => L.forme.teams)).getD 0)).foldl (placeTeam l) r) (s2, sent)

/-- PLACEMENT_CYCLE (R82). -/
def execPlacementCycle (s : State) : Host.Outcome State Fault Refusal :=
  .next ((([3, 2, 1, 0] : List Nat).foldl (fun r p => (r.1.headsOf p).foldl (fun r h => placeUnit r h.1) r) (s, [])).1).finish

/-! ### Arrival (R83) -/

/-- A team returns to the wafer dispatcher unplaced. -/
def State.unplace (s : State) (t : Nat) : State :=
  match s.tm t with
  | none => s
  | some T =>
    { s.modLaunch T.launch (fun L => { L with sent := Map.erase L.sent T.index }) with
        exe := { s.exe with teams := Map.erase s.exe.teams t } }

/-- A team that arrives may still be placed in its domain: the domain is of its partition and ready, and the order of its queue
holds (R51, R73, R81). -/
def State.mayArrive (s : State) (T : Team) (L : Launch) : Bool :=
  s.inPartition L.forme.ctx T.domain && s.placeBit T.domain && ((s.launch L.head).map s.orderOk).getD false

/-- TEAM_ARRIVAL (R83): teams reach one dispatcher in the order in which they were sent. -/
def execTeamArrival (team : Nat) (s : State) : Host.Outcome State Fault Refusal :=
  .next (match s.tm team with
    | none => s.finish
    | some T =>
      let early := s.exe.teams.any (fun p => decide (p.1 < team) && p.2.st == .inFlight && p.2.domain == T.domain)
      if T.st != .inFlight || early then s.finish
      else
        match s.launch T.launch with
        | none => s.finish
        | some L =>
          match (if s.mayArrive T L then s.chooseCore T.domain T.launch L.forme (s.onlyTile L.forme T.index) else none) with
          | none => (s.unplace team).finish
          | some (k, plan, gal) =>
            (s.setTm team { T with core := k % 72, st := .reserved, plan := plan, galBase := gal }).finish)

/-! ### Start (R87, R91, R92) -/

/-- The lowest group slot of a slice that no group of an unfinished team has. -/
def State.freeSlotNo (s : State) (k sl : Nat) : Nat :=
  let used := s.exe.groups.filterMap (fun p =>
    match s.tm p.2.team with
    | some T => if T.st.holds && T.coreKey == k && p.2.slice == sl then some p.2.slot else none
    | none => none)
  ((List.range 8).find? (fun i => !used.contains i)).getD 0

/-- A slice holds a group. -/
def State.sliceHolds (s : State) (k sl : Nat) : Bool :=
  s.exe.groups.any (fun p => p.2.slice == sl && (match s.tm p.2.team with | some T => T.st.holds && T.coreKey == k | none => false))

/-- A slice begins to hold a group in a slot: where it held none its allowance is CAP (R179), and the spares that were taken are in
their places (R450). -/
def State.sliceGains (s : State) (k sl slot : Nat) : State :=
  let cap : Nat := (Map.getD s.ct.power (k / 72) ({} : Power)).cap
  s.modSlice (sliceKey k sl) (fun S =>
    { S with
        c := if s.sliceHolds k sl then S.c else (cap : Int), starve := Map.erase S.starve slot
        swapped := if s.sliceHolds k sl then S.swapped else [] })

/-- Starts one group of a team (R91). -/
def State.addGroup (s : State) (t : Nat) (f : Forme) (k i role sl : Nat) : State :=
  let slot := s.freeSlotNo k sl
  let g := s.exe.nextGroup
  let s1 := s.sliceGains k sl slot
  { s1 with exe := { s1.exe with
      groups := Map.insert s1.exe.groups g (startGroup f t i role sl slot s.clk.cycle), nextGroup := g + 1 } }.modTm t
    (fun T => { T with groups := T.groups ++ [g] })

/-- The routes of one team of a launch. -/
def Launch.routesOf (L : Launch) (t : Nat) : Map (List Nat) :=
  L.routeTab.foldl (fun (m : Map (List Nat)) r => if r.1 = t then Map.insert m r.2.1 r.2.2 else m) []

/-- Starts a reserved team: its groups hold the state of R91 and may issue (R92). -/
def State.startTeam (s : State) (t : Nat) : State :=
  match s.tm t with
  | none => s
  | some T =>
    match s.launch T.launch with
    | none => s
    | some L =>
      let s1 := { s.setTm t { T with st := .started, startSeq := s.exe.startSeq, routes := L.routesOf T.index } with
        exe := { (s.setTm t { T with st := .started, startSeq := s.exe.startSeq, routes := L.routesOf T.index }).exe with
          startSeq := s.exe.startSeq + 1 } }
      let gs := (List.range T.plan.length).zip (L.forme.roleOf.zip T.plan)
      gs.foldl (fun s g => s.addGroup t L.forme T.coreKey g.1 g.2.1 g.2.2.1) s1

/-- TEAM_START (R92): a team outside co-resident units. -/
def execTeamStart (team : Nat) (s : State) : Host.Outcome State Fault Refusal :=
  .next (match s.tm team with
    | none => s.finish
    | some T =>
      match s.formeOf T with
      | none => s.finish
      | some f => if T.st == .reserved && T.frame.isNone && !f.coRes then (s.startTeam team).finish else s.finish)

/-- UNIT_START (R87): every team of the gathering unit is reserved, and all start at once. -/
def execUnitStart (s : State) : Host.Outcome State Fault Refusal :=
  .next (match s.wk.gathering with
    | none => s.finish
    | some head =>
      let us := s.unit head
      let all := us.all (fun l => match s.launch l with
        | some L => decide ((s.exe.teams.filter (fun p => p.2.launch == l && p.2.st == .reserved)).length = L.forme.teams)
        | none => false)
      if all then
        let ts := (s.exe.teams.filter (fun p => us.contains p.2.launch)).map (fun p => p.1)
        (ts.foldl State.startTeam { s with wk := { s.wk with gathering := none } }).finish
      else s.finish)

/-! ### STATE of a core (R78, R85, R88) -/

/-- A gathering unit that no longer passes the test of R88 fails. -/
def State.retest (s : State) : State :=
  match s.wk.gathering with
  | none => s
  | some head => if s.unitFits head then s else s.failUnit head [(head, 0x010)]

/-- A core's STATE leaves 0: reservations of teams that have not started are released. -/
def State.leaveState0 (s : State) (k : Nat) : State :=
  let ts := (s.exe.teams.filter (fun p => p.2.st == .reserved && p.2.frame.isNone && p.2.coreKey == k)).map (fun p => p.1)
  (ts.foldl State.unplace s).retest

/-- A core is soft-disabled or excluded: its ready bit falls, and the readiness signal is raised (R72, R78). An excluded
core stays so until reset. -/
def State.disableCore (s : State) (k st : Nat) : State :=
  let c := s.coreAt k
  if c.state = 1 then s else
  let s1 := s.modCore k (fun c => { c with state := st, ready := false })
  let s2 := if c.ready then raiseSignal s1 6 else s1
  if c.state = 0 then s2.leaveState0 k else s2

/-- CORE_STATE_CHANGE (R78): firmware writes 1 or 2; 0 and 3 follow the ready bit, and STATE 1 stands until reset. -/
def execCoreStateChange (d c : Nat) (st : BitVec 2) (s : State) : Host.Outcome State Fault Refusal :=
  let k := coreKey d c
  let cur := s.coreAt k
  .next (if cur.state = 1 then s.finish
    else if st = 1 ∨ st = 2 then (s.disableCore k st.toNat).finish
    else if cur.state = 2 then s.finish
    else (s.modCore k (fun c => { c with state := if c.ready then 0 else 3 })).finish)

end Sys2Proof.Machine
end

