-- ==== Sys2Proof/Machine/Poison.lean ====
section
/-! DEFINITION. PTEST, PCLR, LANEKILL and SELFTEST (R454-R458), lane death (R447, R448) and the tests of firmware with what
they act on (R450). -/

namespace Sys2Proof.Machine

/-- PTEST (R455). -/
def execPtest (x : Ops) (s : State) : Host.Outcome State Fault Refusal :=
  limov .ptest x s (fun c s =>
    if c.act = 0 then c.done s
    else c.lanewise s false (fun j => ({ val := if lwPsn (c.opA x.t j) x.t then 0xFFFFFFFF else 0 }, 0)))

/-- The words of a, or those of b where a's are poisoned (R456). -/
def pclrVal (a b : LW2) (wide : Bool) : LW2 :=
  let lo : LW := if a.pLo then { val := lwLo b, psn := b.pLo } else { val := lwLo a }
  let hi : LW :=
    if a.pHi then { val := (b.val >>> 32).truncate 32, psn := b.pHi } else { val := (a.val >>> 32).truncate 32 }
  if wide then pairUp lo hi else single lo

/-- PCLR (R456). -/
def execPclr (x : Ops) (s : State) : Host.Outcome State Fault Refusal :=
  limov .pclr x s (fun c s =>
    if c.act = 0 then c.done s
    else c.lanewise s x.t.wide (fun j => (pclrVal (c.opA x.t j) (c.opB x.t j) x.t.wide, 0)))

/-! ### Lane death (R447, R448, R457) -/

/-- The lanes that LANEKILL's mask names at the executing level: primaries with their shadows in duplex mode. -/
def Ctx.killSet (c : Ctx) (m : Lanes) : Lanes :=
  let memb := if c.user then c.sp.memb else c.G.valid.foldl (fun a e => a ||| (c.G.sp e).memb) (0 : Lanes)
  let x := m &&& memb
  if c.G.duplex then shadows x else x

/-- LANEKILL (R457): at handler level the splits that are not held keep their members until RFE. -/
def execLanekill (x : Ops) (s : State) : Host.Outcome State Fault Refusal :=
  limov .lanekill x s (fun c s =>
    match c.act.lowest with
    | none => c.done s
    | some i =>
      let w (k : Nat) : LW := c.word (aReg x + k) i
      if (w 0).psn || (w 1).psn || (w 2).psn then c.trap s cPoison (Lanes.one i) 0
      else
        let keep := if c.user then [] else (List.range c.G.splits.length).filter (fun e => !c.G.held.getLsbD e)
        let s1 := (c.done s).killLanes c.g (c.killSet (Lanes.ofWords (w 0).val (w 1).val (w 2).val)) keep
        if ((s1.grp c.g).map (fun G => (G.sp c.e).v)).getD true then s1 else s1.endChain c.g c.e)

/-- A split traps at its next instruction boundary: one that is held within an instruction once that has ended, any other when it is next
chosen (R448). -/
def Group.trapNext (G : Group) (e : Nat) (t : TrapRec) : Group :=
  let sp := G.sp e
  if sp.st == .waiting || sp.st == .heldEntry || sp.midway then G.modSp e (fun sp => { sp with doomed := sp.doomed ||| t.tlanes })
  else { G.modSp e (fun sp => { sp with st := .ready, wait := .bank t }) with rq := G.rq.erase e ++ [e] }

/-- LANE_DEATH (R447, R448): a lane meets an uncorrectable error. In duplex mode the split that held the pair traps. -/
def execLaneDeath (g lane : Nat) (s : State) : Host.Outcome State Fault Refusal :=
  .next (match s.grp g with
    | none => s.finish
    | some G =>
      if 96 ≤ lane ∨ G.dead.has lane ∨ G.retired then s.finish
      else
        let j := G.primary lane
        let holder := G.valid.find? (fun e => (G.sp e).memb.has j)
        let s1 := s.killLanes g (Lanes.one lane) []
        match holder with
        | some e =>
          if G.duplex then
            (s1.modGrp g (fun G1 =>
              let sp := G1.sp e
              if sp.v then
                G1.trapNext e { cause := cLaneDeath, tpc := sp.pc, tva := 0, tlanes := shadows (Lanes.one j), tmask := sp.mask, tinst := 0 }
              else G1)).finish
          else (if ((s1.grp g).map (fun G1 => (G1.sp e).v)).getD false then s1 else s1.endChain g e).finish
        | none => s1.finish)

/-! ### SELFTEST (R450, R458) -/

/-- Lasting faults in lanes of a slice take its spares in increasing lane number, one for each of the 32 physical lanes: lanes j,
j + 32 and j + 64 are one. The answer is the lanes whose physical lane has a spare (R450). -/
def State.takeSpares (s : State) (slk : Nat) (lanes : List Nat) : List Nat × State :=
  let S := s.sliceAt slk
  let new := (dedup (lanes.map (fun j => j % 32))).filter (fun p => !S.swapped.contains p)
  let got := S.swapped ++ new.take S.spares
  (lanes.filter (fun j => got.contains (j % 32)),
    s.modSlice slk (fun S => { S with spares := S.spares - new.length, swapped := got }))

/-- SELFTEST (R458): the split is held until its test ends, and then writes the result. -/
def execSelftest (x : Ops) (s : State) : Host.Outcome State Fault Refusal :=
  limov .selftest x s (fun c s =>
    match c.act.lowest with
    | none => c.done s
    | some i =>
      let p := c.opA .n32 i
      let u := x.mf 0 3
      match c.sp.msg with
      | some m => c.result s false false (c.ex.list.map (fun j => (j, single (Map.getD m.words j {}), 0)))
      | none =>
        if p.pLo then c.trap s cPoison (Lanes.one i) 0
        else if u = 2 ∧ 63 < (lwLo p).toNat then c.trap s cIllegal c.act 0
        else c.wait s (.selftest u (x.d) c.ex))

/-- The result word of a test (R458). -/
def testWord (found lasting spare off : Bool) : Word :=
  (if found then 1 else 0) + (if found && lasting then 2 else 0) + (if spare then 4 else 0) + (if off then 8 else 0)

/-- SELFTEST_COMPLETE (R458): what the test found, lane by lane for units 0 and 1 and in bit 0 for the others. -/
def execSelftestComplete (g e : Nat) (found lasting : Lanes) (s : State) : Host.Outcome State Fault Refusal :=
  .next (match s.grp g with
    | none => s.finish
    | some G =>
      match s.tm G.team, (G.sp e).wait with
      | some T, .selftest u _ act =>
        if !(G.sp e).v || (G.sp e).st != .waiting then s.finish
        else
          let byLane : Bool := decide (u ≤ 1)
          let bad := (act &&& found &&& lasting).list
          let (sp, s1) := if byLane then s.takeSpares (sliceKey T.coreKey G.slice) bad else ([], s)
          let off : Bool := if byLane then decide (sp.length < bad.length) else found.has 0 && lasting.has 0
          let s2 := if off then s1.disableCore T.coreKey 2 else s1
          let words := act.list.map (fun j =>
            (j, ({ val :=
              if byLane then testWord (found.has j) (lasting.has j) (sp.contains j) (bad.contains j && !sp.contains j)
              else testWord (found.has 0) (lasting.has 0) false off } : LW)))
          (s2.modGrp g (fun G => (G.modSp e (fun sp =>
            { sp with relDone := true, msg := some { n := 1, words := words } })).wake e)).finish
      | _, _ => s.finish)

end Sys2Proof.Machine
end

