-- ==== Sys2Proof/Machine/Walks.lean ====
section
/-! DEFINITION. Walks, fault service, classification and invalidation (R129-R146, R428, R429, R483), and the driver's writes to
the root entries, the fault queues, the partition masks and the context table (R80, R130, R411). -/

namespace Sys2Proof.Machine

/-! ### Walks (R138-R140, R145) -/

/-- The entries of a group that wait for a walk. -/
def Group.waitsFor (G : Group) (id : Nat) : List Nat :=
  G.valid.filter (fun e => match (G.sp e).wait with | .walks ids => ids.contains id | _ => false)

/-- A split learns what a walk it waits for has come to; it wakes when its last walk has. -/
def Group.walkDone (G : Group) (id unit : Nat) (x : Xl) (e : Nat) : Group :=
  match (G.sp e).wait with
  | .walks ids =>
    let left := ids.filter (fun i => i != id)
    let G1 := G.modSp e (fun sp => { sp with xlat := sp.xlat ++ [(unit, x)], wait := .walks left })
    if left.isEmpty then G1.wake e else G1
  | _ => G

/-- The outcome of a walk of domain `d`: it caches what it finds for its domain and for the cores that asked (R137). -/
def State.endWalk (s : State) (id : Nat) (w : Walk) : State :=
  let va := w.unit * 65536
  let (x, cas, ts) := walkRun s w.domain w.ctx va
  let s1 := match cas with
    | some (pa, e) => s.putBs pa (leBytes 8 e)
    | none => s
  let s2 := walkFill s1 w.domain w.ctx va ts
  let askers := dedup (s2.exe.groups.filterMap (fun p =>
    if (p.2.waitsFor id).isEmpty then none else (s2.tm p.2.team).map Team.coreKey))
  let s3 := match x with
    | .leaf l => tlbAdd (askers.foldl (fun s k => tlbAdd s (.core k) w.ctx l 2048) s2) (.domain w.domain) w.ctx l 32768
    | _ => s2
  { s3 with
      tr := { s3.tr with walks := Map.erase s3.tr.walks id }
      exe := { s3.exe with groups := s3.exe.groups.map (fun p =>
        (p.1, (p.2.waitsFor id).foldl (fun G e => G.walkDone id w.unit x e) p.2)) } }

/-- WALK_COMPLETE (R140): one of the 512 oldest walks of its domain ends; a walk that began before an invalidation of its
range walks again (R145). -/
def execWalkComplete (walk : Nat) (s : State) : Host.Outcome State Fault Refusal :=
  .next (match Map.find s.tr.walks walk with
    | none => s.finish
    | some w =>
      if !((walksOf s w.domain).take 512).any (fun p => p.1 == walk) then s.finish
      else if w.stale then
        { s with tr := { s.tr with walks := Map.insert s.tr.walks walk { w with stale := false } } }.finish
      else (s.endWalk walk w).finish)

/-! ### Requests after service (R141, R142) -/

/-- Changes one lane of a request. -/
def State.modLane (s : State) (fid lane : Nat) (f : LaneAcc → LaneAcc) : State :=
  s.modFlight fid (fun F => { F with lanes := F.lanes.map (fun l => if l.lane = lane then f l else l) })

/-- The operation of a batch that a request makes has been performed, once no lane of it is left. -/
def State.batchIfDone (s : State) (fid : Nat) : State :=
  match Map.find s.ms.flights fid with
  | some f =>
    if f.allDone then
      match f.batch with
      | some (c, b) => s.batchesDone [(f.g, c, b)]
      | none => s
    else s
  | none => s

/-- One owed line of a store is known at once. -/
def State.payNow (s : State) (f : Flight) (t : Nat) : State := s.paid [{ g := f.g, seq := f.owes, dom := true }] t

/-- A lane of a request completes as R142 gives: loads poisoned with free values, stores lost, atomics both. -/
def State.failLane (s : State) (fid lane : Nat) : State :=
  match Map.find s.ms.flights fid with
  | none => s
  | some f =>
    let (w, s1) := s.draws 32
    let poison (l : LaneAcc) : LaneAcc :=
      { l with
          fault := none, left := [], gotPsn := 2 ^ 32 - 1
          got := ofElems 32 ((List.range 32).map (fun i => (w i).toNat)) }
    match f.kind with
    | .load => s1.modLane fid lane poison
    | .stashFill => s1.modLane fid lane (fun l => { l with fault := none, left := [], psn := true })
    | .atom => ((s1.modLane fid lane poison).loseFor f).payNow f 0
    | .store | .red =>
      ((((s1.modLane fid lane (fun l => { l with fault := none, left := [] })).loseFor f).payNow f 0).batchIfDone fid).sweepFlight fid

/-- The access that a request needs (R139). -/
def FKind.acc (k : FKind) : Acc :=
  match k with
  | .load | .stashFill => .read
  | .atom => .atom
  | .store | .red => .write

/-- What a retried lane's translation comes to: an access, a new fault, or a fatal condition. -/
inductive Retry where
  | ok (l : LaneAcc)
  | recov (va level : Nat) (cls : Bool)
  | fatal
deriving DecidableEq, Repr

/-- Translates a lane afresh and makes the checks that would have trapped it at issue (R142). -/
def State.retryXl (s : State) (f : Flight) (l : LaneAcc) : Retry × State :=
  let atom : Bool := f.kind == .atom || f.kind == .red || (f.kind == .load && f.op == 1)
  let (ps, s1) := (pieces l.va f.size).foldl (fun (r : List ((Nat × Nat × Nat) × XRes) × State) p =>
    let (x, s') := xlateNow r.2 f.core f.ctx p.1 f.kind.acc f.user
    (r.1 ++ [(p, x)], s')) ([], s)
  let t : Tr1 := { r := { lane := l.lane, a := (l.va : Int), data := l.data, data2 := l.data2, psn := l.psn }, ps := ps }
  let far : Bool := l.psn && t.oks.any (fun q => decide (1 ≤ paRegion q.2 ∧ paRegion q.2 ≤ 3))
  let bent : Bool := l.va % f.size != 0 && t.oks.any (fun q => q.1.mem == 2) && l.data2 == 0
  if (t.fatal atom).isSome then (.fatal, s1)
  else
    match t.recov with
    | some (va, level, cls) => (.recov va level cls, s1)
    | none =>
      if t.straddle || far || bent then (.fatal, s1)
      else
        let a := t.acc
        let masked : Bool := f.kind == .store && l.data2 != 0
        let segs := if masked then
            a.segs.flatMap (fun g => ((List.range g.len).filter (fun i => l.data2.testBit (g.ofs + i))).map
              (fun i => { g with pa := g.pa + i, len := 1, ofs := g.ofs + i }))
          else a.segs
        (.ok { a with segs := segs, data2 := l.data2, left := linesOf segs, got := l.got, gotPsn := l.gotPsn }, s1)

/-- The issue numbers of the releases of a group at domain scope or wider that wait for its accesses up to `seq` (R365). -/
def Group.releasing (G : Group) (seq : Nat) : List Nat :=
  G.valid.filterMap (fun e =>
    match (G.sp e).wait with
    | .release scope n _ => if 1 ≤ scope ∧ seq ≤ n then some n else none
    | .fence scope n kind => if 1 ≤ scope ∧ seq ≤ n ∧ kind ≠ 1 then some n else none
    | _ => none)

/-- A held store has made window bytes dirty: a release of its group that waits for it writes them back (R296, R365). -/
def State.backReleased (s : State) (f : Flight) (t o : Nat) : State :=
  match s.grp f.g, s.tm t with
  | some G, some T =>
    match G.releasing f.seq with
    | n :: _ => ((T.linesAt o f.size).1).foldl (fun s l => s.writeBack t l.w l.i f.g n f.user false none) s
    | [] => s
  | _, _ => s

/-- A held store to window bytes retries: it writes the galley once every window page it touches is writable (R295). A sector that
its instruction has now written in full with clean data is cleared (R292, R303). -/
def State.retryGalley (s : State) (fid t : Nat) (f : Flight) (l : LaneAcc) : State :=
  match s.tm t with
  | none => s
  | some T =>
    let o := l.va - 2 ^ 64
    let lines := (T.linesAt o f.size).1
    let (xs, s1) := lines.foldl (fun (r : List (Nat × XRes) × State) w =>
      let (x, s') := xlateNow r.2 f.core f.ctx w.va .write f.user
      (r.1 ++ [(w.va, x)], s')) ([], s)
    let fatal : Bool := (T.linesAt o f.size).2 || xs.any (fun x => match x.2 with
      | .fatal _ => true
      | .ok _ pa => l.psn && decide (1 ≤ paRegion pa ∧ paRegion pa ≤ 3)
      | _ => false)
    if fatal then s1.failLane fid l.lane
    else
      match xs.findSome? (fun x => match x.2 with | .recov level cls => some (x.1, level, cls) | _ => none) with
      | some (va, level, cls) =>
        let (fe, s2) := attachFault s1 f.core f.ctx T.index va level cls .write (.lane fid l.lane)
        s2.modLane fid l.lane (fun l => { l with fault := some fe })
      | none =>
        let r : Req := { lane := l.lane, a := (o : Int), data := l.data, psn := l.psn }
        let secs := galSecs f.secs f.size [r]
        let s2 := (s1.modTm t (fun T => (secsClean secs).foldl (fun T q => T.setGmark q false) (T.galStore f.size [r]))).modFlight fid
          (fun F => { F with secs := secs.filter (fun q => !(secsClean secs).contains q.1) })
        (((s2.modLane fid l.lane (fun l => { l with fault := none, left := [] })).payNow f 0).backReleased f t o).sweepFlight fid

/-- A request's lane retries (R141, R142). -/
def State.retryLane (s : State) (fid lane : Nat) : State :=
  match Map.find s.ms.flights fid with
  | none => s
  | some f =>
    match f.lanes.find? (fun l => l.lane == lane && l.fault.isSome) with
    | none => s
    | some l =>
      match f.win, f.kind with
      | some (t, _, _), .store => s.retryGalley fid t f l
      | _, _ =>
        let index := ((s.grp f.g).bind (fun G => (s.tm G.team).map (fun T => T.index))).getD 0
        match s.retryXl f l with
        | (.fatal, s1) => s1.failLane fid lane
        | (.recov va level cls, s1) =>
          let (fe, s2) := attachFault s1 f.core f.ctx index va level cls f.kind.acc (.lane fid lane)
          s2.modLane fid lane (fun l => { l with fault := some fe })
        | (.ok a, s1) =>
          match s1.heldBefore f fid lane l.va f.size with
          | some h =>
            let (va, level, cls) := h.place
            let (fe, s2) := attachFault s1 f.core f.ctx index va level cls f.kind.acc (.lane fid lane)
            s2.modLane fid lane (fun l => { l with fault := some fe })
          | none =>
          let s2 := s1.modLane fid lane (fun _ => a)
          if f.kind.reads then s2
          else
            let new := a.left.filter (fun line => !f.lanes.any (fun x => x.lane != lane && x.left.contains line))
            let s3 := a.left.foldl (fun s line => s.l1Drop f.core line) s2
            (s3.modGrp f.g (fun G => G.owe f.owes new.length)).payNow f 0

/-- A split that waits for a fault entry goes on: with `bad`, a fetch finds NOT_MAPPED, a trap or an RFE whose frame page
cannot be had ends the team (R142, R415, R423). -/
def State.retrySplit (s : State) (g e fe unit : Nat) (fetch bad : Bool) : State :=
  match s.grp g with
  | none => s
  | some G =>
    let sp := G.sp e
    let mine : Bool := match sp.wait with
      | .fault n => n == fe | .behind n => n == fe | .trapFault n _ => n == fe | .faults ids => ids.contains fe | _ => false
    let left : List Nat := match sp.wait with | .faults ids => ids.filter (fun n => n != fe) | _ => []
    if !sp.v || !mine then s
    else
      let kept := sp.xlat.filter (fun x => x.1 != unit)
      let s1 := s.modGrp g (fun G =>
        let G1 := G.modSp e (fun sp => { sp with xlat := if bad && fetch then kept ++ [(unit, .fatal cNotMapped)] else kept })
        if left.isEmpty then G1.wake e else G1.modSp e (fun sp => { sp with wait := .faults left }))
      if bad && !fetch then
        match sp.wait with
        | .trapFault _ t => s1.terminate G.team t.cause
        | .behind _ => s1
        | _ => s1.terminate G.team cNotMapped
      else s1

/-- A suspended copy retries its unit: it attaches to a new entry where a page faults again, and fails where one is fatal;
otherwise it goes on with COPY_RESUME (R322, R429). -/
def State.retryCopy (s : State) (fe id : Nat) : State :=
  match Map.find s.eng.copies id with
  | none => s
  | some c =>
    match s.tm c.team with
    | none => s
    | some T =>
      if c.suspended != some fe then s
      else match c.translate s ((c.unit c.done).filterMap (fun b => b.1)) with
        | (.fatal, s1) => s1.failCopy id
        | (.recov va level cls, s1) =>
          let (n, s2) := attachFault s1 c.core c.ctx T.index va level cls (if c.out then .write else .read) (.copy id)
          s2.setCopy id { c with suspended := some n }
        | (.ok _, s1) => s1

/-- An attached request of a served entry retries, or fails. -/
def State.retryReq (s : State) (fe : Nat) (f : FaultEnt) (bad : Bool) (r : AReq) : State :=
  match r with
  | .lane fid lane =>
    if ((Map.find s.ms.flights fid).map (fun F => F.lanes.any (fun l => l.lane == lane && l.fault == some fe))).getD false then
      (if bad then s.failLane fid lane else s.retryLane fid lane)
    else s
  | .split g e => s.retrySplit g e fe f.page f.fetch bad
  | .copy id => if bad then s.failCopy id else s.retryCopy fe id
  | .slot g =>
    match s.grp g with
    | some G => if bad then s.terminate G.team cNotMapped else s
    | none => s

/-- A fault entry has been served: its requests retry or fail in the order in which they attached (R429). -/
def State.serve (s : State) (fe : Nat) (bad : Bool) : State :=
  match Map.find s.tr.faults fe with
  | none => s
  | some f => f.reqs.foldl (fun s r => s.retryReq fe f bad r) { s with tr := { s.tr with
    faults := Map.erase s.tr.faults fe, fwQueue := Map.erase s.tr.fwQueue fe } }

/-! ### The fault queue (R411, R428, R429) -/

/-- A context has a live launch. -/
def State.ctxLive (s : State) (ctx : Nat) : Bool := s.wk.launches.any (fun p => p.2.forme.ctx == ctx && !p.2.retired)

/-- Entries that wait for room in a context's queue are written while there is room, oldest first (R428). -/
def State.fqFill (s : State) (ctx : Nat) : State :=
  (s.tr.faults.filter (fun p => p.2.ctx == ctx && p.2.slot.isNone && !p.2.cls)).foldl (fun s p => fqWrite s p.1) s

/-- Serves the entry of queue position k. -/
def State.serveSlot (s : State) (ctx k : Nat) : State :=
  let t := s.trapBlk ctx
  match s.tr.faults.find? (fun p => p.2.ctx == ctx && p.2.slot == some k) with
  | none => s
  | some p => s.serve p.1 (decide (2 ≤ (s.mb (t.fqbase.toNat + 32 * (k % 2 ^ t.fqlog2n.toNat) + 7)).toNat))

/-- FQDONE_WRITE (R429). -/
def execFqdoneWrite (ctx : Nat) (w : BitVec 32) (s : State) : Host.Outcome State Fault Refusal :=
  let t := s.trapBlk ctx
  let n := (w - t.fqdone).toNat
  .next (if n = 0 ∨ (t.fqtail - t.fqdone).toNat < n then s.finish
    else
      let s1 := s.modTrapBlk ctx (fun t => { t with fqdone := w })
      let s2 := (List.range n).foldl (fun s i => s.serveSlot ctx (t.fqdone + BitVec.ofNat 32 i).toNat) s1
      (s2.fqFill ctx).finish)

/-- A write of word 0x28 of a trap block (R411): FQEN going from 0 to 1 zeroes FQTAIL and FQDONE. -/
def State.fqConfig (s : State) (ctx : Nat) (w : BitVec 64) : State :=
  if s.ctxLive ctx then s
  else s.modTrapBlk ctx (fun t =>
    let en := w.getLsbD 5
    let t1 := { t with fqlog2n := w.truncate 5, fqen := en }
    if en && !t.fqen then { t1 with fqtail := 0, fqdone := 0 } else t1)

/-- FAULT_QUEUE_ENABLE (R411). -/
def execFaultQueueEnable (ctx : Nat) (w : BitVec 64) (s : State) : Host.Outcome State Fault Refusal :=
  .next (if w.getLsbD 5 then (s.fqConfig ctx w).finish else s.finish)

/-! ### Root entries (R129, R130) -/

/-- Every translation of a context, in every domain. -/
def wholeCtx (ctx : Nat) : Inval :=
  { ctx := ctx, all := true, first := 0, count := 0, domains := BitVec.allOnes 64, icache := false, seq := none, began := 0
    stores := [] }

/-- A write of a root entry: discarded while a launch of the context is live; EN falling removes its pins and translations. -/
def State.rootWrite (s : State) (ctx : Nat) (hi : Bool) (w : BitVec 64) : State :=
  let r : Root := Map.getD s.tr.roots ctx {}
  if s.ctxLive ctx then s
  else
    let r1 : Root :=
      if hi then { r with en := w.getLsbD 0, pinmax := fld w.toNat 16 11 } else { r with root := fld w.toNat 12 44 * 2 ^ 12 }
    let s1 := { s with tr := { s.tr with roots := Map.put s.tr.roots ctx r1 {} } }
    if r.en && !r1.en then
      { s1 with tr := { s1.tr with pins := s1.tr.pins.filter (fun p => p.win.ctx != ctx) } }.purge (wholeCtx ctx)
    else s1

/-- ROOT_ENTRY_WRITE (R130). -/
def execRootEntryWrite (ctx : Nat) (hi : Bool) (w : BitVec 64) (s : State) : Host.Outcome State Fault Refusal :=
  .next (s.rootWrite ctx hi w).finish

/-- CTX_TRANSLATION_DISABLE (R130): a write that clears EN. -/
def execCtxTranslationDisable (ctx : Nat) (w : BitVec 64) (s : State) : Host.Outcome State Fault Refusal :=
  .next (if w.getLsbD 0 then s.finish else (s.rootWrite ctx true w).finish)

/-! ### Classification (R136, R483) -/

/-- The leaf entry of an address: where it stands, its level and its value. -/
def findLeaf (s : State) (va : Nat) : List Nat → Nat → Option (Nat × Nat × Nat)
  | [], _ => none
  | level :: rest, base =>
    let pa := base + 8 * tableIndex level va
    let e := s.mNat pa 8
    if !e.testBit 0 then none
    else if e.testBit 1 then some (pa, level, e)
    else findLeaf s va rest (e % 2 ^ 56 / 2 ^ 12 * 2 ^ 12)

/-- Accesses to a physical page are on their way, or await completion times. -/
def State.pageBusy (s : State) (addr size : Nat) : Bool :=
  s.ms.flights.any (fun p =>
    p.2.performed.any (fun l => decide (addr ≤ 128 * l.line ∧ 128 * l.line < addr + size)) ||
    p.2.lanes.any (fun l => !l.isDone && l.segs.any (fun g => decide (addr ≤ g.pa ∧ g.pa < addr + size))))

/-- The owner's modified lines of a page go home, and its L2 holds them no more (R136 step 3). -/
def State.ownerWriteBack (s : State) (addr size : Nat) : State :=
  (s.ms.owned.filter (fun p => decide (addr ≤ 128 * (p.1 / 64) ∧ 128 * (p.1 / 64) < addr + size))).foldl
    (fun s p => s.ownedHome (p.1 % 64) (p.1 / 64)) s

/-- CLASSIFICATION_SERVICE (R136, R483): the oldest entry of firmware's queue is served. -/
def execClassificationService (s : State) : Host.Outcome State Fault Refusal :=
  .next (match s.tr.faults.find? (fun p => p.2.cls) with
    | none => s.finish
    | some (fe, f) =>
      let r : Root := Map.getD s.tr.roots f.ctx {}
      match findLeaf s f.va [3, 2, 1, 0] r.root with
      | none => (s.serve fe false).finish
      | some (pa, level, e) =>
        let l := leafOf s level f.va e
        let size := 2 ^ pageBits level
        if l.cls ≠ 1 then (s.serve fe false).finish
        else if s.pageBusy l.addr size then s.finish
        else
          let s1 := s.putBs pa (leBytes 8 (e - 2 ^ 10 + 2 ^ 11))
          let s2 := s1.purge { wholeCtx f.ctx with all := false, first := vaUnit l.va, count := l.units }
          ((s2.ownerWriteBack l.addr size).serve fe false).finish)

/-! ### Invalidations (R143-R145) -/

/-- INVALIDATION_START (R143): a write to SEQ. -/
def execInvalidationStart (w : BitVec 32) (s : State) : Host.Outcome State Fault Refusal :=
  .next (if s.tr.invBusy then s.finish
    else
      let (_, s1) := s.startInval
        { ctx := s.tr.invCtx.toNat, all := s.tr.invAll, first := s.tr.invVa.toNat, count := s.tr.invN.toNat
          domains := BitVec.allOnes 64, icache := s.tr.invIc, seq := some w, began := 0, stores := [] }
      { s1 with tr := { s1.tr with invBusy := true } }.finish)

/-- What an invalidation waits for (R145): walks of its range, and accesses made before it, those held on faults apart. -/
def State.invalBusy (s : State) (v : Inval) : Bool :=
  s.tr.walks.any (fun w => w.2.stale && w.2.ctx == v.ctx && v.domains.getLsbD w.2.domain && v.covers w.2.unit 1) ||
  s.ms.flights.any (fun p => decide (p.1 < v.began) && p.2.ctx == v.ctx &&
    (!p.2.performed.isEmpty || p.2.lanes.any (fun l => !l.left.isEmpty && l.fault.isNone && decide (l.va < 2 ^ 64 ∨ 2 ^ 65 ≤ l.va)))) ||
  v.stores.any (fun q =>
    ((s.grp q.1).map (fun G => Map.has G.stores q.2)).getD false &&
    !s.ms.flights.any (fun p => p.2.g == q.1 && p.2.owes == q.2 && p.2.lanes.any (fun l => l.fault.isSome)))

/-- The splits that wait for an invalidation go on. -/
def State.wakeInval (s : State) (id : Nat) : State :=
  { s with exe := { s.exe with groups := s.exe.groups.map (fun p =>
      (p.1, (p.2.valid.filter (fun e => (p.2.sp e).wait == .inval id)).foldl
        (fun (G : Group) e => (G.modSp e (fun sp => { sp with relDone := true })).wake e) p.2)) } }

/-- INVALIDATION_COMPLETE (R145). -/
def execInvalidationComplete (id : Nat) (s : State) : Host.Outcome State Fault Refusal :=
  .next (match Map.find s.tr.invals id with
    | none => s.finish
    | some v =>
      if s.invalBusy v then s.finish
      else
        let s1 := s.purge v
        let hit (w : CodeWin) : Bool := w.ctx == v.ctx && v.covers (vaUnit w.va) 1
        let s2 := if v.icache then
            (s1.dropWins (fun k => v.domains.getLsbD (k / 72)) hit).refetchPins (fun p => v.domains.getLsbD p.domain && hit p.win)
          else s1
        let s3 := { s2 with tr := { s2.tr with invals := Map.erase s2.tr.invals id } }
        (match v.seq with
         | some q => { s3 with tr := { s3.tr with invSeq := q, invBusy := false } }
         | none => s3.wakeInval id).finish)

/-! ### Partitions (R80) -/

/-- A team of a context of partition p is resident on a domain. -/
def State.residentIn (s : State) (p d : Nat) : Bool :=
  s.exe.teams.any (fun t => t.2.st.holds && t.2.domain == d && s.partOfCtx (s.ctxOf t.2) == p)

/-- PARTITION_MASK_WRITE (R80). -/
def execPartitionMaskWrite (p : Nat) (m : BitVec 64) (s : State) : Host.Outcome State Fault Refusal :=
  let old := Map.getD s.ct.parts p 0
  let shared : Bool := (List.range 16).any (fun q => q != p && (Map.getD s.ct.parts q 0 &&& m) != 0)
  let gone : Bool := (List.range 64).any (fun d => old.getLsbD d && !m.getLsbD d && s.residentIn p d)
  .next (if 16 ≤ p then s.finish
    else if shared then { s with ct := { s.ct with partErr := 1 } }.finish
    else if gone then { s with ct := { s.ct with partErr := 2 } }.finish
    else { s with ct := { s.ct with parts := Map.put s.ct.parts p m 0 } }.finish)

/-- CONTEXT_TABLE_WRITE (R80). A byte of 0x10 to 0xFE, to which the rule gives no meaning, is stored as written, and a launch of the context
fails as one without a partition (DESIGN CHOICE, log entry 100). -/
def execContextTableWrite (ctx : Nat) (b : BitVec 8) (s : State) : Host.Outcome State Fault Refusal :=
  .next (if s.ctxLive ctx then { s with ct := { s.ct with partErr := 3 } }.finish
    else { s with ct := { s.ct with partOf := Map.put s.ct.partOf ctx b.toNat 0xFF } }.finish)

end Sys2Proof.Machine
end

