-- ==== Sys2Proof/Machine/Coherence.lean ====
section
/-! DEFINITION. The events of the memory system (R168, R294, R358-R375): what happens at the homes, the probes, the
registration of remote writers, the return of completion times, the delivery of loads, stash fills, and the host port. -/

namespace Sys2Proof.Machine

/-! ### Completion of claims (R168, R301, R323) -/

/-- The words that a performed lane of a request delivers: a load extends its bytes, and every word takes the poison of any
(R301); a CPYG poisons word by word (R323). -/
def Flight.words (f : Flight) (l : LaneAcc) : List LW :=
  let n := (f.size + 3) / 4
  let v := l.got % 256 ^ f.size
  let neg : Bool := f.sext && v.testBit (8 * f.size - 1)
  let w := if neg then v + (2 ^ 32 - 256 ^ f.size) else v
  let byWord : Bool := f.kind == .load && f.op == 1
  (List.range n).map (fun i =>
    { val := BitVec.ofNat 32 (w / 2 ^ (32 * i)), psn := if byWord then l.gotPsn.testBit i else l.gotPsn != 0 })

/-- The lanes of a request that have been performed and not delivered. -/
def Flight.ripe (f : Flight) : List LaneAcc := f.lanes.filter (fun l => l.isDone && !l.done)

/-- The performed lanes of a request complete in its claim, those of a pair together, where the claim may be served in this
cycle (R168, R170, R449). -/
def State.deliverReq (s : State) (fid : Nat) : State :=
  match Map.find s.ms.flights fid with
  | none => s
  | some f =>
    match f.ticket with
    | none => s
    | some t =>
      let duplex : Bool := ((s.grp f.g).map (fun G => G.duplex)).getD false
      let vs := f.ripe.flatMap (fun l => (l.lane, f.words l) :: (if duplex then [(l.lane + 48, f.words l)] else []))
      s.serveClaim f.g t (fun s => ((s.completeClaim f.g t vs).modFlight fid (fun f =>
        { f with lanes := f.lanes.map (fun l => if l.isDone then { l with done := true } else l) })).sweepFlight fid)

/-- CLAIM_COMPLETION (R168). -/
def execClaimCompletion (req : Nat) (s : State) : Host.Outcome State Fault Refusal := .next (s.deliverReq req).finish

/-! ### Arrivals at the points of coherence (R359-R362) -/

/-- A request reads global lines: galley loads wait for stash fills instead. -/
def Flight.atLines (f : Flight) : Bool := f.kind.reads && f.lanes.all (fun l => decide (l.va < 2 ^ 64))

/-- LOAD_AT_HOME (R361). -/
def execLoadAtHome (req line : Nat) (s : State) : Host.Outcome State Fault Refusal :=
  .next (match Map.find s.ms.flights req with
    | some f => if f.atLines then ((s.loadLine req line).sweepFlight req).finish else s.finish
    | none => s.finish)

/-- A physical address of region 0 belongs to a domain of DMASK. -/
def State.inCk (s : State) (pa : Nat) : Bool := decide (pa < 2 ^ 43) && s.ct.ckMask.getLsbD (pa / 2 ^ 37)

/-- While a checkpoint is saved, what another domain stores to a line homed in its domains is held at the home (R453). -/
def State.ckHeld (s : State) (f : Flight) (line : Nat) : Bool :=
  s.ct.ckBusy && s.ct.ckCmd == 1 && s.inCk (128 * line) && !s.ct.ckMask.getLsbD (f.core / 72)

/-- STORE_AT_HOME (R362, R388): a store or an atomic reaches its point of coherence. -/
def execStoreAtHome (req line : Nat) (s : State) : Host.Outcome State Fault Refusal :=
  .next (match Map.find s.ms.flights req with
    | some f =>
      if s.ckHeld f line then s.finish
      else (match f.kind with
       | .store => (s.storeAt req line).finish
       | .atom | .red => (s.atomAt req line).finish
       | .load | .stashFill => s.finish)
    | none => s.finish)

/-- PROBE (R362). -/
def execProbe (id : Nat) (s : State) : Host.Outcome State Fault Refusal := .next (s.probeAt id).finish

/-- PROBE_ACK (R362): the time of the acknowledgement and LXd raise the completion time. -/
def execProbeAck (id : Nat) (s : State) : Host.Outcome State Fault Refusal :=
  .next (match Map.find s.ms.probes id with
    | some p =>
      (match p.answer with
       | some lxd => (s.probeDone id (max p.at_ lxd)).finish
       | none => s.finish)
    | none => s.finish)

/-- PROBE_FILTER_ANSWER (R371): absent, 48 ns after the probe has reached the partition's border. -/
def execProbeFilterAnswer (id : Nat) (s : State) : Host.Outcome State Fault Refusal :=
  .next (match Map.find s.ms.probes id with
    | some p =>
      let home := (homeOf (128 * p.line)).getD 0
      if p.filter && decide (p.at_ + 48 ≤ s.wtime home) then (s.probeDone id (p.at_ + 48)).finish else s.finish
    | none => s.finish)

/-- STORE_COMPLETION_RETURN (R363): to the host, and for a completion record, it returns at T_wafer itself (R375). -/
def execStoreCompletionReturn (req line : Nat) (s : State) : Host.Outcome State Fault Refusal :=
  let early : Bool := ((Map.find s.ms.flights req).map (fun f => f.performed.any (fun l =>
    l.line == line && l.refs.isEmpty && decide (s.wtime (grantor 0 (128 * line) 2 0 true) < l.t)))).getD false
  .next (if early then s.finish else (s.storeReturn req line).finish)

/-! ### Combined bytes (R372) -/

/-- Changes the combined bytes of a line. -/
def State.modComb (s : State) (d line : Nat) (f : Comb → Comb) : State :=
  s.modMs (fun m => { m with combs := Map.modify m.combs (l2Key d line) f })

/-- REMOTE_WRITER_REGISTRATION (R372): the home enters the domain in the line's remote-writer mask. -/
def execRemoteWriterRegistration (d line : Nat) (s : State) : Host.Outcome State Fault Refusal :=
  .next (match Map.find s.ms.combs (l2Key d line) with
    | some c =>
      if c.reg = 0 ∧ !s.fencedPa (128 * line) then ((s.dirAdd line d true).modComb d line (fun c => { c with reg := 1 })).finish
      else s.finish
    | none => s.finish)

/-- The stores of combined bytes take their domain completion times (R363). -/
def State.payDom (s : State) (refs : List StoreRef) (t : Nat) : State :=
  refs.foldl (fun s r => if r.dom then s.modGrp r.g (fun G => G.paidDom r.seq (max r.t t)) else s) s

/-- REGISTRATION_ACKNOWLEDGED (R372): from now on the combined bytes count as performed at domain scope. -/
def execRegistrationAcknowledged (d line : Nat) (s : State) : Host.Outcome State Fault Refusal :=
  .next (match Map.find s.ms.combs (l2Key d line) with
    | some c =>
      if c.reg ≠ 1 then s.finish
      else
        let t := s.wtime d
        (((s.payDom c.stores t).batchesDone c.batches).modComb d line (fun c =>
          { c with reg := 2, ackAt := t, stores := c.stores.map (fun r => { r with dom := false }), batches := [] })).finish
    | none => s.finish)

/-- CFLUSH_EXPIRY (R372, R380). -/
def execCflushExpiry (d line : Nat) (s : State) : Host.Outcome State Fault Refusal :=
  .next (match Map.find s.ms.combs (l2Key d line) with
    | some c => if c.limit ≤ s.wtime d then (s.flushComb d line 0).finish else s.finish
    | none => s.finish)

/-! ### Stash fills (R293, R294) -/

/-- A line's sector marks after a fill of its clean bytes: set where a byte read was poisoned, cleared where the whole
sector was written clean. -/
def Team.fillLine (T : Team) (gal got gotPsn : Nat) (clean : Nat → Bool) : Team :=
  T.galWrite (((List.range 128).filter clean).map (fun i =>
    (gal + i, BitVec.ofNat 8 (got / 256 ^ i), gotPsn.testBit (i / 4))))

/-- A line of a window is filled: its clean bytes are written, and it takes the lease (R294). -/
def Team.fillWin (T : Team) (w i gal : Nat) (l : LaneAcc) : Team :=
  let d := T.dirty w i
  (T.fillLine gal l.got l.gotPsn (fun b => !d.getLsbD b)).setWinLine w i (some { filled := true, expiry := l.expiry, dirty := d })

/-- A lane of a galley load takes the bytes of a filled line that were clean when it issued; all of them poisoned where the
fill has failed (R142, R294). `mark` says that the galley sector of an offset is marked: the claim is completed from the galley. -/
def LaneAcc.takeFill (p : LaneAcc) (size gal : Nat) (mark : Nat → Bool) (l : LaneAcc) : LaneAcc :=
  if !p.left.contains l.data2 then p
  else
    let o := p.va - 2 ^ 64
    let idx := (List.range size).filter (fun i => decide (gal ≤ o + i ∧ o + i < gal + 128) && !l.data.testBit (o + i - gal))
    p.take l.data2 (idx.map (fun i =>
      let b := o + i - gal
      (i, BitVec.ofNat 8 (l.got / 256 ^ b), l.psn || l.gotPsn.testBit (b / 4) || mark (o + i))))

/-- The sectors of a window line are marked poisoned (R294). -/
def Team.spoilLine (T : Team) (gal : Nat) : Team :=
  (List.range 4).foldl (fun T i => T.setGmark (gal / 32 + i) true) T

/-- STASH_FILL_COMPLETE (R294). -/
def execStashFillComplete (req : Nat) (s : State) : Host.Outcome State Fault Refusal :=
  .next (match Map.find s.ms.flights req with
    | none => s.finish
    | some f =>
      match f.kind, f.lanes with
      | .stashFill, [l] =>
        if !l.isDone then s.finish
        else
          let s1 := match f.win with
            | some (t, w, i) =>
              s.modTm t (fun T =>
                if l.psn then T.spoilLine f.galLine
                else if Map.has T.windows w then T.fillWin w i f.galLine l
                else T)
            | none => s
          let s2 := match f.parent with
            | some p =>
              let mark (o : Nat) : Bool := ((f.win.bind (fun w => s1.tm w.1)).map (fun (T : Team) => T.gmark o)).getD false
              (s1.modFlight p (fun F => { F with lanes := F.lanes.map (fun (q : LaneAcc) => q.takeFill F.size f.galLine mark l) })).sweepFlight p
            | none => s1
          (s2.modMs (fun m => { m with flights := Map.erase m.flights req })).finish
      | _, _ => s.finish)

/-! ### The host port (R375) -/

/-- A run of bytes lies in device memory, all that the host reaches over CXL.mem (R41). -/
def inDevice (pa len : Nat) : Bool := decide (pa + len ≤ 2 ^ 43)

/-- HOST_MEM_READ (R375): read at the homes, with no lease; a fenced range reads as poison. -/
def execHostMemRead (pa len : Nat) (s : State) : Host.Outcome State Fault Refusal :=
  .next (if inDevice pa len then
      { s with hp := { s.hp with read := (List.range len).map (fun i => s.hostRead (pa + i)) } }.finish
    else s.finish)

/-- HOST_MEM_WRITE (R375): performed at the homes like a store; its completion goes to the host. -/
def execHostMemWrite (pa : Nat) (bytes : List Byte) (s : State) : Host.Outcome State Fault Refusal :=
  let ws : List WByte := ((List.range bytes.length).zip bytes).map (fun p => (pa + p.1, p.2, false))
  .next (if !inDevice pa bytes.length then s else (dedup (ws.map (fun w => w.1 / 128))).foldl (fun s line =>
    let (cls, owner) := s.hostAttr line
    if s.fencedAcc (128 * line) cls owner then s
    else
      let (bs, ms) := storeParts line (ws.filter (fun w => w.1 / 128 == line)) 0
      let (fid, s1) := s.addFlight { kind := .store }
      s1.performHome fid line cls owner 0 bs ms []) s).finish

/-- HOST_SNOOP (R375): the bridge answers once its wtime has passed the line's LX + 4 ns. -/
def execHostSnoop (line : Nat) (s : State) : Host.Outcome State Fault Refusal :=
  .next (if paRegion (128 * line) = 2 ∧ s.lxOf 0 line + 4 < s.wtime 0 then
      { s.evictLx 0 line with hp := { s.hp with snooped := some line } }.finish
    else s.finish)

end Sys2Proof.Machine
end

