-- ==== Sys2Proof/Machine/Issue.lean ====
section
/-! DEFINITION. The choice of a slice (R163, R164, R176-R180) and the clock ratios (R181-R183). -/

namespace Sys2Proof.Machine

/-! ### Fusion and reconvergence (R163, R164) -/

/-- An entry belongs to the level that executes: it is valid and not held for a handler. At handler level R164 is read of these
splits alone, where its words say every valid split of the group (DEDUCED, log entry 80). -/
def Group.running (G : Group) (e : Nat) : Bool := (G.sp e).v && !(G.lvl != 0 && G.isHeld e)

/-- An entry may fuse (R163). -/
def Group.fusable (G : Group) (e : Nat) : Bool :=
  let sp := G.sp e
  G.running e && (sp.st == .ready || sp.st == .heldRpc) && sp.chain == 0 && !sp.midway

/-- Fuses entry `j` into the lower entry `i` where both may (R163, R276). The fused split keeps the lower entry's place in the
ready queue, and joins the tail where the higher one alone was queued (DESIGN CHOICE, log entry 93). -/
def Group.fuse (G : Group) (i j : Nat) : Group :=
  let a := G.sp i
  let b := G.sp j
  if G.fusable i && G.fusable j && a.pc == b.pc then
    let m : Split :=
      { a.setLanes (a.memb ||| b.memb) (a.mask ||| b.mask) with
          rpc := if a.rpc = b.rpc ∧ a.rpc ≠ a.pc then a.rpc else 0
          st := .ready, wait := .none, chain := 0, lval := 0, latch := [], sig := 0xFFFF, exempt := a.exempt || b.exempt
          fresh := a.fresh || b.fresh, inst := none }
    { (G.setSp i m).setSp j { b with v := false } with rq := if G.rq.contains i then G.rq.erase j else G.rq.erase j ++ [i] }
  else G

/-- Every fusion of a group. -/
def Group.fuseAll (G : Group) : Group :=
  ([(0, 1), (0, 2), (0, 3), (1, 2), (1, 3), (2, 3)] : List (Nat × Nat)).foldl (fun (G : Group) p => G.fuse p.1 p.2) G

/-- An entry stands at its reconvergence address while another split is still on its way there (R164). -/
def Group.atRpc (G : Group) (e : Nat) : Bool :=
  let sp := G.sp e
  G.running e && sp.rpc != 0 && sp.pc == sp.rpc &&
    (List.range 4).any (fun x => x != e && G.running x && (G.sp x).rpc == sp.rpc && (G.sp x).pc != sp.rpc)

/-- ST = 4 is taken, which ends a latch chain (R176), and given up (R164). -/
def Group.reconverge (G : Group) : Group :=
  (List.range 4).foldl (fun (G : Group) e =>
    let sp := G.sp e
    if sp.st == .ready && !sp.midway && G.atRpc e then
      { G.modSp e (fun sp => { sp with st := .heldRpc, wait := .none, chain := 0 }) with rq := G.rq.erase e }
    else if sp.st == .heldRpc && G.running e && !G.atRpc e then
      { G.modSp e (fun sp => { sp with st := .ready, wait := .none }) with rq := G.rq.erase e ++ [e] }
    else G) G

/-- The entry that traps SPLIT_STATE: every running entry is held with ST = 3 or 4, and this is the lowest with 3 (R164). -/
def Group.stuck (G : Group) : Option Nat :=
  let es := (List.range 4).filter G.running
  if es.all (fun e => (G.sp e).st == .heldEntry || (G.sp e).st == .heldRpc) then
    es.find? (fun e => (G.sp e).st == .heldEntry)
  else none

/-- The words of the instruction for which a split waits for an entry. -/
def Wait.inst (w : Wait) : BitVec 128 :=
  match w with
  | .entry i => i
  | _ => 0

/-- A slice whose chain's split no longer stands ready with CHAIN set holds no chain (R176). -/
def State.dropChain (s : State) (k sl : Nat) : State :=
  match (s.sliceAt (sliceKey k sl)).chain with
  | none => s
  | some (g, e) =>
    if ((s.grp g).map (fun G => (G.sp e).v && (G.sp e).st == .ready && (G.sp e).chain != 0)).getD false then s
    else s.modSlice (sliceKey k sl) (fun S => { S with chain := none })

/-- Fusion, reconvergence and SPLIT_STATE of one group before a choice (R163, R164). -/
def State.prepare (s : State) (g : Nat) : State :=
  let s1 := s.modGrp g (fun G => G.fuseAll.reconverge)
  match s1.grp g with
  | none => s1
  | some G =>
    match G.stuck with
    | none => s1
    | some e =>
      let sp := G.sp e
      s1.deliver g e
        { cause := cSplitState, tpc := sp.pc, tva := 0, tlanes := sp.mask, tmask := sp.mask, tinst := sp.wait.inst }

/-! ### The choice (R178, R179) -/

/-- The groups of a slice that may issue: their teams run, and they are neither stopped nor retired. -/
def State.issuers (s : State) (k sl : Nat) : List (Nat × Group) :=
  (s.onSlice k sl).filter (fun p => !p.2.stopped && (match s.tm p.2.team with | some T => T.st == .started | none => false))

/-- The allowance lets a group's splits issue (R179). -/
def State.powered (s : State) (k sl : Nat) (G : Group) : Bool :=
  let c := (s.sliceAt (sliceKey k sl)).c
  (G.crit && s.rsvd k sl) ||
    (if G.shed then decide (((Map.getD s.ct.power (k / 72) ({} : Power)).shedlvl : Int) ≤ c) else decide (0 ≤ c))

/-- A split that could issue: it runs, it is ready, and it was not woken in this cycle (R170). -/
def Group.canIssue (G : Group) (e : Nat) : Bool := G.running e && (G.sp e).st == .ready && !(G.sp e).fresh

/-- A split of the group has raised a trap that has not been delivered: no other split of the group issues before it is
(R414). -/
def Group.trapping (G : Group) : Option Nat := G.valid.find? (fun e => G.running e && (G.sp e).pendingTrap.isSome)

/-- The first split of a group's ready queue that could issue, the allowance apart. -/
def Group.firstReady (G : Group) : Option Nat :=
  if G.frozen then none
  else match G.trapping with
    | some e => if G.canIssue e then some e else none
    | none => G.rq.find? G.canIssue

/-- The split that holds the latch chain of a slice, where it could issue (R176). -/
def State.chained (s : State) (k sl : Nat) : Option (Nat × Nat) :=
  match (s.sliceAt (sliceKey k sl)).chain with
  | none => none
  | some (g, e) =>
    if (s.issuers k sl).any (fun p => p.1 == g && p.2.canIssue e) then some (g, e) else none

/-- The first group after the one last served, in slot order. -/
def nextInTurn (last : Nat) (gs : List (Nat × Group)) : Option (Nat × Group) :=
  let key (p : Nat × Group) : Nat := (p.2.slot + 7 - last) % 8
  gs.foldl (fun (b : Option (Nat × Group)) p =>
    match b with
    | some q => if key p < key q then some p else some q
    | none => some p) none

/-- The groups of E (R178): those with a ready split that the allowance lets issue, without a group that has yielded to
another. -/
def State.eligible (s : State) (k sl : Nat) : List (Nat × Group) :=
  let es := (s.issuers k sl).filter (fun p => p.2.firstReady.isSome && s.powered k sl p.2)
  match (s.sliceAt (sliceKey k sl)).yield with
  | some y => if es.any (fun p => p.1 != y) then es.filter (fun p => p.1 != y) else es
  | none => es

/-- Counts a choice (R478). -/
def State.countChoice (s : State) (k : Nat) (idle held : Bool) : State :=
  if idle || held then
    s.modCore k (fun c => { c with ctr := { c.ctr with
      idle := (c.ctr.idle + (if idle then 1 else 0)) % 2 ^ 64, wheld := (c.ctr.wheld + (if held then 1 else 0)) % 2 ^ 64 } })
  else s

/-- One choice of a slice, its groups prepared (R178). -/
def State.choose (s : State) (k sl : Nat) : State :=
  let slk := sliceKey k sl
  let S := s.sliceAt slk
  let all := s.issuers k sl
  let es := s.eligible k sl
  let held : Bool := all.any (fun p => p.2.firstReady.isSome && !s.powered k sl p.2)
  let s1 := (s.countChoice k (es.isEmpty && !(s.onSlice k sl).isEmpty) held).modSlice slk (fun S => { S with yield := none })
  let starved (G : Group) : Bool := decide (32 ≤ Map.getD S.starve G.slot 0)
  let crit := es.filter (fun p => p.2.crit || starved p.2)
  match nextInTurn S.last (if crit.isEmpty then es else crit) with
  | none => s1
  | some (g, G) =>
    match G.firstReady with
    | none => s1
    | some e =>
      { s1.modSlice slk (fun S =>
          { S with
              last := G.slot
              starve := es.foldl (fun (m : Map Nat) p =>
                Map.put m p.2.slot (if p.1 = g then 0 else Map.getD m p.2.slot 0 + 1) 0) S.starve }) with cur := .split g e }

/-- The end of a choice: the turn is the chosen split's, which is valid. -/
def State.endChoice (s : State) : State :=
  match s.cur with
  | .split g e =>
    match s.grp g with
    | some G => if (s.tm G.team).isSome && (G.sp e).v then { s.finish with cur := .split g e } else s.finish
    | none => s.finish
  | _ => s.finish

/-- The state in which a slice makes its choice: splits at their reconvergence address are held or released, and a chain that
this ends is over (R164, R176). -/
def State.regroup (s : State) (k sl : Nat) : State :=
  ((s.issuers k sl).foldl (fun s p => s.modGrp p.1 Group.reconverge) s).dropChain k sl

/-- The choice of a slice: the split of its latch chain, or else fusion and a split of E (R178). -/
def State.serveSlice (s : State) (k sl : Nat) : State :=
  match s.chained k sl with
  | some (g, e) => { s with cur := .split g e }
  | none => ((s.issuers k sl).foldl (fun s p => s.prepare p.1) s).choose k sl

/-- A slice that has chosen a split issues in this cycle. -/
def State.noteChoice (s : State) (k sl : Nat) : State := if s.cur = .idle then s else s.noteIssue k sl

/-- ISSUE_CHOICE (R178): the split that is chosen executes its instruction in the next step. Slices of a core issue in one
cluster cycle in the order of their numbers, and each once (R170, R177, R334). -/
def execIssueChoice (d c sl : Nat) (s : State) : Host.Outcome State Fault Refusal :=
  let k := coreKey d c
  .next (if s.mayIssue k sl then (((s.regroup k sl).serveSlice k sl).noteChoice k sl).endChoice else s.finish)

/-! ### Clock ratios (R181-R183) -/

/-- RCAP of a context. -/
def State.rcapOf (s : State) (ctx : Nat) : Nat := Map.getD s.ct.rcap ctx 2

/-- The effective ratio of a slice (R181). -/
def State.effective (s : State) (k sl : Nat) : Nat :=
  min (Map.getD s.ct.power (k / 72) ({} : Power)).dceil
    (((s.onSlice k sl).map (fun p =>
      match s.tm p.2.team with
      | some T => min p.2.req (s.rcapOf (s.ctxOf T))
      | none => 0)).foldl max 0)

/-- The slice cycles of a group up to now are counted at the ratio that held (R182). -/
def Group.countCycles (G : Group) (now ratio : Nat) : Group :=
  { G with halfCycles := G.halfCycles + (now - G.cyclesAt) * (2 + ratio), cyclesAt := now }

/-- CLOCK_RATIO_CHANGE (R182). -/
def execClockRatioChange (d c sl : Nat) (s : State) : Host.Outcome State Fault Refusal :=
  let k := coreKey d c
  let slk := sliceKey k sl
  let old := (s.sliceAt slk).ratio
  let s1 := (s.onSlice k sl).foldl (fun s p => s.modGrp p.1 (fun G => G.countCycles s.clk.cycle old)) s
  .next (s1.modSlice slk (fun S => { S with ratio := s.effective k sl })).finish

/-- RCAP_WRITE (R181): a write of 3 is discarded. -/
def execRcapWrite (ctx : Nat) (v : BitVec 8) (s : State) : Host.Outcome State Fault Refusal :=
  .next (if v.toNat % 4 = 3 then s.finish
    else { s with ct := { s.ct with rcap := Map.put s.ct.rcap ctx (v.toNat % 4) 2 } }.finish)

end Sys2Proof.Machine
end

