-- ==== Sys2Proof/Machine/Launch.lean ====
section
/-! DEFINITION. The submission queues (R43-R48), the ready bits (R71-R73) and the host's writes to the control registers
that have no event of their own (R75, R80, R135, R143, R380, R410, R453, R475, R479). -/

namespace Sys2Proof.Machine

/-! ### Queues (R43-R45) -/

/-- A queue records an error. -/
def State.queueErr (s : State) (q err : Nat) : State := s.modQueue q (fun Q => { Q with err := err })

/-- DOORBELL (R45). -/
def execDoorbell (q : Nat) (w : BitVec 32) (s : State) : Host.Outcome State Fault Refusal :=
  let Q := s.queue q
  .next (if 256 ≤ q then s.finish
    else if !Q.en then (s.queueErr q 6).finish
    else if (w - Q.tail).toNat ≤ Q.slots - (Q.tail - Q.head).toNat then
      (raiseSignal (s.modQueue q (fun Q => { Q with tail := w })) Q.prio).finish
    else (s.queueErr q 1).finish)

/-- BUSY of a queue (R43). -/
def Queue.busy (Q : Queue) : Bool := Q.head != Q.acc

/-- The test of R44 of a queue that a write would enable: 0 passes. -/
def Queue.enableErr (Q : Queue) : Nat :=
  if Q.base / 2 ^ 52 ≠ 0 ∨ Q.base % 512 ≠ 0 ∨ Q.log2n < 3 ∨ 16 < Q.log2n then 2 else if Q.busy then 4 else 0

/-- Queues can be enabled: an owner key is enrolled, and the host port and an Encon core are ready (R69, R73). -/
def State.queuesOpen (s : State) : Bool := s.en.ownerKey.isSome && s.ct.host && s.ct.enc != 0

/-- A queue after a write to word 0x08 (R44). -/
def Queue.config (Q : Queue) (w : BitVec 64) (opens : Bool) : Queue :=
  let v := w.toNat
  let Q1 := { Q with log2n := fld v 0 5, prio := fld v 5 2, ctx := fld v 8 16 }
  if Q.en then
    let Q2 := if Q1 = Q then Q else { Q with err := 3 }
    if w.getLsbD 7 then Q2 else { Q2 with en := false }
  else if !w.getLsbD 7 then Q1
  else if Q1.enableErr ≠ 0 then { Q1 with err := Q1.enableErr }
  else if opens then { Q1 with tail := 0, acc := 0, head := 0, en := true }
  else Q1

/-- SQ_ENABLE (R44): a write to word 0x08 with EN set. -/
def execSqEnable (q : Nat) (w : BitVec 64) (s : State) : Host.Outcome State Fault Refusal :=
  .next (if q < 256 ∧ w.getLsbD 7 then (s.modQueue q (fun Q => Q.config w s.queuesOpen)).finish else s.finish)

/-- SQ_DISABLE (R44): a write to word 0x08 with EN clear. -/
def execSqDisable (q : Nat) (w : BitVec 64) (s : State) : Host.Outcome State Fault Refusal :=
  .next (if q < 256 ∧ !w.getLsbD 7 then (s.modQueue q (fun Q => Q.config w s.queuesOpen)).finish else s.finish)

/-! ### CANCEL (R48) -/

/-- The head launches of a queue that have not retired and none of whose groups has issued an instruction. -/
def State.cancellable (s : State) (q : Nat) : List Nat :=
  (s.wk.launches.filter (fun p => p.2.queue == q && p.2.sub == 0 && !p.2.retired &&
    (s.unit p.1).all (fun l => ((s.launch l).map (fun L => !L.started)).getD true))).map (fun p => p.1)

/-- The unit of a head is cancelled: its teams give up what they hold. -/
def State.cancelUnit (s : State) (head : Nat) : State :=
  let us := s.unit head
  let s1 := us.foldl (fun s l => s.modLaunch l (fun L => { L with cancelled := true })) s
  let ts := (s1.exe.teams.filter (fun p => us.contains p.2.launch)).map (fun p => p.1)
  { s1 with
      wk := { s1.wk with
        gathering := if s1.wk.gathering = some head then none else s1.wk.gathering
        frames := s1.wk.frames.filter (fun p => !ts.contains p.1) }
      exe := { s1.exe with
        teams := s1.exe.teams.filter (fun p => !ts.contains p.1)
        groups := s1.exe.groups.filter (fun p => !ts.contains p.2.team) } }

/-- CANCEL (R48): it also reaches the formes of the queue that have been accepted and wait in forme buffers. -/
def execCancel (q : Nat) (s : State) : Host.Outcome State Fault Refusal :=
  let s1 := (s.cancellable q).foldl State.cancelUnit s
  .next { s1 with en := { s1.en with cores := s1.en.cores.map (fun (p : Nat × EnCore) =>
    (p.1, { p.2 with bufs := p.2.bufs.map (fun (b : Nat × FBuf) =>
      if b.2.queue = q then (b.1, { b.2 with cancelled := true }) else b) })) } }.finish

/-! ### Ready bits (R71-R73, R78) -/

/-- Changes the readiness of a domain. -/
def State.modDom (s : State) (d : Nat) (f : DomReady → DomReady) : State :=
  { s with ct := { s.ct with dom := Map.put s.ct.dom d (f (s.domReady d)) {} } }

/-- A function's ready bit. -/
def State.isReady (s : State) (f : ReadyFn) : Bool :=
  match f with
  | .disp d => (s.domReady d).disp
  | .walk d => (s.domReady d).walk
  | .l2 d => (s.domReady d).l2
  | .dram d => (s.domReady d).dram
  | .border d side => (s.domReady d).border.getLsbD side
  | .core d c => (s.coreAt (coreKey d c)).ready
  | .memPort p => s.ct.memp.getLsbD p
  | .encon k => s.ct.enc.getLsbD k
  | .host => s.ct.host
  | .scale p => s.ct.scale.getLsbD p

/-- A side of a domain whose link has failed: its bit stays 0 (R72). -/
def State.borderDown (s : State) (d side : Nat) : Bool := s.rb.links.contains (d, side)

/-- A function exists, and may become ready: its domain is not fenced, and its core is neither excluded nor disabled. -/
def State.mayReady (s : State) (f : ReadyFn) : Bool :=
  match f with
  | .disp d | .walk d | .l2 d | .dram d => decide (d < 64) && !(s.domReady d).lost
  | .border d side => decide (d < 64 ∧ side < 4) && !(s.domReady d).lost && !s.borderDown d side
  | .core d c => decide (d < 64 ∧ c < 72) && !(s.domReady d).lost && (s.coreAt (coreKey d c)).state == 3
  | .memPort p => decide (p < 16)
  | .encon k => decide (k < 8)
  | .host => true
  | .scale p => decide (p < 64)

/-- Sets a ready bit; a core becomes enabled with it. -/
def State.setReady (s : State) (f : ReadyFn) : State :=
  match f with
  | .disp d => s.modDom d (fun r => { r with disp := true })
  | .walk d => s.modDom d (fun r => { r with walk := true })
  | .l2 d => s.modDom d (fun r => { r with l2 := true })
  | .dram d => s.modDom d (fun r => { r with dram := true })
  | .border d side => s.modDom d (fun r => { r with border := setBit4 r.border side true })
  | .core d c => s.modCore (coreKey d c) (fun k => { k with ready := true, state := 0 })
  | .memPort p => { s with ct := { s.ct with memp := s.ct.memp ||| BitVec.twoPow 16 p } }
  | .encon k => { s with ct := { s.ct with enc := s.ct.enc ||| BitVec.twoPow 8 k } }
  | .host => { s with ct := { s.ct with host := true } }
  | .scale p => { s with ct := { s.ct with scale := s.ct.scale ||| BitVec.twoPow 64 p } }

/-- READY_BIT_SET (R72). -/
def execReadyBitSet (f : ReadyFn) (s : State) : Host.Outcome State Fault Refusal :=
  .next (if s.mayReady f && !s.isReady f then (raiseSignal (s.setReady f) 6).finish else s.finish)

/-! ### Writes to control registers (R75) -/

/-- A write to a word of a queue's block: SQBASE, discarded with ERR 3 while EN is 1, and ERR, cleared by ones (R43, R44). -/
def State.queueWrite (s : State) (q o : Nat) (w : BitVec 64) : State :=
  let Q := s.queue q
  match o with
  | 0x00 => if Q.en then s.queueErr q 3 else s.modQueue q (fun Q => { Q with base := w.toNat % 2 ^ 56 })
  | 0x28 => s.modQueue q (fun Q => { Q with err := ((BitVec.ofNat 8 Q.err) &&& ~~~ (w.truncate 8)).toNat })
  | _ => s

/-- A write to a word of a context's trap block (R410, R411); the low bits that R410 gives as zero stay zero. -/
def State.trapWrite (s : State) (ctx o : Nat) (w : BitVec 64) : State :=
  let free := !s.ctxLive ctx
  let set (f : TrapBlk → TrapBlk) : State := if free then s.modTrapBlk ctx f else s
  let low (n : Nat) : BitVec 64 := (w >>> n) <<< n
  match o with
  | 0x00 => set (fun t => { t with tbase := low 8 })
  | 0x08 => set (fun t => { t with fbase := low 16 })
  | 0x10 => set (fun t => { t with savebase := (low 16).truncate 56 })
  | 0x18 => set (fun t => { t with savesize := w.truncate 32 })
  | 0x20 => set (fun t => { t with fqbase := (low 5).truncate 56 })
  | 0x28 => if w.getLsbD 5 then s else s.fqConfig ctx w
  | 0x38 => s.modTrapBlk ctx (fun t => { t with brken := w.getLsbD 0, brkpc := (w >>> 2).truncate 62 })
  | _ => s

/-- A write to a word of the invalidation block, discarded while BUSY (R143). -/
def State.invWrite (s : State) (o : Nat) (w : BitVec 64) : State :=
  if s.tr.invBusy then s
  else match o with
    | 0x00 => { s with tr := { s.tr with invCtx := w.truncate 16, invAll := w.getLsbD 16, invIc := w.getLsbD 17 } }
    | 0x08 => { s with tr := { s.tr with invVa := (w >>> 16).truncate 41 } }
    | 0x10 => { s with tr := { s.tr with invN := w.truncate 32 } }
    | _ => s

/-- A write to DEST or DMASK of the checkpoint block, discarded while BUSY (R453). The bits of DEST below 2^43 stay zero (log
entry 70). -/
def State.ckWrite (s : State) (o : Nat) (w : BitVec 64) : State :=
  if s.ct.ckBusy then s
  else match o with
    | 0x00 => { s with ct := { s.ct with ckDest := ((w >>> 43) <<< 43).truncate 56 } }
    | 0x08 => { s with ct := { s.ct with ckMask := w } }
    | _ => s

/-- A write to PCAP of a domain: 100 to 600, else discarded (R479). -/
def State.pcapWrite (s : State) (d : Nat) (w : BitVec 64) : State :=
  let v := fld w.toNat 16 10
  if 100 ≤ v ∧ v ≤ 600 then
    { s with ct := { s.ct with power := Map.put s.ct.power d { (Map.getD s.ct.power d ({} : Power)) with pcap := v } {} } }
  else s

/-- A write of the host to a 64-bit word of the control region whose write has no event of its own: what it changes; any
other word is left as it is. -/
def State.ctlWrite (s : State) (off : Nat) (w : BitVec 64) : State :=
  if 0x10000 ≤ off ∧ off < 0x14000 then s.queueWrite ((off - 0x10000) / 64) (off % 64) w
  else if off = 0x40880 then
    { s with ct := { s.ct with partErr := ((BitVec.ofNat 8 s.ct.partErr) &&& ~~~ (w.truncate 8)).toNat } }
  else if 0x90000 ≤ off ∧ off < 0x90800 then
    { s with tr := { s.tr with stripes := Map.put s.tr.stripes ((off - 0x90000) / 8) w 0 } }
  else if 0xA0000 ≤ off ∧ off < 0xA0020 then s.invWrite (off - 0xA0000) w
  else if off = 0xC0000 then
    if w.truncate 6 = (0 : BitVec 6) then s else { s with ct := { s.ct with cflush := fld w.toNat 0 6 } }
  else if 0xD2000 ≤ off ∧ off < 0xD2010 then s.ckWrite (off - 0xD2000) w
  else if off = 0xE0000 then
    if s.ct.nren then s else { s with ct := { s.ct with nrbase := ((w >>> 12) <<< 12).truncate 56 } }
  else if 0xE1000 ≤ off ∧ off < 0xE2000 ∧ off % 64 = 8 then s.pcapWrite ((off - 0xE1000) / 64) w
  else if 0x400000 ≤ off ∧ off < 0x800000 then s.trapWrite ((off - 0x400000) / 64) (off % 64) w
  else s

/-- REGISTER_WRITE (R75). -/
def execRegisterWrite (off : Nat) (w : BitVec 64) (s : State) : Host.Outcome State Fault Refusal :=
  .next (if off % 8 = 0 then (s.ctlWrite off w).finish else s.finish)

end Sys2Proof.Machine
end

