-- ==== Sys2Proof/Machine/Preempt.lean ====
section
/-! DEFINITION. Pre-emption and restore of teams (R89, R430-R435). -/

namespace Sys2Proof.Machine

/-! ### The choice of a victim (R54, R89) -/

/-- The priority of a team's launch. -/
def State.prioOf (s : State) (T : Team) : Nat := ((s.launch T.launch).map (fun L => L.prio)).getD 0

/-- A team belongs to a co-resident unit. -/
def State.inUnit (s : State) (T : Team) : Bool := ((s.formeOf T).map Forme.coRes).getD false

/-- The teams that stop with a team: its whole unit where it is co-resident (R89). -/
def State.stopsWith (s : State) (t : Nat) : List Nat :=
  match s.tm t with
  | none => []
  | some T =>
    if s.inUnit T then
      let us := s.unit (((s.launch T.launch).map (fun L => L.head)).getD T.launch)
      (s.exe.teams.filter (fun p => us.contains p.2.launch && p.2.st == .started)).map (fun p => p.1)
    else [t]

/-- The state with the teams of a list, and those that are being pre-empted, off their cores. -/
def State.without (s : State) (ts : List Nat) : State :=
  { s with exe := { s.exe with teams := s.exe.teams.filter (fun p => !ts.contains p.1 && p.2.st != .stopping) } }

/-- A demand that no candidate can meet: the launch, the team, the priority and the first candidate domain. -/
structure Demand where
  l : Nat
  t : Nat
  prio : Nat
  d : Nat
deriving DecidableEq, Repr

/-- The unplaced teams that fit no candidate, those on whose behalf teams are already being pre-empted included. -/
def State.demands (s : State) : List Demand :=
  ([3, 2, 1] : List Nat).flatMap (fun p => (s.headsOf p).flatMap (fun h =>
    if h.2.forme.coRes && s.wk.gathering.isSome && s.wk.gathering != some h.1 then []
    else (s.unit h.1).flatMap (fun l =>
      match s.launch l with
      | none => []
      | some L => (List.range L.forme.teams).filterMap (fun t =>
        let cs := s.candidates L t true false
        if Map.has L.sent t || cs.any (fun d => s.fits d l L.forme t) then none
        else (cs.filter s.placeBit).head?.map (fun d => { l := l, t := t, prio := p, d := d })))))

/-- A demand fits a core of a state. -/
def State.meets (s : State) (D : Demand) (k : Nat) : Bool :=
  match s.launch D.l with
  | none => false
  | some L =>
    (match s.onlyTile L.forme D.t with | some tile => tile == k | none => true) && (s.coreAt k).state == 0 &&
      (s.fitCore k D.l L.forme).isSome

/-- The bytes of a team's save frame (R433, R434), up to a multiple of 512. -/
def State.frameSize (s : State) (T : Team) : Nat :=
  let up (n : Nat) : Nat := (n + 511) / 512 * 512
  let gs := (T.groups.map (fun g => up (0xA400 + 3200 * (((s.grp g).map (fun G => G.regs8)).getD 0)))).sum
  let gal := s.galSizeOf T
  up (4096 + gs + (gal + gal / 256) + 25600 * s.accOf T + 2048 + 8192 + 320 + 394240)

/-- Where a frame of `n` bytes fits into a context's save pool: the lowest address on a 4 KiB boundary (R433). -/
def State.poolFit (s : State) (ctx n : Nat) : Option Nat :=
  let b := s.trapBlk ctx
  let lo := b.savebase.toNat
  let hi := lo + b.savesize.toNat * 65536
  let used := (s.wk.frames.filter (fun p => p.2.ctx == ctx)).map (fun p => (p.2.base, p.2.size))
  let fits (o : Nat) : Bool := decide (o + n ≤ hi) && used.all (fun r => decide (r.1 + r.2 ≤ o) || decide (o + n ≤ r.1))
  ((lo :: used.map (fun r => (r.1 + r.2 + 4095) / 4096 * 4096)).filter fits).foldl (fun (b : Option Nat) o =>
    match b with
    | some x => some (min x o)
    | none => some o) none

/-- Allocates the frames of teams, in turn; none where one does not fit its pool. -/
def State.allocFrames (s : State) (ts : List Nat) : Option State :=
  ts.foldl (fun (r : Option State) t =>
    match r with
    | none => none
    | some s1 =>
      match s1.tm t with
      | none => none
      | some T =>
        let ctx := s1.ctxOf T
        let n := s1.frameSize T
        (s1.poolFit ctx n).map (fun base =>
          { s1 with wk := { s1.wk with
            frames := Map.insert s1.wk.frames t { ctx := ctx, base := base, size := n, team := T, groups := [], requests := [] } } })) (some s)

/-- The teams on a core that a demand of a priority may displace: running, of lower priority, their frames fitting. -/
def State.victimsOn (s : State) (k prio : Nat) : List (Nat × Team) :=
  s.exe.teams.filter (fun p => p.2.st == .started && p.2.coreKey == k &&
    (s.stopsWith p.1).all (fun t => ((s.tm t).map (fun T => decide (s.prioOf T < prio))).getD false) &&
    (s.allocFrames (s.stopsWith p.1)).isSome)

/-- The core that is being emptied on behalf of a demand. -/
def State.emptyingFor (s : State) (D : Demand) : Option Nat :=
  (s.wk.emptying.find? (fun e => e.1 == D.l && e.2.1 == D.t)).map (fun e => e.2.2)

/-- The cores of a demand's first candidate domain on which displacing teams would meet it; where one is being emptied
already, for it or for another, that one: teams of one core are pre-empted until the demand fits (R89). -/
def State.cheapCores (s : State) (D : Demand) : List Nat :=
  let ks := ((List.range 72).map (fun c => coreKey D.d c)).filter (fun k =>
    (s.without ((s.victimsOn k D.prio).flatMap (fun p => s.stopsWith p.1))).meets D k)
  let begun := match (s.emptyingFor D).filter ks.contains with
    | some k => [k]
    | none => ks.filter (fun k => s.exe.teams.any (fun p => p.2.st == .stopping && p.2.coreKey == k))
  if begun.isEmpty then ks else begun

/-- The order of victims: lowest priority, outside units first, most recently started first (R89). -/
def State.before (s : State) (a b : Team) : Bool :=
  let key (T : Team) : Nat × Nat := (s.prioOf T, if s.inUnit T then 1 else 0)
  decide ((key a).1 < (key b).1) || ((key a).1 == (key b).1 && (decide ((key a).2 < (key b).2) ||
    ((key a).2 == (key b).2 && decide (b.startSeq ≤ a.startSeq))))

/-- The victim of a demand; none where the cores being emptied will meet it. -/
def State.victim (s : State) (D : Demand) : Option Nat :=
  let ks := s.cheapCores D
  if ks.any (fun k => (s.without []).meets D k) then none
  else
    ((ks.flatMap (fun k => s.victimsOn k D.prio)).foldl (fun (b : Option (Nat × Team)) p =>
      match b with
      | some q => if s.before p.2 q.2 then some p else some q
      | none => some p) none).map (fun p => p.1)

/-! ### Stopping a team (R430-R432) -/

/-- The fate of a split at step 1 of R430: a waiting instruction is abandoned, but for a counted BAR and a trap that waits. -/
def Split.abandon (sp : Split) : Split :=
  if sp.st != .waiting then sp
  else match sp.wait with
    | .teamBar _ _ => sp
    | .bank t => { sp with st := .ready, wait := .bank t }
    | .trapFault _ t => { sp with st := .ready, wait := .bank t }
    | _ => { sp with st := .ready, wait := .none, xlat := [], relDone := false, arrived := 0, msg := none, inst := none }

/-- A group stops at an instruction boundary. -/
def Group.stop (G : Group) : Group :=
  let back := G.valid.filter (fun e => (G.sp e).st == .waiting && (G.sp e).abandon.st == .ready)
  let G1 := back.foldl Group.unjoin G
  { G1 with splits := G1.splits.map Split.abandon, rq := G1.rq.filter (fun e => !back.contains e) ++ back }

/-- The windows of a team are written back and emptied (R296): a loss is every group's. -/
def State.stopWindows (s : State) (t : Nat) (close : Bool) : State :=
  match s.tm t with
  | none => s
  | some T =>
    match T.groups with
    | [] => s
    | g :: _ =>
      let seq := ((s.grp g).map (fun G => G.seq)).getD 0
      let s1 := (s.modGrp g (fun G => { G with seq := G.seq + 1 })).writeBackAll t g seq true true none (fun _ _ => true)
      (s1.detachFills t (fun _ _ => true)).modTm t (fun T =>
        { T with windows := if close then [] else T.windows.map (fun (p : Nat × Window) => (p.1, { p.2 with lines := [] })) })

/-- The held requests of a team's groups, in the order of their issue. -/
def State.heldReqs (s : State) (T : Team) : List Nat :=
  Map.keys (s.ms.flights.filter (fun p => T.groups.contains p.2.g && p.2.lanes.any (fun l => l.fault.isSome)))

/-- Requests and copies of a team leave the fault entries that they are attached to (R431). -/
def State.detachTeam (s : State) (t : Nat) (T : Team) : State :=
  let mine (r : AReq) : Bool :=
    match r with
    | .lane fid _ => ((Map.find s.ms.flights fid).map (fun f => T.groups.contains f.g)).getD false
    | .split g _ => T.groups.contains g
    | .copy id => ((Map.find s.eng.copies id).map (fun c => c.team == t)).getD false
    | .slot g => T.groups.contains g
  { s with tr := { s.tr with faults := s.tr.faults.map (fun (p : Nat × FaultEnt) =>
    (p.1, { p.2 with reqs := p.2.reqs.filter (fun r => !mine r) })) } }

/-- Pre-emption of one team begins. -/
def State.stopTeam (s : State) (t : Nat) : State :=
  match s.tm t with
  | none => s
  | some T =>
    let s1 := T.groups.foldl (fun s g => s.modGrp g Group.stop) (s.setTm t { T with st := .stopping })
    let s2 := s1.stopWindows t false
    let held := s2.heldReqs T
    { s2.detachTeam t T with
        wk := { s2.wk with frames := Map.modify s2.wk.frames t (fun f => { f with requests := held }) } }

/-- No latch chain holds a group of the teams. -/
def State.chainsOver (s : State) (ts : List Nat) : Bool :=
  ts.all (fun t => ((s.tm t).map (fun T => T.groups.all (fun g => !s.inChain g))).getD true)

/-- The core of a victim is being emptied for its demand, until the demand's team has been sent. -/
def State.noteEmptying (s : State) (D : Demand) (k : Nat) : State :=
  { s with wk := { s.wk with emptying :=
    (D.l, D.t, k) :: s.wk.emptying.filter (fun e =>
      !(e.1 == D.l && e.2.1 == D.t) && ((s.launch e.1).map (fun L => !Map.has L.sent e.2.1)).getD false) } }

/-- PREEMPT_TEAM (R430): the victim that R89 names for a demand stops, with its unit. -/
def execPreemptTeam (team : Nat) (s : State) : Host.Outcome State Fault Refusal :=
  let ts := s.stopsWith team
  .next (match s.demands.find? (fun D => s.victim D == some team) with
    | some D =>
      if s.chainsOver ts then
        match s.allocFrames ts with
        | some s1 => (ts.foldl State.stopTeam (s1.noteEmptying D (((s.tm team).map Team.coreKey).getD 0))).finish
        | none => s.finish
      else s.finish
    | none => s.finish)

/-! ### The save frame (R433, R434) -/

/-- A register record: 96 words, 96 poison bits, the state (R434). -/
def regRecord (w : Nat → LW) (pend : Option Nat) (held : Bool) : List Byte :=
  (List.range 96).flatMap (fun j => leBytes 4 (w j).val.toNat) ++ laneBytes (Lanes.ofPred (fun j => (w j).psn)) ++
    leBytes 2 ((match pend with | some t => t + 256 | none => 0) + (if held then 512 else 0)) ++ leBytes 2 0

/-- The bytes of a trap frame, with their poison, where it can be read. -/
def State.frameRead (s : State) (G : Group) (T : Team) : Option (List (Byte × Bool)) :=
  match xlateRange s T.coreKey (s.ctxOf T) (s.tframe G T) 10240 .read false with
  | (.ok segs _ _, s1) => some ((s1.readNow T.coreKey segs).1.map (fun b => b.2))
  | _ => none

/-- A batch queue: the open batch's number and operations, how many sealed batches there are, and the operations of each. -/
def Batches.bytes (b : Batches) : List Byte :=
  leBytes 8 b.opened ++ leBytes 4 b.openOps ++ leBytes 2 b.sealedOps.length ++
    (List.range 63).flatMap (fun i => leBytes 2 (((b.sealedOps[i]?).map (fun p => p.2)).getD 0))

/-- The BAR wait of an entry: whether it waits, the barrier and the phase. -/
def Wait.barByte (w : Wait) : Nat :=
  match w with
  | .teamBar n ph => 128 + n % 8 + (if ph then 8 else 0)
  | _ => 0

/-- The control area of a group's section: what R434 lists, in its order, each part at its width (the places within it are the
model's: DESIGN CHOICE, log entry 102). A history that another group's beat has cost shows LVAL 0 (R175). -/
def Group.control (G : Group) (lost : Bool) : List Byte :=
  let entry (e : Nat) : Split := if lost then { G.shown e with lval := 0 } else G.shown e
  ([0, 1, 2, 3] : List Nat).flatMap (fun e => leBytes 48 (entry e).toNat) ++
  ([0, 1, 2, 3] : List Nat).flatMap (fun e => leBytes 2 (G.sp e).sig.toNat) ++
  leBytes 4 G.psw.toNat ++
  leBytes 8 G.tpc.toNat ++ leBytes 4 G.tcause.toNat ++ leBytes 16 G.tinst.toNat ++ leBytes 8 G.tva.toNat ++
  laneBytes G.tlanes ++ laneBytes G.tmask ++
  ([0, 1, 2, 3] : List Nat).flatMap (fun k => (G.bat k).bytes) ++
  leBytes 8 G.tDom ++ leBytes 8 G.tWafer ++ leBytes 8 G.tSys ++
  leBytes 1 (if G.lostst then 1 else 0) ++ leBytes 4 G.fflags.toNat ++ laneBytes G.dead ++ leBytes 1 G.req ++
  ([0, 1, 2, 3] : List Nat).flatMap (fun e => leBytes 1 (G.sp e).wait.barByte)

/-- The 16 bytes of a byte barrier (R324). -/
def ByteBar.toNat (b : ByteBar) : Nat :=
  b.expb + b.arrb * 2 ^ 32 + b.expa * 2 ^ 64 + b.arra * 2 ^ 80 + (if b.ph then 2 ^ 96 else 0) + (if b.psn then 2 ^ 97 else 0) +
    (if b.plast then 2 ^ 98 else 0)

/-- The byte barrier of 16 bytes. -/
def ByteBar.ofNat (n : Nat) : ByteBar :=
  { expb := n % 2 ^ 32, arrb := n / 2 ^ 32 % 2 ^ 32, expa := n / 2 ^ 64 % 2 ^ 16, arra := n / 2 ^ 80 % 2 ^ 16
    ph := n.testBit 96, psn := n.testBit 97, plast := n.testBit 98 }

/-- The bytes of a team's galley allocation: its byte barriers, barrier n at offset 16n, and the rest (R24, R324). -/
def State.galImage (s : State) (T : Team) : List Byte :=
  let b := s.bbarsOf T
  (List.range b).flatMap (fun n => leBytes 16 (T.bb n).toNat) ++ T.gbs (16 * b) (s.galSizeOf T - 16 * b)

/-- The bytes of a tile: elements, row poison and counters (R433). -/
def Tile.bytes (t : Tile) : List Byte :=
  (List.range 6144).flatMap (fun i => leBytes 4 (Map.getD t.elems i 0).toNat) ++ laneBytes t.poison ++
    leBytes 4 t.satc ++ leBytes 4 t.nanb ++ leBytes 4 t.ufc ++ leBytes 4 t.kdone

/-- The latch histories of a group are lost: another group's beat holds its slice (R175). -/
def State.latchLost (s : State) (T : Team) (g : Nat) (G : Group) : Bool :=
  (s.sliceAt (sliceKey T.coreKey G.slice)).owner != some g

/-- What R434 fixes of a group's section: pieces of bytes at their offsets. -/
def State.groupSection (s : State) (T : Team) (g : Nat) (G : Group) : List (Nat × List Byte) :=
  [(0, G.control (s.latchLost T g G))] ++
  (if G.lvl = 0 then [] else ((s.frameRead G T).map (fun bs => (0x400, bs.map (fun b => b.1)))).toList) ++
  (if G.bank then
      [(0x2C00, (List.range 16).flatMap (fun m => regRecord (G.reg (240 + m)) (G.pendOf (240 + m)) (G.isHeldReg (240 + m))))]
    else []) ++
  (match G.alatch with
   | some L =>
     [(0x4500, (List.range 32).flatMap (fun r => regRecord (fun j => Map.getD L.words (96 * r + j) {}) none false) ++
        (List.range 8).flatMap (fun r => regRecord (fun j => Map.getD L.scales (96 * r + j) {}) none false))]
   | none => []) ++
  [(0xA400, (List.range (8 * G.regs8)).flatMap (fun r =>
      let G0 := { G with bank := false }
      regRecord (G0.reg r) (G0.pendOf r) (G.isHeldReg r)))]

/-- The offset of each group's section in a frame. -/
def State.sectionOfs (s : State) (T : Team) (i : Nat) : Nat :=
  4096 + ((T.groups.take i).map (fun g => (0xA400 + 3200 * (((s.grp g).map (fun G => G.regs8)).getD 0) + 511) / 512 * 512)).sum

/-- The sector marks of a galley, bit s of the bytes for sector s. -/
def markBytes (T : Team) (n : Nat) : List Byte :=
  (List.range (n / 256)).map (fun i => (List.range 8).foldl (fun (b : Byte) k =>
    if T.gmark (32 * (8 * i + k)) then b ||| BitVec.twoPow 8 k else b) 0)

/-- The offset of the galley in a frame, and that of the tiles. -/
def State.galOfs (s : State) (T : Team) : Nat × Nat :=
  let o := s.sectionOfs T T.groups.length
  let n := s.galSizeOf T
  (o, o + n + n / 256)

/-- The offsets of a frame's sections, in the order of R433: the group sections, the galley, the tiles, Platen queues, copies, windows and
team barriers, the Seam. -/
def State.frameSections (s : State) (T : Team) : List Nat :=
  let o := s.galOfs T
  let p := o.2 + 25600 * s.accOf T
  (List.range T.groups.length).map (s.sectionOfs T) ++ [o.1, o.2, p, p + 2048, p + 10240, p + 10560]

/-- What R433 fixes of a frame: pieces of bytes at their offsets. The header's section offsets follow its first words (DESIGN CHOICE, log
entry 102). -/
def State.framePieces (s : State) (T : Team) : List (Nat × List Byte) :=
  let n := s.galSizeOf T
  let o := s.galOfs T
  let lseq := T.launch / 8
  [(0, leBytes 4 0x46545653 ++ leBytes 2 (s.ctxOf T) ++ leBytes 2 T.groups.length ++ leBytes 8 lseq ++ leBytes 4 T.index ++
      leBytes 4 (s.frameSize T / 512) ++ leBytes 8 (s.wtime T.domain) ++
      (s.frameSections T).flatMap (fun a => leBytes 8 a))] ++
  ((List.range T.groups.length).zip T.groups).flatMap (fun p =>
    match s.grp p.2 with
    | some G => (s.groupSection T p.2 G).map (fun q => (s.sectionOfs T p.1 + q.1, q.2))
    | none => []) ++
  [(o.1, s.galImage T ++ markBytes T n)] ++
  (List.range (s.accOf T)).map (fun a => (o.2 + 25600 * a, (Map.getD T.tiles a ({} : Tile)).bytes))

/-- The sectors of a frame that take poison: those of a trap frame's copy whose source is poisoned (R436). -/
def State.frameMarks (s : State) (T : Team) : List Nat :=
  ((List.range T.groups.length).zip T.groups).flatMap (fun p =>
    match s.grp p.2 with
    | some G =>
      if G.lvl = 0 then []
      else
        let bs := (s.frameRead G T).getD []
        ((List.range bs.length).zip bs).filterMap (fun b => if b.2.2 then some ((s.sectionOfs T p.1 + 0x400 + b.1) / 32) else none)
    | none => [])

/-- A team's frame is written: the pieces that the layout fixes, free values elsewhere. -/
def State.writeFrame (s : State) (T : Team) (base : Nat) : State :=
  let n := s.frameSize T
  let (w, s1) := s.draws (n / 4)
  let s2 := s1.putBs base ((List.range (n / 4)).flatMap (fun i => leBytes 4 (w i).toNat))
  let s3 := (s.framePieces T).foldl (fun s p => s.putBs (base + p.1) p.2) s2
  let s4 := (List.range (n / 32)).foldl (fun s i => s.setMark (base / 32 + i) false) s3
  (s.frameMarks T).foldl (fun s i => s.setMark (base / 32 + i) true) s4

/-- The copy of a trap frame waits for its page, as an access of the group does, or ends the team (R415, R434); none where every trap frame
can be read. -/
def State.frameWait (s : State) (T : Team) : Option State :=
  T.groups.findSome? (fun g => (s.grp g).bind (fun G =>
    if G.lvl = 0 then none
    else
      match xlateRange s T.coreKey (s.ctxOf T) (s.tframe G T) 10240 .read false with
      | (.ok _ _ _, _) => none
      | (.fatal _ cause, s1) => some (s1.terminate G.team cause)
      | (.recov va lvl cls, s1) =>
        if s1.tr.faults.any (fun p => p.2.reqs.contains (.slot g)) then some s1
        else some (attachFault s1 T.coreKey (s.ctxOf T) T.index va lvl cls .read (.slot g)).2))

/-! ### The end of pre-emption (R430, R431, R86) -/

/-- A lane of a galley load waits for held stash fills alone. -/
def State.behindFills (s : State) (fid : Nat) (l : LaneAcc) : Bool :=
  l.left.all (fun w => s.ms.flights.any (fun q =>
    q.2.parent == some fid && q.2.lanes.any (fun a => a.data2 == w && a.fault.isSome)))

/-- A request has nothing left to land in the frame: its lanes are delivered or held, and a fill has ended or is held. -/
def State.landed (s : State) (fid : Nat) (f : Flight) : Bool :=
  match f.kind with
  | .store | .red => true
  | .stashFill => f.lanes.all (fun l => l.fault.isSome)
  | .load | .atom => f.lanes.all (fun l =>
      l.fault.isSome || (l.isDone && (l.done || f.ticket.isNone)) || (!l.left.isEmpty && s.behindFills fid l))

/-- The engines of a team have come to rest: copies are suspended, or move nothing behind a request that a fault holds (R315, R331), no drain moves, and messages have been delivered as far
as their ports have room (R401, R430). -/
def State.atRest (s : State) (t : Nat) (T : Team) : Bool :=
  s.ms.flights.all (fun p => !T.groups.contains p.2.g || s.landed p.1 p.2) &&
  s.eng.copies.all (fun p => p.2.team != t || p.2.suspended.isSome || p.2.blocked s (p.2.unit p.2.done)) &&
  s.eng.pops.all (fun p => p.2.team != t || p.2.unstarted) &&
  s.eng.smsgs.all (fun p => !(p.2.team == t || p.2.dest == some t) ||
    (match p.2.dest.bind s.tm with
     | some D => decide (4 ≤ (Map.getD D.ports p.2.port []).length)
     | none => false))

/-- PREEMPTION_END (R431): the frame is written and the core's resources are free. -/
def execPreemptionEnd (team : Nat) (s : State) : Host.Outcome State Fault Refusal :=
  .next (match s.tm team, Map.find s.wk.frames team with
    | some T, some f =>
      if T.st == .stopping && s.atRest team T then
        match s.frameWait T with
        | some s1 => s1.finish
        | none =>
        let ratio (G : Group) : Nat := (s.sliceAt (sliceKey T.coreKey G.slice)).ratio
        let s1 := T.groups.foldl (fun s g => s.modGrp g (fun G => G.countCycles s.clk.cycle (ratio G))) s
        let late := s1.heldReqs T
        let s2 := (s1.writeFrame T f.base).detachTeam team T
        let gs := T.groups.filterMap (fun g => (s2.grp g).map (fun G => (g, G)))
        let reqs := f.requests.filter late.contains ++ late.filter (fun r => !f.requests.contains r)
        let f1 := { f with team := T, groups := gs, requests := reqs }
        { s2.setTm team { T with st := .saved, frame := some f.base } with
            wk := { s2.wk with frames := Map.insert s2.wk.frames team f1 } }.finish
      else s.finish
    | _, _ => s.finish)

/-! ### Restore (R435) -/

/-- The register, poison and state of a record (R434). -/
def recordWord (bs : Array Byte) (o j : Nat) : LW :=
  { val := BitVec.ofNat 32 (frameNat bs (o + 4 * j) 4), psn := (bs.getD (o + 384 + j / 8) 0).getLsbD (j % 8) }

/-- The ticket of a record that is PENDING. -/
def recordPend (bs : Array Byte) (o : Nat) : Option Nat :=
  if (bs.getD (o + 397) 0).getLsbD 0 then some (bs.getD (o + 396) 0).toNat else none

/-- The words of `n` records from an offset, keyed from register `r0`. -/
def recordWords (bs : Array Byte) (o n r0 : Nat) : Map LW :=
  Map.putAll [] {} ((List.range n).flatMap (fun r => (List.range 96).map (fun j => (96 * (r0 + r) + j, recordWord bs (o + 400 * r) j))))

/-- The tickets of `n` records from an offset, keyed from register `r0`. -/
def recordPends (bs : Array Byte) (o n r0 : Nat) : Map Nat :=
  (List.range n).foldl (fun (m : Map Nat) r =>
    match recordPend bs (o + 400 * r) with
    | some t => Map.insert m (r0 + r) t
    | none => m) []

/-- The numbers of the split table of a section. -/
def tableOf (bs : Array Byte) : List Nat := ([0, 1, 2, 3] : List Nat).map (fun e => frameNat bs (48 * e) 48)

/-- The tickets of the PENDING slots of a trap frame's copy (R416, R434). -/
def slotPends (bs : Array Byte) : List Nat :=
  (List.range 16).filterMap (fun m =>
    let w := frameNat bs (0x400 + 0x18C0 + 2 * m) 2
    if w.testBit 8 then some (w % 256) else none)

/-- A section cannot be restored: an entry with a reserved ST or with MASK outside MEMB, or a PENDING state, of a register or of a slot of
the trap frame, whose ticket has no claim (R161, R435). -/
def Group.refused (G : Group) (bs : Array Byte) : Bool :=
  let pends := (recordPends bs 0xA400 (8 * G.regs8) 0 ++ (if G.bank then recordPends bs 0x2C00 16 240 else [])).map (fun p => p.2) ++
    (if G.lvl = 0 then [] else slotPends bs)
  (tableOf bs).any (fun n =>
    (SplitSt.ofCode (n / 2 ^ 321 % 8)).isNone ||
      (BitVec.ofNat 96 (n / 2 ^ 224) &&& ~~~ (BitVec.ofNat 96 (n / 2 ^ 128) : Lanes)) != 0) ||
  pends.any (fun t => !Map.has G.claims t)

/-- The batch queue of a class as a control area gives it, from an offset. -/
def batchesOf (bs : Array Byte) (o : Nat) : Batches :=
  let n := frameNat bs o 8
  let c := min (frameNat bs (o + 12) 2) (min n 63)
  { opened := n, openOps := frameNat bs (o + 8) 4
    sealedOps := (List.range c).map (fun i => (n - c + i, frameNat bs (o + 14 + 2 * i) 2)) }

/-- The control state of a group as its section gives it (R434, R435). -/
def Group.loadControl (G : Group) (bs : Array Byte) : Group :=
  let psw := frameNat bs 200 4
  { G with
      splits := ((List.range G.splits.length).zip G.splits).map (fun p => { p.2 with sig := BitVec.ofNat 16 (frameNat bs (192 + 2 * p.1) 2) })
      lvl := min (psw % 4) 2, bank := psw.testBit 3, held := BitVec.ofNat 4 (psw / 16), frozen := psw.testBit 8
      tpc := BitVec.ofNat 64 (frameNat bs 204 8), tcause := BitVec.ofNat 32 (frameNat bs 212 4)
      tinst := BitVec.ofNat 128 (frameNat bs 216 16), tva := BitVec.ofNat 64 (frameNat bs 232 8)
      tlanes := BitVec.ofNat 96 (frameNat bs 240 12), tmask := BitVec.ofNat 96 (frameNat bs 252 12)
      bat0 := batchesOf bs 264, bat1 := batchesOf bs 404, bat2 := batchesOf bs 544, bat3 := batchesOf bs 684
      tDom := frameNat bs 824 8, tWafer := frameNat bs 832 8, tSys := frameNat bs 840 8
      lostst := frameNat bs 848 1 % 2 == 1, fflags := BitVec.ofNat 32 (frameNat bs 849 4)
      dead := BitVec.ofNat 96 (frameNat bs 853 12), req := frameNat bs 865 1 % 4 }

/-- A group as its section gives it, on a slice and slot (R435): the history is not saved, and LVAL is 0. -/
def Group.reload (G0 : Group) (bs : Array Byte) (slice slot cycle : Nat) : Group :=
  let G := G0.loadControl bs
  let table := tableOf bs
  let reload1 (p : Nat × Split) : Split := { (p.2.ofNat (table.getD p.1 0)) with chain := 0, lval := 0, latch := [], fbuf := [] }
  let regs := (recordWords bs 0xA400 (8 * G.regs8) 0).filter (fun p => decide (384 ≤ p.1))
  let latch := G.alatch.map (fun (L : ALatch) =>
    { L with words := recordWords bs 0x4500 32 0, scales := recordWords bs (0x4500 + 12800) 8 0 })
  { G with
      slice := slice, slot := slot, cyclesAt := cycle
      splits := ((List.range G.splits.length).zip G.splits).map reload1
      regs := regs
      pend := recordPends bs 0xA400 (8 * G.regs8) 0
      hregs := if G.bank then recordWords bs 0x2C00 16 0 else []
      hpend := if G.bank then recordPends bs 0x2C00 16 240 else []
      alatch := latch }

/-- The bytes of a stretch of memory. -/
def State.mArr (s : State) (pa n : Nat) : Array Byte := (s.mbs pa n).toArray

/-- A tile as its bytes give it. -/
def Tile.ofBytes (bs : Array Byte) : Tile :=
  { elems := Map.putAll [] 0 ((List.range 6144).map (fun i => (i, BitVec.ofNat 32 (frameNat bs (4 * i) 4))))
    poison := BitVec.ofNat 96 (frameNat bs 24576 12), satc := frameNat bs 24588 4, nanb := frameNat bs 24592 4
    ufc := frameNat bs 24596 4, kdone := frameNat bs 24600 4 }

/-- The galley with its byte barriers and marks, and the tiles of a team, as a frame gives them. -/
def State.reloadTeam (s : State) (T : Team) (base : Nat) : Team :=
  let n := s.galSizeOf T
  let o := s.galOfs T
  let b := s.bbarsOf T
  let bs := s.mArr (base + o.1) (n + n / 256)
  { T with
      bbars := (List.range b).foldl (fun (m : Map ByteBar) i => Map.put m i (ByteBar.ofNat (frameNat bs (16 * i) 16)) {}) []
      galley := Map.putAll [] 0 (((List.range n).drop (16 * b)).map (fun i => (i, bs.getD i 0)))
      gmarks := Map.putAll [] false ((List.range (n / 32)).map (fun q => (q, (bs.getD (n + q / 8) 0).getLsbD (q % 8))))
      tiles := (List.range (s.accOf T)).foldl (fun (m : Map Tile) a =>
        Map.put m a (Tile.ofBytes (s.mArr (base + o.2 + 25600 * a) 25600)) {}) T.tiles }

/-- Reserves a core for a saved team: the tile it had where it is placed by region, or a core where it fits; `core` names one, none leaves the choice
to the dispatcher (R83, R89). -/
def State.reserveSaved (s : State) (t : Nat) (core : Option Nat) : Option State :=
  match s.tm t with
  | none => none
  | some T =>
    match s.launch T.launch with
    | none => none
    | some L =>
      let only := if L.forme.region then some T.coreKey else none
      let pick :=
        match core with
        | some c =>
          let k := coreKey T.domain c
          if (match only with | some tile => tile == k | none => true) && (s.coreAt k).state == 0 then
            (s.fitCore k T.launch L.forme).map (fun p => (k, p))
          else none
        | none => s.chooseCore T.domain T.launch L.forme only
      let banks (p : Nat × List (Nat × Nat) × Nat) : Bool :=
        (List.range 6).all (fun sl => decide (s.banksUsed p.1 sl + ((T.groups.zip p.2.1).filter (fun q =>
          q.2.1 == sl && ((s.grp q.1).map (fun G => G.bank)).getD false)).length ≤ 2))
      if T.st == .saved && s.placeBit T.domain then
        (pick.filter banks).map (fun p => s.setTm t { T with core := p.1 % 72, plan := p.2.1, galBase := p.2.2, st := .reserved })
      else none

/-- No team of a team's unit is still stopping: a unit is restored when all of it can be (R89, R90). -/
def State.unitStopped (s : State) (T : Team) : Bool :=
  !s.inUnit T ||
    (let us := s.unit (((s.launch T.launch).map (fun L => L.head)).getD T.launch)
     s.exe.teams.all (fun p => !us.contains p.2.launch || p.2.st != .stopping))

/-- The teams that are restored with a team: the saved teams of its unit, or itself. -/
def State.restoresWith (s : State) (t : Nat) (T : Team) : List Nat :=
  if s.inUnit T then
    let us := s.unit (((s.launch T.launch).map (fun L => L.head)).getD T.launch)
    t :: (s.exe.teams.filter (fun p => us.contains p.2.launch && p.2.st == .saved && p.1 != t)).map (fun p => p.1)
  else [t]

/-- Requests, copies and Platen operations of a team act for its new core. -/
def State.rehome (s : State) (t : Nat) (T : Team) (k : Nat) : State :=
  { s with
      ms := { s.ms with flights := s.ms.flights.map (fun (p : Nat × Flight) =>
        if T.groups.contains p.2.g then (p.1, { p.2 with core := k }) else p) }
      eng := { s.eng with
        copies := s.eng.copies.map (fun (p : Nat × Copy) =>
          if p.2.team = t then (p.1, { p.2 with core := k, suspended := none }) else p)
        pops := s.eng.pops.map (fun (p : Nat × POp) => if p.2.team = t then (p.1, { p.2 with core := k }) else p) } }

/-- The trap frame of a group at a handler level is written to its new place; `none` where a page faults recoverably. -/
def State.placeFrame (s : State) (g : Nat) (G : Group) (T : Team) (bs : List Byte) : Option State :=
  if G.lvl = 0 then some s
  else
    match xlateRange s T.coreKey (s.ctxOf T) (s.tframe G T) 10240 .write false with
    | (.ok segs mem _, s1) =>
      let a := bs.toArray
      some (s1.writeNow T.coreKey g G.seq segs (fun i => a.getD i 0) (fun _ => false) mem)
    | (.recov _ _ _, _) => none
    | (.fatal _ cause, s1) => some (s1.terminate G.team cause)

/-- One group of a team takes its section (R435). -/
def State.reloadGroup (s : State) (t : Nat) (base i g sl : Nat) : Option State :=
  match s.grp g, s.tm t with
  | some G, some T =>
    let o := base + s.sectionOfs T i
    let slot := s.freeSlotNo T.coreKey sl
    let s1 := s.sliceGains T.coreKey sl slot
    let G1 := G.reload (s1.mArr o (0xA400 + 3200 * G.regs8)) sl slot s.clk.cycle
    (s1.setGrp g G1).placeFrame g G1 T (s1.mbs (o + 0x400) 10240)
  | _, _ => some s

/-- The cause for which a frame is refused (R435). -/
def State.frameRefused (s : State) (T : Team) (f : SaveFrame) : Option Nat :=
  if (List.range (f.size / 32)).any (fun i => s.mark (f.base + 32 * i)) then some cPoison
  else if ((List.range T.groups.length).zip T.groups).any (fun p =>
      match s.grp p.2 with
      | some G => G.refused (s.mArr (f.base + s.sectionOfs T p.1) (0xA400 + 3200 * G.regs8))
      | none => false) then some cSplitState
  else none

/-- A reserved team that was saved takes its frame and runs (R435). -/
def State.reloadOne (s : State) (t : Nat) : Option State :=
  match s.tm t, Map.find s.wk.frames t with
  | some T, some f =>
    let bare := { s with wk := { s.wk with frames := Map.erase s.wk.frames t } }
    match s.frameRefused T f with
    | some cause => some ((bare.setTm t { T with frame := none }).terminate t cause)
    | none =>
      -- slots that the groups held before count for nothing
      let s1 := T.groups.foldl (fun s g => s.modGrp g (fun G => { G with slice := 6 })) bare
      let s2 := s1.rehome t T T.coreKey
      let gs := (List.range T.groups.length).zip (T.groups.zip T.plan)
      match gs.foldl (fun (r : Option State) p => r.bind (fun s => s.reloadGroup t f.base p.1 p.2.1 p.2.2.1)) (some s2) with
      | none => none
      | some s3 =>
        let T1 := s3.reloadTeam ((s3.tm t).getD T) f.base
        let s4 := s3.setTm t { T1 with
          st := if T1.st == .reserved then .started else T1.st, frame := none, startSeq := s3.exe.startSeq }
        let s5 := { s4 with exe := { s4.exe with startSeq := s4.exe.startSeq + 1 } }
        some (f.requests.foldl (fun s fid =>
          (((Map.find s.ms.flights fid).map (fun F => F.lanes)).getD []).foldl (fun s l => s.retryLane fid l.lane) s) s5)
  | _, _ => none

/-- RESTORE_TEAM (R435): a co-resident unit is restored as one. -/
def execRestoreTeam (team core : Nat) (s : State) : Host.Outcome State Fault Refusal :=
  .next (match s.tm team with
    | none => s.finish
    | some T =>
      let ts := s.restoresWith team T
      let placed := ts.foldl (fun (r : Option State) t =>
        r.bind (fun s => s.reserveSaved t (if t = team then some core else none))) (some s)
      match (placed.filter (fun _ => s.unitStopped T)).bind (fun s1 => ts.foldl (fun (r : Option State) t => r.bind (fun s => s.reloadOne t)) (some s1)) with
      | some s2 => s2.finish
      | none => s.finish)

end Sys2Proof.Machine
end

