-- ==== Sys2Proof/Machine/Retire.lean ====
section
/-! DEFINITION. Retirement of groups, teams, launches and quires (R471-R474), completion records (R36-R39), and host
notification (R475-R477). -/

namespace Sys2Proof.Machine

/-! ### Groups and teams (R471, R472) -/

/-- Every batch of a group, open or sealed, has completed (R328). -/
def Group.batchesOver (G : Group) : Bool :=
  ([0, 1, 2, 3] : List Nat).all (fun c => (G.bat c).openOps == 0 && (G.bat c).sealedOps.isEmpty)

/-- A group may retire (R471). -/
def Group.mayRetire (G : Group) : Bool :=
  !G.retired && !G.stopped && G.valid.isEmpty && G.claims.isEmpty && G.holds.isEmpty && G.batchesOver

/-- GROUP_RETIRE (R471). -/
def execGroupRetire (g : Nat) (s : State) : Host.Outcome State Fault Refusal :=
  .next (match s.grp g with
    | some G => if G.mayRetire then (s.modGrp g (fun G => { G with retired := true, alatch := none })).finish else s.finish
    | none => s.finish)

/-- Nothing of a team is in an engine: copies, Platen operations, Seam operations and messages (R331, R348, R401). -/
def State.enginesIdle (s : State) (t : Nat) : Bool :=
  s.eng.copies.all (fun p => p.2.team != t) && s.eng.pops.all (fun p => p.2.team != t) &&
    s.eng.sops.all (fun p => p.2.team != t) && s.eng.smsgs.all (fun p => p.2.team != t)

/-- Every claim of a terminated team has resolved: what a fault still holds is discarded (R425). -/
def State.claimsOver (s : State) (T : Team) : Bool :=
  s.ms.flights.all (fun p => !T.groups.contains p.2.g || p.2.kind == .store || p.2.kind == .red ||
    p.2.lanes.all (fun l => l.fault.isSome || (l.isDone && (l.done || p.2.ticket.isNone)) || (!l.left.isEmpty && s.behindFills p.1 l)))

/-- The system-scope completion time of every store of a team's groups has been reached (R472 step 3). -/
def State.storesOver (s : State) (T : Team) : Bool :=
  T.groups.all (fun g => ((s.grp g).map (fun G =>
    G.stores.isEmpty && decide (G.tSys ≤ s.wtimeCore T.coreKey) && !s.storeHeld g (2 ^ 65))).getD true)

/-- A team's resources are free, its galley is scrubbed, and what was held for it is dropped (R86). Its tiles are free for other teams and
keep what they hold for it. -/
def State.freeTeam (s : State) (t : Nat) (T : Team) (st : TeamSt) : State :=
  let s1 := s.modMs (fun m => { m with flights := m.flights.filter (fun p =>
    !(T.groups.contains p.2.g && (p.2.kind == .load || p.2.kind == .atom || p.2.kind == .stashFill))) })
  let s2 := T.groups.foldl (fun s g => s.modGrp g (fun G => { G with retired := true, stopped := true, alatch := none, bank := false })) s1
  { s2.setTm t
      { T with
          st := st, galley := [], gmarks := [], bbars := [], tbars := [], windows := [], ports := [], plan := [], frame := none } with
      wk := { s2.wk with frames := Map.erase s2.wk.frames t } }

/-- The end of a team whose engines have come to rest (R472): steps 1 and 2, and steps 3 and 4 once its stores are done. -/
def State.retireTeam (s : State) (t : Nat) : State :=
  let s0 := s.stopWindows t true
  match s0.tm t with
  | none => s
  | some T =>
    let s1 := s0.sendCore T.coreKey
    if T.st == .terminated then s1.freeTeam t T .retired
    else if !s1.storesOver T then s1
    else
      let lost := T.groups.any (fun g => ((s1.grp g).map (fun G => G.lostst)).getD false)
      if lost then
        ((s1.modLaunch T.launch (fun L => if L.cause.isNone then { L with cause := some cLostStore } else L)).failQuire
          T.launch).freeTeam t { T with cause := some cLostStore } .retired
      else s1.freeTeam t T .retired

/-- TEAM_RETIRE (R472). -/
def execTeamRetire (team : Nat) (s : State) : Host.Outcome State Fault Refusal :=
  .next (match s.tm team with
    | none => s.finish
    | some T =>
      let done : Bool := T.groups.all (fun g => ((s.grp g).map (fun G => G.retired)).getD true)
      let ready : Bool :=
        s.enginesIdle team && ((T.st == .started && done) || (T.st == .terminated && s.claimsOver T))
      if ready then (s.retireTeam team).finish else s.finish)

/-! ### Completion records (R36-R39, R473) -/

/-- STATUS and DETAIL of a launch (R38). -/
def Launch.statusDetail (L : Launch) : Nat × Nat :=
  match L.invalid, L.cause, L.qfail with
  | some o, _, _ => (1, o)
  | none, c, q =>
    if 0 < L.nlost then (3, 0)
    else match c, q with
      | some c, _ => (2, c)
      | none, some i => (4, i)
      | none, none => if L.cancelled then (5, 0) else (0, 0)

/-- The 32 bytes of a launch's completion record (R36). -/
def Launch.record (L : Launch) (wend : Nat) : List Byte :=
  leBytes 2 L.statusDetail.1 ++ leBytes 2 L.statusDetail.2 ++ leBytes 4 L.forme.tag.toNat ++ leBytes 8 L.wstart ++
    leBytes 8 wend ++ leBytes 4 L.nlost ++ leBytes 4 (2 ^ 31)

/-- What writing a record comes to: written by a request, lost, or to wait for a page. -/
inductive RecW where
  | ok (req : Nat) (s : State)
  | lost
  | wait

/-- Writes the completion record of a launch through its context's translation (R36, R473). -/
def State.writeRecord (s : State) (L : Launch) : RecW :=
  if !canonical L.forme.crec || L.forme.crec % 32 != 0 then .lost
  else
    match plainXl s L.forme.ctx L.forme.crec .write with
    | .fatal _ => .lost
    | .recov _ _ => .wait
    | .ok l pa =>
      if s.fencedAcc pa l.cls l.owner then .lost
      else
        let ws : List WByte := ((List.range 32).zip (L.record s.wtimeEnc)).map (fun p => (pa + p.1, p.2, false))
        let (bs, ms) := storeParts (pa / 128) ws 0
        let (fid, s1) := s.addFlight { kind := .store }
        .ok fid (s1.performHome fid (pa / 128) l.cls l.owner l.mem bs ms [])

/-- Retires one launch: its record is written or lost; `none` where it waits. The answer is the record's request. -/
def State.retireOne (s : State) (l : Nat) : Option (Option Nat × State) :=
  match s.launch l with
  | none => some (none, s)
  | some L =>
    let fin (lost : Bool) (s : State) : State :=
      s.modLaunch l (fun L => { L with retired := true, recorded := true, rlost := lost, status := L.statusDetail.1 })
    match s.writeRecord L with
    | .wait => none
    | .lost => some (none, fin true s)
    | .ok req s1 => some (some req, fin false s1)

/-- A launch has ended: every team has retired or been lost, or was never placed (R473). Its record covers every memory effect of its
teams, so the stores of a terminated team must be over too (R36; DEDUCED, log entry 101). -/
def State.launchEnded (s : State) (l : Nat) : Bool :=
  match s.launch l with
  | none => true
  | some L =>
    (L.invalid.isSome || L.cancelled || L.qfail.isSome || !L.unplaced) &&
      s.exe.teams.all (fun p => p.2.launch != l || (p.2.st == .retired && s.storesOver p.2) || p.2.st == .lost)

/-! ### SQHEAD (R46, R473, R477) -/

/-- The launches of a unit leave, with their teams and groups. -/
def State.forget (s : State) (head : Nat) : State :=
  let us := s.unit head
  let ts := (s.exe.teams.filter (fun p => us.contains p.2.launch)).map (fun p => p.1)
  { s with
      wk := { s.wk with launches := s.wk.launches.filter (fun p => !us.contains p.1) }
      exe := { s.exe with
        teams := s.exe.teams.filter (fun p => !ts.contains p.1)
        groups := s.exe.groups.filter (fun p => !ts.contains p.2.team) } }

/-- SQHEAD of a queue moves past `n` slots at most: those whose launches have retired and whose entries do not wait. -/
def State.advanceHead (q : Nat) : Nat → State → State
  | 0, s => s
  | n + 1, s =>
    let Q := s.queue q
    if Q.head = Q.acc then s
    else
      match s.wk.launches.find? (fun p => p.2.queue == q && p.2.slot == Q.head && p.2.sub == 0) with
      | none => s
      | some (l, L) =>
        if s.unitRetired L && !s.ct.waiting.any (fun w => w.lseq == l / 8) then
          State.advanceHead q n ((s.forget l).modQueue q (fun Q => { Q with head := Q.head + 1 }))
        else s

/-- SQHEAD of a queue moves as far as it may. -/
def State.advance (s : State) (q : Nat) : State := State.advanceHead q (s.queue q).slots s

/-- A head launch has retired: its entry waits to be written where it asks for one, SQHEAD moves, and the signal is raised. -/
def State.announce (s : State) (l : Nat) (req : Option Nat) : State :=
  match s.launch l with
  | none => s
  | some L =>
    let s1 :=
      if L.forme.notify && s.ct.nren then
        let n : Notify :=
          { lseq := l / 8, tag := L.forme.tag, status := L.status, queue := L.queue, rlost := L.rlost, quire := L.forme.quire, req := req }
        { s with ct := { s.ct with waiting := s.ct.waiting ++ [n] } }
      else s
    raiseSignal (s1.advance L.queue) 4

/-- LAUNCH_RETIRE (R473): a launch that is no quire. -/
def execLaunchRetire (l : Nat) (s : State) : Host.Outcome State Fault Refusal :=
  .next (match s.launch l with
    | none => s.finish
    | some L =>
      if L.retired || L.sub != 0 || L.forme.quire || !s.launchEnded l then s.finish
      else
        match s.retireOne l with
        | none => s.finish
        | some (req, s1) => (s1.announce l req).finish)

/-- QUIRE_RETIRE (R474): the bodies' records in order, then the head's. -/
def execQuireRetire (l : Nat) (s : State) : Host.Outcome State Fault Refusal :=
  .next (match s.launch l with
    | none => s.finish
    | some L =>
      if L.retired || L.sub != 0 || !L.forme.quire || !(s.unit l).all s.launchEnded then s.finish
      else
        match (L.bodies ++ [l]).foldl (fun (r : Option (Option Nat × State)) b => r.bind (fun p => p.2.retireOne b)) (some (none, s)) with
        | none => s.finish
        | some (req, s1) => (s1.announce l req).finish)

/-! ### Host notification (R475-R477) -/

/-- The number of entries of the ring. -/
def Ctl.ringSize (c : Ctl) : Nat := 2 ^ c.nrlog2n.toNat

/-- The 16 bytes of entry `k` (R476). -/
def Notify.bytes (n : Notify) (k size : Nat) : List Byte :=
  leBytes 8 n.lseq ++ leBytes 4 n.tag.toNat ++ leBytes 2 n.status ++ leBytes 1 n.queue ++
    leBytes 1 ((if n.rlost then 1 else 0) + (if n.quire then 2 else 0) + (if k / size % 2 = 0 then 128 else 0))

/-- NOTIFY_ENTRY_WRITE (R476, R477): after the release of its record, where the ring has room. -/
def execNotifyEntryWrite (s : State) : Host.Outcome State Fault Refusal :=
  .next (match s.ct.waiting with
    | [] => s.finish
    | n :: rest =>
      let k := s.ct.nrtail.toNat
      let full : Bool := decide (s.ct.ringSize ≤ (s.ct.nrtail - s.ct.nrhead).toNat)
      let early : Bool := (n.req.map (fun r => Map.has s.ms.flights r)).getD false
      if full || early then s.finish
      else
        let s1 := s.putBs (s.ct.nrbase.toNat + 16 * (k % s.ct.ringSize)) (n.bytes k s.ct.ringSize)
        ({ s1 with ct := { s1.ct with waiting := rest, nrtail := s1.ct.nrtail + 1, unsent := s1.ct.unsent + 1 } }.advance
          n.queue).finish)

/-- No message has been sent in the coalescing interval that runs. -/
def State.coalOver (s : State) : Bool :=
  match s.ct.lastMsg with
  | none => true
  | some t => decide (t + 100 * s.ct.nrcoal.toNat ≤ s.wtimeEnc)

/-- An MSI-X message is sent: for one entry without coalescing, else for all that have been written. -/
def State.sendMsg (s : State) : State :=
  { s with ct := { s.ct with
    msgs := s.ct.msgs + 1, lastMsg := some s.wtimeEnc, unsent := if s.ct.nrcoal = 0 then s.ct.unsent - 1 else 0 } }

/-- MSIX_MESSAGE (R477). -/
def execMsixMessage (s : State) : Host.Outcome State Fault Refusal :=
  .next (if 0 < s.ct.unsent ∧ s.coalOver then s.sendMsg.finish else s.finish)

/-- COAL_INTERVAL_EXPIRY (R477). -/
def execCoalIntervalExpiry (s : State) : Host.Outcome State Fault Refusal :=
  .next (if 0 < s.ct.unsent ∧ s.ct.nrcoal ≠ 0 ∧ s.ct.lastMsg.isSome ∧ s.coalOver then s.sendMsg.finish else s.finish)

/-- The fields of word 0x08 that a write may change while the ring is off. -/
def Ctl.ringConfig (c : Ctl) (w : BitVec 64) : Ctl :=
  { c with nrlog2n := w.truncate 5, nrvec := (w >>> 16).truncate 11, nrcoal := (w >>> 32).truncate 16 }

/-- NOTIFY_RING_ENABLE (R475): a write of word 0x08 with NREN set. -/
def execNotifyRingEnable (w : BitVec 64) (s : State) : Host.Outcome State Fault Refusal :=
  let coal : BitVec 16 := (w >>> 32).truncate 16
  .next (if !w.getLsbD 5 then s.finish
    else if s.ct.nren then { s with ct := { s.ct with nrcoal := coal } }.finish
    else
      let c := s.ct.ringConfig w
      if 4 ≤ c.nrlog2n.toNat ∧ c.nrlog2n.toNat ≤ 16 then
        { s with ct := { c with nren := true, nrtail := 0, nrhead := 0 } }.finish
      else { s with ct := c }.finish)

/-- NOTIFY_RING_DISABLE (R475): a write of word 0x08 with NREN clear. -/
def execNotifyRingDisable (w : BitVec 64) (s : State) : Host.Outcome State Fault Refusal :=
  .next (if w.getLsbD 5 then s.finish
    else if s.ct.nren then
      let qs := dedup (s.ct.waiting.map (fun n => n.queue))
      (qs.foldl State.advance { s with ct := { s.ct with nren := false, nrcoal := (w >>> 32).truncate 16, waiting := [] } }).finish
    else { s with ct := s.ct.ringConfig w }.finish)

/-- NRHEAD_WRITE (R475). -/
def execNrheadWrite (w : BitVec 32) (s : State) : Host.Outcome State Fault Refusal :=
  .next (if (w - s.ct.nrhead).toNat ≤ (s.ct.nrtail - s.ct.nrhead).toNat then { s with ct := { s.ct with nrhead := w } }.finish
    else s.finish)

end Sys2Proof.Machine
end

