-- ==== Sys2Proof/Machine/Reliab.lean ====
section
/-! DEFINITION. Heartbeats, fences and lost teams (R439-R445), tests by firmware (R450), stacked DRAM (R451, R452) and
checkpoints (R453). -/

namespace Sys2Proof.Machine

/-! ### Heartbeats (R439, R442) -/

/-- The wafer has a switch: one on each side of its 64 domains, and one at each of the 64 scale-up ports, beyond which lie 256 peers
(R1, R71, R439). -/
def hasSwitch (n : Node) (sw : Nat) : Bool :=
  match n with
  | .domain d => decide (d < 64 ∧ sw < 4)
  | .peer p => decide (p < 256 ∧ sw < 64)

/-- What a switch knows of a node. -/
def State.beat (s : State) (n : Node) (sw : Nat) : Option Beat :=
  match n with
  | .domain d => Map.find s.rb.beatD (64 * d + sw)
  | .peer p => Map.find s.rb.beatP (64 * p + sw)

/-- Records what a switch knows of a node. -/
def State.setBeat (s : State) (n : Node) (sw : Nat) (b : Beat) : State :=
  match n with
  | .domain d => { s with rb := { s.rb with beatD := Map.insert s.rb.beatD (64 * d + sw) b } }
  | .peer p => { s with rb := { s.rb with beatP := Map.insert s.rb.beatP (64 * p + sw) b } }

/-- What the switches that have heard a node know of it. -/
def State.beats (s : State) (n : Node) : List Beat := (List.range 64).filterMap (s.beat n)

/-- A node is fenced. -/
def State.fencedN (s : State) (n : Node) : Bool :=
  match n with
  | .domain d => s.fencedD d
  | .peer p => s.fencedP p

/-- A heartbeat after another one: a gap is a window of 2,000 ns without one. A switch that has declared the node silent takes nothing back
before the node is fenced. -/
def Beat.next (b : Beat) (fenced : Bool) (now : Nat) : Beat :=
  { last := now, since := if b.last + 2000 ≤ now then now else b.since, silent := b.silent && !fenced }

/-- HEARTBEAT (R439): a node's heartbeat reaches one of its switches. -/
def execHeartbeat (x : Ear) (s : State) : Host.Outcome State Fault Refusal :=
  let now := s.wtimeEnc
  .next (if hasSwitch x.node x.switch then
      (s.setBeat x.node x.switch (match s.beat x.node x.switch with
        | some b => b.next (s.fencedN x.node) now
        | none => { last := now, since := now, silent := false })).finish
    else s.finish)

/-- HEARTBEAT_TIMEOUT (R439): a switch that has heard a node hears nothing for 2 µs and declares it silent. -/
def execHeartbeatTimeout (x : Ear) (s : State) : Host.Outcome State Fault Refusal :=
  .next (match s.beat x.node x.switch with
    | some b =>
      if hasSwitch x.node x.switch && !b.silent && decide (b.last + 2000 ≤ s.wtimeEnc) then
        (s.setBeat x.node x.switch { b with silent := true }).finish
      else s.finish
    | none => s.finish)

/-! ### Synthesised answers (R379, R441) -/

/-- Lanes of a request with a line left to reach. -/
def Flight.lanesLeft (f : Flight) (line : Nat) : List LaneAcc := f.lanes.filter (fun l => l.fault.isNone && l.left.contains line)

/-- A switch answers a request for one line: reads poisoned, writes lost (R441). -/
def State.synthLine (s : State) (fid line : Nat) : State :=
  match Map.find s.ms.flights fid with
  | none => s
  | some f =>
    let ls := f.lanesLeft line
    let ref : StoreRef := { g := f.g, seq := f.owes, dom := true }
    let gone : List LaneAcc := ls.map (fun l => { l with left := l.left.filter (fun x => x != line) })
    if ls.isEmpty then s
    else
      match f.kind with
      | .load | .stashFill =>
        let (w, s1) := s.freeLanes line ls
        (s1.modFlight fid (fun f => f.setLanes w)).sweepFlight fid
      | .atom =>
        let (w, s1) := s.freeLanes line ls
        ((s1.modFlight fid (fun f => f.setLanes w)).lose [ref] (s.wtimeCore f.core)).sweepFlight fid
      | .store | .red =>
        (((s.modFlight fid (fun f => f.setLanes gone)).lose [ref] (s.wtimeCore f.core)).batchIfDone fid).sweepFlight fid

/-- A completion time that will not return: the stores of a performed line are lost (R379). -/
def State.synthDone (s : State) (fid line : Nat) : State :=
  match Map.find s.ms.flights fid with
  | none => s
  | some f =>
    let ps := f.performed.filter (fun l => l.line == line)
    ((ps.foldl (fun s l => s.lose l.refs (s.wtimeCore f.core)) s).modFlight fid (fun f =>
      { f with performed := f.performed.filter (fun l => l.line != line) })).sweepFlight fid

/-- The lines that a request has still to reach or whose completion it awaits. -/
def Flight.openLines (f : Flight) : List Nat :=
  dedup (f.lanes.flatMap (fun l => if l.fault.isNone ∧ l.va < 2 ^ 64 then l.left else []) ++ f.performed.map (fun p => p.line))

/-- Every request that satisfies a test on its core and line is answered. -/
def State.synthAll (s : State) (hit : Flight → Nat → Bool) : State :=
  s.ms.flights.foldl (fun s p => (p.2.openLines.filter (hit p.2)).foldl (fun s line => (s.synthLine p.1 line).synthDone p.1 line) s) s

/-- A line of a request lies in a fenced range (R440). -/
def State.lineFenced (s : State) (f : Flight) (line : Nat) : Bool :=
  let (cls, owner) := f.lineAttr line
  s.fencedAcc (128 * line) cls owner

/-- Every probe to a domain that a test names is answered absent, at this time (R379). -/
def State.synthProbes (s : State) (hit : Probe → Bool) : State :=
  (s.ms.probes.filter (fun p => hit p.2)).foldl (fun s p => s.probeDone p.1 (s.wtime ((homeOf (128 * p.2.line)).getD 0))) s

/-! ### What a fence does to memory (R379) -/

/-- The lines homed in a fenced range leave every L1 and L2, and combined bytes bound for it are lost. -/
def State.dropFenced (s : State) : State :=
  let s1 := (s.ms.combs.filter (fun p => s.fencedPa (128 * (p.1 / 64)))).foldl (fun s p => s.flushComb (p.1 % 64) (p.1 / 64) 0) s
  { s1 with
      ms := { s1.ms with
        l2 := s1.ms.l2.filter (fun p => !s.fencedPa (128 * (p.1 / 64)))
        owned := s1.ms.owned.filter (fun p => !s.fencedPa (128 * (p.1 / 64)))
        dir := s1.ms.dir.filter (fun p => !s.fencedPa (128 * p.1)) }
      exe := { s1.exe with cores := s1.exe.cores.map (fun (p : Nat × Core) =>
        (p.1, { p.2 with l1 := p.2.l1.filter (fun (q : Nat × L1Line) => !s.fencedPa (128 * q.1)) })) } }

/-- A directory entry without a domain. -/
def DirEnt.without (e : DirEnt) (d : Nat) : DirEnt :=
  { e with
      writers := e.writers &&& ~~~ BitVec.twoPow 64 d
      sharers := match e.sharers with
        | .precise ds => .precise (ds.filter (fun x => x != d))
        | .coarse v => .coarse v }

/-- What a fenced domain's own caches held is gone, and the homes poison the lines for which it was a remote writer. -/
def State.dropOf (s : State) (d : Nat) : State :=
  let written := s.ms.dir.filter (fun p => p.2.writers.getLsbD d)
  let s1 := written.foldl (fun s p => (List.range 4).foldl (fun s i => s.setMark (4 * p.1 + i) true) s) s
  let s2 := s1.ms.dir.foldl (fun s p => s.setDir p.1 (p.2.without d)) s1
  let away (k : Nat) : Bool := k % 64 != d
  { s2 with
      ms := { s2.ms with
        l2 := s2.ms.l2.filter (fun p => away p.1)
        owned := s2.ms.owned.filter (fun p => away p.1)
        combs := s2.ms.combs.filter (fun p => away p.1) }
      tr := { s2.tr with
        tlb := s2.tr.tlb.filter (fun e => e.at_.domainOf != d)
        walkCache := s2.tr.walkCache.filter (fun w => w.domain != d)
        walks := s2.tr.walks.filter (fun w => w.2.domain != d)
        pins := s2.tr.pins.filter (fun p => p.domain != d) }
      exe := { s2.exe with cores := s2.exe.cores.map (fun (p : Nat × Core) =>
        if p.1 / 72 = d then (p.1, { p.2 with l1 := [], icache := [] }) else p) } }

/-! ### Lost teams (R443) -/

/-- A team is lost: it holds nothing and never runs again, and its launch counts it. -/
def State.loseTeam (s : State) (t : Nat) : State :=
  match s.tm t with
  | none => s
  | some T =>
    let s1 := { s with
      ms := { s.ms with flights := s.ms.flights.filter (fun p => !T.groups.contains p.2.g) }
      eng := { s.eng with
        copies := s.eng.copies.filter (fun p => p.2.team != t)
        pops := s.eng.pops.filter (fun p => p.2.team != t)
        sops := s.eng.sops.filter (fun p => p.2.team != t)
        smsgs := s.eng.smsgs.filter (fun p => p.2.team != t) } }
    let s2 := T.groups.foldl (fun s g => s.modGrp g (fun G => { G with claims := [], holds := [] })) s1
    ((s2.freeTeam t T .lost).modLaunch T.launch (fun L => { L with nlost := L.nlost + 1 })).failQuire T.launch

/-- The teams that a fence of domain `d` takes: those resident on it, and those saved in a pool of a fenced range. -/
def State.teamsLost (s : State) (d : Nat) : List Nat :=
  (s.exe.teams.filter (fun p =>
    ((p.2.st == .started || p.2.st == .stopping || p.2.st == .terminated) && p.2.domain == d) ||
    (p.2.st == .saved && ((Map.find s.wk.frames p.1).map (fun f =>
      s.fencedPa f.base || s.fencedPa (f.base + f.size - 1))).getD false))).map (fun p => p.1)

/-- The rest of a co-resident unit that has lost teams ends (R443): running teams are terminated, saved ones are dropped,
and unplaced or reserved ones never start. The launches keep the causes that they had. -/
def State.endUnit (s : State) (head : Nat) : State :=
  let us := s.unit head
  let causes := us.map (fun l => (l, (s.launch l).bind (fun L => L.cause)))
  let ts := s.exe.teams.filter (fun p => us.contains p.2.launch)
  let s1 := ts.foldl (fun s p =>
    match p.2.st with
    | .started | .stopping => s.terminate p.1 cLostStore
    | .saved => s.freeTeam p.1 p.2 .retired
    | .reserved | .inFlight => { s with exe := { s.exe with teams := Map.erase s.exe.teams p.1 } }
    | .terminated | .retired | .lost => s) s
  let s2 := us.foldl (fun s l => s.modLaunch l (fun L =>
    { L with
        sent := (List.range L.forme.teams).foldl (fun (m : Map Bool) t => Map.insert m t true) L.sent
        cause := ((causes.find? (fun c => c.1 == l)).bind (fun c => c.2)) })) s1
  { s2 with wk := { s2.wk with gathering := if s2.wk.gathering = some head then none else s2.wk.gathering } }

/-- The heads of co-resident units that have lost teams. -/
def State.brokenUnits (s : State) : List Nat :=
  dedup ((s.wk.launches.filter (fun p => decide (0 < p.2.nlost) && !p.2.retired && p.2.forme.coRes)).map (fun p => p.2.head))

/-- Seam operations that wait in launches with lost teams take poison (R402). -/
def State.seamLost (s : State) : State :=
  (s.eng.sops.filter (fun p => ((s.tm p.2.team).map (fun T => s.launchLost T)).getD false)).foldl (fun s p => s.seamMatch p.1) s

/-! ### Fences (R440-R443) -/

/-- The ready bits of a domain and of its cores fall. -/
def State.unready (s : State) (d : Nat) : State :=
  let s1 := s.modDom d (fun _ => { lost := true })
  (List.range 72).foldl (fun s c => s.modCore (coreKey d c) (fun k =>
    { k with ready := false, state := if k.state = 0 then 3 else k.state })) s1

/-- A domain is fenced. -/
def State.fenceDomain (s : State) (d why : Nat) : State :=
  let w := s.wtimeEnc
  let s1 := { s with ct := { s.ct with fenceD := Map.insert s.ct.fenceD d { fenced := true, why := why, wfence := w } } }
  let resv := (s1.exe.teams.filter (fun p =>
    ((p.2.st == .reserved && p.2.frame.isNone) || p.2.st == .inFlight) && p.2.domain == d)).map (fun p => p.1)
  let s2 := resv.foldl State.unplace (s1.unready d)
  let s3 := (s2.teamsLost d).foldl State.loseTeam s2
  let s4 := (s3.synthAll s3.lineFenced).synthProbes (fun p => p.domain == d || s3.fencedPa (128 * p.line))
  let s5 := s.wk.launches.foldl (fun s p => s.loseHinted p.1 d) (s4.dropFenced.dropOf d)
  let s6 := s5.seamLost
  let s7 := s6.brokenUnits.foldl State.endUnit s6
  raiseSignal (raiseSignal s7.retest 6) 7

/-- A peer package is fenced. -/
def State.fencePeer (s : State) (p why : Nat) : State :=
  let s1 := { s with ct := { s.ct with fenceP := Map.insert s.ct.fenceP p { fenced := true, why := why, wfence := s.wtimeEnc } } }
  raiseSignal ((s1.synthAll s1.lineFenced).dropFenced) 7

/-- DOMAIN_FENCE (R439, R441): the switches fence a node that one of them has declared silent. -/
def execDomainFence (n : Node) (s : State) : Host.Outcome State Fault Refusal :=
  let silent : Bool := (s.beats n).any (fun b => b.silent)
  .next (match n with
    | .domain d => if silent && decide (d < 64) && !s.fencedD d then (s.fenceDomain d 1).finish else s.finish
    | .peer p => if silent && decide (p < 256) && !s.fencedP p then (s.fencePeer p 1).finish else s.finish)

/-- FENCED_REPLY_DISCARD (R441): a reply from a fenced range completes nothing; what it would have completed is lost. -/
def execFencedReplyDiscard (req : Nat) (s : State) : Host.Outcome State Fault Refusal :=
  .next (match Map.find s.ms.flights req with
    | none => s.finish
    | some f => ((f.openLines.filter (s.lineFenced f)).foldl (fun s line => (s.synthLine req line).synthDone req line) s).finish)

/-- The domain across a side, and the side that faces back; none at the wafer's edge. -/
def acrossSide (d side : Nat) : Option (Nat × Nat) :=
  match side with
  | 0 => if d < 8 then none else some (d - 8, 2)
  | 1 => if d % 8 = 7 then none else some (d + 1, 3)
  | 2 => if 56 ≤ d then none else some (d + 8, 0)
  | _ => if d % 8 = 0 then none else some (d - 1, 1)

/-- Two domains that share a border. -/
def acrossBorder (a b : Nat) : Bool :=
  ([0, 1, 2, 3] : List Nat).any (fun side => ((acrossSide a side).map (fun p => p.1 == b)).getD false)

/-- LINK_FAILURE (R441): both border bits of the link fall, and the requests outstanding across it are answered: those between the two
domains, and those of other domains that the mesh carries across it, which the spec does not give (log entry 73). -/
def execLinkFailure (d side : Nat) (s : State) : Host.Outcome State Fault Refusal :=
  .next (match acrossSide d side with
    | none => s.finish
    | some (n, back) =>
      if 64 ≤ d ∨ 4 ≤ side ∨ s.rb.links.contains (d, side) then s.finish
      else
        let s1 := { s with rb := { s.rb with links := s.rb.links ++ [(d, side), (n, back)] } }
        let s2 := (s1.modDom d (fun r => { r with border := setBit4 r.border side false })).modDom n
          (fun r => { r with border := setBit4 r.border back false })
        let crosses (a b : Nat) : Bool := (a == d && b == n) || (a == n && b == d) ||
          (decide (a ≠ b) && !(acrossBorder a b) && (Config.crosses a b d side || Config.crosses a b n back))
        let home (line : Nat) : Nat := (homeOf (128 * line)).getD 64
        let s3 := (s2.synthAll (fun f line => crosses (f.core / 72) (home line))).synthProbes
          (fun p => crosses (home p.line) p.domain)
        (raiseSignal s3 6).finish)

/-- PEER_FENCE_CLEAR (R442): taken only after 10 µs of the peer's heartbeats without a gap. -/
def execPeerFenceClear (p : Nat) (s : State) : Host.Outcome State Fault Refusal :=
  let bs := s.beats (.peer p)
  let clear : Bool := !bs.isEmpty && bs.all (fun b => !b.silent && decide (b.since + 10000 ≤ b.last ∧ s.wtimeEnc < b.last + 2000))
  .next (match Map.find s.ct.fenceP p with
    | some f =>
      if f.fenced && clear then
        { s with ct := { s.ct with fenceP := Map.insert s.ct.fenceP p { f with fenced := false, why := 0 } } }.finish
      else s.finish
    | none => s.finish)

/-! ### DRAM (R451, R452) -/

/-- Appends an entry to a log ring. -/
def LogRing.add (r : LogRing) (e : BitVec 128) : LogRing := { ents := Map.insert r.ents (r.head % 256) e, head := (r.head + 1) % 2 ^ 32 }

/-- Word 1 of an array-log entry above word 0, the wtime. -/
def arrayEntry (wtime ofs kind bit count : Nat) : BitVec 128 :=
  BitVec.ofNat 128 (wtime + 2 ^ 64 * (ofs % 2 ^ 37 + kind * 2 ^ 37 + bit * 2 ^ 39 + count * 2 ^ 48))

/-- Word 1 of a vertical-log entry above word 0. -/
def vertEntry (wtime chan lane tries action spare ofs : Nat) : BitVec 128 :=
  BitVec.ofNat 128 (wtime + 2 ^ 64 * (chan + lane * 2 ^ 5 + tries * 2 ^ 12 + action * 2 ^ 15 + spare * 2 ^ 17 + ofs % 2 ^ 37 * 2 ^ 24))

/-- Logs an array error of a burst (R452). -/
def State.logArray (s : State) (d ofs kind : Nat) (bit : BitVec 9) : State :=
  let key := 64 * Config.dramRow d ofs + d
  let n := min (Map.getD s.rb.rowErrs key 0 + 1) 255
  let e := arrayEntry (s.wtime d) ofs kind bit.toNat n
  { s with
      rb := { s.rb with rowErrs := Map.insert s.rb.rowErrs key n }
      ct := { s.ct with arrayLog := Map.insert s.ct.arrayLog d ((Map.getD s.ct.arrayLog d ({} : LogRing)).add e) } }

/-- Logs a transfer error of a burst (R452). -/
def State.logVert (s : State) (d ofs lane tries action spare : Nat) : State :=
  let e := vertEntry (s.wtime d) (ofs / 256 % 32) lane tries action spare ofs
  { s with ct := { s.ct with vertLog := Map.insert s.ct.vertLog d ((Map.getD s.ct.vertLog d ({} : LogRing)).add e) } }

/-- The two sectors of a burst are poisoned. -/
def State.poisonBurst (s : State) (d ofs : Nat) : State :=
  let sec := (d * 2 ^ 37 + ofs) / 32
  (s.setMark sec true).setMark (sec + 1) true

/-- The vertical lanes of a channel that spares have replaced. -/
def State.swapped (s : State) (d chan : Nat) : List Nat := Map.getD s.rb.spares (32 * d + chan) []

/-- A spare takes the place of a vertical lane. -/
def State.swapLane (s : State) (d chan lane : Nat) : State :=
  { s with rb := { s.rb with spares := Map.insert s.rb.spares (32 * d + chan) (s.swapped d chan ++ [lane]) } }

/-- DRAM_BURST_TRANSFER (R451). -/
def execDramBurstTransfer (d ofs : Nat) (f : BurstFault) (s : State) : Host.Outcome State Fault Refusal :=
  let chan := ofs / 256 % 32
  .next (if 64 ≤ d ∨ 2 ^ 37 ≤ ofs ∨ ofs % 64 ≠ 0 then s.finish
    else match f with
      | .none => s.finish
      | .corrected bit => (s.logArray d ofs 0 bit).finish
      | .uncorrectable bit => ((s.poisonBurst d ofs).logArray d ofs 1 bit).finish
      | .parity lane tries =>
        if 74 ≤ lane ∨ tries = 0 ∨ 4 < tries then s.finish
        else if tries < 4 then (s.logVert d ofs lane tries 0 0).finish
        else
          let used := (s.swapped d chan).length
          if used < 2 then ((s.swapLane d chan lane).logVert d ofs lane 4 1 (72 + used)).finish
          else ((s.poisonBurst d ofs).logVert d ofs lane 4 2 0).finish)

/-- SCRUB (R452): an array error found in the background is corrected and logged with KIND 2. -/
def execScrub (d ofs : Nat) (bit : BitVec 9) (s : State) : Host.Outcome State Fault Refusal :=
  .next (if 64 ≤ d ∨ 2 ^ 37 ≤ ofs ∨ ofs % 64 ≠ 0 then s.finish else (s.logArray d ofs 2 bit).finish)

/-! ### Tests by firmware (R450) -/

/-- Enters a test's result in the untested entries that satisfy a test on word 1, at a bit position. -/
def LogRing.tested (r : LogRing) (pos : Nat) (lasting : Bool) (mine : Nat → Bool) : LogRing :=
  { r with ents := r.ents.map (fun p =>
      let w := p.2.toNat / 2 ^ 64
      if w / 2 ^ pos % 4 = 0 ∧ mine w then (p.1, p.2 + BitVec.ofNat 128 ((if lasting then 2 else 1) * 2 ^ (64 + pos))) else p) }

/-- FIRMWARE_SELFTEST (R450): the result goes to the unit's log, and a lasting fault has the effect of R450's table. -/
def execFirmwareSelftest (u : TestUnit) (lasting : Bool) (s : State) : Host.Outcome State Fault Refusal :=
  .next (match u with
    | .lane d c sl lane =>
      let k := coreKey d c
      if !lasting then s.finish
      else
        let (got, s1) := s.takeSpares (sliceKey k sl) [lane]
        (if got.isEmpty then s1.disableCore k 2 else s1).finish
    | .coreUnit d c => if lasting then (s.disableCore (coreKey d c) 2).finish else s.finish
    | .l2Way d way =>
      if lasting && !s.rb.ways.contains (d, way) then { s with rb := { s.rb with ways := s.rb.ways ++ [(d, way)] } }.finish else s.finish
    | .dramRow d row =>
      let log := (Map.getD s.ct.arrayLog d ({} : LogRing)).tested 56 lasting (fun w => Config.dramRow d (w % 2 ^ 37) == row)
      let s1 := { s with ct := { s.ct with arrayLog := Map.insert s.ct.arrayLog d log } }
      if lasting && !s.rb.rows.contains (d, row) then { s1 with rb := { s1.rb with rows := s1.rb.rows ++ [(d, row)] } }.finish
      else s1.finish
    | .verticalLane d chan lane =>
      let log := (Map.getD s.ct.vertLog d ({} : LogRing)).tested 61 lasting (fun w => w % 32 == chan && w / 32 % 128 == lane)
      let s1 := { s with ct := { s.ct with vertLog := Map.insert s.ct.vertLog d log } }
      let used := s.swapped d chan
      if !lasting || used.contains lane then s1.finish
      else if used.length < 2 then (s1.swapLane d chan lane).finish
      else if s.fencedD d then s1.finish
      else (s1.fenceDomain d 2).finish)

/-! ### Checkpoints (R453) -/

/-- The image address of an address of a domain of DMASK: DEST + 2^37 × d + offset. -/
def State.imageOf (s : State) (pa : Nat) : Nat := s.ct.ckDest.toNat + pa

/-- A physical address lies in the image, and which address of the domains it stands for. -/
def State.imageSrc (s : State) (pa : Nat) : Option Nat :=
  let o := pa - s.ct.ckDest.toNat
  if s.ct.ckDest.toNat ≤ pa ∧ o < 2 ^ 43 ∧ s.ct.ckMask.getLsbD (o / 2 ^ 37) then some o else none

/-- The groups resident on a domain of DMASK. -/
def State.ckGroups (s : State) : List Nat :=
  (s.exe.groups.filter (fun p => !p.2.retired && (match s.tm p.2.team with
    | some T => (T.st == .started || T.st == .stopping) && s.ct.ckMask.getLsbD T.domain
    | none => false))).map (fun p => p.1)

/-- DEST lies in region 1. A command with another one is refused: R453 gives none (DESIGN CHOICE, log entry 70). -/
def State.ckDestOk (s : State) : Bool := paRegion s.ct.ckDest.toNat == 1

/-- A command ends at once, refused. -/
def State.ckRefuse (s : State) : State := { s with ct := { s.ct with ckResult := 1, ckDone := s.wtimeEnc } }

/-- CHECKPOINT_SAVE (R453): a write of CMD = 1; firmware stops the groups of the domains. -/
def execCheckpointSave (s : State) : Host.Outcome State Fault Refusal :=
  .next (if s.ct.ckBusy then s.finish
    else if !s.ckDestOk then s.ckRefuse.finish
    else
      let gs := s.ckGroups.filter (fun g => ((s.grp g).map (fun G => !G.frozen)).getD false)
      let s1 := gs.foldl (fun s g => s.modGrp g Group.freeze) s
      { s1 with
          ct := { s1.ct with ckBusy := true, ckCmd := 1 }
          rb := { s1.rb with ckFrozen := gs } }.finish)

/-- The teams that a checkpoint has stopped: those that run on a domain of DMASK. -/
def State.ckTeams (s : State) : List Nat :=
  (s.exe.teams.filter (fun p => p.2.st == .started && s.ct.ckMask.getLsbD p.2.domain)).map (fun p => p.1)

/-- Firmware writes a snapshot of a stopped team, in the layout of a save frame, where it fits the context's save pool (R427). -/
def State.snapshot (s : State) (t : Nat) : State :=
  match s.allocFrames [t] with
  | none => s
  | some s1 =>
    match s1.tm t, Map.find s1.wk.frames t with
    | some T, some f => s1.writeFrame T f.base
    | _, _ => s

/-- The snapshots of stopped teams; they stand in the pool without holding a place in it, and free nothing. -/
def State.snapshots (s : State) (ts : List Nat) : State :=
  let s1 := ts.foldl State.snapshot s
  { s1 with wk := { s1.wk with frames := s.wk.frames } }

/-- Bytes and marks move between two ranges: `hit` names the target's addresses, `to_` maps a source address to its target.
What the target held is gone. -/
def State.copyRange (s : State) (hit : Nat → Bool) (src : Nat → Option Nat) : State :=
  let s1 := s.commit
  let bytes := s1.ms.bytes.filterMap (fun p => (src p.1).map (fun a => (a, p.2)))
  let marks := s1.ms.marks.filterMap (fun p => (src (32 * p.1)).map (fun a => (a / 32, p.2)))
  let s2 := (s1.ms.bytes.filter (fun p => hit p.1)).foldl (fun s p => s.putB p.1 0) s1
  let s3 := (s1.ms.marks.filter (fun p => hit (32 * p.1))).foldl (fun s p => s.setMark p.1 false) s2
  marks.foldl (fun s p => s.setMark p.1 p.2) (bytes.foldl (fun s p => s.putB p.1 p.2) s3)

/-- Some sector of a range is marked. -/
def State.anyMark (s : State) (hit : Nat → Bool) : Bool := s.ms.marks.any (fun p => p.2 && hit (32 * p.1))

/-- Lines of the checkpoint's domains leave the caches of the other domains, their combined bytes going home first. -/
def State.ckRecall (s : State) : State :=
  let s1 := (s.ms.combs.filter (fun p => s.inCk (128 * (p.1 / 64)))).foldl (fun s p => s.flushComb (p.1 % 64) (p.1 / 64) 0) s
  (s1.ms.l2.filter (fun p => s.inCk (128 * (p.1 / 64)))).foldl (fun s p => s.dropCopy (p.1 % 64) (p.1 / 64)) s1

/-- The latest lease that stands on a line of the checkpoint's domains. -/
def State.ckLeases (s : State) : Nat :=
  max ((s.ms.lx.filter (fun p => s.inCk (128 * (p.1 / 64)))).foldl (fun t p => max t p.2) 0)
    (s.ms.horizon.foldl (fun t p => max t p.2) 0)

/-- CHECKPOINT_RESTORE (R453): a write of CMD = 2; refused while a team is resident on a domain of DMASK, else the image is
written back at the homes. -/
def execCheckpointRestore (s : State) : Host.Outcome State Fault Refusal :=
  let resident : Bool := s.exe.teams.any (fun p => p.2.st.resident && s.ct.ckMask.getLsbD p.2.domain)
  .next (if s.ct.ckBusy then s.finish
    else if resident || !s.ckDestOk then s.ckRefuse.finish
    else
      let t := max s.wtimeEnc s.ckLeases
      let s1 := s.ckRecall
      let psn := s1.anyMark (fun pa => (s.imageSrc pa).isSome)
      let s2 := s1.copyRange s.inCk s.imageSrc
      { s2 with ct := { s2.ct with ckBusy := true, ckCmd := 2, ckT := t, ckResult := if psn then 2 else 0 } }.finish)

/-- A checkpoint command ends with a result. -/
def State.ckEnd (s : State) (result : Nat) : State :=
  { s with ct := { s.ct with ckBusy := false, ckResult := result, ckDone := s.wtimeEnc } }

/-- The stopped groups of a save go on. -/
def State.ckThaw (s : State) : State :=
  let s1 := s.rb.ckFrozen.foldl (fun s g => s.modGrp g (fun G => { G with frozen := false })) s
  { s1 with rb := { s1.rb with ckFrozen := [] } }

/-- CHECKPOINT_END (R453): a save copies the domains once the groups have stopped; a restore ends when the completion times
of its stores have passed. -/
def execCheckpointEnd (portFailed : Bool) (s : State) : Host.Outcome State Fault Refusal :=
  .next (if !s.ct.ckBusy then s.finish
    else if s.ct.ckCmd = 1 then
      if s.rb.ckFrozen.all (fun g => !s.inChain g) then
        if portFailed then (s.ckThaw.ckEnd 3).finish
        else
          let s0 := s.snapshots s.ckTeams
          let s1 := (s0.ms.combs.filter (fun p => s.inCk (128 * (p.1 / 64)))).foldl
            (fun s p => s.flushComb (p.1 % 64) (p.1 / 64) 0) s0
          let psn := s1.anyMark s.inCk
          let s2 := s1.copyRange (fun pa => (s.imageSrc pa).isSome) (fun pa => if s.inCk pa then some (s.imageOf pa) else none)
          (s2.ckThaw.ckEnd (if psn then 2 else 0)).finish
      else s.finish
    else if s.ct.ckT ≤ s.wtimeEnc then (s.ckEnd (if portFailed then 3 else s.ct.ckResult)).finish
    else s.finish)

end Sys2Proof.Machine
end

