-- ==== Sys2Proof/Machine/Turn.lean ====
section
/-! DEFINITION. Moves that are no event of the opcode table (log entry 2): the passage of cluster cycles, and the
liberties that caches have to give up what they hold. -/

namespace Sys2Proof.Machine

/-- The power block of a domain (R479). -/
def State.powerOf (s : State) (d : Nat) : Power := Map.getD s.ct.power d {}

/-- Power allowance after `n` cluster cycles (R179). -/
def Slice.refill (sl : Slice) (p : Power) (n : Nat) : Slice := { sl with c := min (sl.c + (p.refill * n : Nat)) (p.cap : Int) }

/-- The core keys that hold a group. -/
def State.busyCores (s : State) : List Nat :=
  dedup (s.exe.groups.filterMap (fun p =>
    if p.2.retired then none
    else match s.tm p.2.team with
      | some T => if T.st == .started || T.st == .stopping || T.st == .terminated then some T.coreKey else none
      | none => none))

/-- A split that was woken in an earlier cycle may be chosen (R170). -/
def Group.settled (G : Group) : Group := { G with splits := G.splits.map (fun sp => { sp with fresh := false }) }

/-- `n` cluster cycles pass, one at least (R1, R170, R179, R478). -/
def State.tick (s : State) (m : Nat) : State :=
  let n := max m 1
  let busy := s.busyCores
  { s with
      clk := { s.clk with cycle := s.clk.cycle + n, turns := [] }
      exe := { s.exe with
        groups := s.exe.groups.map (fun p => (p.1, p.2.settled))
        slices := s.exe.slices.map (fun p => (p.1, p.2.refill (s.powerOf (p.1 / 432)) n))
        cores := busy.foldl (fun m k =>
          let c : Core := Map.getD m k {}
          Map.put m k { c with ctr := { c.ctr with cyc := (c.ctr.cyc + n) % 2 ^ 64 } } {}) s.exe.cores } }

/-- A store of a peer package to this wafer's memory, performed at its homes (R358, R375); none enters a fenced range. -/
def State.peerStore (s : State) (pa : Nat) (bytes : List Byte) : State :=
  let ws : List WByte := ((List.range bytes.length).zip bytes).map (fun p => (pa + p.1, p.2, false))
  (dedup (ws.map (fun w => w.1 / 128))).foldl (fun s line =>
    if (homeOf (128 * line)).isNone || s.fencedPa (128 * line) then s
    else
      let (bs, ms) := storeParts line (ws.filter (fun w => w.1 / 128 == line)) 0
      let (fid, s1) := s.addFlight { kind := .store }
      s1.performHome fid line 2 0 0 bs ms []) s

/-- An error that the code of a domain's L2 cannot correct: the sector is marked in what the L2 holds of its line (R292, R446). -/
def State.l2Error (s : State) (d sector : Nat) : State :=
  let key := l2Key d (sector / 4)
  let bad (l : L1Line) : L1Line := { l with marks := setBit4 l.marks (sector % 4) true }
  let s1 := s.modMs (fun m => { m with
    l2 := Map.modify m.l2 key bad, owned := Map.modify m.owned key bad
    combs := Map.modify m.combs key (fun c =>
      { c with marks := setBit4 c.marks (sector % 4) true, clears := setBit4 c.clears (sector % 4) false }) })
  if homeOf (32 * sector) = some d then s1.setMark sector true else s1

/-- A move that is neither an event nor a turn of an Encon core. -/
def State.move (s : State) (m : Move) : State :=
  match m with
  | .event _ => s
  | .encon _ => s
  | .tick n => s.tick n
  | .dropL1 k line => s.l1Drop k line
  | .dropL2Copy d line => s.dropL2 d line
  | .sendCombined d line => s.flushComb d line 0
  | .peerLoad line lease => (match homeOf (128 * line) with
    | some h => if s.fencedPa (128 * line) then s else (s.grant h line lease).2
    | none => s)
  | .peerStore pa bytes => s.peerStore pa bytes
  | .galleyError t sector => s.modTm t (fun T => T.setGmark sector true)
  | .l2Error d sector => s.l2Error d sector
  | .dropTlb d ctx unit =>
    { s with tr := { s.tr with
        tlb := s.tr.tlb.filter (fun e => !(e.ctx == ctx && vaUnit e.leaf.va == unit &&
          (match e.at_ with | .data c => c / 72 == d | .instr c => c / 72 == d | .core c => c / 72 == d | .domain x => x == d)))
        walkCache := s.tr.walkCache.filter (fun w => !(w.domain == d && w.ctx == ctx && vaUnit w.va == unit)) } }
  | .dropCode k ctx va => s.modCore k (fun c => { c with icache := c.icache.filter (fun w => !(w.ctx == ctx && w.va == va)) })

/-- An instruction of the table that is an event: no program holds it. -/
def isEvent (i : Instr) : Bool :=
  match i with
  | .unassignedOpcode _ _ | .qfetch _ _ | .bfxu _ _ _ _ | .swait _ _ _ | .dispatch _ _ | .encsigWrite _ _ _ => false
  | i => i.limov?.isNone

/-- The move that comes next, and the state with it taken off the agenda (log entry 2). -/
def State.nextMove (s : State) : Option Move × State :=
  match s.agenda with
  | m :: ms => (some m, { s with agenda := ms })
  | [] => (Config.freeMove s.free, { s with free := s.free + 1 })

end Sys2Proof.Machine
end

