-- ==== Sys2Proof/Machine/Power.lean ====
section
/-! DEFINITION. The domain power manager (R479, R480), the coolant limits and the thermal fence (R482). -/

namespace Sys2Proof.Machine

/-- Twice the power cap of a domain in W that the manager holds to: outside the coolant limits half of PCAP (R482). -/
def Power.cap2 (p : Power) (coolantOut : Bool) : Nat := if coolantOut then p.pcap else 2 * p.pcap

/-- The manager lowers one setting, and remembers what it was (R480): of `undo` kind 0 holds TACT, kind 1 REFILL and
SHEDLVL, kind 2 DCEIL. -/
def Power.throttle (p : Power) (dmin : Nat) : Power :=
  if p.tact < 64 then { p with tact := min (2 * p.tact) 64, undo := (0, p.tact, 0) :: p.undo }
  else if 1 < p.refill then
    { p with refill := p.refill - 1, shedlvl := min (p.shedlvl + 64) p.cap, undo := (1, p.refill, p.shedlvl) :: p.undo }
  else if dmin < p.dceil then { p with dceil := p.dceil - 1, undo := (2, p.dceil, 0) :: p.undo }
  else p

/-- The manager undoes its latest change that is still in force (R480). -/
def Power.restore (p : Power) : Power :=
  match p.undo with
  | [] => p
  | (0, t, _) :: us => { p with tact := t, undo := us }
  | (1, r, l) :: us => { p with refill := r, shedlvl := l, undo := us }
  | (_, c, _) :: us => { p with dceil := c, undo := us }

/-- One step of the manager (R480). -/
def Power.step (p : Power) (dmin cap2 : Nat) : Power :=
  if cap2 < 2 * p.pwr ∨ 95 ≤ p.tj then p.throttle dmin
  else if 2 * p.pwr + 60 < cap2 ∧ p.tj < 90 then p.restore
  else p

/-- What the manager's sensors read: the power and the hottest junction, and since when that has been at 105 °C or above. -/
def Power.sense (p : Power) (pwr tj now : Nat) : Power :=
  { p with pwr := pwr, tj := tj, hotSince := if 105 ≤ tj then some (p.hotSince.getD now) else none }

/-- dmin of a domain: the highest effective ratio of a slice with RSVD, or 0 at 100 °C and above (R480). -/
def State.dmin (s : State) (d tj : Nat) : Nat :=
  if 100 ≤ tj then 0
  else (List.range 72).foldl (fun m c => (List.range 6).foldl (fun m sl =>
    if s.rsvd (coreKey d c) sl then max m (s.effective (coreKey d c) sl) else m) m) 0

/-- Replaces a power block. -/
def State.setPower (s : State) (d : Nat) (p : Power) : State :=
  { s with ct := { s.ct with power := Map.put s.ct.power d p {} } }

/-- POWER_STEP (R480): the manager of a domain takes a step every microsecond, on the power and temperature that it reads. -/
def execPowerStep (d : Nat) (pwr : BitVec 16) (tj : BitVec 8) (s : State) : Host.Outcome State Fault Refusal :=
  let p := s.powerOf d
  let now := s.wtime d
  .next (if 64 ≤ d ∨ now < p.steppedAt + 1000 then s.finish
    else
      let p1 := (p.sense pwr.toNat tj.toNat now).step (s.dmin d tj.toNat) (p.cap2 s.ct.coolantOut)
      (s.setPower d { p1 with steppedAt := now }).finish)

/-- COOLANT_LIMIT (R482). -/
def execCoolantLimit (s : State) : Host.Outcome State Fault Refusal :=
  .next { s with ct := { s.ct with coolantOut := true } }.finish

/-- COOLANT_WITHIN_LIMITS (R482). -/
def execCoolantWithinLimits (s : State) : Host.Outcome State Fault Refusal :=
  .next { s with ct := { s.ct with coolantOut := false } }.finish

/-- THERMAL_FENCE (R482): a domain at 105 °C or above for 10 µs is fenced with WHY = 2. -/
def execThermalFence (d : Nat) (s : State) : Host.Outcome State Fault Refusal :=
  .next (match (s.powerOf d).hotSince with
    | some t => if d < 64 ∧ t + 10000 ≤ s.wtime d ∧ !s.fencedD d then (s.fenceDomain d 2).finish else s.finish
    | none => s.finish)

end Sys2Proof.Machine
end

