-- ==== Sys2Proof/Machine/Boot.lean ====
section
/-! DEFINITION. Firmware images, ownership, attestation (R67-R70), the wafer map (R78) and module reset. -/

namespace Sys2Proof.Machine

/-! ### Images (R67) -/

/-- Bytes of an image from an offset. -/
def imgBytes (img : List Byte) (ofs n : Nat) : List Byte := (img.drop ofs).take n

/-- A little-endian field of an image's header. -/
def imgNat (img : List Byte) (ofs n : Nat) : Nat := leNat (imgBytes img ofs n)

/-- The image has the form of R67: magic, kind, size, and its reserved bytes zero. -/
def imgFormed (img : List Byte) : Bool :=
  decide (512 ≤ img.length ∧ img.length % 512 = 0) && imgNat img 0x000 4 == 0x4E434E45 &&
    decide (1 ≤ imgNat img 0x004 1 ∧ imgNat img 0x004 1 ≤ 3) && imgNat img 0x005 3 == 0 &&
    imgNat img 0x008 8 == img.length && imgNat img 0x028 8 == 0 && imgNat img 0x120 0xE0 == 0

/-- Body of an image (R67). -/
def imgBody (img : List Byte) : List Byte := img.drop 0x200

/-- The result code of the boot ROM's checks, in the order of R68 and with the codes of R70. -/
def State.imgResult (s : State) (img : List Byte) : Nat :=
  let signed := imgBytes img 0 0x60
  let owner : Bool := match s.en.ownerKey with
    | some k => ecdsaVerify k.toNat (beNat (imgBytes img 0xC0 0x60)) signed
    | none => false
  if !(ecdsaVerify Config.makerKey (beNat (imgBytes img 0x60 0x60)) signed && owner) then 1
  else if sha384 (imgBody img) ≠ imgBytes img 0x30 0x30 then 2
  else if imgNat img 0x10 8 < (Map.getD s.en.minSeq (imgNat img 0x04 1) 0).toNat then 3
  else 0

/-! ### The attestation log (R70) -/

/-- An entry of the attestation log. -/
def attestEntry (seq kind result digest : Nat) : BitVec 512 :=
  BitVec.ofNat 512 (seq % 2 ^ 64 + 2 ^ 64 * (kind % 256) + 2 ^ 72 * (result % 256) + 2 ^ 128 * (digest % 2 ^ 384))

/-- Appends an entry while the log has room. -/
def State.attest (s : State) (e : BitVec 512) : State :=
  if s.ct.attest.length < 256 then { s with ct := { s.ct with attest := s.ct.attest ++ [e] } } else s

/-- The bytes of the attestation log. -/
def attestBytes (log : List (BitVec 512)) : List Byte := log.flatMap (fun e => leBytes 64 e.toNat)

/-! ### The wafer map (R78) -/

/-- Free words as one number, the first lowest. -/
def State.drawNat (s : State) (n : Nat) : Nat × State :=
  let (f, s1) := s.draws n
  (leNat ((List.range n).flatMap (fun i => leBytes 4 (f i).toNat)), s1)

/-- Firmware reads the wafer map: the cores that it lists are excluded, and all cores where its signature fails. -/
def State.readWaferMap (s : State) : State :=
  match Config.waferMap with
  | some ks => ks.foldl (fun s k => if k < 4608 then s.disableCore k 1 else s) s
  | none =>
    let s1 := (List.range 4608).foldl (fun s k => s.disableCore k 1) s
    let (seq, s2) := s1.drawNat 2
    let (digest, s3) := s2.drawNat 12
    s3.attest (attestEntry seq 4 1 digest)

/-! ### Events -/

/-- Encon runs its main image from `entry`. -/
def State.startEncon (s : State) (entry : BitVec 64) : State :=
  (List.range 8).foldl (fun (s : State) k =>
    let c : EnCore := { s.enc k with pc := entry, machine := true, swait := Option.none }
    s.setEnc k c) s

/-- BOOT_IMAGE_LOAD (R67, R68, R70, R78): an image of another form is rejected unmeasured. -/
def execBootImageLoad (img : List Byte) (s : State) : Host.Outcome State Fault Refusal :=
  .next (if !imgFormed img then s.finish
    else
      let kind := imgNat img 0x04 1
      let seq := imgNat img 0x10 8
      let r := s.imgResult img
      let s1 := s.attest (attestEntry seq kind r (imgNat img 0x30 0x30))
      if r ≠ 0 then s1.finish
      else
        let load := imgNat img 0x18 8
        let entry := BitVec.ofNat 64 (imgNat img 0x20 8)
        let body := imgBody img
        let mem := Map.putAll s1.en.mem 0 (((List.range body.length).zip body).map (fun (p : Nat × Byte) => ((load + p.1) % 2 ^ 64, p.2)))
        let image : Image := { kind := BitVec.ofNat 8 kind, seq := BitVec.ofNat 64 seq, entry := entry }
        let s2 := { s1 with en := { s1.en with mem := mem, images := s1.en.images ++ [image] } }
        if kind = 1 then (s2.startEncon entry).readWaferMap.finish else s2.finish)

/-- IMAGE_COMMIT (R68): the stored minimum of a kind rises to the SEQ of the image of that kind loaded last, and never
falls. -/
def execImageCommit (kind : BitVec 8) (s : State) : Host.Outcome State Fault Refusal :=
  .next (match s.en.images.reverse.find? (fun i => i.kind == kind) with
    | none => s.finish
    | some i =>
      let old : BitVec 64 := Map.getD s.en.minSeq kind.toNat 0
      { s with en := { s.en with minSeq := Map.put s.en.minSeq kind.toNat (if old ≤ i.seq then i.seq else old) 0 } }.finish)

/-- OWNER_ENROL (R69): a P-384 public key is accepted while no owner key is enrolled; it stands from the next reset. -/
def execOwnerEnrol (key : BitVec 768) (s : State) : Host.Outcome State Fault Refusal :=
  .next (if s.en.ownerKey.isNone && ecOn (ecKey key.toNat) then { s with en := { s.en with ownerNext := some key } }.finish else s.finish)

/-- OWNERSHIP_TRANSFER (R69): signed by the current owner key, else nothing happens. -/
def execOwnershipTransfer (sig : BitVec 768) (s : State) : Host.Outcome State Fault Refusal :=
  .next (match s.en.ownerKey with
    | none => s.finish
    | some k =>
      if ecdsaVerify k.toNat sig.toNat Config.transferText then
        { s with en := { s.en with
          ownerKey := none, erase := true, minSeq := Map.put (Map.put s.en.minSeq 2 0 0) 3 0 0 } }.finish
      else s.finish)

/-- ATTEST_SIGN (R70). -/
def execAttestSign (nonce : BitVec 384) (s : State) : Host.Outcome State Fault Refusal :=
  .next { s with ct := { s.ct with nonce := nonce, attestSig := Config.attestSign nonce (attestBytes s.ct.attest) } }.finish

/-- What module reset leaves: the state at reset, the memories, the owner key and the sequence minimums, and the model's own
agenda and counters. A transfer of ownership erases device memory (R69). -/
def State.moduleReset (s : State) : State :=
  let s1 := s.commit
  let r := State.reset
  { r with
      clk := { r.clk with skew := s1.clk.skew }
      agenda := s1.agenda
      free := s1.free
      ms := { r.ms with
        bytes := if s1.en.erase then s1.ms.bytes.filter (fun p => paRegion p.1 != 0) else s1.ms.bytes
        marks := if s1.en.erase then s1.ms.marks.filter (fun p => paRegion (32 * p.1) != 0) else s1.ms.marks }
      en := { r.en with
        ownerKey := match s1.en.ownerNext with | some k => some k | none => s1.en.ownerKey
        minSeq := s1.en.minSeq } }

/-- MODULE_RESET (R69, R72, R78, R179, R442): every register returns to its value at reset. -/
def execModuleReset (s : State) : Host.Outcome State Fault Refusal :=
  .next s.moduleReset.finish

end Sys2Proof.Machine
end

