-- ==== Sys2Proof/Machine/Dispatch.lean ====
section
/-! DEFINITION. The meaning of every instruction and event: one arm for each constructor of `Instr`. -/

namespace Sys2Proof.Machine

def exec (i : Instr) (s : State) : Host.Outcome State Fault Refusal :=
  match i with
  | .iadd x => Sys2Proof.Machine.execIadd x s
  | .isub x => Sys2Proof.Machine.execIsub x s
  | .iadd3 x => Sys2Proof.Machine.execIadd3 x s
  | .imul x => Sys2Proof.Machine.execImul x s
  | .imulh x => Sys2Proof.Machine.execImulh x s
  | .imad x => Sys2Proof.Machine.execImad x s
  | .imadw x => Sys2Proof.Machine.execImadw x s
  | .idiv x => Sys2Proof.Machine.execIdiv x s
  | .irem x => Sys2Proof.Machine.execIrem x s
  | .imin x => Sys2Proof.Machine.execImin x s
  | .imax x => Sys2Proof.Machine.execImax x s
  | .iabs x => Sys2Proof.Machine.execIabs x s
  | .ineg x => Sys2Proof.Machine.execIneg x s
  | .isetc x => Sys2Proof.Machine.execIsetc x s
  | .isel x => Sys2Proof.Machine.execIsel x s
  | .lea x => Sys2Proof.Machine.execLea x s
  | .shl x => Sys2Proof.Machine.execShl x s
  | .shr x => Sys2Proof.Machine.execShr x s
  | .sar x => Sys2Proof.Machine.execSar x s
  | .rol x => Sys2Proof.Machine.execRol x s
  | .ror x => Sys2Proof.Machine.execRor x s
  | .xwin x => Sys2Proof.Machine.execXwin x s
  | .andB x => Sys2Proof.Machine.execAnd x s
  | .orB x => Sys2Proof.Machine.execOr x s
  | .xorB x => Sys2Proof.Machine.execXor x s
  | .andn x => Sys2Proof.Machine.execAndn x s
  | .bfn3 x => Sys2Proof.Machine.execBfn3 x s
  | .clz x => Sys2Proof.Machine.execClz x s
  | .ctz x => Sys2Proof.Machine.execCtz x s
  | .popc x => Sys2Proof.Machine.execPopc x s
  | .brev x => Sys2Proof.Machine.execBrev x s
  | .bswap x => Sys2Proof.Machine.execBswap x s
  | .bfe x => Sys2Proof.Machine.execBfe x s
  | .bfi x => Sys2Proof.Machine.execBfi x s
  | .pdep x => Sys2Proof.Machine.execPdep x s
  | .pext x => Sys2Proof.Machine.execPext x s
  | .bperm x => Sys2Proof.Machine.execBperm x s
  | .gf2mm x => Sys2Proof.Machine.execGf2mm x s
  | .bysel x => Sys2Proof.Machine.execBysel x s
  | .mov x => Sys2Proof.Machine.execMov x s
  | .movi x => Sys2Proof.Machine.execMovi x s
  | .take x => Sys2Proof.Machine.execTake x s
  | .rget x => Sys2Proof.Machine.execRget x s
  | .rput x => Sys2Proof.Machine.execRput x s
  | .fadd x => Sys2Proof.Machine.execFadd x s
  | .fsub x => Sys2Proof.Machine.execFsub x s
  | .fmul x => Sys2Proof.Machine.execFmul x s
  | .ffma x => Sys2Proof.Machine.execFfma x s
  | .fmin x => Sys2Proof.Machine.execFmin x s
  | .fmax x => Sys2Proof.Machine.execFmax x s
  | .fsetc x => Sys2Proof.Machine.execFsetc x s
  | .fclass x => Sys2Proof.Machine.execFclass x s
  | .frnd x => Sys2Proof.Machine.execFrnd x s
  | .fscale x => Sys2Proof.Machine.execFscale x s
  | .fdot2 x => Sys2Proof.Machine.execFdot2 x s
  | .fdot4 x => Sys2Proof.Machine.execFdot4 x s
  | .cvt x => Sys2Proof.Machine.execCvt x s
  | .pack x => Sys2Proof.Machine.execPack x s
  | .unpack x => Sys2Proof.Machine.execUnpack x s
  | .rcp x => Sys2Proof.Machine.execRcp x s
  | .rsq x => Sys2Proof.Machine.execRsq x s
  | .sqrt x => Sys2Proof.Machine.execSqrt x s
  | .ex2 x => Sys2Proof.Machine.execEx2 x s
  | .lg2 x => Sys2Proof.Machine.execLg2 x s
  | .sinp x => Sys2Proof.Machine.execSinp x s
  | .cosp x => Sys2Proof.Machine.execCosp x s
  | .tanh x => Sys2Proof.Machine.execTanh x s
  | .rred x => Sys2Proof.Machine.execRred x s
  | .lxch x => Sys2Proof.Machine.execLxch x s
  | .poll x => Sys2Proof.Machine.execPoll x s
  | .redux x => Sys2Proof.Machine.execRedux x s
  | .fredux x => Sys2Proof.Machine.execFredux x s
  | .scan x => Sys2Proof.Machine.execScan x s
  | .rdsys x => Sys2Proof.Machine.execRdsys x s
  | .bra x => Sys2Proof.Machine.execBra x s
  | .brx x => Sys2Proof.Machine.execBrx x s
  | .call x => Sys2Proof.Machine.execCall x s
  | .callx x => Sys2Proof.Machine.execCallx x s
  | .ret x => Sys2Proof.Machine.execRet x s
  | .exit x => Sys2Proof.Machine.execExit x s
  | .bmz x => Sys2Proof.Machine.execBmz x s
  | .bmnz x => Sys2Proof.Machine.execBmnz x s
  | .maskp x => Sys2Proof.Machine.execMaskp x s
  | .maskr x => Sys2Proof.Machine.execMaskr x s
  | .land x => Sys2Proof.Machine.execLand x s
  | .sig x => Sys2Proof.Machine.execSig x s
  | .trap x => Sys2Proof.Machine.execTrap x s
  | .nop x => Sys2Proof.Machine.execNop x s
  | .yield x => Sys2Proof.Machine.execYield x s
  | .ld x => Sys2Proof.Machine.execLd x s
  | .st x => Sys2Proof.Machine.execSt x s
  | .stash x => Sys2Proof.Machine.execStash x s
  | .unstash x => Sys2Proof.Machine.execUnstash x s
  | .flush x => Sys2Proof.Machine.execFlush x s
  | .inval x => Sys2Proof.Machine.execInval x s
  | .pref x => Sys2Proof.Machine.execPref x s
  | .cpy x => Sys2Proof.Machine.execCpy x s
  | .cpyl x => Sys2Proof.Machine.execCpyl x s
  | .cpys x => Sys2Proof.Machine.execCpys x s
  | .cpyg x => Sys2Proof.Machine.execCpyg x s
  | .seal x => Sys2Proof.Machine.execSeal x s
  | .waitb x => Sys2Proof.Machine.execWaitb x s
  | .bbinit x => Sys2Proof.Machine.execBbinit x s
  | .bbexp x => Sys2Proof.Machine.execBbexp x s
  | .bbarr x => Sys2Proof.Machine.execBbarr x s
  | .bbwait x => Sys2Proof.Machine.execBbwait x s
  | .mloop x => Sys2Proof.Machine.execMloop x s
  | .mzero x => Sys2Proof.Machine.execMzero x s
  | .mdrain x => Sys2Proof.Machine.execMdrain x s
  | .mdrainmx x => Sys2Proof.Machine.execMdrainmx x s
  | .mstat x => Sys2Proof.Machine.execMstat x s
  | .ldacq x => Sys2Proof.Machine.execLdacq x s
  | .strel x => Sys2Proof.Machine.execStrel x s
  | .atom x => Sys2Proof.Machine.execAtom x s
  | .red x => Sys2Proof.Machine.execRed x s
  | .fence x => Sys2Proof.Machine.execFence x s
  | .bar x => Sys2Proof.Machine.execBar x s
  | .seamred x => Sys2Proof.Machine.execSeamred x s
  | .seambc x => Sys2Proof.Machine.execSeambc x s
  | .seamsend x => Sys2Proof.Machine.execSeamsend x s
  | .seamrecv x => Sys2Proof.Machine.execSeamrecv x s
  | .ipref x => Sys2Proof.Machine.execIpref x s
  | .ipin x => Sys2Proof.Machine.execIpin x s
  | .iunpin x => Sys2Proof.Machine.execIunpin x s
  | .icinv x => Sys2Proof.Machine.execIcinv x s
  | .spl x => Sys2Proof.Machine.execSpl x s
  | .rfe x => Sys2Proof.Machine.execRfe x s
  | .mfs x => Sys2Proof.Machine.execMfs x s
  | .mts x => Sys2Proof.Machine.execMts x s
  | .tlbinv x => Sys2Proof.Machine.execTlbinv x s
  | .freeze x => Sys2Proof.Machine.execFreeze x s
  | .thaw x => Sys2Proof.Machine.execThaw x s
  | .halt x => Sys2Proof.Machine.execHalt x s
  | .ptest x => Sys2Proof.Machine.execPtest x s
  | .pclr x => Sys2Proof.Machine.execPclr x s
  | .lanekill x => Sys2Proof.Machine.execLanekill x s
  | .selftest x => Sys2Proof.Machine.execSelftest x s
  | .unassignedOpcode fmt w => Sys2Proof.Machine.execUnassignedOpcode fmt w s
  | .qfetch rd rs1 => Sys2Proof.Machine.execQfetch rd rs1 s
  | .bfxu rd rs1 pos len1 => Sys2Proof.Machine.execBfxu rd rs1 pos len1 s
  | .swait rd rs1 rs2 => Sys2Proof.Machine.execSwait rd rs1 rs2 s
  | .dispatch rd rs1 => Sys2Proof.Machine.execDispatch rd rs1 s
  | .swaitComplete core => Sys2Proof.Machine.execSwaitComplete core s
  | .swaitTimeout core => Sys2Proof.Machine.execSwaitTimeout core s
  | .encsigWrite f rd src => Sys2Proof.Machine.execEncsigWrite f rd src s
  | .doorbell q w => Sys2Proof.Machine.execDoorbell q w s
  | .sqEnable q w => Sys2Proof.Machine.execSqEnable q w s
  | .sqDisable q w => Sys2Proof.Machine.execSqDisable q w s
  | .cancel q => Sys2Proof.Machine.execCancel q s
  | .registerWrite off w => Sys2Proof.Machine.execRegisterWrite off w s
  | .placementCycle => Sys2Proof.Machine.execPlacementCycle s
  | .teamArrival team => Sys2Proof.Machine.execTeamArrival team s
  | .unitStart => Sys2Proof.Machine.execUnitStart s
  | .teamStart team => Sys2Proof.Machine.execTeamStart team s
  | .coreStateChange d c st => Sys2Proof.Machine.execCoreStateChange d c st s
  | .readyBitSet f => Sys2Proof.Machine.execReadyBitSet f s
  | .preemptTeam team => Sys2Proof.Machine.execPreemptTeam team s
  | .preemptionEnd team => Sys2Proof.Machine.execPreemptionEnd team s
  | .restoreTeam team core => Sys2Proof.Machine.execRestoreTeam team core s
  | .issueChoice d c sl => Sys2Proof.Machine.execIssueChoice d c sl s
  | .clockRatioChange d c sl => Sys2Proof.Machine.execClockRatioChange d c sl s
  | .rcapWrite ctx v => Sys2Proof.Machine.execRcapWrite ctx v s
  | .walkComplete walk => Sys2Proof.Machine.execWalkComplete walk s
  | .classificationService => Sys2Proof.Machine.execClassificationService s
  | .fqdoneWrite ctx w => Sys2Proof.Machine.execFqdoneWrite ctx w s
  | .faultQueueEnable ctx w => Sys2Proof.Machine.execFaultQueueEnable ctx w s
  | .rootEntryWrite ctx hi w => Sys2Proof.Machine.execRootEntryWrite ctx hi w s
  | .ctxTranslationDisable ctx w => Sys2Proof.Machine.execCtxTranslationDisable ctx w s
  | .invalidationStart w => Sys2Proof.Machine.execInvalidationStart w s
  | .invalidationComplete id => Sys2Proof.Machine.execInvalidationComplete id s
  | .partitionMaskWrite p m => Sys2Proof.Machine.execPartitionMaskWrite p m s
  | .contextTableWrite ctx b => Sys2Proof.Machine.execContextTableWrite ctx b s
  | .claimCompletion req => Sys2Proof.Machine.execClaimCompletion req s
  | .loadAtHome req line => Sys2Proof.Machine.execLoadAtHome req line s
  | .storeAtHome req line => Sys2Proof.Machine.execStoreAtHome req line s
  | .probe id => Sys2Proof.Machine.execProbe id s
  | .probeAck id => Sys2Proof.Machine.execProbeAck id s
  | .probeFilterAnswer id => Sys2Proof.Machine.execProbeFilterAnswer id s
  | .remoteWriterRegistration d line => Sys2Proof.Machine.execRemoteWriterRegistration d line s
  | .cflushExpiry d line => Sys2Proof.Machine.execCflushExpiry d line s
  | .storeCompletionReturn req line => Sys2Proof.Machine.execStoreCompletionReturn req line s
  | .hostMemRead pa len => Sys2Proof.Machine.execHostMemRead pa len s
  | .hostMemWrite pa bytes => Sys2Proof.Machine.execHostMemWrite pa bytes s
  | .hostSnoop line => Sys2Proof.Machine.execHostSnoop line s
  | .stashFillComplete req => Sys2Proof.Machine.execStashFillComplete req s
  | .copyUnitDone copy => Sys2Proof.Machine.execCopyUnitDone copy s
  | .copyResume copy => Sys2Proof.Machine.execCopyResume copy s
  | .batchComplete g cls => Sys2Proof.Machine.execBatchComplete g cls s
  | .kstep op => Sys2Proof.Machine.execKstep op s
  | .tileDrain op => Sys2Proof.Machine.execTileDrain op s
  | .seamMessageArrival msg => Sys2Proof.Machine.execSeamMessageArrival msg s
  | .seamOperationMatch op => Sys2Proof.Machine.execSeamOperationMatch op s
  | .groupRetire g => Sys2Proof.Machine.execGroupRetire g s
  | .teamRetire team => Sys2Proof.Machine.execTeamRetire team s
  | .launchRetire l => Sys2Proof.Machine.execLaunchRetire l s
  | .quireRetire l => Sys2Proof.Machine.execQuireRetire l s
  | .notifyEntryWrite => Sys2Proof.Machine.execNotifyEntryWrite s
  | .msixMessage => Sys2Proof.Machine.execMsixMessage s
  | .coalIntervalExpiry => Sys2Proof.Machine.execCoalIntervalExpiry s
  | .notifyRingEnable w => Sys2Proof.Machine.execNotifyRingEnable w s
  | .notifyRingDisable w => Sys2Proof.Machine.execNotifyRingDisable w s
  | .nrheadWrite w => Sys2Proof.Machine.execNrheadWrite w s
  | .heartbeat x => Sys2Proof.Machine.execHeartbeat x s
  | .heartbeatTimeout x => Sys2Proof.Machine.execHeartbeatTimeout x s
  | .domainFence n => Sys2Proof.Machine.execDomainFence n s
  | .fencedReplyDiscard req => Sys2Proof.Machine.execFencedReplyDiscard req s
  | .linkFailure d side => Sys2Proof.Machine.execLinkFailure d side s
  | .peerFenceClear p => Sys2Proof.Machine.execPeerFenceClear p s
  | .laneDeath g lane => Sys2Proof.Machine.execLaneDeath g lane s
  | .firmwareSelftest u lasting => Sys2Proof.Machine.execFirmwareSelftest u lasting s
  | .dramBurstTransfer d ofs f => Sys2Proof.Machine.execDramBurstTransfer d ofs f s
  | .checkpointSave => Sys2Proof.Machine.execCheckpointSave s
  | .checkpointRestore => Sys2Proof.Machine.execCheckpointRestore s
  | .checkpointEnd portFailed => Sys2Proof.Machine.execCheckpointEnd portFailed s
  | .powerStep d pwr tj => Sys2Proof.Machine.execPowerStep d pwr tj s
  | .coolantLimit => Sys2Proof.Machine.execCoolantLimit s
  | .thermalFence d => Sys2Proof.Machine.execThermalFence d s
  | .bootImageLoad img => Sys2Proof.Machine.execBootImageLoad img s
  | .imageCommit kind => Sys2Proof.Machine.execImageCommit kind s
  | .ownerEnrol key => Sys2Proof.Machine.execOwnerEnrol key s
  | .ownershipTransfer sig => Sys2Proof.Machine.execOwnershipTransfer sig s
  | .attestSign nonce => Sys2Proof.Machine.execAttestSign nonce s
  | .moduleReset => Sys2Proof.Machine.execModuleReset s
  | .completionTimeReached g e => Sys2Proof.Machine.execCompletionTimeReached g e s
  | .registrationAcknowledged d line => Sys2Proof.Machine.execRegistrationAcknowledged d line s
  | .coolantWithinLimits => Sys2Proof.Machine.execCoolantWithinLimits s
  | .scrub d ofs bit => Sys2Proof.Machine.execScrub d ofs bit s
  | .selftestComplete g e found lasting => Sys2Proof.Machine.execSelftestComplete g e found lasting s

end Sys2Proof.Machine
end

