-- ==== Sys2Proof/Machine/Loader.lean ====
section
/-! DEFINITION. The placing of one instruction where the next step fetches it (log entry 13): what a driver, Encon's firmware
and the dispatchers bring about before a program's first instruction, put into the state at once. -/

namespace Sys2Proof.Machine

/-- Bytes put into memory outside any step. -/
def State.poke (s : State) (pa : Nat) (bs : List Byte) : State := (s.putBs pa bs).commit

/-- Core 0 of Encon fetches the word next. -/
def State.placeEncon (s : State) (w : BitVec 32) : State :=
  let c := s.enc 0
  let mem := ((List.range 4).zip (leBytes 4 w.toNat)).foldl (fun (m : Map Byte) p => Map.put m (c.pc.toNat + p.1) p.2 0) s.en.mem
  { (s.setEnc 0 { c with swait := none }) with cur := .encon 0, en := { (s.setEnc 0 { c with swait := none }).en with mem := mem } }

/-- The forme of the placed team: one group of 256 registers with 64 byte barriers, 8 tiles and galley scratch, in context 0. -/
def loaderForme : Forme :=
  { ver := 1, nrole := 1, nql := 0, tailovl := false, cor := false, quire := false, qmem := false, duplex := false
    rsv := false, notify := false, region := false, ctx := 0, tag := 0, gx := 1, gy := 1, gz := 1, galley := 64
    bbars := 64, acc := 8, crec := 0x1030000000, hmode := 0, hhard := false, hbase := 0, htpd := 0, htab := 0, routes := 0
    nroute := 0, orgx := 0, orgy := 0, regw := 0, regh := 0, qlinks := []
    roles := [{ entry := 0x1020000000, groups := 1, regs8 := 32, narg := 0, argofs := 0, shed := false, crit := false }]
    args := [] }

/-- The leaf that maps VA 0x10_0000_0000 upward, 64 GiB of domain 0's memory, for reads, writes and fetches. -/
def loaderLeaf : Leaf :=
  { level := 2, va := 0x1000000000, addr := 0, rd := true, wr := true, x := true, hnd := false, lease := 0, mem := 0
    cls := 2, owner := 0, stripe := none }

/-- A team of one group runs the bytes next: page tables at 0x1000_0000, code at 0x2000_0000, core 0 of domain 0. -/
def State.placeCode (s : State) (bs : List Byte) : State :=
  let s1 := ((s.poke 0x10000000 (leBytes 8 0x10004001)).poke 0x10004008 (leBytes 8 0x81F)).poke 0x20000000 bs
  let l := 8 * s1.wk.next
  let t := s1.exe.nextTeam
  let g := s1.exe.nextGroup
  let T : Team :=
    { launch := l, index := 0, domain := 0, core := 0, st := .started, galBase := 0, groups := [g], plan := [(0, 32)] }
  let L : Launch := { queue := 0, slot := 0, prio := 0, forme := loaderForme, head := l, sub := 0, bodies := [], sent := [(0, true)] }
  { s1 with
      cur := .split g 0
      tr := { s1.tr with
        roots := Map.insert s1.tr.roots 0 { root := 0x10000000, en := true, pinmax := 1024 }
        tlb := { at_ := .instr 0, ctx := 0, leaf := loaderLeaf } :: { at_ := .data 0, ctx := 0, leaf := loaderLeaf } :: s1.tr.tlb }
      ct := { s1.ct with parts := Map.insert s1.ct.parts 0 1, partOf := Map.insert s1.ct.partOf 0 0 }
      wk := { s1.wk with launches := Map.insert s1.wk.launches l L, next := s1.wk.next + 1 }
      exe := { s1.exe with
        groups := Map.insert s1.exe.groups g (startGroup loaderForme t 0 0 0 0 s1.clk.cycle)
        teams := Map.insert s1.exe.teams t T, nextTeam := t + 1, nextGroup := g + 1 } }

end Sys2Proof.Machine
end

