-- ==== Sys2Proof/Machine/Riscv.lean ====
section
/-! DEFINITION. The base architecture of an Encon core: RV64IMAC with Zicsr, Zifencei, Zba and Zbb, in machine and user modes.
R57 names it, and the RISC-V manuals, which the spec does not repeat, give its meaning (PRESUMED, log entry 10). -/

namespace Sys2Proof.Machine

/-! ### Instructions -/

/-- An operation of two integer registers, or of one. -/
inductive RvAlu where
  | add | sub | sll | slt | sltu | xor | srl | sra | or | and
  | mul | mulh | mulhsu | mulhu | div | divu | rem | remu
  | sh1add | sh2add | sh3add | andn | orn | xnor | max | maxu | min | minu | rol | ror
  | clz | ctz | cpop | sextb | sexth | zexth | orcb | rev8
deriving DecidableEq, Repr

/-- A condition of a branch. -/
inductive RvCond where
  | eq | ne | lt | ge | ltu | geu
deriving DecidableEq, Repr

/-- What an atomic operation stores. -/
inductive RvAmo where
  | swap | add | xor | and | or | min | max | minu | maxu
deriving DecidableEq, Repr

/-- A second operand. -/
inductive RvSrc where
  | reg (r : BitVec 5)
  | imm (v : BitVec 64)
deriving DecidableEq, Repr

/-- An instruction of the base architecture. In `alu`, `w` is the form on words, and `uw` takes the low word of rs1
zero-extended; a load or store moves 2 ^ `size` bytes. -/
inductive Rv where
  | alu (f : RvAlu) (w uw : Bool) (rd rs1 : BitVec 5) (b : RvSrc)
  | lui (rd : BitVec 5) (imm : BitVec 64)
  | auipc (rd : BitVec 5) (imm : BitVec 64)
  | jal (rd : BitVec 5) (ofs : BitVec 64)
  | jalr (rd rs1 : BitVec 5) (ofs : BitVec 64)
  | branch (c : RvCond) (rs1 rs2 : BitVec 5) (ofs : BitVec 64)
  | load (size : Nat) (sext : Bool) (rd rs1 : BitVec 5) (ofs : BitVec 64)
  | store (size : Nat) (rs1 rs2 : BitVec 5) (ofs : BitVec 64)
  | lr (size : Nat) (rd rs1 : BitVec 5)
  | sc (size : Nat) (rd rs1 rs2 : BitVec 5)
  | amo (f : RvAmo) (size : Nat) (rd rs1 rs2 : BitVec 5)
  | csr (f : CsrOp) (n : Nat) (rd src : BitVec 5)
  /-- FENCE, FENCE.I, WFI and hints. -/
  | nop
  | ecall
  | ebreak
  | mret
  | illegal
deriving DecidableEq, Repr

/-! ### Decoding of 32-bit words -/

/-- A sign-extended immediate. -/
def rvImm {n : Nat} (v : BitVec n) : BitVec 64 := v.signExtend 64

/-- OP and OP-32: the operation of funct7 and funct3, its form on words, its zero-extended form. -/
def rvOp (w : Bool) (f7 : Nat) (f3 : Nat) (rs2 : BitVec 5) : Option (RvAlu × Bool × Bool) :=
  match w, f7, f3 with
  | _, 0x00, 0 => some (.add, w, false)
  | _, 0x00, 1 => some (.sll, w, false)
  | false, 0x00, 2 => some (.slt, w, false)
  | false, 0x00, 3 => some (.sltu, w, false)
  | false, 0x00, 4 => some (.xor, w, false)
  | _, 0x00, 5 => some (.srl, w, false)
  | false, 0x00, 6 => some (.or, w, false)
  | false, 0x00, 7 => some (.and, w, false)
  | _, 0x20, 0 => some (.sub, w, false)
  | _, 0x20, 5 => some (.sra, w, false)
  | false, 0x20, 4 => some (.xnor, w, false)
  | false, 0x20, 6 => some (.orn, w, false)
  | false, 0x20, 7 => some (.andn, w, false)
  | _, 0x01, 0 => some (.mul, w, false)
  | false, 0x01, 1 => some (.mulh, w, false)
  | false, 0x01, 2 => some (.mulhsu, w, false)
  | false, 0x01, 3 => some (.mulhu, w, false)
  | _, 0x01, 4 => some (.div, w, false)
  | _, 0x01, 5 => some (.divu, w, false)
  | _, 0x01, 6 => some (.rem, w, false)
  | _, 0x01, 7 => some (.remu, w, false)
  | _, 0x10, 2 => some (.sh1add, false, w)
  | _, 0x10, 4 => some (.sh2add, false, w)
  | _, 0x10, 6 => some (.sh3add, false, w)
  | false, 0x05, 4 => some (.min, w, false)
  | false, 0x05, 5 => some (.minu, w, false)
  | false, 0x05, 6 => some (.max, w, false)
  | false, 0x05, 7 => some (.maxu, w, false)
  | _, 0x30, 1 => some (.rol, w, false)
  | _, 0x30, 5 => some (.ror, w, false)
  | true, 0x04, 0 => some (.add, false, true)
  | true, 0x04, 4 => if rs2 = 0 then some (.zexth, false, false) else none
  | _, _, _ => none

/-- OP-IMM and OP-IMM-32. -/
def rvOpImm (w : Bool) (f3 : Nat) (rd rs1 : BitVec 5) (i : BitVec 12) : Rv :=
  let imm (f : RvAlu) : Rv := .alu f w false rd rs1 (.imm (rvImm i))
  let sh (f : RvAlu) (uw : Bool) : Rv := .alu f (w && !uw) uw rd rs1 (.imm ((i.extractLsb' 0 6).zeroExtend 64))
  let one (f : RvAlu) : Rv := .alu f w false rd rs1 (.imm 0)
  let short : Bool := !w || !i.getLsbD 5
  match f3 with
  | 0 => imm .add
  | 2 => if w then .illegal else imm .slt
  | 3 => if w then .illegal else imm .sltu
  | 4 => if w then .illegal else imm .xor
  | 6 => if w then .illegal else imm .or
  | 7 => if w then .illegal else imm .and
  | 1 =>
    if i.toNat / 64 = 0x00 ∧ short then sh .sll false
    else if w ∧ i.toNat / 64 = 0x02 then sh .sll true
    else if i = 0x600 then one .clz
    else if i = 0x601 then one .ctz
    else if i = 0x602 then one .cpop
    else if i = 0x604 ∧ !w then one .sextb
    else if i = 0x605 ∧ !w then one .sexth
    else .illegal
  | 5 =>
    if i.toNat / 64 = 0x00 ∧ short then sh .srl false
    else if i.toNat / 64 = 0x10 ∧ short then sh .sra false
    else if i.toNat / 64 = 0x18 ∧ short then sh .ror false
    else if i = 0x287 ∧ !w then one .orcb
    else if i = 0x6B8 ∧ !w then one .rev8
    else .illegal
  | _ => .illegal

/-- The condition of a branch's funct3. -/
def rvCond (f3 : Nat) : Option RvCond :=
  match f3 with
  | 0 => some .eq | 1 => some .ne | 4 => some .lt | 5 => some .ge | 6 => some .ltu | 7 => some .geu
  | _ => none

/-- The atomic operations, by funct5. -/
def rvAmo (f5 : Nat) : Option RvAmo :=
  match f5 with
  | 0x01 => some .swap | 0x00 => some .add | 0x04 => some .xor | 0x0C => some .and | 0x08 => some .or
  | 0x10 => some .min | 0x14 => some .max | 0x18 => some .minu | 0x1C => some .maxu
  | _ => none

/-- Decodes a 32-bit word. -/
def rvDecode32 (x : BitVec 32) : Rv :=
  let rd := x.extractLsb' 7 5
  let rs1 := x.extractLsb' 15 5
  let rs2 := x.extractLsb' 20 5
  let f3 := (x.extractLsb' 12 3).toNat
  let iI := x.extractLsb' 20 12
  let iS : BitVec 12 := x.extractLsb' 25 7 ++ x.extractLsb' 7 5
  let iU : BitVec 32 := x.extractLsb' 12 20 ++ (0 : BitVec 12)
  let iB : BitVec 13 := x.extractLsb' 31 1 ++ x.extractLsb' 7 1 ++ x.extractLsb' 25 6 ++ x.extractLsb' 8 4 ++ (0 : BitVec 1)
  let iJ : BitVec 21 :=
    x.extractLsb' 31 1 ++ x.extractLsb' 12 8 ++ x.extractLsb' 20 1 ++ x.extractLsb' 21 10 ++ (0 : BitVec 1)
  let alu (w : Bool) : Rv :=
    match rvOp w (x.extractLsb' 25 7).toNat f3 rs2 with
    | some (f, w, uw) => .alu f w uw rd rs1 (.reg rs2)
    | none => .illegal
  match (x.extractLsb' 0 7).toNat with
  | 0x37 => .lui rd (rvImm iU)
  | 0x17 => .auipc rd (rvImm iU)
  | 0x6F => .jal rd (rvImm iJ)
  | 0x67 => if f3 = 0 then .jalr rd rs1 (rvImm iI) else .illegal
  | 0x63 => match rvCond f3 with
    | some c => .branch c rs1 rs2 (rvImm iB)
    | none => .illegal
  | 0x03 => if f3 = 7 then .illegal else .load (f3 % 4) (decide (f3 < 4)) rd rs1 (rvImm iI)
  | 0x23 => if 3 < f3 then .illegal else .store f3 rs1 rs2 (rvImm iS)
  | 0x13 => rvOpImm false f3 rd rs1 iI
  | 0x1B => rvOpImm true f3 rd rs1 iI
  | 0x33 => alu false
  | 0x3B => alu true
  | 0x0F => if f3 = 0 ∨ f3 = 1 then .nop else .illegal
  | 0x2F =>
    if f3 = 2 ∨ f3 = 3 then
      match (x.extractLsb' 27 5).toNat with
      | 0x02 => if rs2 = 0 then .lr f3 rd rs1 else .illegal
      | 0x03 => .sc f3 rd rs1 rs2
      | f5 => match rvAmo f5 with
        | some f => .amo f f3 rd rs1 rs2
        | none => .illegal
    else .illegal
  | 0x73 =>
    if x = 0x00000073 then .ecall
    else if x = 0x00100073 then .ebreak
    else if x = 0x30200073 then .mret
    else if x = 0x10500073 then .nop
    else match CsrOp.ofFunct3 (x.extractLsb' 12 3) with
      | some f => .csr f iI.toNat rd rs1
      | none => .illegal
  | _ => .illegal

/-! ### Decoding of 16-bit words -/

/-- Decodes a compressed instruction. -/
def rvDecode16 (x : BitVec 16) : Rv :=
  let r := x.extractLsb' 7 5
  let r2 := x.extractLsb' 2 5
  let p1 : BitVec 5 := (1 : BitVec 2) ++ x.extractLsb' 7 3
  let p2 : BitVec 5 := (1 : BitVec 2) ++ x.extractLsb' 2 3
  let b (i n : Nat) : BitVec n := x.extractLsb' i n
  let i6 : BitVec 6 := b 12 1 ++ b 2 5
  let uw : BitVec 64 := (b 5 1 ++ b 10 3 ++ b 6 1 ++ (0 : BitVec 2)).zeroExtend 64
  let ud : BitVec 64 := (b 5 2 ++ b 10 3 ++ (0 : BitVec 3)).zeroExtend 64
  let i4 : BitVec 64 := (b 7 4 ++ b 11 2 ++ b 5 1 ++ b 6 1 ++ (0 : BitVec 2)).zeroExtend 64
  let i16 : BitVec 10 := b 12 1 ++ b 3 2 ++ b 5 1 ++ b 2 1 ++ b 6 1 ++ (0 : BitVec 4)
  let iU : BitVec 18 := i6 ++ (0 : BitVec 12)
  let iJ : BitVec 12 :=
    b 12 1 ++ b 8 1 ++ b 9 2 ++ b 6 1 ++ b 7 1 ++ b 2 1 ++ b 11 1 ++ b 3 3 ++ (0 : BitVec 1)
  let iB : BitVec 9 := b 12 1 ++ b 5 2 ++ b 2 1 ++ b 10 2 ++ b 3 2 ++ (0 : BitVec 1)
  let lw : BitVec 64 := (b 2 2 ++ b 12 1 ++ b 4 3 ++ (0 : BitVec 2)).zeroExtend 64
  let ld : BitVec 64 := (b 2 3 ++ b 12 1 ++ b 5 2 ++ (0 : BitVec 3)).zeroExtend 64
  let sw : BitVec 64 := (b 7 2 ++ b 9 4 ++ (0 : BitVec 2)).zeroExtend 64
  let sd : BitVec 64 := (b 7 3 ++ b 10 3 ++ (0 : BitVec 3)).zeroExtend 64
  let imm (f : RvAlu) (w : Bool) (rd rs : BitVec 5) (v : BitVec 64) : Rv := .alu f w false rd rs (.imm v)
  let reg (f : RvAlu) (w : Bool) (rd rs : BitVec 5) (s : BitVec 5) : Rv := .alu f w false rd rs (.reg s)
  match (b 0 2).toNat, (b 13 3).toNat with
  | 0, 0 => if i4 = 0 then .illegal else imm .add false p2 2 i4
  | 0, 2 => .load 2 true p2 p1 uw
  | 0, 3 => .load 3 true p2 p1 ud
  | 0, 6 => .store 2 p1 p2 uw
  | 0, 7 => .store 3 p1 p2 ud
  | 1, 0 => imm .add false r r (rvImm i6)
  | 1, 1 => if r = 0 then .illegal else imm .add true r r (rvImm i6)
  | 1, 2 => imm .add false r 0 (rvImm i6)
  | 1, 3 =>
    if i6 = 0 then .illegal
    else if r = 2 then imm .add false 2 2 (rvImm i16)
    else .lui r (rvImm iU)
  | 1, 4 =>
    match (b 10 2).toNat, (b 12 1).toNat, (b 5 2).toNat with
    | 0, _, _ => imm .srl false p1 p1 (i6.zeroExtend 64)
    | 1, _, _ => imm .sra false p1 p1 (i6.zeroExtend 64)
    | 2, _, _ => imm .and false p1 p1 (rvImm i6)
    | 3, 0, 0 => reg .sub false p1 p1 p2
    | 3, 0, 1 => reg .xor false p1 p1 p2
    | 3, 0, 2 => reg .or false p1 p1 p2
    | 3, 0, 3 => reg .and false p1 p1 p2
    | 3, 1, 0 => reg .sub true p1 p1 p2
    | 3, 1, 1 => reg .add true p1 p1 p2
    | _, _, _ => .illegal
  | 1, 5 => .jal 0 (rvImm iJ)
  | 1, 6 => .branch .eq p1 0 (rvImm iB)
  | 1, 7 => .branch .ne p1 0 (rvImm iB)
  | 2, 0 => imm .sll false r r (i6.zeroExtend 64)
  | 2, 2 => if r = 0 then .illegal else .load 2 true r 2 lw
  | 2, 3 => if r = 0 then .illegal else .load 3 true r 2 ld
  | 2, 4 =>
    if (b 12 1).toNat = 0 then
      if r2 = 0 then (if r = 0 then .illegal else .jalr 0 r 0) else reg .add false r 0 r2
    else if r2 = 0 then (if r = 0 then .ebreak else .jalr 1 r 0)
    else reg .add false r r r2
  | 2, 6 => .store 2 2 r2 sw
  | 2, 7 => .store 3 2 r2 sd
  | _, _ => .illegal

/-- The instruction at the start of a 32-bit word, and its length in bytes. -/
def rvDecode (w : BitVec 32) : Rv × Nat :=
  if w.extractLsb' 0 2 = 3 then (rvDecode32 w, 4) else (rvDecode16 (w.extractLsb' 0 16), 2)

/-! ### Arithmetic -/

/-- The number of leading zeros. -/
def rvClz {n : Nat} (a : BitVec n) : Nat := if a = 0 then n else n - 1 - a.toNat.log2

/-- The number of trailing zeros. -/
def rvCtz {n : Nat} (a : BitVec n) : Nat := ((List.range n).takeWhile (fun i => !a.getLsbD i)).length

/-- An operation at a width. -/
def rvAlu {n : Nat} (f : RvAlu) (a b : BitVec n) : BitVec n :=
  let k := b.toNat % n
  let bytes : List Nat := List.range (n / 8)
  let bit (c : Bool) : BitVec n := if c then 1 else 0
  match f with
  | .add => a + b
  | .sub => a - b
  | .sll => a <<< k
  | .slt => bit (a.slt b)
  | .sltu => bit (a.ult b)
  | .xor => a ^^^ b
  | .srl => a >>> k
  | .sra => a.sshiftRight k
  | .or => a ||| b
  | .and => a &&& b
  | .mul => a * b
  | .mulh => BitVec.ofInt n ((a.toInt * b.toInt) >>> n)
  | .mulhsu => BitVec.ofInt n ((a.toInt * (b.toNat : Int)) >>> n)
  | .mulhu => BitVec.ofNat n (a.toNat * b.toNat / 2 ^ n)
  | .div => if b = 0 then BitVec.allOnes n else a.sdiv b
  | .divu => if b = 0 then BitVec.allOnes n else a / b
  | .rem => if b = 0 then a else a.srem b
  | .remu => if b = 0 then a else a % b
  | .sh1add => (a <<< 1) + b
  | .sh2add => (a <<< 2) + b
  | .sh3add => (a <<< 3) + b
  | .andn => a &&& ~~~ b
  | .orn => a ||| ~~~ b
  | .xnor => ~~~ (a ^^^ b)
  | .max => if a.slt b then b else a
  | .maxu => if a.ult b then b else a
  | .min => if a.slt b then a else b
  | .minu => if a.ult b then a else b
  | .rol => a.rotateLeft k
  | .ror => a.rotateRight k
  | .clz => BitVec.ofNat n (rvClz a)
  | .ctz => BitVec.ofNat n (rvCtz a)
  | .cpop => BitVec.ofNat n ((List.range n).countP (fun i => a.getLsbD i))
  | .sextb => (a.truncate 8).signExtend n
  | .sexth => (a.truncate 16).signExtend n
  | .zexth => (a.truncate 16).zeroExtend n
  | .orcb => BitVec.ofNat n (leNat (bytes.map (fun i => if a.extractLsb' (8 * i) 8 = 0 then 0 else 0xFF)))
  | .rev8 => BitVec.ofNat n (leNat (bytes.reverse.map (fun i => a.extractLsb' (8 * i) 8)))

/-- An operation of 64-bit registers: on words it works on the low halves and sign-extends. -/
def rvResult (f : RvAlu) (w uw : Bool) (a b : BitVec 64) : BitVec 64 :=
  if w then (rvAlu f (a.truncate 32) (b.truncate 32)).signExtend 64
  else rvAlu f (if uw then (a.truncate 32).zeroExtend 64 else a) b

/-- A branch is taken. -/
def RvCond.holds (c : RvCond) (a b : BitVec 64) : Bool :=
  match c with
  | .eq => a == b | .ne => a != b | .lt => a.slt b | .ge => !a.slt b | .ltu => a.ult b | .geu => !a.ult b

/-- What an atomic operation stores over `a`. -/
def RvAmo.result {n : Nat} (f : RvAmo) (a b : BitVec n) : BitVec n :=
  match f with
  | .swap => b
  | .add => rvAlu .add a b | .xor => rvAlu .xor a b | .and => rvAlu .and a b | .or => rvAlu .or a b
  | .min => rvAlu .min a b | .max => rvAlu .max a b | .minu => rvAlu .minu a b | .maxu => rvAlu .maxu a b

/-! ### Memory of Encon -/

/-- The bytes of an access. -/
def State.enRead (s : State) (a : BitVec 64) (n : Nat) : Nat :=
  leNat ((List.range n).map (fun i => Map.getD s.en.mem (a + BitVec.ofNat 64 i).toNat 0))

/-- Core `k` stores `n` bytes: reservations of the other cores on the doublewords written end. -/
def State.enWrite (s : State) (k : Nat) (a : BitVec 64) (n v : Nat) : State :=
  let at_ (i : Nat) : Nat := (a + BitVec.ofNat 64 i).toNat
  let hit (c : EnCore) : Bool := (List.range n).any (fun i => c.resv == some (at_ i / 8))
  let mem := Map.putAll s.en.mem 0 (((List.range n).zip (leBytes n v)).map (fun p => (at_ p.1, p.2)))
  let cores := s.en.cores.map (fun p => if p.1 ≠ k ∧ hit p.2 then (p.1, { p.2 with resv := none }) else p)
  { s with en := { s.en with mem := mem, cores := cores } }

/-- A value of 2 ^ `size` bytes in a register. -/
def rvExtend (size : Nat) (sext : Bool) (v : Nat) : BitVec 64 :=
  let n := 8 * 2 ^ size
  if sext then (BitVec.ofNat n v).signExtend 64 else BitVec.ofNat 64 v

/-! ### Control and status registers -/

/-- The bits of a register that a write keeps (mstatus: MIE, MPIE, MPP, MPRV, TW; mie: the three machine interrupts). -/
def EnCore.setCsr (c : EnCore) (n : Nat) (v : BitVec 64) : EnCore :=
  let mpp : BitVec 64 := if v.extractLsb' 11 2 = 3 then 0x1800 else 0
  if n = 0x300 then { c with mstatus := (v &&& 0x220088) ||| mpp }
  else if n = 0x304 then { c with mie := v &&& 0x888 }
  else if n = 0x305 then { c with mtvec := v &&& ~~~ (2 : BitVec 64) }
  else if n = 0x340 then { c with mscratch := v }
  else if n = 0x341 then { c with mepc := v &&& ~~~ (1 : BitVec 64) }
  else if n = 0x342 then { c with mcause := v }
  else if n = 0x343 then { c with mtval := v }
  else c

/-- The registers that read as a constant, where they exist: misa (A, C, I, M, U and non-standard extensions), the core's
number, and registers without function here. -/
def rvConstCsr (k n : Nat) : Option (BitVec 64) :=
  if n = 0x301 then some 0x8000000000901105
  else if n = 0xF14 then some (BitVec.ofNat 64 k)
  else if n = 0xF11 ∨ n = 0xF12 ∨ n = 0xF13 ∨ n = 0xF15 ∨ n = 0x306 ∨ n = 0x30A ∨ n = 0x320 ∨ n = 0x344 ∨
      (0x323 ≤ n ∧ n < 0x340) ∨ (0x3A0 ≤ n ∧ n < 0x3B0 ∧ n % 2 = 0) ∨ (0x3B0 ≤ n ∧ n < 0x3F0) ∨
      (0xB03 ≤ n ∧ n < 0xB20) then some 0
  else none

/-- Reads a register: none where it does not exist. The cycle and instruction counters are free values. -/
def State.readCsr (s : State) (k n : Nat) : Option (BitVec 64 × State) :=
  let c := s.enc k
  if n = 0x300 then some (c.mstatus ||| 0x200000000, s)
  else if n = 0x304 then some (c.mie, s)
  else if n = 0x305 then some (c.mtvec, s)
  else if n = 0x340 then some (c.mscratch, s)
  else if n = 0x341 then some (c.mepc, s)
  else if n = 0x342 then some (c.mcause, s)
  else if n = 0x343 then some (c.mtval, s)
  else if n = 0xB00 ∨ n = 0xB02 then
    let (lo, s1) := s.draw
    let (hi, s2) := s1.draw
    some (hi ++ lo, s2)
  else (rvConstCsr k n).map (fun v => (v, s))

/-- A CSR instruction of core `k`: illegal in user mode (every register here is machine mode's), where the register does
not exist, and where it is read-only and would be written. -/
def rvCsr (k len : Nat) (f : CsrOp) (n : Nat) (rd src : BitVec 5) (s : State) : State :=
  let c := s.enc k
  let v : BitVec 64 := match f with
    | .rw | .rs | .rc => c.get src
    | .rwi | .rsi | .rci => src.zeroExtend 64
  let writes : Bool := match f with
    | .rw | .rwi => true
    | .rs | .rsi | .rc | .rci => src != 0
  if !c.machine || (writes && decide (0xC00 ≤ n)) then s.enIllegal k
  else
    match s.readCsr k n with
    | none => s.enIllegal k
    | some (old, s1) =>
      let new : BitVec 64 := match f with
        | .rw | .rwi => v
        | .rs | .rsi => old ||| v
        | .rc | .rci => old &&& ~~~ v
      let c1 := if writes then c.setCsr n new else c
      s1.setEnc k { (c1.put rd old) with pc := c.pc + BitVec.ofNat 64 len }

/-! ### Execution -/

/-- MRET: the mode and the interrupt enable that the last trap saved, and the pc of mepc. -/
def EnCore.mret (c : EnCore) : EnCore :=
  let m := c.mstatus.extractLsb' 11 2 == 3
  let clear := c.mstatus &&& ~~~ (if m then 0x1888 else 0x21888 : BitVec 64)
  { c with
      machine := m, pc := c.mepc
      mstatus := clear ||| (if c.mstatus.getLsbD 7 then 0x8 else 0) ||| 0x80 }

/-- Core `k` executes an instruction of `len` bytes of the base architecture. -/
def rvExec (k len : Nat) (i : Rv) (s : State) : State :=
  let c := s.enc k
  let next := c.pc + BitVec.ofNat 64 len
  let go (c : EnCore) (pc : BitVec 64) (s : State) : State := s.setEnc k { c with pc := pc }
  match i with
  | .alu f w uw rd rs1 b =>
    let y := match b with
      | .reg r => c.get r
      | .imm v => v
    go (c.put rd (rvResult f w uw (c.get rs1) y)) next s
  | .lui rd v => go (c.put rd v) next s
  | .auipc rd v => go (c.put rd (c.pc + v)) next s
  | .jal rd ofs => go (c.put rd next) (c.pc + ofs) s
  | .jalr rd rs1 ofs => go (c.put rd next) ((c.get rs1 + ofs) &&& ~~~ (1 : BitVec 64)) s
  | .branch f rs1 rs2 ofs => go c (if f.holds (c.get rs1) (c.get rs2) then c.pc + ofs else next) s
  | .load size sext rd rs1 ofs => go (c.put rd (rvExtend size sext (s.enRead (c.get rs1 + ofs) (2 ^ size)))) next s
  | .store size rs1 rs2 ofs =>
    let s1 := s.enWrite k (c.get rs1 + ofs) (2 ^ size) (c.get rs2).toNat
    go c next s1
  | .lr size rd rs1 =>
    let a := c.get rs1
    if a.toNat % 2 ^ size ≠ 0 then s.setEnc k (c.trap 4 a)
    else go { c.put rd (rvExtend size true (s.enRead a (2 ^ size))) with resv := some (a.toNat / 8) } next s
  | .sc size rd rs1 rs2 =>
    let a := c.get rs1
    if a.toNat % 2 ^ size ≠ 0 then s.setEnc k (c.trap 6 a)
    else if c.resv = some (a.toNat / 8) then
      go { c.put rd 0 with resv := none } next (s.enWrite k a (2 ^ size) (c.get rs2).toNat)
    else go { c.put rd 1 with resv := none } next s
  | .amo f size rd rs1 rs2 =>
    let a := c.get rs1
    if a.toNat % 2 ^ size ≠ 0 then s.setEnc k (c.trap 6 a)
    else
      let n := 8 * 2 ^ size
      let old := BitVec.ofNat n (s.enRead a (2 ^ size))
      let s1 := s.enWrite k a (2 ^ size) (f.result old ((c.get rs2).truncate n)).toNat
      go (c.put rd (old.signExtend 64)) next s1
  | .csr f n rd src => rvCsr k len f n rd src s
  | .nop => go c next s
  | .ecall => s.setEnc k (c.trap (if c.machine then 11 else 8) 0)
  | .ebreak =>
    let (lo, s1) := s.draw
    let (hi, s2) := s1.draw
    s2.setEnc k (c.trap 3 (hi ++ lo))
  | .mret => if c.machine then s.setEnc k c.mret else s.enIllegal k
  | .illegal => s.enIllegal k

/-- The step of core `k` at the word `w` of the base architecture. -/
def rvStep (k : Nat) (w : BitVec 32) (s : State) : State :=
  let (i, len) := rvDecode w
  (rvExec k len i { s with cur := .idle }).finish

end Sys2Proof.Machine
end

