-- ==== Sys2Proof/Machine/Step.lean ====
section
/-! DEFINITION. One step of the machine: the instruction of the split or the Encon core whose turn it is, or the next move
(log entries 1, 2). -/

namespace Sys2Proof.Machine

/-- One step. -/
def step (s : State) : Host.Outcome State Fault Refusal :=
  match s.cur with
  | .split g e =>
    match fetchSplit s g e with
    | .stop s1 => .next s1
    | .run i s1 => exec i s1
  | .encon k =>
    match enconFetch s k with
    | .stop s1 => .next s1.finish
    | .run i => exec i s
    | .base w => .next (rvStep k w s)
  | .idle =>
    match s.nextMove with
    | (some (.event i), s1) => if isEvent i then exec i s1 else .next s1
    | (some (.encon k), s1) => .next { s1.finish with cur := .encon k }
    | (some m, s1) => .next (s1.move m).finish
    | (none, s1) => .next s1

/-- The state with the instruction of `nbits` bits `w` placed where the next step fetches: an Encon instruction in core 0's
memory at its pc, a Limov instruction in the code of a one-group team that `placeCode` sets up (log entry 13). -/
def State.withFetchWord (s : State) (nbits w : Nat) : State :=
  if nbits ≤ 32 then s.placeEncon (BitVec.ofNat 32 w) else s.placeCode (leBytes 16 (w % 2 ^ nbits))

end Sys2Proof.Machine
end

