-- ==== Sys2Proof/Safety.lean ====
section
/-! DEFINITION. The words that claims are stated in: a step that goes on, the invariant of every step, the conditions under
which an instruction executes (R118), and what an instruction with a lane result changes and leaves unchanged. -/

namespace Sys2Proof.Machine

/-! ### What every step keeps -/

/-- The memory of a state is in canonical form, and no byte is logged (log entry 6). -/
def State.memOk (s : State) : Prop := Memory.wf s.ms.bytes = true ∧ s.wlog = []

/-- No split still waits for what has come about: a parked split is ready once its registers are FULL (R169, R170), a held
one once an entry is free (R163), and so for every wait that no event of its own ends. -/
def State.settled (s : State) : Prop :=
  ∀ g G, (g, G) ∈ s.exe.groups → ∀ e, e < 4 → s.wakable g G e = false

/-- Every Platen gate whose phase has completed is released (R341). -/
def State.gatesOpen (s : State) : Prop := ∀ id p, (id, p) ∈ s.eng.pops → s.openGate id p = p

/-- A split whose turn it is belongs to a team and is valid (R161). -/
def State.turnOk (s : State) : Prop :=
  ∀ g e, s.cur = .split g e → ∃ G T, s.grp g = some G ∧ s.tm G.team = some T ∧ (G.sp e).v = true

/-- The machine between steps: the turn is somebody's who exists, nothing is logged, nobody waits in vain, no gate stays
shut. -/
structure State.quiet (s : State) : Prop where
  turn : s.turnOk
  log : s.wlog = []
  settled : s.settled
  gates : s.gatesOpen

/-! ### When an instruction executes (R118) -/

/-- The instruction's bytes are followed by an address of the same half (R93). -/
def Ctx.seqOk (c : Ctx) : Bool :=
  let n := (c.sp.pc + BitVec.ofNat 64 c.len).toNat
  canonical n && handlerHalf n == handlerHalf c.sp.pc.toNat

/-- Nothing of R118 stops the instruction `x` of opcode `o` in the split whose turn it is: `c` is its context; the group may
name its registers and tile; its level permits it; its latch entries are valid and its chain is short enough; its
predicate is not "never", FULL and clean; its destinations are free to write; its source registers are FULL, no breakpoint
stands at its PC, and no acquire holds back its accesses, unless it carries on an instruction that it has begun (or, for the
registers and the accesses, no lane is active). Nothing is logged, as between steps. -/
structure Runs (o : Op) (x : Ops) (s : State) (c : Ctx) : Prop where
  ctx : s.context o x = some c
  log : s.wlog = []
  legal : opsOk o x = true
  named : dynOk o x c.G (s.accOf c.T) = true
  level : o.priv = true → c.G.lvl ≠ 0
  latches : ∀ k ∈ latchReads x, k < c.sp.lval
  chain : x.live = true → c.sp.chain < 9
  predOn : isNever x = false
  predFull : c.sp.resumes = false → c.G.pendOf x.p.toNat = none
  predClean : hemLanes c.G c.sp x.p.toNat = 0
  sources : c.sp.resumes = false → (lazyPark o = true → c.act ≠ 0) → ∀ r ∈ sourceRegs o x, c.G.pendOf r = none
  dests : c.blocked = ([], [])
  brk : c.sp.resumes = false → c.sp.exempt = false → c.act ≠ 0 → c.G.lvl = 0 → (s.trapBlk c.ctx).brken = true →
    (s.trapBlk c.ctx).brkpc ≠ (c.sp.pc >>> 2).truncate 62
  acquire : makesAccess o x = true → c.sp.resumes = false → c.act ≠ 0 →
    s.acquireOut c.g = false ∧ c.G.inFence (makesStore o x) = false
  next : c.seqOk = true

/-! ### What an instruction leaves unchanged -/

/-- Two states of a split that differ in its waiting alone, and in a latch chain that may have ended: what a split waits for may
come about, and a frozen group may stop (R427). -/
def Split.same (a b : Split) : Prop :=
  b = { a with st := b.st, wait := b.wait, arrived := b.arrived, fresh := b.fresh, chain := b.chain } ∧
    (b.chain = a.chain ∨ b.chain = 0)

/-- Two states of a group that differ in the waiting of its splits alone. -/
structure Group.same (G H : Group) : Prop where
  splits : ∀ e, (G.sp e).same (H.sp e)
  rest : H = { G with splits := H.splits, rq := H.rq }

/-- Two states of an operation of the Platen that differ in the release of its gate alone. -/
def POp.opens (p q : POp) : Prop :=
  q = p ∨ ∃ m b, p.kind = .mloop m ∧ m.opened = none ∧ q = { p with kind := .mloop { m with opened := some b } }

/-- The Platen holds the same operations, but for the release of gates. -/
def samePops (s t : State) : Prop :=
  ∀ i, (Map.find t.eng.pops i).isSome = (Map.find s.eng.pops i).isSome ∧
    ∀ p, Map.find s.eng.pops i = some p → ∃ q, Map.find t.eng.pops i = some q ∧ p.opens q

/-- The charge and the marks that issuing leaves on a slice (R176, R179). -/
def Ctx.charge (c : Ctx) (sl : Slice) : Slice :=
  { sl with
      c := max (sl.c - opCharge c.o) (-32768)
      owner := some c.g
      chain := if c.x.live then some (c.g, c.e) else none }

/-- The frame of an instruction that works in its own group: time, memory and its copies, translation, the control region,
Encon, the reliability hardware, teams with their galleys, tiles and barriers, the engines' copies, operations and messages
are unchanged; in another group only what a split waits for may come about, and in the Platen only a gate be released; the instruction is counted on its core (R478) and
charged to its slice (R179), and its launch has begun (R36). -/
structure Elsewhere (c : Ctx) (s t : State) : Prop where
  cur : t.cur = .idle
  clk : t.clk = s.clk
  agenda : t.agenda = s.agenda
  free : t.free = s.free
  ms : t.ms = s.ms
  wlog : t.wlog = []
  tr : t.tr = s.tr
  ct : t.ct = s.ct
  en : t.en = s.en
  rb : t.rb = s.rb
  hp : t.hp = s.hp
  teams : t.exe.teams = s.exe.teams
  pops : samePops s t
  next : t.eng.next = s.eng.next
  copies : t.eng.copies = s.eng.copies
  sops : t.eng.sops = s.eng.sops
  smsgs : t.eng.smsgs = s.eng.smsgs
  groups : ∀ h, h ≠ c.g → ∀ G, s.grp h = some G → ∃ H, t.grp h = some H ∧ G.same H
  cores : ∀ k, t.coreAt k =
    if k = c.k then { s.coreAt k with ctr := { (s.coreAt k).ctr with inst := (s.coreAt k).ctr.inst + 1 } } else s.coreAt k
  slices : ∀ k, t.sliceAt k = if k = sliceKey c.k c.G.slice then c.charge (s.sliceAt k) else s.sliceAt k
  launches : ∀ l, t.launch l = if l = c.T.launch
    then (s.launch l).map (fun L => if L.started then L else { L with started := true, wstart := s.wtime c.T.domain })
    else s.launch l
  work : t.wk = { s.wk with launches := t.wk.launches }

/-! ### What an instruction with a lane result does -/

/-- The split after an instruction that leaves its lanes alone and goes on behind itself: PC, signature (R276), latch chain
(R176). -/
def Ctx.after (c : Ctx) : Split :=
  { c.sp with
      pc := c.sp.pc + BitVec.ofNat 64 c.len
      sig := if opUncounted c.o then c.sp.sig else sigNext c.sp.sig c.o.code (c.sp.maskBad c.G.dead)
      chain := if c.x.live then c.sp.chain + 1 else 0
      xlat := [], relDone := false, arrived := 0, msg := none, exempt := false, inst := none, joined := none }

/-- The words of a result `v` that register `r` receives: its low word goes to D, its high word to D + 1 in a pair. -/
def Ctx.writes (c : Ctx) (wide : Bool) (v : LW2) (r : Nat) : Option LW :=
  if c.x.w || c.x.d.toNat < 4 then none
  else if r = c.x.d.toNat then some { val := v.val.truncate 32, psn := v.pLo }
  else if wide && r = c.x.d.toNat + 1 then some { val := (v.val >>> 32).truncate 32, psn := v.pHi }
  else none

/-- D is v1, v2 or v3: the result goes to the mask (R160). -/
def Ctx.toMask (c : Ctx) : Bool := !c.x.w && decide (1 ≤ c.x.d.toNat ∧ c.x.d.toNat ≤ 3)

/-- The registers and the status that an instruction with a lane result leaves in its own group: `v` and `fl` give the
result and the flags of each lane on which it executes. The result goes to D, to the mask, or to nothing (R111, R159, R160,
R168); it joins the latch history where `push` (R174); the flags of clean results join sys.fflags (R200, R201); every other
register, split, system register, claim slot and counter of the group is as before. -/
structure Ctx.laneGroup (c : Ctx) (wide push : Bool) (v : Nat → LW2) (fl : Nat → Fl) (H : Group) : Prop where
  regs : ∀ r j, 4 ≤ r → r < 256 → j < 96 →
    H.reg r j = if c.ex.has j then (c.writes wide (v j) r).getD (c.G.reg r j) else c.G.reg r j
  pend : ∀ r, r < 256 → H.pendOf r =
    if c.ex ≠ 0 ∧ (c.writes wide {} r).isSome then none else c.G.pendOf r
  mask : ∀ i, i < 96 → (H.sp c.e).mask.has i =
    match c.act.lowest with
    | some j =>
      if c.toMask && i / 32 + 1 == c.x.d.toNat then (lwLo (v j)).getLsbD (i % 32) && c.sp.memb.has i && !c.G.dead.has i
      else c.sp.mask.has i
    | none => c.sp.mask.has i
  split : ({ c.after with
      mask := (H.sp c.e).mask, parMask := (H.sp c.e).parMask
      latch := if push then (H.sp c.e).latch else c.sp.latch
      lval := if push then min (c.sp.lval + 1) 4 else c.sp.lval } : Split).same (H.sp c.e)
  latch : push = true → ∀ k j, k < 4 → j < 96 → (H.sp c.e).latchAt k j =
    if k = 0 then (if c.ex.has j then v j else {}) else c.sp.latchAt (k - 1) j
  others : ∀ e, e ≠ c.e → (c.G.sp e).same (H.sp e)
  flags : ∀ b, H.fflags.getLsbD b =
    (c.G.fflags.getLsbD b || (c.ex.list.any fun j => !lwAny (v j) && (fl j).getLsbD b))
  rest : H = { c.G with
    splits := H.splits, rq := H.rq, regs := H.regs, hregs := H.hregs, pend := H.pend, hpend := H.hpend
    claims := H.claims, fflags := H.fflags, issued := true, seq := c.G.seq + 1 }

/-- An instruction with a lane result has executed: what its group holds, and what is unchanged elsewhere. -/
structure Ctx.laneDone (c : Ctx) (s t : State) (wide push : Bool) (v : Nat → LW2) (fl : Nat → Fl) : Prop where
  own : ∃ H, t.grp c.g = some H ∧ c.laneGroup wide push v fl H
  elsewhere : Elsewhere c s t

/-- The registers and the status that an instruction leaves which writes `n` registers from D upward in a set of lanes and
no latch entry (R237, R255, R273): `w j i` is the word of lane j in register D + i. -/
structure Ctx.rangeGroup (c : Ctx) (lanes : Lanes) (n : Nat) (w : Nat → Nat → LW) (fl : Nat → Fl) (sp : Split) (H : Group) :
    Prop where
  regs : ∀ r j, 4 ≤ r → r < 256 → j < 96 →
    H.reg r j = if lanes.has j ∧ c.x.d.toNat ≤ r ∧ r < c.x.d.toNat + n then w j (r - c.x.d.toNat) else c.G.reg r j
  pend : ∀ r, r < 256 →
    H.pendOf r = if lanes ≠ 0 ∧ c.x.d.toNat ≤ r ∧ r < c.x.d.toNat + n then none else c.G.pendOf r
  split : sp.same (H.sp c.e)
  others : ∀ e, e ≠ c.e → (c.G.sp e).same (H.sp e)
  flags : ∀ b, H.fflags.getLsbD b = (c.G.fflags.getLsbD b || (lanes.list.any fun j => (fl j).getLsbD b))
  rest : H = { c.G with
    splits := H.splits, rq := H.rq, regs := H.regs, hregs := H.hregs, pend := H.pend, hpend := H.hpend
    claims := H.claims, fflags := H.fflags, issued := true, seq := c.G.seq + 1 }

/-- An instruction that writes a range of registers has executed. -/
structure Ctx.rangeDone (c : Ctx) (s t : State) (lanes : Lanes) (n : Nat) (w : Nat → Nat → LW) (fl : Nat → Fl) (sp : Split) :
    Prop where
  own : ∃ H, t.grp c.g = some H ∧ c.rangeGroup lanes n w fl sp H
  elsewhere : Elsewhere c s t

/-- The group after an instruction that leaves its registers alone: `sp` is its split. -/
def Ctx.afterGroup (c : Ctx) (sp : Split) : Group := { c.G.setSp c.e sp with issued := true, seq := c.G.seq + 1 }

/-- An instruction has executed that works in its own group alone: the group is `K`, but for what its splits wait for, and
nothing else has changed (see `Elsewhere`). -/
structure Ctx.goesTo (c : Ctx) (s t : State) (K : Group) : Prop where
  own : ∃ H, t.grp c.g = some H ∧ K.same H
  elsewhere : Elsewhere c s t

/-- An instruction has executed that only goes on behind itself. -/
def Ctx.goesOn (c : Ctx) (s t : State) : Prop := c.goesTo s t (c.afterGroup c.after)

/-- The end of a step leaves `t` of the state `s` that its effects have made: the turn is over, logged bytes are memory, what
splits wait for may have come about, gates may have been released, and nothing else has changed. -/
structure State.becomes (s t : State) : Prop where
  groups : ∀ g, (t.grp g).isSome = (s.grp g).isSome ∧ ∀ G, s.grp g = some G → ∃ H, t.grp g = some H ∧ G.same H
  pops : samePops s t
  bytes : ∀ a, t.mb a = s.mb a
  rest : t = { s with
    cur := .idle, wlog := [], ms := { s.ms with bytes := t.ms.bytes }
    exe := { s.exe with groups := t.exe.groups }, eng := { s.eng with pops := t.eng.pops } }

/-- A result bound for the mask is clean in the lowest active lane (R160). -/
def Ctx.maskSafe (c : Ctx) (psn : Nat → Bool) : Prop :=
  c.toMask = true → ∀ j, c.act.lowest = some j → psn j = false

end Sys2Proof.Machine

namespace Sys2Proof

open Machine

/-- The machine goes on. -/
def goesOn (o : Host.Outcome State Fault Refusal) : Bool :=
  match o with
  | .next _ => true
  | _ => false

end Sys2Proof
end

