-- ==== Sys2Proof/Certificates/Slice0/Obligations.lean ====
section
/-! DEFINITION. The statements for the provers: what the instructions and events of the Tykel W3 do, by the numbered rules
of the spec. -/

namespace Sys2Proof.Claims

open Sys2Proof.Machine

/-! ### Lane results of the integer instructions -/

/-- Element `i` of a value of type `t` (R114). -/
def el (t : Ty) (v : LW2) (i : Nat) : Nat := v.val.toNat / 2 ^ (tyStep t * i) % 2 ^ tyStep t

/-- The result carries the poison `p` in each of its words (R210). -/
def poisonIs (wide : Bool) (v : LW2) (p : Bool) : Prop := v.pLo = p ∧ v.pHi = (wide && p)

/-- A value of a type holds nothing above its words. -/
def narrow (wide : Bool) (v : LW2) : Prop := wide = false → v.val.toNat < 2 ^ 32

/-- An exact integer lies outside the range of an integer type (R186). -/
def outOfRange (t : Ty) (x : Int) : Prop :=
  x < (intRange (intOf t).1 (intOf t).2).1 ∨ (intRange (intOf t).1 (intOf t).2).2 < x

/-- `r` is the code of the exact integer `x` delivered into an integer type: clamped under `.sat`, else congruent to it
modulo the size of the type (R187). -/
def delivered (t : Ty) (sat : Bool) (x : Int) (r : Nat) : Prop :=
  r < 2 ^ (intOf t).1 ∧
    if sat then elemInt t r = max (intRange (intOf t).1 (intOf t).2).1 (min (intRange (intOf t).1 (intOf t).2).2 x)
    else ((2 ^ (intOf t).1 : Nat) : Int) ∣ elemInt t r - x

/-- The number of source operands of an integer arithmetic instruction, and the exact integer that its result delivers
(R212-R215): for division by zero all ones, for its remainder the dividend; the upper half of a product rounded down. -/
def exactInt (o : Op) (t : Ty) : Option (Nat × (Int → Int → Int → Int)) :=
  match o with
  | .iadd => some (2, fun a b _ => a + b)
  | .isub => some (2, fun a b _ => a - b)
  | .iadd3 => some (3, fun a b c => a + b + c)
  | .imul => some (2, fun a b _ => a * b)
  | .imulh => some (2, fun a b _ => (a * b) / (2 ^ tyBits t : Nat))
  | .imad => some (3, fun a b c => a * b + c)
  | .idiv => some (2, fun a b _ => if b = 0 then (if (intOf t).2 then -1 else (2 ^ tyBits t : Nat) - 1) else a.tdiv b)
  | .irem => some (2, fun a b _ => if b = 0 then a else a.tmod b)
  | .imin => some (2, fun a b _ => min a b)
  | .imax => some (2, fun a b _ => max a b)
  | .iabs => some (1, fun a _ _ => max a (-a))
  | .ineg => some (1, fun a _ _ => -a)
  | _ => none

/-- Some source among the first `n` operands of a lane is poisoned, all read in one type. -/
def srcPsn (c : Ctx) (t : Ty) (n j : Nat) : Bool :=
  lwPsn (c.opA t j) t || (decide (2 ≤ n) && lwPsn (c.opB t j) t) || (decide (3 ≤ n) && lwPsn (c.opC t j) t)

end Sys2Proof.Claims

open Sys2Proof Sys2Proof.Machine Sys2Proof.Claims

/-- R212, R213, R214, R215: IADD, ISUB, IADD3, IMUL, IMULH, IMAD, IDIV, IREM, IMIN, IMAX, IABS and INEG, where nothing of
R118 stops them and no poison is bound for the mask, complete: each element of each executing lane is the exact integer
delivered by wrap or saturation, SV is set where a saturated element left the range, poison of a source poisons the
result, and nothing else changes. -/
def Obligations.IntegerArithmeticIsExact : Prop :=
  ∀ (o : Op) (x : Ops) (s : State) (c : Ctx) (n : Nat) (f : Int → Int → Int → Int),
    exactInt o x.t = some (n, f) → Runs o x s c → c.maskSafe (srcPsn c x.t n) →
    ∃ (t : State) (v : Nat → LW2) (fl : Nat → Fl), exec (o.instr x) s = .next t ∧ c.laneDone s t x.t.wide true v fl ∧
      ∀ j, c.ex.has j = true →
        (∀ i, i < x.t.elems →
          delivered x.t c.sat
            (f (elemInt x.t (el x.t (c.opA x.t j) i)) (elemInt x.t (el x.t (c.opB x.t j) i))
              (elemInt x.t (el x.t (c.opC x.t j) i))) (el x.t (v j) i)) ∧
        narrow x.t.wide (v j) ∧ poisonIs x.t.wide (v j) (srcPsn c x.t n j) ∧
        (c.sat = false → fl j = 0) ∧
        (c.sat = true → fl j = 0 ∨ fl j = Fl.sv) ∧
        (c.sat = true → (fl j = Fl.sv ↔ ∃ i, i < x.t.elems ∧ outOfRange x.t
          (f (elemInt x.t (el x.t (c.opA x.t j) i)) (elemInt x.t (el x.t (c.opB x.t j) i))
            (elemInt x.t (el x.t (c.opC x.t j) i)))))

namespace Sys2Proof.Claims

/-! ### Bits of the results of the other integer instructions -/

/-- Set bits of `m` below `i`. -/
def rank (m i : Nat) : Nat := (List.range i).countP (fun k => m.testBit k)

/-- The places below `n` where `m` has the bit `b`, rising. -/
def places (n m : Nat) (b : Bool) : List Nat := (List.range n).filter (fun k => m.testBit k == b)

/-- The types in which the sources of an integer instruction are read (R208, R216-R228). -/
def srcTys (o : Op) (x : Ops) : Ty × Ty × Ty :=
  match o with
  | .shl | .shr | .sar | .rol | .ror | .bfe | .bfi => (x.t, .n32, x.t)
  | .xwin => (.b32, .b32, .i32)
  | .bysel => (.b32, .b32, .b32)
  | .isel => (x.t, x.t, .n32)
  | .lea => (.n64, x.t, x.t)
  | .imadw => (x.t, x.t, if x.t == .i32 then .i64 else .n64)
  | _ => (x.t, x.t, x.t)

/-- The number of sources. -/
def arity (o : Op) : Nat :=
  match o with
  | .brev | .bswap | .clz | .ctz | .popc | .mov => 1
  | .xwin | .bfn3 | .bfi | .bysel | .isel | .imadw => 3
  | _ => 2

/-- The result is a pair. -/
def pairResult (o : Op) (x : Ops) : Bool :=
  match o with
  | .xwin | .bysel | .isetc | .clz | .ctz | .popc => false
  | .lea | .imadw => true
  | _ => x.t.wide

/-- The condition of ISETC on two exact integers (R216). -/
def condHolds (cc : Nat) (a b : Int) : Bool :=
  match cc with
  | 0 => decide (a = b)
  | 1 => decide (a ≠ b)
  | 2 => decide (a < b)
  | 3 => decide (a ≤ b)
  | 4 => decide (a > b)
  | _ => decide (a ≥ b)

/-- Bit `i` of the result, from the source values `a`, `b` and `c` read as numbers (R216-R228). `n` is the width of T. -/
def resultBit (o : Op) (x : Ops) (a b c i : Nat) : Bool :=
  let n := tyBits x.t
  let signed := x.t == .i32 || x.t == .i64
  let p := b % 256
  let l := min (b / 256 % 256) n
  match o with
  | .isetc =>
    let w := if x.t.wide then 64 else tyStep x.t
    let k := i / (if x.t.wide then 32 else tyStep x.t)
    condHolds (x.mf 0 3) (elemInt x.t (a / 2 ^ (w * k) % 2 ^ w)) (elemInt x.t (b / 2 ^ (w * k) % 2 ^ w))
  | .isel => if c ≠ 0 then a.testBit i else b.testBit i
  | .shl => decide (b ≤ i) && a.testBit (i - b)
  | .shr => a.testBit (i + b)
  | .sar => if i + b < n then a.testBit (i + b) else a.testBit (n - 1)
  | .rol => a.testBit ((i + (n - b % n)) % n)
  | .ror => a.testBit ((i + b % n) % n)
  | .xwin =>
    let v := b * 2 ^ 32 + a
    if x.mf 0 1 = 0 then
      let q := if 2 ^ 31 ≤ c then 0 else min c 32
      v.testBit (i + q)
    else v.testBit ((i + c % 64) % 64)
  | .andB => a.testBit i && b.testBit i
  | .orB => a.testBit i || b.testBit i
  | .xorB => a.testBit i != b.testBit i
  | .andn => a.testBit i && !b.testBit i
  | .bfn3 => x.m.getLsbD ((a.testBit i).toNat + 2 * (b.testBit i).toNat + 4 * (c.testBit i).toNat)
  | .brev => a.testBit (n - 1 - i)
  | .bswap => a.testBit (n - 8 - 8 * (i / 8) + i % 8)
  | .bfe =>
    let ext (k : Nat) : Bool := if k < n then a.testBit k else signed && a.testBit (n - 1)
    if l = 0 then false else if i < l then ext (p + i) else signed && ext (p + l - 1)
  | .bfi => if p ≤ i ∧ i < p + l then a.testBit (i - p) else c.testBit i
  | .pdep => b.testBit i && a.testBit (rank b i)
  | .pext => ((places n b true)[i]?).any (fun k => a.testBit k)
  | .bperm => ((places n b true ++ places n b false)[i]?).any (fun k => a.testBit k)
  | .gf2mm => (List.range 8).countP (fun k => a.testBit (8 * (i / 8) + k) && b.testBit (8 * k + i % 8)) % 2 == 1
  | .bysel =>
    let sel := b / 2 ^ (8 * (i / 8)) % 256
    let byte := (a + c * 2 ^ 32) / 2 ^ (8 * (sel % 8)) % 256
    if sel.testBit 4 then false else if sel.testBit 3 then byte.testBit 7 else byte.testBit (i % 8)
  | .clz => (((List.range n).find? (fun k => a.testBit (n - 1 - k))).getD n).testBit i
  | .ctz => (((List.range n).find? (fun k => a.testBit k)).getD n).testBit i
  | .popc => ((List.range n).countP (fun k => a.testBit k)).testBit i
  | .lea =>
    let k := if x.t == .i32 ∧ 2 ^ 31 ≤ b then b + (2 ^ 64 - 2 ^ 32) else b
    ((a + k * 2 ^ (x.mf 0 3)) % 2 ^ 64).testBit i
  | .imadw =>
    let m := if x.t == .i32 then (BitVec.ofNat 32 a).toInt * (BitVec.ofNat 32 b).toInt + (BitVec.ofNat 64 c).toInt
      else (a : Int) * b + c
    let lo : Int := if x.t == .i32 then -(2 ^ 63) else 0
    let hi : Int := if x.t == .i32 then 2 ^ 63 - 1 else 2 ^ 64 - 1
    (BitVec.ofInt 64 (if x.mf 0 1 = 1 then max lo (min hi m) else m)).getLsbD i
  | _ => a.testBit i

/-- Whether the result of lane `j` is poisoned (R210): where a source read is; ISEL reads its condition and the operand it
selects. -/
def resultPsn (o : Op) (x : Ops) (c : Ctx) (j : Nat) : Bool :=
  let t := srcTys o x
  let pa := lwPsn (c.opA t.1 j) t.1
  let pb := lwPsn (c.opB t.2.1 j) t.2.1
  let pc := lwPsn (c.opC t.2.2 j) t.2.2
  if o == .isel then pc || (if lwLo (c.opC .n32 j) != 0 then pa else pb)
  else pa || (decide (2 ≤ arity o) && pb) || (decide (3 ≤ arity o) && pc)

/-- The exact 64-bit result of IMADW lies outside i64 or n64 (R213). -/
def imadwOver (x : Ops) (a b c : Nat) : Bool :=
  let m := if x.t == .i32 then (BitVec.ofNat 32 a).toInt * (BitVec.ofNat 32 b).toInt + (BitVec.ofNat 64 c).toInt
    else (a : Int) * b + c
  if x.t == .i32 then decide (m < -(2 ^ 63) ∨ 2 ^ 63 - 1 < m) else decide (m < 0 ∨ 2 ^ 64 - 1 < m)

/-- The instructions of a list complete, where nothing of R118 stops them and no poison is bound for the mask, with the
result bits of `resultBit` and the poison of `resultPsn` in every executing lane; IMADW with `.sat` sets SV where it clamps,
no other sets a flag; nothing else changes. -/
def BitResults (ops : List Op) : Prop :=
  ∀ o ∈ ops, ∀ (x : Ops) (s : State) (c : Ctx), Runs o x s c → c.maskSafe (resultPsn o x c) →
    ∃ (t : State) (v : Nat → LW2) (fl : Nat → Fl),
      exec (o.instr x) s = .next t ∧ c.laneDone s t (pairResult o x) true v fl ∧
      ∀ j, c.ex.has j = true →
        let ts := srcTys o x
        let a := (c.opA ts.1 j).val.toNat
        let b := (c.opB ts.2.1 j).val.toNat
        let d := (c.opC ts.2.2 j).val.toNat
        (∀ i, i < (if pairResult o x then 64 else 32) → (v j).val.getLsbD i = resultBit o x a b d i) ∧
        narrow (pairResult o x) (v j) ∧ poisonIs (pairResult o x) (v j) (resultPsn o x c j) ∧
        fl j = if o = .imadw ∧ x.mf 0 1 = 1 ∧ imadwOver x a b d then Fl.sv else 0

end Sys2Proof.Claims

/-- R213, R216, R217, R218, R219, R220, R221, R222, R223, R224, R225, R226, R227: IMADW, ISETC, ISEL, LEA, the shifts, rotations
and XWIN, the bitwise and counting instructions, and those on bit fields complete, and each bit of their results is the one
that their rules give (see `BitResults`). -/
def Obligations.BitInstructionsComplete : Prop :=
  BitResults ([.imadw, .isetc, .isel, .lea] ++ [.shl, .shr, .sar, .rol, .ror, .xwin] ++
    [.andB, .orB, .xorB, .andn, .bfn3, .clz, .ctz, .popc, .brev, .bswap] ++ [.bfe, .bfi, .pdep, .pext, .bperm, .gf2mm, .bysel])

/-- R159, R171, R228, R229, R230: v0 reads as a clean zero and is FULL. MOV gives every executing lane the value and the
poison bits of a, MOVI the clean value of IMM32. TAKE changes nothing where no lane is active or vd is vs; it moves the
values of a FULL vs in the executing lanes, and the claim of a PENDING vs with every lane of it; vs becomes clean zero
there, and FULL. Each completes where nothing of R118 stops it, TAKE where vd's own claim lies within its lanes. -/
def Obligations.MovesAndTake : Prop :=
  (∀ (G : Group) (j : Nat), G.reg 0 j = {} ∧ G.pendOf 0 = none) ∧
  (∀ (x : Ops) (s : State) (c : Ctx), Runs .mov x s c → c.maskSafe (fun j => (c.opA x.t j).pLo) →
    ∃ t, exec (.mov x) s = .next t ∧ c.laneDone s t x.t.wide true (fun j => c.opA x.t j) (fun _ => 0)) ∧
  (∀ (x : Ops) (s : State) (c : Ctx), Runs .movi x s c →
    ∃ t, exec (.movi x) s = .next t ∧ c.laneDone s t x.t.wide true
      (fun _ => { val := if x.t = .i64 then x.imm.signExtend 64 else x.imm.zeroExtend 64 }) (fun _ => 0)) ∧
  (∀ (x : Ops) (s : State) (c : Ctx), Runs .take x s c → c.act = 0 ∨ x.d.toNat = aReg x →
    ∃ t, exec (.take x) s = .next t ∧ c.goesOn s t) ∧
  (∀ (x : Ops) (s : State) (c : Ctx), Runs .take x s c → c.act ≠ 0 → x.d.toNat ≠ aReg x → c.G.pendOf (aReg x) = none →
    c.G.outstanding x.d.toNat &&& ~~~ c.ex = 0 →
    ∃ t H, exec (.take x) s = .next t ∧ t.grp c.g = some H ∧ Elsewhere c s t ∧
      (∀ r j, 4 ≤ r → r < 256 → j < 96 → H.reg r j =
        if c.ex.has j ∧ r = x.d.toNat then c.G.reg (aReg x) j else if c.ex.has j ∧ r = aReg x then {} else c.G.reg r j) ∧
      (∀ r, r < 256 → H.pendOf r = if r = x.d.toNat then none else c.G.pendOf r) ∧
      ({ c.afterGroup c.after with regs := H.regs, hregs := H.hregs, pend := H.pend, hpend := H.hpend
                                   claims := H.claims } : Group).same H) ∧
  (∀ (x : Ops) (s : State) (c : Ctx) (k : Nat) (C : Claim), Runs .take x s c → c.act ≠ 0 → x.d.toNat ≠ aReg x →
    c.G.pendOf (aReg x) = some k → Map.find c.G.claims k = some C →
    (c.G.pendOf x.d.toNat = some k ∨ c.G.outstanding x.d.toNat &&& ~~~ C.all = 0) →
    ∃ t H, exec (.take x) s = .next t ∧ t.grp c.g = some H ∧ Elsewhere c s t ∧
      (∀ r j, 4 ≤ r → r < 256 → j < 96 → H.reg r j = if C.all.has j ∧ r = aReg x then {} else c.G.reg r j) ∧
      (∀ r, 4 ≤ r → r < 256 → H.pendOf r = if r = x.d.toNat then some k else if r = aReg x then none else c.G.pendOf r) ∧
      (∃ D, Map.find H.claims k = some D ∧ D = { C with dests := D.dests } ∧ D.dests.length = C.dests.length ∧
        ∀ i, i < C.dests.length → D.dests.getD i none =
          if C.dests.getD i none = some (aReg x) then (if x.d = 0 then none else some x.d.toNat)
          else if x.d ≠ 0 ∧ C.dests.getD i none = some x.d.toNat then none else C.dests.getD i none) ∧
      ({ c.afterGroup c.after with regs := H.regs, hregs := H.hregs, pend := H.pend, hpend := H.hpend
                                   claims := H.claims } : Group).same H)

/-- R206, R231, R232: at handler level RGET gives every executing lane the word of register n of the interrupted program:
zero, a word of tmask, the file's word or, for v240 and above, the frame slot's word. RPUT writes the lanes of register n in
the file, or of its frame slot, and discards a write to v0. Each completes where nothing of R118 stops it, n is clean, within
the program's registers, and FULL (for RPUT: its claim lies within the executing lanes, and no MLOOP holds it), and where a
frame slot is read or written, its page translates (to the state `s1` that the walk leaves). -/
def Obligations.HandlerRegisterAccess : Prop :=
  (∀ (x : Ops) (s : State) (c : Ctx) (i n : Nat), Runs .rget x s c → c.act.lowest = some i →
    (c.opA .n32 i).pLo = false → (lwLo (c.opA .n32 i)).toNat = n → n < 8 * c.G.regs8 → n < 240 → c.G.progPend n = none →
    let v : Nat → LW2 := fun j => single
      (if n = 0 then {} else if n ≤ 3 then { val := c.G.tmask.word (n - 1) }
       else (s.begun c.g).progWord c.G c.T n j)
    c.maskSafe (fun j => (v j).pLo) →
    ∃ t, exec (.rget x) s = .next t ∧ c.laneDone s t false false v (fun _ => 0)) ∧
  (∀ (x : Ops) (s s1 : State) (c : Ctx) (i n : Nat) (segs : List Seg) (mem lease : Nat),
    Runs .rget x s c → c.act.lowest = some i →
    (c.opA .n32 i).pLo = false → (lwLo (c.opA .n32 i)).toNat = n → n < 8 * c.G.regs8 → 240 ≤ n → n ≤ 255 →
    c.G.progPend n = none → (s.begun c.g).slotXl c.G c.T .read = (.ok segs mem lease, s1) →
    let v : Nat → LW2 := fun j => single (s1.slotRead c.G c.T (n - 240) j)
    c.maskSafe (fun j => (v j).pLo) →
    ∃ t, exec (.rget x) s = .next t ∧ c.laneDone s1.commit t false false v (fun _ => 0)) ∧
  (∀ (x : Ops) (s : State) (c : Ctx) (i n : Nat), Runs .rput x s c → c.act.lowest = some i →
    (c.opA .n32 i).pLo = false → (lwLo (c.opA .n32 i)).toNat = n → n < 8 * c.G.regs8 → 4 ≤ n → n < 240 →
    c.G.isHeldReg n = false → c.G.outstanding n &&& ~~~ c.ex = 0 →
    ∃ t H, exec (.rput x) s = .next t ∧ t.grp c.g = some H ∧ Elsewhere c s t ∧
      (∀ r j, 4 ≤ r → r < 256 → j < 96 → H.reg r j =
        if c.ex.has j ∧ r = n then { val := lwLo (c.opB .i32 j), psn := (c.opB .i32 j).pLo } else c.G.reg r j) ∧
      (∀ r, r < 256 → H.pendOf r = if r = n then none else c.G.pendOf r) ∧
      ({ c.afterGroup c.after with regs := H.regs, hregs := H.hregs, pend := H.pend, hpend := H.hpend
                                   claims := H.claims } : Group).same H) ∧
  (∀ (x : Ops) (s s1 : State) (c : Ctx) (i n : Nat) (segs : List Seg) (mem lease : Nat),
    Runs .rput x s c → c.act.lowest = some i →
    (c.opA .n32 i).pLo = false → (lwLo (c.opA .n32 i)).toNat = n → n < 8 * c.G.regs8 → 240 ≤ n → n ≤ 255 →
    c.G.isHeldReg n = false → Map.find c.G.slots (n - 240) = none →
    (s.begun c.g).slotXl c.G c.T .write = (.ok segs mem lease, s1) →
    exec (.rput x) s = .next (c.done (s1.slotWrite c.g (n - 240)
      (c.ex.list.map (fun j => (j, { val := lwLo (c.opB .i32 j), psn := (c.opB .i32 j).pLo }))))).finish) ∧
  (∀ (x : Ops) (s : State) (c : Ctx) (i : Nat), Runs .rput x s c → c.act.lowest = some i →
    (c.opA .n32 i).pLo = false → lwLo (c.opA .n32 i) = 0 → 0 < c.G.regs8 →
    ∃ t, exec (.rput x) s = .next t ∧ c.goesOn s t) ∧
  (∀ (o : Op) (x : Ops) (s : State) (c : Ctx), o = .rget ∨ o = .rput → Runs o x s c → c.act = 0 →
    ∃ t, exec (o.instr x) s = .next t ∧ c.goesOn s t)

namespace Sys2Proof.Claims

/-! ### Floating point -/

/-- The element function of a floating-point instruction that works element by element, its number of sources, and the
type in which b is read (R240-R245). -/
def floatElem (o : Op) (x : Ops) : Option (Nat × Ty × (Nat → Nat → Nat → Nat × Fl)) :=
  let f := FF.of x.t
  let rm := x.mf 0 2
  let sat : Bool := x.mf 2 1 = 1
  match o with
  | .fadd => some (2, x.t, fun a b _ => fAdd f rm sat a b)
  | .fsub => some (2, x.t, fun a b _ => fSub f rm sat a b)
  | .fmul => some (2, x.t, fun a b _ => fMul f rm sat a b)
  | .ffma => some (3, x.t, fun a b c => fFma f rm sat a b c)
  | .fmin => some (2, x.t, fun a b _ => fMinMax f false a b)
  | .fmax => some (2, x.t, fun a b _ => fMinMax f true a b)
  | .fsetc => some (2, x.t, fun a b _ =>
      (if (fCond f (x.mf 0 3) a b).1 then 2 ^ tyStep x.t - 1 else 0, (fCond f (x.mf 0 3) a b).2))
  | .fclass => some (1, x.t, fun a _ _ => (2 ^ fClass f a, 0))
  | .frnd => some (1, x.t, fun a _ _ => fRnd f rm a)
  | .fscale => some (2, if x.t = .f32 then .i32 else .i16, fun a n _ => fScale f rm sat a (intVal (tyStep x.t) true n))
  | _ => none

/-- Some of the first `n` sources of a lane is poisoned, b read in `tb` and c in `tc`. -/
def anyPsn (c : Ctx) (n : Nat) (ta tb tc : Ty) (j : Nat) : Bool :=
  lwPsn (c.opA ta j) ta || (decide (2 ≤ n) && lwPsn (c.opB tb j) tb) || (decide (3 ≤ n) && lwPsn (c.opC tc j) tc)

/-- Some flag of a list of flags has bit `k`. -/
def flagOf (fs : List Fl) (k : Nat) : Bool := fs.any (fun f => f.getLsbD k)

/-- The type in which FDOT2 and FDOT4 read b, and c (R246). -/
def dotTys (o : Op) (x : Ops) : Ty × Ty :=
  if o = .fdot2 then (x.t, .f32) else (fdot4TyB x, if x.t = .i8 then .i32 else .f32)

/-- The result of FDOT2 and FDOT4 from the elements of a and b and the code of c: the exact sum of products, delivered once
(R246). -/
def dotResult (o : Op) (x : Ops) (as bs : List Nat) (c : Nat) : Nat × Fl :=
  if o = .fdot4 ∧ x.t = .i8 then
    intDeliver 32 true (x.mf 2 1 = 1)
      (intVal 32 true c + ((as.zip bs).map (fun p => intVal 8 true p.1 * intVal 8 true p.2)).sum)
  else fDot (FF.of x.t) (FF.of (dotTys o x).1) (x.mf 0 2) (x.mf 2 1 = 1) as bs c

/-- The elements of a value. -/
def els (t : Ty) (v : LW2) : List Nat := (List.range t.elems).map (el t v)

/-- The source values of a lane of CVT, PACK and UNPACK: `n` consecutive ones of its source type (R248). -/
def cvtSrcs (c : Ctx) (n j : Nat) : List LW2 :=
  (List.range n).map (fun i => c.opd (opdShift c.x.a ((cvtSrc c.x).regs * i)) (cvtSrc c.x) false j)

/-- The converted elements of a lane, in order (R247, R248): rounding mode M[5:4], `.sat` M[6], scaled by 2^n with n from b. -/
def cvtElems (c : Ctx) (n j : Nat) : List (Nat × Fl) :=
  ((cvtSrcs c n j).flatMap (els (cvtSrc c.x))).map (fun e =>
    convert (cvtSrc c.x) c.x.t (c.x.mf 4 2) (c.x.mf 6 1 = 1) (lwLo (c.opB .i32 j)).toInt e)

/-- Some source word of a conversion is poisoned. -/
def cvtPsn (c : Ctx) (n j : Nat) : Bool :=
  (cvtSrcs c n j).any (fun a => lwPsn a (cvtSrc c.x)) || (c.opB .i32 j).pLo

/-- The code and flags that a special function gives (R250-R252). -/
def sfuResult (o : Op) (x : Ops) (r w : Word) : Nat × Fl :=
  match o with
  | .rcp => sfuRcp (x.mf 0 2) (x.mf 2 1 = 1) r.toNat
  | .sqrt => sfuSqrt (x.mf 0 2) (x.mf 2 1 = 1) r.toNat
  | .rsq => sfuRsq r
  | .ex2 => sfuEx2 r
  | .lg2 => sfuLg2 r
  | .tanh => sfuTanh r
  | .sinp => sfuSinCos false r w
  | _ => sfuSinCos true r w

/-- The word pair that SINP and COSP read (R235). -/
def trigPair (c : Ctx) (j : Nat) : LW2 :=
  match c.x.a with
  | .imm v => { val := immVal .f32 v.toInt }
  | o => c.opd o .n64 false j

/-- The value that a special function reads in a lane. -/
def sfuSource (o : Op) (c : Ctx) (j : Nat) : LW2 := if o = .sinp ∨ o = .cosp then trigPair c j else c.opA .f32 j

end Sys2Proof.Claims

/-- R240, R241, R242, R243, R244, R245, R246: FADD, FSUB, FMUL, FFMA, FMIN, FMAX, FSETC, FCLASS, FRND and FSCALE, where nothing
of R118 stops them and no poison is bound for the mask, complete with their element function applied to each element of each
executing lane; FDOT2 and FDOT4 complete with the exact sum of c and the products, rounded (or delivered in i32) once; the
flags of all elements join; poison of a source poisons the result; nothing else changes. -/
def Sys2Proof.Claims.FloatArithmeticCompletes : Prop :=
  (∀ (o : Op) (x : Ops) (s : State) (c : Ctx) (n : Nat) (tb : Ty) (f : Nat → Nat → Nat → Nat × Fl),
    floatElem o x = some (n, tb, f) → Runs o x s c → c.maskSafe (anyPsn c n x.t tb x.t) →
    ∃ (t : State) (v : Nat → LW2) (fl : Nat → Fl), exec (o.instr x) s = .next t ∧ c.laneDone s t false true v fl ∧
      ∀ j, c.ex.has j = true →
        let r (i : Nat) := f (el x.t (c.opA x.t j) i) (el tb (c.opB tb j) i) (el x.t (c.opC x.t j) i)
        (∀ i, i < x.t.elems → el x.t (v j) i = (r i).1 % 2 ^ tyStep x.t) ∧
        narrow false (v j) ∧ poisonIs false (v j) (anyPsn c n x.t tb x.t j) ∧
        (∀ k, (fl j).getLsbD k = flagOf ((List.range x.t.elems).map (fun i => (r i).2)) k)) ∧
  (∀ (o : Op) (x : Ops) (s : State) (c : Ctx), o = .fdot2 ∨ o = .fdot4 → Runs o x s c →
    c.maskSafe (anyPsn c 3 x.t (dotTys o x).1 (dotTys o x).2) →
    ∃ (t : State) (v : Nat → LW2) (fl : Nat → Fl), exec (o.instr x) s = .next t ∧ c.laneDone s t false true v fl ∧
      ∀ j, c.ex.has j = true →
        let r := dotResult o x (els x.t (c.opA x.t j)) (els (dotTys o x).1 (c.opB (dotTys o x).1 j))
          (lwLo (c.opC (dotTys o x).2 j)).toNat
        (v j).val.toNat = r.1 % 2 ^ 32 ∧ poisonIs false (v j) (anyPsn c 3 x.t (dotTys o x).1 (dotTys o x).2 j) ∧ fl j = r.2)

/-- R240, R241: the special values of the element functions of f32, f16 and bf16 (and of every format for NaN and the
products). A NaN input gives the canonical NaN, with NV exactly where one is signalling; ∞ − ∞ and 0 × ∞ give the canonical
NaN with NV; a finite value less itself is +0, or −0 when rounding down; FMIN and FMAX return the number where one input is
NaN, and order −0 below +0. -/
def Obligations.FloatSpecialValues : Prop :=
  (∀ (f : FF) (rm : RMode) (sat : Bool) (a b : Nat), (f.val a).isNan = true ∨ (f.val b).isNan = true →
    let nv := Fl.ofCond ((f.val a).isSnan || (f.val b).isSnan) Fl.nv
    fAdd f rm sat a b = (f.canon, nv) ∧ fSub f rm sat a b = (f.canon, nv) ∧ fMul f rm sat a b = (f.canon, nv)) ∧
  (∀ (f : FF) (rm : RMode) (sat : Bool) (a b : Nat) (p : Bool), f.val a = .inf p → f.val b = .inf (!p) →
    fAdd f rm sat a b = (f.canon, Fl.nv)) ∧
  (∀ (f : FF) (rm : RMode) (sat : Bool) (a b : Nat) (p : Bool), f.val a = .inf p → f.val b = .inf p →
    fSub f rm sat a b = (f.canon, Fl.nv)) ∧
  (∀ (f : FF) (rm : RMode) (sat : Bool) (a b : Nat) (p q : Bool), f.val a = .inf p → f.val b = .zero q →
    fMul f rm sat a b = (f.canon, Fl.nv) ∧ fMul f rm sat b a = (f.canon, Fl.nv)) ∧
  (∀ (f : FF) (rm : RMode) (sat p : Bool) (a m : Nat) (e : Int), f.val a = .fin p m e →
    fSub f rm sat a a = (f.signed (rm = 2) 0, 0)) ∧
  (∀ (f : FF) (mx : Bool) (a b : Nat), (f.val a).isNan = true → (f.val b).isNan = false →
    (fMinMax f mx a b).1 = b ∧ (fMinMax f mx b a).1 = b) ∧
  (∀ (f : FF) (a b : Nat), f.val a = .zero true → f.val b = .zero false →
    (fMinMax f false a b).1 = a ∧ (fMinMax f false b a).1 = a ∧ (fMinMax f true a b).1 = b ∧ (fMinMax f true b a).1 = b)

/-- R247, R248: CVT, PACK and UNPACK, where nothing of R118 stops them and no poison is bound for the mask, complete: each
element of each source value is scaled by 2^n and converted once to T, and the results stand in order, in one value (CVT,
PACK) or in consecutive values from D upward (UNPACK); the flags of all elements join where the result is clean; poison of a
source poisons every result word; nothing else changes. -/
def Sys2Proof.Claims.ConversionsComplete : Prop :=
  (∀ (o : Op) (x : Ops) (s : State) (c : Ctx) (n : Nat), (o = .cvt ∧ n = 1) ∨ (o = .pack ∧ n = x.t.elems / (cvtSrc x).elems) →
    Runs o x s c → c.maskSafe (cvtPsn c n) →
    ∃ (t : State) (v : Nat → LW2) (fl : Nat → Fl), exec (o.instr x) s = .next t ∧ c.laneDone s t x.t.wide true v fl ∧
      ∀ j, c.ex.has j = true →
        (∀ i, i < x.t.elems → el x.t (v j) i = ((cvtElems c n j).getD i (0, 0)).1 % 2 ^ tyStep x.t) ∧
        narrow x.t.wide (v j) ∧ poisonIs x.t.wide (v j) (cvtPsn c n j) ∧
        (∀ k, (fl j).getLsbD k = flagOf ((cvtElems c n j).map (fun e => e.2)) k)) ∧
  (∀ (x : Ops) (s : State) (c : Ctx), Runs .unpack x s c →
    ∃ (t : State) (w : Nat → Nat → LW) (fl : Nat → Fl), exec (.unpack x) s = .next t ∧
      c.rangeDone s t c.ex (x.t.regs * ((cvtSrc x).elems / x.t.elems)) w fl c.after ∧
      ∀ j, c.ex.has j = true →
        (∀ i, i < (cvtSrc x).elems / x.t.elems → ∀ k, k < x.t.elems →
          let u : LW2 := if x.t.wide then pairUp (w j (2 * i)) (w j (2 * i + 1)) else single (w j i)
          el x.t u k = ((cvtElems c 1 j).getD (i * x.t.elems + k) (0, 0)).1 % 2 ^ tyStep x.t ∧
          poisonIs x.t.wide u (cvtPsn c 1 j)) ∧
        (∀ k, (fl j).getLsbD k = (!cvtPsn c 1 j && flagOf ((cvtElems c 1 j).map (fun e => e.2)) k)))

/-- R250, R251, R252: RCP, RSQ, SQRT, EX2, LG2, TANH, SINP, COSP and RRED, where nothing of R118 stops them and no poison is
bound for the mask, complete with the value and the flags of their function in every executing lane, RRED with the
remainder in vd and the quadrant word in vd + 1; poison of the source poisons the result; nothing else changes. -/
def Obligations.SpecialFunctionsComplete : Prop :=
  (∀ (o : Op) (x : Ops) (s : State) (c : Ctx), o ∈ [Op.rcp, .rsq, .sqrt, .ex2, .lg2, .tanh, .sinp, .cosp] → Runs o x s c →
    c.maskSafe (fun j => lwAny (sfuSource o c j)) →
    ∃ (t : State) (v : Nat → LW2) (fl : Nat → Fl), exec (o.instr x) s = .next t ∧ c.laneDone s t false true v fl ∧
      ∀ j, c.ex.has j = true →
        let r := sfuResult o x (lwLo (sfuSource o c j)) (((sfuSource o c j).val >>> 32).truncate 32)
        (v j).val.toNat = r.1 % 2 ^ 32 ∧ poisonIs false (v j) (lwAny (sfuSource o c j)) ∧ fl j = r.2) ∧
  (∀ (x : Ops) (s : State) (c : Ctx), Runs .rred x s c →
    ∃ (t : State) (v : Nat → LW2) (fl : Nat → Fl), exec (.rred x) s = .next t ∧ c.laneDone s t true true v fl ∧
      ∀ j, c.ex.has j = true →
        let r := sfuRred (lwLo (c.opA .f32 j)).toNat
        lwLo (v j) = BitVec.ofNat 32 r.1 ∧ ((v j).val >>> 32).truncate 32 = BitVec.ofNat 32 r.2.1 ∧
        poisonIs true (v j) (c.opA .f32 j).pLo ∧ fl j = r.2.2)

/-- The floating-point arithmetic instructions and the conversions complete (see `FloatArithmeticCompletes`,
`ConversionsComplete`). -/
def Obligations.FloatInstructionsComplete : Prop := FloatArithmeticCompletes ∧ ConversionsComplete

namespace Sys2Proof.Claims

/-! ### Lane instructions -/

/-- The lanes that an instruction which combines lanes runs over together with lane `j`: the active lanes, or in duplex mode
the shadows of them (R253, R449), in increasing lane number. -/
def peers (c : Ctx) (j : Nat) : List Nat := if c.act.has j then c.act.list else (c.ex &&& ~~~ c.act).list

/-- The lane that LXCH reads for lane `j`, from its operand `b`; none where it lies outside the group (R254), or outside
lanes 0-47 in duplex mode, where a shadow reads the shadow (R449). -/
def exchangeLane (c : Ctx) (mode j : Nat) (b : Word) : Option Nat :=
  let p := c.G.primary j
  let src : Int :=
    if mode = 0 then b.toNat else if mode = 1 then p + b.toInt else if mode = 2 then ((p + b.toNat) % 96 : Nat)
    else (p ^^^ b.toNat : Nat)
  let top : Int := if c.G.duplex then 47 else 95
  if 0 ≤ src ∧ src ≤ top then some (if c.G.duplex ∧ 48 ≤ j then src.toNat + 48 else src.toNat) else none

/-- What LXCH gives lane `j` (R254): the lane is named by its own b, or in a shadow by its primary's, whose choice it follows
(R449). -/
def exchanged (c : Ctx) (t : Ty) (mode j : Nat) : LW2 :=
  let b := c.opB (if mode = 1 then .i32 else .n32) (c.G.primary j)
  if b.pLo then mkVal t.wide (c.opA t j).val true
  else match exchangeLane c mode j (lwLo b) with
    | none => c.opA t j
    | some k => if c.G.dead.has k then mkVal t.wide (c.opA t k).val true else c.opA t k

/-- The step by which REDUX, FREDUX and SCAN combine two values of an element (R256-R258). -/
def combineStep (o : Op) (x : Ops) (a b : Nat) : Nat × Fl :=
  match o with
  | .redux => (reduxOp x.t (x.mf 0 3) a b, 0)
  | .fredux => freduxStep x a b
  | _ => scanStep x a b

/-- Values combined in order from the first, each step delivered (R202). -/
def combine (o : Op) (x : Ops) : List Nat → Nat
  | [] => 0
  | v :: vs => vs.foldl (fun r w => (combineStep o x r w).1) v

/-- The flags of every step of such a combination. -/
def combineFlags (o : Op) (x : Ops) : List Nat → List Fl
  | [] => []
  | v :: vs => (List.range vs.length).map (fun i =>
      (combineStep o x (combine o x (v :: vs.take i)) (vs.getD i 0)).2)

/-- The lanes whose values SCAN combines for lane `j`: those up to it, or before it under `.excl` (R258). -/
def scanLanes (c : Ctx) (j : Nat) : List Nat :=
  (peers c j).filter (fun k => if c.x.mf 3 1 = 1 then decide (k < j) else decide (k ≤ j))

/-- The value of a system name (R259). -/
def systemName (c : Ctx) (s : State) (code j : Nat) : Nat :=
  match code with
  | 0 => c.G.primary j
  | 1 => c.G.index
  | 2 => c.T.index
  | 3 => c.G.role
  | 4 => c.T.core
  | 5 => c.T.domain
  | 6 => s.wtime c.T.domain % 2 ^ 64
  | 7 => s.groupCycles c.G c.k % 2 ^ 64
  | 8 => (c.G.dead.word 0).toNat
  | 9 => (c.G.dead.word 1).toNat
  | 10 => (c.G.dead.word 2).toNat
  | 11 => if c.G.lostst then 1 else 0
  | _ => c.G.fflags.toNat

end Sys2Proof.Claims

/-- R253, R254, R255, R256, R257, R258: LXCH, POLL, REDUX, FREDUX and SCAN change nothing where no lane is active. Else, where
nothing of R118 stops them and no poison is bound for the mask, they complete: LXCH gives each lane the value of the lane it
names, or its own; POLL its vote, or the mask of the lanes where a is not 0 in three registers; REDUX and FREDUX the
combination of all the lanes, and SCAN of the lanes up to (or before) its own, in increasing lane number, poisoned where a
combined value is; nothing else changes. -/
def Obligations.LaneInstructionsComplete : Prop :=
  (∀ (o : Op) (x : Ops) (s : State) (c : Ctx), o ∈ [Op.lxch, .poll, .redux, .fredux, .scan] → Runs o x s c → c.act = 0 →
    ∃ t, exec (o.instr x) s = .next t ∧ c.goesOn s t) ∧
  (∀ (x : Ops) (s : State) (c : Ctx), Runs .lxch x s c → c.act ≠ 0 →
    c.maskSafe (fun j => (exchanged c x.t (x.mf 0 2) j).pLo) →
    ∃ t, exec (.lxch x) s = .next t ∧ c.laneDone s t x.t.wide true (exchanged c x.t (x.mf 0 2)) (fun _ => 0)) ∧
  (∀ (x : Ops) (s : State) (c : Ctx), Runs .poll x s c → c.act ≠ 0 → x.mf 0 2 ≠ 3 →
    c.maskSafe (fun j => (peers c j).any (fun k => (c.opA .b32 k).pLo)) →
    ∃ (t : State) (v : Nat → LW2), exec (.poll x) s = .next t ∧ c.laneDone s t false true v (fun _ => 0) ∧
      ∀ j, c.ex.has j = true →
        poisonIs false (v j) ((peers c j).any (fun k => (c.opA .b32 k).pLo)) ∧
        (v j).val = if (x.mf 0 2 = 0 ∧ ∀ k ∈ peers c j, lwLo (c.opA .b32 k) ≠ 0) ∨
            (x.mf 0 2 = 1 ∧ ∃ k ∈ peers c j, lwLo (c.opA .b32 k) ≠ 0) ∨
            (x.mf 0 2 = 2 ∧ ∀ k ∈ peers c j, ∀ l ∈ peers c j, lwLo (c.opA .b32 k) = lwLo (c.opA .b32 l))
          then 0xFFFFFFFF else 0) ∧
  (∀ (x : Ops) (s : State) (c : Ctx), Runs .poll x s c → c.act ≠ 0 → x.mf 0 2 = 3 →
    ∃ (t : State) (w : Nat → Nat → LW), exec (.poll x) s = .next t ∧ c.rangeDone s t c.ex 3 w (fun _ => 0) c.after ∧
      ∀ j, c.ex.has j = true → ∀ b, b < 3 →
        (w j b).psn = (peers c j).any (fun k => (c.opA .b32 k).pLo) ∧
        ∀ i, i < 32 → (w j b).val.getLsbD i =
          (peers c j).any (fun k => c.G.primary k == 32 * b + i && lwLo (c.opA .b32 k) != 0)) ∧
  (∀ (x : Ops) (s : State) (c : Ctx), Runs .redux x s c → c.act ≠ 0 →
    c.maskSafe (fun j => (peers c j).any (fun k => lwPsn (c.opA x.t k) x.t)) →
    ∃ (t : State) (v : Nat → LW2), exec (.redux x) s = .next t ∧ c.laneDone s t x.t.wide true v (fun _ => 0) ∧
      ∀ j, c.ex.has j = true →
        (v j).val.toNat = combine .redux x ((peers c j).map (fun k => (c.opA x.t k).val.toNat)) ∧
        poisonIs x.t.wide (v j) ((peers c j).any (fun k => lwPsn (c.opA x.t k) x.t))) ∧
  (∀ (x : Ops) (s : State) (c : Ctx), Runs .fredux x s c → c.act ≠ 0 →
    c.maskSafe (fun j => (peers c j).any (fun k => (c.opA x.t k).pLo)) →
    ∃ (t : State) (v : Nat → LW2) (fl : Nat → Fl), exec (.fredux x) s = .next t ∧ c.laneDone s t false true v fl ∧
      ∀ j, c.ex.has j = true →
        let es (i : Nat) := (peers c j).map (fun k => el x.t (c.opA x.t k) i)
        (∀ i, i < x.t.elems → el x.t (v j) i = combine .fredux x (es i) % 2 ^ tyStep x.t) ∧
        poisonIs false (v j) ((peers c j).any (fun k => (c.opA x.t k).pLo)) ∧
        (∀ b, (fl j).getLsbD b = (List.range x.t.elems).any (fun i => flagOf (combineFlags .fredux x (es i)) b))) ∧
  (∀ (x : Ops) (s : State) (c : Ctx), Runs .scan x s c → c.act ≠ 0 →
    c.maskSafe (fun j => (scanLanes c j).any (fun k => lwPsn (c.opA x.t k) x.t)) →
    ∃ (t : State) (v : Nat → LW2) (fl : Nat → Fl), exec (.scan x) s = .next t ∧ c.laneDone s t x.t.wide true v fl ∧
      ∀ j, c.ex.has j = true →
        let vs := (scanLanes c j).map (fun k => (c.opA x.t k).val.toNat)
        (v j).val.toNat = (if vs = [] then scanIdentity x.t (x.mf 0 3) else combine .scan x vs) ∧
        poisonIs x.t.wide (v j) ((scanLanes c j).any (fun k => lwPsn (c.opA x.t k) x.t)) ∧
        fl j = (combineFlags .scan x vs).getLastD 0)

/-- R259, R260: RDSYS, where nothing of R118 stops it, completes: it gives every executing lane the value of its system name,
a pair for sys.wtime and sys.cycles; with `.clr` and an active lane the word is cleared once it has been returned; nothing
else changes. -/
def Obligations.SystemNamesAreRead : Prop :=
  ∀ (x : Ops) (s : State) (c : Ctx), Runs .rdsys x s c →
    let code := x.mf 0 6
    let wide : Bool := code = 6 || code = 7
    let clr : Bool := x.mf 6 1 = 1 && c.act != 0
    let c' : Ctx := if clr then { c with G := if code = 11 then { c.G with lostst := false } else { c.G with fflags := 0 } } else c
    ∃ (t : State) (v : Nat → LW2), exec (.rdsys x) s = .next t ∧ c'.laneDone s t wide true v (fun _ => 0) ∧
      ∀ j, c.ex.has j = true →
        (v j).val.toNat = (if wide then systemName c s code j else systemName c s code j % 2 ^ 32) ∧ lwAny (v j) = false

namespace Sys2Proof.Claims

/-! ### Control flow -/

/-- In duplex mode the members of every live shadowed pair agree on the predicate (R265). -/
def predAgree (c : Ctx) : Prop :=
  c.G.duplex = true → ∀ j, j < 48 → c.sp.memb.has j = true → c.G.dead.has j = false → c.G.dead.has (j + 48) = false →
    c.passes j = c.passes (j + 48)

/-- The lanes of all outcomes. -/
def outLanes (outs : List Out) : Lanes := outs.foldl (fun m o => m ||| o.lanes) 0

/-- The split that keeps the entry of an instruction with these outcomes: a single outcome moves the whole split; the first
of several keeps the members that no outcome names, and records the reconvergence address (R162). -/
def keeps (c : Ctx) (outs : List Out) (ra : Option DWord) : Split :=
  match outs with
  | [] => c.after
  | [o] => { c.after with pc := o.pc }
  | o :: _ =>
    { c.after.setLanes (o.lanes ||| (c.sp.memb &&& ~~~ outLanes outs)) o.lanes with pc := o.pc, rpc := ra.getD c.sp.rpc }

/-- The context with the other outcomes in the free entries, in increasing number (R162). -/
def divided (c : Ctx) (outs : List Out) (ra : Option DWord) : Ctx :=
  { c with G := (outs.tail.zip c.G.freeEntries).foldl (fun G p =>
      G.setSp p.2 { c.after.setLanes p.1.lanes p.1.lanes with pc := p.1.pc, rpc := ra.getD c.sp.rpc, v := true }) c.G }

/-- A word of the link (R269). -/
def linkWord (c : Ctx) (i : Nat) : LW := { val := (c.next >>> (32 * i)).truncate 32 }

/-- A transfer has executed: the outcomes stand in their entries, and the executing lanes hold the link in the pair D, which
v0 discards; nothing else changes. -/
def Transferred (c : Ctx) (s t : State) (outs : List Out) (ra : Option DWord) : Prop :=
  (divided c outs ra).rangeDone s t c.ex (if c.x.d = 0 then 0 else 2) (fun _ i => linkWord c i) (fun _ => 0) (keeps c outs ra)

/-- The lanes of MASK that a transfer does not take go on behind the instruction. -/
def fallThrough (c : Ctx) : List Out :=
  if c.sp.mask &&& ~~~ c.act = 0 then [] else [{ lanes := c.sp.mask &&& ~~~ c.act, pc := c.next, target := false }]

/-- The active lanes whose register target is `t`. -/
def lanesTo (c : Ctx) (t : Nat) : Lanes := Lanes.ofPred (fun j => c.act.has j && (c.opA .n64 j).val.toNat == t)

/-- The distinct targets of the active lanes, by the lowest lane. -/
def targets (c : Ctx) : List Nat := dedup (c.act.list.map (fun j => (c.opA .n64 j).val.toNat))

/-- The reconvergence address of a transfer (R266-R270). -/
def raOf (o : Op) (c : Ctx) : Option DWord :=
  if o = .call ∨ o = .callx then some c.next else if o = .bra then c.reconv c.x.a else c.reconv c.x.b

/-- The ticket that a register waits for when lanes have left every claim: a register whose claim waits for no other lane is
FULL (R271, R447). -/
def pendWithout (c : Ctx) (lanes : Lanes) (r : Nat) : Option Nat :=
  match c.G.pendOf r with
  | none => none
  | some k =>
    match Map.find c.G.claims k with
    | some C => if C.lanes &&& ~~~ lanes = 0 ∧ some r ∈ C.dests then none else some k
    | none => some k

/-- The registers and claims of a group when `lanes` have left its claims; `K` gives the rest. -/
structure LanesGone (c : Ctx) (lanes : Lanes) (K H : Group) : Prop where
  regs : ∀ r j, 4 ≤ r → r < 256 → H.reg r j = c.G.reg r j
  pend : ∀ r, r < 256 → H.pendOf r = pendWithout c lanes r
  claims : ∀ k, Map.find H.claims k = (Map.find c.G.claims k).map (fun C => { C with lanes := C.lanes &&& ~~~ lanes })
  rest : ({ K with regs := H.regs, pend := H.pend, hpend := H.hpend, claims := H.claims, slots := H.slots } : Group).same H

/-- The group after its executing lanes have exited; `sp` is the entry they leave (R271). -/
def ExitGroup (c : Ctx) (sp : Split) (H : Group) : Prop :=
  LanesGone c c.ex { c.afterGroup sp with exited := c.G.exited ||| c.ex } H

/-- The groups of a team, but for `g`, that are live. -/
def otherLive (s : State) (T : Team) (g : Nat) : Nat :=
  (T.groups.filter (fun h => h != g && ((s.grp h).map (fun H => !H.valid.isEmpty)).getD false)).length

end Sys2Proof.Claims

/-- R266, R269: BRA and CALL, where nothing of R118 stops them and shadowed pairs agree, go on behind themselves with `active`
empty. With a target in the running half they take every lane of MASK there, or, with an entry free, divide: the lanes that
fall through keep the entry, and the others go to the target in the lowest free one with the reconvergence address. CALL
leaves PC + len in the pair D of the lanes that go; nothing else changes. -/
def Sys2Proof.Claims.BranchesComplete : Prop :=
  ∀ (o : Op) (x : Ops) (s : State) (c : Ctx), o = .bra ∨ o = .call → Runs o x s c → predAgree c →
    (c.act = 0 → ∃ t, exec (o.instr x) s = .next t ∧ c.goesOn s t) ∧
    (c.act ≠ 0 → c.outside c.target = false →
      let outs := fallThrough c ++ [{ lanes := c.act, pc := c.target, target := true }]
      outs.length ≤ c.G.freeEntries.length + 1 →
      ∃ t, exec (o.instr x) s = .next t ∧ Transferred c s t outs (raOf o c))

/-- R265, R267, R268, R269, R270: BRX, CALLX and RET, where nothing of R118 stops them and shadowed pairs agree on their
predicate and their target, go on behind themselves with `active` empty. Where every target of an active lane is clean and is
classified valid in the state `s1` that fetching the windows leaves, and the outcomes fit the free entries, the lanes of MASK
that are not active fall through and the lanes of each target go there together; CALLX leaves the link in the pair D; nothing
else changes. -/
def Sys2Proof.Claims.IndirectTransfersComplete : Prop :=
  ∀ (o : Op) (x : Ops) (s : State) (c : Ctx), o = .brx ∨ o = .callx ∨ o = .ret → Runs o x s c → predAgree c →
    (c.G.duplex = true → ∀ j, j < 48 → c.sp.memb.has j = true → c.G.dead.has j = false → c.G.dead.has (j + 48) = false →
      (c.opA .n64 j).val = (c.opA .n64 (j + 48)).val) →
    (c.act = 0 → ∃ t, exec (o.instr x) s = .next t ∧ c.goesOn s t) ∧
    (∀ (ts : List (Nat × TClass)) (s1 : State), c.act ≠ 0 → (∀ j, c.act.has j = true → lwAny (c.opA .n64 j) = false) →
      c.classifyAll (o != .ret) (targets c) (s.begun c.g) = (ts, s1) → (∀ p ∈ ts, p.2 = .valid) →
      let outs := fallThrough c ++ ts.map (fun p => { lanes := lanesTo c p.1, pc := BitVec.ofNat 64 p.1, target := true })
      outs.length ≤ c.G.freeEntries.length + 1 →
      ∃ t, exec (o.instr x) s = .next t ∧ Transferred c s1 t outs (raOf o c))

/-- R271, R392: EXIT, where nothing of R118 stops it and shadowed pairs agree, goes on behind itself with `active` empty.
Else the active lanes leave their split, and their outstanding completions are discarded, so that a register whose claim
waits for no other lane is FULL. The other members go on behind the EXIT; a split without members becomes invalid and its
latch chain ends; with the group's last split, each barrier of the team that has been arrived at is tested again. -/
def Obligations.ExitCompletes : Prop :=
  ∀ (x : Ops) (s : State) (c : Ctx), Runs .exit x s c → predAgree c →
    let memb := c.sp.memb &&& ~~~ c.act
    let left := c.after.setLanes memb (c.sp.mask &&& ~~~ c.act)
    let ended : Split := { left with v := false, chain := 0, pc := c.sp.pc }
    let quietly : Ctx := { c with x := { c.x with live := false } }
    (c.act = 0 → ∃ t, exec (.exit x) s = .next t ∧ c.goesOn s t) ∧
    (c.act ≠ 0 → memb ≠ 0 →
      ∃ t H, exec (.exit x) s = .next t ∧ t.grp c.g = some H ∧ ExitGroup c left H ∧ Elsewhere c s t) ∧
    (c.act ≠ 0 → memb = 0 → (∃ e, e ∈ c.G.valid ∧ e ≠ c.e) →
      ∃ t H, exec (.exit x) s = .next t ∧ t.grp c.g = some H ∧ ExitGroup c ended H ∧ Elsewhere quietly s t) ∧
    (c.act ≠ 0 → memb = 0 → (∀ e ∈ c.G.valid, e = c.e) →
      ∃ t H B, exec (.exit x) s = .next t ∧ t.grp c.g = some H ∧ ExitGroup c ended H ∧
        Elsewhere quietly { s with exe := { s.exe with teams := t.exe.teams } } t ∧
        (∀ m, t.tm m = if m = c.G.team then some { c.T with tbars := B } else s.tm m) ∧
        ∀ n, n < 8 → Map.getD B n {} =
          let b := c.T.tb n
          if b.arr ≠ 0 ∧ (if b.tgt = 0 then otherLive s c.T c.g else b.tgt) ≤ b.arr then { b with arr := 0, ph := !b.ph }
          else b)

/-- R272, R273, R274, R275, R277, R280: BMZ and BMNZ, MASKP, MASKR, LAND, SIG, NOP and YIELD complete where nothing of R118
stops them (and shadowed pairs agree, where they read a predicate). BMZ takes the whole split to its target where `active` is
empty, BMNZ where it is not, and else they go on; MASKP saves MASK in three registers of every member and narrows it to
`active`; MASKR sets MASK from the words in the lowest member, or their complement in MASK; LAND and NOP change nothing; SIG
finds its value and begins a block; YIELD gives up the slice's next choice; nothing else changes. -/
def Obligations.MasksSignaturesAndIdlingComplete : Prop :=
  (∀ (o : Op) (x : Ops) (s : State) (c : Ctx), o = .bmz ∨ o = .bmnz → Runs o x s c → predAgree c →
    ((o = .bmz) ↔ c.act = 0) → c.outside c.target = false →
    ∃ t, exec (o.instr x) s = .next t ∧ c.goesTo s t (c.afterGroup { c.after with pc := c.target })) ∧
  (∀ (o : Op) (x : Ops) (s : State) (c : Ctx), o = .bmz ∨ o = .bmnz → Runs o x s c → predAgree c →
    ((o = .bmz) ↔ c.act ≠ 0) → ∃ t, exec (o.instr x) s = .next t ∧ c.goesOn s t) ∧
  (∀ (x : Ops) (s : State) (c : Ctx), Runs .maskp x s c → predAgree c →
    ∃ t, exec (.maskp x) s = .next t ∧
      c.rangeDone s t (c.G.exLanes c.sp.memb) 3 (fun _ b => { val := c.sp.mask.word b }) (fun _ => 0) (c.after.setMask c.act)) ∧
  (∀ (x : Ops) (s : State) (c : Ctx) (i : Nat), Runs .maskr x s c → c.sp.memb.lowest = some i →
    (∀ b, b < 3 → (c.word (aReg x + b) i).psn = false) →
    let w (b : Nat) := (c.word (aReg x + b) i).val
    let m := Lanes.ofWords (w 0) (w 1) (w 2)
    let n := (if x.mf 0 1 = 1 then m &&& ~~~ c.sp.mask else m) &&& c.sp.memb &&& ~~~ c.G.dead
    ∃ t, exec (.maskr x) s = .next t ∧ c.goesTo s t (c.afterGroup (c.after.setMask n))) ∧
  (∀ (o : Op) (x : Ops) (s : State) (c : Ctx), o = .land ∨ (o = .nop ∧ predAgree c) → Runs o x s c →
    ∃ t, exec (o.instr x) s = .next t ∧ c.goesOn s t) ∧
  (∀ (x : Ops) (s : State) (c : Ctx), Runs .sig x s c → c.sp.sig = x.m ++ x.d →
    ∃ t, exec (.sig x) s = .next t ∧ c.goesTo s t (c.afterGroup { c.after with sig := 0xFFFF })) ∧
  (∀ (x : Ops) (s : State) (c : Ctx), Runs .yield x s c → predAgree c →
    ∃ t, exec (.yield x) s = .next t ∧
      c.goesTo (if x.live then s else s.modSlice (sliceKey c.k c.G.slice) (fun sl => { sl with yield := some c.g })) t
        (c.afterGroup c.after))

/-- R112: an instruction with the predicate "never", of any opcode that its group may execute, only goes on behind itself:
no operand is read, no fault is taken, no register is awaited, and the signature does not count it. -/
def Obligations.NeverOnlyGoesOn : Prop :=
  ∀ (o : Op) (x : Ops) (s : State) (c : Ctx), s.context o x = some c → s.wlog = [] → isNever x = true →
    dynOk o x c.G (s.accOf c.T) = true → (o.priv = true → c.G.lvl ≠ 0) → (x.live = true → c.sp.chain < 9) → c.seqOk = true →
    ∃ t, exec (o.instr x) s = .next t ∧ c.goesTo s t (c.afterGroup { c.after with sig := c.sp.sig })

/-- Direct branches and calls, and the transfers to register targets complete (see `BranchesComplete`,
`IndirectTransfersComplete`). -/
def Obligations.TransfersComplete : Prop := BranchesComplete ∧ IndirectTransfersComplete

namespace Sys2Proof.Claims

/-! ### Memory accesses -/

/-- The group after an instruction that has claimed the places `ds` under the ticket `tk` (none: it makes no claim), and that
owes completion times for `owed` lines: no register has a new value; the destinations are PENDING with the ticket, whose claim
waits for every executing lane, and earlier claims deliver to them no longer (R166, R168, R363). -/
structure ClaimGroup (c : Ctx) (tk : Option Nat) (ds : List (Option Nat)) (owed : Nat) (H : Group) : Prop where
  regs : ∀ r j, 4 ≤ r → r < 256 → H.reg r j = c.G.reg r j
  pend : ∀ r, r < 256 → H.pendOf r = if tk ≠ none ∧ some r ∈ ds then tk else c.G.pendOf r
  claim : ∀ k, tk = some k → Map.find H.claims k =
    some { seq := c.G.claimSeq, all := c.ex, lanes := c.ex, arriving := c.ex, dests := ds }
  others : ∀ k, tk ≠ some k → Map.find H.claims k = (Map.find c.G.claims k).map (fun C =>
    { C with dests := C.dests.map (fun d =>
        if tk ≠ none ∧ d ∈ ds ∧ (∃ r, d = some r ∧ c.G.pendOf r = some k) then none else d) })
  rest : ({ c.afterGroup c.after with
    pend := H.pend, hpend := H.hpend, claims := H.claims
    claimSeq := if tk = none then c.G.claimSeq else c.G.claimSeq + 1
    stores := (c.G.owe c.G.seq owed).stores } : Group).same H

/-- A loading instruction, its scope, whether it is an acquire, and whether it leaves L1 alone (R301, R384). -/
def isLoad (o : Op) : Prop := o = .ld ∨ o = .ldacq

/-- The request of a load (R301, R384). -/
def loadRequest (o : Op) (c : Ctx) (tk : Option Nat) (ls : List LaneAcc) : Flight :=
  { g := c.g, seq := c.G.seq, core := c.k, kind := .load, size := sizeBytes (c.x.mf 0 3)
    sext := c.x.mf 0 3 = 4 || c.x.mf 0 3 = 6, scope := if o = .ldacq then c.x.mf 4 2 else 0, acq := o = .ldacq
    noAlloc := o = .ld && c.x.mf 4 2 = 1, ticket := tk, lanes := ls, user := c.user, ctx := c.ctx }

/-- The state with one more request in flight, unless nothing is left to do for it. -/
def withRequest (s : State) (f : Flight) : State := (s.addFlight f).2.sweepFlight s.ms.next

/-- The state with a galley load in flight, and a fill for each window line that it needs. -/
def withFills (c : Ctx) (s : State) (gs : List Gal1) (f : Flight) : State :=
  (c.sendFills s.ms.next gs (s.addFlight f).2).sweepFlight s.ms.next

/-- The size of the accesses of a memory instruction is that of an instruction with this M (R298). -/
def accSize (c : Ctx) : Nat := sizeBytes (c.x.mf 0 3)

/-- The accesses of the active lanes (R299). -/
def accesses (c : Ctx) (gal : Bool) : List Req := c.accLanes.map (c.addr gal)

/-- The accesses of the storing lanes, with their data (R299, R302). -/
def storing (c : Ctx) (gal : Bool) : List Req := c.accLanes.map (c.storeReq gal)

/-- In duplex mode the lanes of every live shadowed pair name one address and carry the same data (R449). -/
def pairsEqual (c : Ctx) (f : Nat → Req) : Prop :=
  c.G.duplex = true → ∀ j, j < 48 → c.act.has j = true → c.G.dead.has j = false → c.G.dead.has (j + 48) = false →
    (f j).a = (f (j + 48)).a ∧ (f j).data = (f (j + 48)).data ∧ (f j).data2 = (f (j + 48)).data2

/-- The galley byte that stores leave at an offset: that of the highest-numbered lane that names it (R302). -/
def galByteAfter (T : Team) (size : Nat) (rs : List Req) (o : Nat) : Byte :=
  match rs.reverse.find? (fun r => decide (r.a.toNat ≤ o ∧ o < r.a.toNat + size)) with
  | some r => BitVec.ofNat 8 (r.data / 256 ^ (o - r.a.toNat))
  | none => T.gb o

/-- A lane of a store touches a galley offset. -/
def touches (size : Nat) (o : Nat) (r : Req) : Bool := decide (r.a.toNat ≤ o ∧ o < r.a.toNat + size)

/-- The galley sector mark that stores leave (R292, R303): set where a poisoned byte lands, clear where clean bytes replace
all 32, else as it was. -/
def galMarkAfter (T : Team) (size : Nat) (rs : List Req) (o : Nat) : Bool :=
  let bytes := (List.range 32).map (fun i => 32 * (o / 32) + i)
  if bytes.any (fun b => rs.any (fun r => touches size b r && r.psn)) then true
  else if bytes.all (fun b => rs.any (touches size b)) then false
  else T.gmark o

/-- An access that names bytes of one 4 KiB unit alone. -/
def inPage (r : Req) (size : Nat) : Prop := 0 < size ∧ r.a.toNat % 4096 + size ≤ 4096

end Sys2Proof.Claims

/-- R141, R300: the checks of global accesses. Lanes whose bytes no pointer may name trap ACCESS first, all of them, with the lowest
one's address. Accesses of one 64 KiB unit whose leaf is cached, that it allows and that lie aligned within a 4 KiB page,
pass, each with its physical address and its page's attributes; a poisoned word goes to regions 0, 4 and above alone, and to
none where `hem`; an atomic names no device page; none overlaps an earlier access that a fault holds. Passing changes nothing
but what translation caches. -/
def Obligations.AccessesAreChecked : Prop :=
  (∀ (c : Ctx) (s : State) (size al : Nat) (acc : Acc) (atom hem : Bool) (rs : List Req) (r : Req) (rest : List Req),
    rs.filter (fun r => badRange r.a.toNat size c.user) = r :: rest →
    c.globalReq s size al acc atom hem rs =
      .stop (c.trap s cAccess ((r :: rest).foldl (fun m r => m ||| Lanes.one r.lane) 0) (r.a % (2 ^ 64 : Nat)).toNat)) ∧
  (∀ (c : Ctx) (s s1 : State) (size al : Nat) (acc : Acc) (atom hem : Bool) (rs : List Req) (ls : List Lane1),
    c.globalReq s size al acc atom hem rs = .go ls s1 →
    s1 = { s with tr := s1.tr } ∧ ls.map (fun l => l.1.lane) = rs.map (fun r => r.lane) ∧
      (∀ r ∈ rs, badRange r.a.toNat size c.user = false) ∧ (atom = true → ∀ r ∈ rs, r.a.toNat % al = 0)) ∧
  (∀ (c : Ctx) (s : State) (size al u : Nat) (acc : Acc) (atom hem : Bool) (rs : List Req) (l : Leaf) (pa : Req → Nat),
    rs ≠ [] → c.sp.kept u = none → tlbFind s c.k c.ctx (u * 65536) false = some l → l.allows acc c.user = true →
    (∀ r ∈ rs, badRange r.a.toNat size c.user = false ∧ inPage r size ∧ vaUnit r.a.toNat = u ∧
      l.pa s c.ctx r.a.toNat = some (pa r) ∧ ((atom = true ∨ l.mem = 2) → r.a.toNat % al = 0) ∧
      (r.psn = true → hem = false ∧ (paRegion (pa r) = 0 ∨ 4 ≤ paRegion (pa r))) ∧
      s.heldBefore { g := c.g, seq := c.G.seq, kind := .load, ctx := c.ctx } s.ms.next 0 r.a.toNat size = none) →
    (atom = true → l.mem ≠ 2) →
    c.globalReq s size al acc atom hem rs = .go (rs.map (fun r =>
      ({ lane := r.lane, va := r.a.toNat, segs := [{ pa := pa r, len := size, ofs := 0, cls := l.cls, owner := l.owner }]
         mem := l.mem, lease := l.lease, data := r.data, data2 := r.data2, psn := r.psn }, none)))
      (tlbFill s c.k c.ctx false l))

/-- R166, R294, R299, R301, R384: LD and LDACQ, where nothing of R118 stops them, go on behind themselves with `active`
empty. With clean addresses, accesses that pass the checks without a fault, and a free ticket where D is not v0, they
complete: D's registers wait for the lowest free ticket, and one request is in flight, for which a global load has read
from L1 what a lease allows and no earlier lane forbids (an acquire above team scope nothing), and a galley load the bytes
of the galley that need no fill, with a request for each window line that needs one (see `sendFills`); registers, memory and
the rest are as before. -/
def Obligations.LoadsComplete : Prop :=
  ∀ (o : Op) (x : Ops) (s : State) (c : Ctx), isLoad o → Runs o x s c →
    let gal : Bool := x.mf 3 1 == 1
    let n := sizeRegs (x.mf 0 3)
    (c.act = 0 → ∃ t, exec (o.instr x) s = .next t ∧ c.goesOn s t) ∧
    (∀ (ls : List Lane1) (s1 : State) (tk : Option Nat), c.act ≠ 0 → gal = false → (∀ r ∈ accesses c false, r.aPsn = false) →
      c.globalReq (s.begun c.g) (accSize c) (accSize c) .read false false (accesses c false) = .go ls s1 →
      (∀ l ∈ ls, l.2 = none) → c.loadTicket = some tk →
      let direct : Bool := o == .ldacq && decide (1 ≤ x.mf 4 2)
      ∃ t H, exec (o.instr x) s = .next t ∧ t.grp c.g = some H ∧ ClaimGroup c tk (c.places n) 0 H ∧
        Elsewhere c (withRequest s1 (loadRequest o c tk ((c.readLanes s1 (accSize c) direct ls).map (fun l => l.1)))) t) ∧
    (∀ (gs : List Gal1) (s1 : State) (tk : Option Nat), c.act ≠ 0 → gal = true → (∀ r ∈ accesses c true, r.aPsn = false) →
      c.galleyReq (s.begun c.g) (accSize c) false false (accesses c true) = .go gs s1 →
      s1.heldBehind c.g c.ctx (accSize c) (gs.map (fun g => g.r)) = none → c.loadTicket = some tk →
      ∃ t H, exec (o.instr x) s = .next t ∧ t.grp c.g = some H ∧ ClaimGroup c tk (c.places n) 0 H ∧
        Elsewhere c (withFills c s1 gs (loadRequest o c tk (gs.map (c.galLane (accSize c))))) t ∧
        ((∀ g ∈ gs, g.ls = []) → Elsewhere c (withRequest s1 (loadRequest o c tk ((accesses c true).map (fun r =>
          let v := c.T.galNat r.a.toNat (accSize c) (fun _ => true)
          { lane := r.lane, va := galVa r.a.toNat, got := v.1, gotPsn := v.2 })))) t))

/-- R292, R295, R299, R302, R303, R385: ST, and STREL once its release is done with no lost store to report, where nothing of
R118 stops them, go on behind themselves with `active` empty. With clean addresses, equal pairs, and accesses that pass the
checks without a fault, they complete: a global store updates or drops the L1 copies of its lines and is in flight, its
completion times owed, while memory is as before; a store to galley bytes of no window has written them, the highest lane
last, with the marks of their sectors; every other galley byte, and the rest, is as before. -/
def Obligations.StoresComplete : Prop :=
  ∀ (o : Op) (x : Ops) (s : State) (c : Ctx), o = .st ∨ o = .strel → Runs o x s c →
    let gal : Bool := x.mf 3 1 == 1
    let scope := if o = .strel then x.mf 4 2 else 0
    let hem : Bool := o == .strel && scope == 3
    let stream : Bool := o == .st && x.mf 4 2 == 1
    (c.act = 0 → ∃ t, exec (o.instr x) s = .next t ∧ c.goesOn s t) ∧
    ((o = .strel → c.sp.relDone = true ∧ (2 ≤ scope → c.G.lostst = false)) →
      c.act ≠ 0 → (∀ r ∈ storing c gal, r.aPsn = false) → pairsEqual c (c.storeReq gal) →
      (∀ (ls : List Lane1) (s1 : State), gal = false →
        c.globalReq (s.begun c.g) (accSize c) (accSize c) .write false hem (storing c false) = .go ls s1 →
        (∀ l ∈ ls, l.2 = none) →
        let accs := ls.map (fun l => l.1)
        let lines := dedup (accs.flatMap (fun l => linesOf l.segs))
        let f : Flight :=
          { g := c.g, seq := c.G.seq, core := c.k, kind := .store, size := accSize c, scope := scope
            lanes := accs.map (fun l => { l with left := linesOf l.segs }), user := c.user, ctx := c.ctx }
        ∃ t, exec (o.instr x) s = .next t ∧
          c.goesTo ((s1.l1Store c.k stream (lines.flatMap (storeBytes accs))).addFlight f).2 t
            ((c.afterGroup c.after).owe c.G.seq lines.length)) ∧
      (∀ (gs : List Gal1) (s1 : State), gal = true →
        c.galleyReq (s.begun c.g) (accSize c) true hem (storing c true) = .go gs s1 → (∀ g ∈ gs, g.ls = []) →
        (∀ r ∈ storing c true, ∀ i, i < accSize c → c.T.lineAt (r.a.toNat + i) = none) →
        s1.heldBehind c.g c.ctx (accSize c) (gs.map (fun g => g.r)) = none →
        ∃ t T, exec (o.instr x) s = .next t ∧ t.tm c.G.team = some T ∧
          (∀ b, T.gb b = galByteAfter c.T (accSize c) (storing c true) b ∧
            T.gmark b = galMarkAfter c.T (accSize c) (storing c true) b) ∧
          T = { c.T with galley := T.galley, gmarks := T.gmarks } ∧ (∀ m, m ≠ c.G.team → t.tm m = s.tm m) ∧
          c.goesTo { s1 with exe := { s1.exe with teams := t.exe.teams } } t (c.afterGroup c.after)))

/-- R166, R387, R388, R389: ATOM and RED, where nothing of R118 stops them, go on behind themselves with `active` empty. Once
the release that `.rel` and `.ar` ask for is done with no lost store to report, with clean addresses, equal pairs, accesses
that pass the checks without a fault, and a free ticket for an ATOM whose D is not v0, they complete: the core's L1 copies of
the lines are dropped, one request is in flight to their homes, D waits for its ticket, and the completion times are owed;
registers, memory and the rest are as before. -/
def Obligations.AtomicsComplete : Prop :=
  ∀ (o : Op) (x : Ops) (s : State) (c : Ctx), o = .atom ∨ o = .red → Runs o x s c →
    let size := if x.t.wide then 8 else 4
    let scope := x.mf 4 2
    let rs := c.accLanes.map c.atomReq
    (c.act = 0 → ∃ t, exec (o.instr x) s = .next t ∧ c.goesOn s t) ∧
    (∀ (ls : List Lane1) (s1 : State) (tk : Option Nat),
      (x.mf 7 1 = 1 → c.sp.relDone = true ∧ (2 ≤ scope → c.G.lostst = false)) →
      c.act ≠ 0 → (∀ r ∈ rs, r.aPsn = false) → pairsEqual c c.atomReq →
      c.globalReq (s.begun c.g) size size (if o = .atom then .atom else .write) true (scope == 3) rs = .go ls s1 →
      (∀ l ∈ ls, l.2 = none) →
      (if o = .atom ∧ x.d ≠ 0 then tk = c.G.freeTicket ∧ tk ≠ none else tk = none) →
      let lines := dedup (ls.flatMap (fun l => linesOf l.1.segs))
      let f : Flight :=
        { g := c.g, seq := c.G.seq, core := c.k, kind := if o = .atom then .atom else .red, size := size, op := x.mf 0 4
          ty := x.t, scope := scope, acq := o = .atom && x.mf 6 1 = 1, ticket := tk
          lanes := ls.map (fun l => { l.1 with left := linesOf l.1.segs }), user := c.user, ctx := c.ctx }
      ∃ t H, exec (o.instr x) s = .next t ∧ t.grp c.g = some H ∧
        ClaimGroup c tk (c.places (if size = 8 then 2 else 1)) lines.length H ∧
        Elsewhere c ((lines.foldl (fun s line => s.l1Drop c.k line) s1).addFlight f).2 t)

namespace Sys2Proof.Claims

/-! ### Stash windows -/

/-- The group after an instruction that may have sent stores of its team's windows: registers, claims and system registers
are as before, and the split goes on behind the instruction; stores, batches and sys.lostst may have changed. -/
structure Undisturbed (c : Ctx) (H : Group) : Prop where
  rest : ({ c.afterGroup c.after with
    bat0 := H.bat0, bat1 := H.bat1, bat2 := H.bat2, bat3 := H.bat3, stores := H.stores, tDom := H.tDom, tWafer := H.tWafer
    tSys := H.tSys, lostst := H.lostst } : Group).same H

/-- A line of an open window lies in a range of galley offsets or of virtual addresses (R307, R308). -/
def lineIn (W : Window) (i : Nat) (gal : Bool) (base len : Nat) : Bool :=
  let a := if gal then W.g + 128 * i else (W.va + 128 * i) % 2 ^ 64
  decide (a < base + len) && decide (base < a + 128)

/-- The range that FLUSH or INVAL names, where it names one: clean words in the lowest active lane, not empty, within the
team's galley or the running level's half (R307, R308). -/
def namesRange (c : Ctx) (s : State) (gal : Bool) (base len : Nat) : Prop :=
  ∃ i, c.act.lowest = some i ∧
    let b := if gal then c.opA .n32 i else c.opA .n64 i
    lwAny b = false ∧ b.val.toNat = base ∧ (c.opB .n32 i).pLo = false ∧ (lwLo (c.opB .n32 i)).toNat = len ∧ len ≠ 0 ∧
    if gal then 16 * s.bbarsOf c.T ≤ base ∧ base + len ≤ s.galSizeOf c.T else badRange base len c.user = false

end Sys2Proof.Claims

/-- R304, R305, R306, R307, R308: STASH, UNSTASH, FLUSH, INVAL and PREF, where nothing of R118 stops them, go on behind
themselves with `active` empty. Else, with clean and legal operands, they complete: STASH opens its window with every line
empty; UNSTASH closes one window or all; FLUSH cleans every window line of its range and sends home, for a global range, all
that the domain has combined; INVAL empties the lines of its range but for their dirty bytes (galley: and these), and for a
global range the core's L1; an empty range changes nothing; each waits for no galley store that a fault holds on its lines.
PREF sends, for each lane of a legal address whose page can be read and is cacheable, a read of its line that claims nothing.
Registers and claims are as before. -/
def Obligations.WindowsAndPrefetchesComplete : Prop :=
  (∀ (o : Op) (x : Ops) (s : State) (c : Ctx), o ∈ [Op.stash, .unstash, .flush, .inval, .pref] → Runs o x s c → c.act = 0 →
    ∃ t, exec (o.instr x) s = .next t ∧ c.goesOn s t) ∧
  (∀ (x : Ops) (s : State) (c : Ctx) (i g len va : Nat), Runs .stash x s c → c.act.lowest = some i →
    (c.opA .n32 i).pLo = false → lwAny (c.opB .n64 i) = false → (c.opC .n32 i).pLo = false →
    (lwLo (c.opA .n32 i)).toNat = g → (c.opB .n64 i).val.toNat = va → (lwLo (c.opC .n32 i)).toNat = len →
    g % 128 = 0 → len ≠ 0 → len % 128 = 0 → 16 * s.bbarsOf c.T ≤ g → g + len ≤ s.galSizeOf c.T →
    c.T.overlapsWindow (x.mf 0 3) g len = false → va % 128 = 0 → badRange va len c.user = false →
    s.heldWindow c.G.team c.T (fun l => l.w == x.mf 0 3) = none →
    ∃ t H T, exec (.stash x) s = .next t ∧ t.grp c.g = some H ∧ Undisturbed c H ∧ t.tm c.G.team = some T ∧
      T = { c.T with windows := T.windows } ∧
      ∀ w, Map.find T.windows w =
        if w = x.mf 0 3 then some { g := g, va := va, len := len, lines := [] } else Map.find c.T.windows w) ∧
  (∀ (x : Ops) (s : State) (c : Ctx), Runs .unstash x s c → c.act ≠ 0 →
    s.heldWindow c.G.team c.T (fun l => x.mf 3 1 == 1 || l.w == x.mf 0 3) = none →
    ∃ t H T, exec (.unstash x) s = .next t ∧ t.grp c.g = some H ∧ Undisturbed c H ∧ t.tm c.G.team = some T ∧
      T = { c.T with windows := T.windows } ∧
      ∀ w, Map.find T.windows w = if x.mf 3 1 = 1 ∨ w = x.mf 0 3 then none else Map.find c.T.windows w) ∧
  (∀ (x : Ops) (s : State) (c : Ctx) (base len : Nat), Runs .flush x s c → namesRange c s (x.mf 3 1 == 1) base len →
    s.heldWindow c.G.team c.T (fun l => l.inRange (x.mf 3 1 == 1) base len) = none →
    ∃ t H T, exec (.flush x) s = .next t ∧ t.grp c.g = some H ∧ Undisturbed c H ∧ t.tm c.G.team = some T ∧
      T = { c.T with windows := T.windows } ∧
      (∀ w W i, Map.find c.T.windows w = some W → lineIn W i (x.mf 3 1 == 1) base len = true → T.dirty w i = 0) ∧
      (x.mf 3 1 ≠ 1 → ∀ key, key % 64 = c.k / 72 → Map.find t.ms.combs key = none)) ∧
  (∀ (x : Ops) (s : State) (c : Ctx) (base len : Nat), Runs .inval x s c → namesRange c s (x.mf 3 1 == 1) base len →
    s.heldWindow c.G.team c.T (fun l => l.inRange (x.mf 3 1 == 1) base len) = none →
    let gal : Bool := x.mf 3 1 == 1
    ∃ t T, exec (.inval x) s = .next t ∧ t.tm c.G.team = some T ∧ T = { c.T with windows := T.windows } ∧
      (∀ w W i, Map.find c.T.windows w = some W → T.winLine w i =
        if lineIn W i gal base len then
          (Map.find W.lines i).bind (fun l => if gal || l.dirty == 0 then none else some { l with filled := false })
        else Map.find W.lines i) ∧
      (∀ a, t.mb a = s.mb a) ∧ (∀ m, m ≠ c.G.team → t.tm m = s.tm m) ∧
      (∀ id f, Map.find s.ms.flights id = some f → ∃ f', Map.find t.ms.flights id = some f' ∧ f' = { f with win := f'.win }) ∧
      c.goesTo { s with exe := { s.exe with
        teams := t.exe.teams, cores := (if gal then s else s.modCore c.k (fun k => { k with l1 := [] })).exe.cores }
                        ms := t.ms } t (c.afterGroup c.after)) ∧
  (∀ (o : Op) (x : Ops) (s : State) (c : Ctx) (i : Nat), o = .flush ∨ o = .inval → Runs o x s c → c.act.lowest = some i →
    lwAny (if x.mf 3 1 == 1 then c.opA .n32 i else c.opA .n64 i) = false → (c.opB .n32 i).pLo = false →
    lwLo (c.opB .n32 i) = 0 → ∃ t, exec (o.instr x) s = .next t ∧ c.goesOn s t) ∧
  (∀ (x : Ops) (s s1 : State) (c : Ctx) (xs : List (Nat × Xl)), Runs .pref x s c → (∀ r ∈ accesses c false, r.aPsn = false) →
    let rs := (accesses c false).filter (fun r => !ptrBad r.a.toNat c.user)
    c.resolve (s.begun c.g) (rs.map (fun r => vaUnit r.a.toNat)) = (xs, none, s1) →
    let sends : List Flight := rs.filterMap (fun r =>
      match c.lookup s1 xs r.a.toNat .read with
      | .ok l pa =>
        if l.mem = 0 then some
          { g := c.g, seq := 2 ^ 64, core := c.k, kind := .load, size := 1, noAlloc := x.mf 0 2 == 1, user := c.user, ctx := c.ctx
            lanes := [{ lane := r.lane, va := r.a.toNat, left := [pa / 128], mem := 0, lease := l.lease
                        segs := [{ pa := pa, len := 1, ofs := 0, cls := l.cls, owner := l.owner }] }] }
        else none
      | _ => none)
    ∃ t, exec (.pref x) s = .next t ∧
      c.goesTo (sends.foldl (fun s f => (s.addFlight f).2) s1) t (c.afterGroup c.after))

namespace Sys2Proof.Claims

/-! ### Copies, batches and barriers -/

/-- Steps 4 to 7 of R321 let a copy into its engine, from the state `s1` that translating its first byte leaves. -/
def CopyPasses (c : Ctx) (s s1 : State) (cp : Copy) : Prop :=
  cp.total ≠ 0 ∧ cp.galOut (16 * s.bbarsOf c.T) (s.galSizeOf c.T) = none ∧ cp.globalOut = none ∧ s.copiesOn c.k < 64 ∧
  match cp.first with
  | none => s1 = s.begun c.g
  | some va => ∃ xs, c.resolve (s.begun c.g) [vaUnit va] = (xs, none, s1) ∧
      let r := c.lookup s1 xs va (if cp.out then .write else .read)
      (∀ cause, r ≠ .fatal cause) ∧ ∀ l pa, r = .ok l pa → l.mem ≠ 2

/-- The state with one more copy in its engine. -/
def withCopy (s : State) (cp : Copy) : State :=
  { s with eng := { s.eng with copies := Map.insert s.eng.copies s.eng.next cp, next := s.eng.next + 1 } }

/-- A barrier that a copy or an operation names is one of the team's (R316). -/
def barOk (c : Ctx) (s : State) (b : Option Nat) : Prop := ∀ n, b = some n → n < s.bbarsOf c.T

/-- The copy that CPY and CPYS issue (R318): a row of SC bytes, or the shape in the seven registers from SC. -/
def rowsCopy (o : Op) (c : Ctx) (i : Nat) : Copy :=
  let shape : Bool := c.x.mf 0 1 == 1
  let w (k : Nat) : Word := (c.word (cReg c.x + k) i).val
  let len := (lwLo (c.opC .n32 i)).toNat
  { g := c.g, team := c.G.team, core := c.k, seq := c.G.seq, cls := if o = .cpys then 1 else 0
    batch := (c.G.bat (if o = .cpys then 1 else 0)).opened, bb := copyBar c.x, gal := (lwLo (c.opA .n32 i)).toNat
    kind :=
      if shape then .rows (o = .cpys) (c.opB .n64 i).val.toNat (w 0).toNat (w 1).toNat (w 2).toNat (w 3).toInt (w 4).toInt
        (w 5).toNat (w 6).toNat
      else .rows (o = .cpys) (c.opB .n64 i).val.toNat len 1 1 0 0 0 0
    total := if shape then (w 0).toNat * (w 1).toNat * (w 2).toNat else len
    done := 0, suspended := none, user := c.user, ctx := c.ctx }

/-- The copy that CPYL issues from the layout record `r` in the galley (R319, R320). -/
def layoutCopy (c : Ctx) (i r : Nat) : Copy :=
  let tap := lwLo (c.opC .b32 i)
  { g := c.g, team := c.G.team, core := c.k, seq := c.G.seq, cls := 0, batch := (c.G.bat 0).opened, bb := copyBar c.x
    gal := (lwLo (c.opA .n32 i)).toNat
    kind := .layout (fld r 0 64) (fld r 64 16) (fld r 80 16) (BitVec.ofNat 16 (fld r 96 16)).toInt
      (BitVec.ofNat 16 (fld r 112 16)).toInt (fld r 128 16) (fld r 144 16) (fld r 160 8) (fld r 168 8) (fld r 176 16)
      (fld r 192 16) (fld r 208 8) (fld r 224 32) ((tap.truncate 16 : BitVec 16).toInt)
      (((tap >>> 16).truncate 16 : BitVec 16).toInt)
    total := fld r 128 16 * fld r 144 16 * fld r 176 16, done := 0, suspended := none, user := c.user, ctx := c.ctx }

/-- A phase is over when every arrival and every expected byte has been counted (R325). -/
def phaseOver (b : ByteBar) : Prop := 1 ≤ b.expa ∧ b.expa ≤ b.arra ∧ b.expb ≤ b.arrb

/-- A barrier after the test that follows each update (R325). -/
def tested (b : ByteBar) (t : ByteBar) : Prop :=
  (phaseOver b → t = { b with ph := !b.ph, plast := b.psn || decide (b.expb < b.arrb), psn := false, arra := 0, arrb := 0, expb := 0 }) ∧
  (¬ phaseOver b → t = b)

/-- The state in which a team's barrier `n` is `b`. -/
def withBar (s : State) (t n : Nat) (b : ByteBar) : State :=
  s.modTm t (fun T => { T with bbars := Map.put T.bbars n b {} })

/-- A barrier that bytes are expected of (R325, R326): a count past 2^32 − 1 stays there and poisons the phase. -/
def expecting (b : ByteBar) (v : Nat) : ByteBar :=
  { b with expb := min (b.expb + v) (2 ^ 32 - 1), psn := b.psn || decide (2 ^ 32 ≤ b.expb + v) }

/-- A barrier that one more group has arrived at. -/
def arrivedAt (b : ByteBar) : ByteBar :=
  { b with arra := min (b.arra + 1) 65535, psn := b.psn || decide (65536 ≤ b.arra + 1) }

/-- A class of batches after SEAL names it, or not (R329). -/
def sealedIf (c : Ctx) (k : Nat) : Batches :=
  let b := c.G.bat k
  if c.x.m.getLsbD k then { opened := b.opened + 1, openOps := 0, sealedOps := b.sealedOps ++ [(b.opened, b.openOps)] } else b

/-- The operands of a barrier instruction: the lowest active lane gives a clean barrier number of the team and a clean
second word (R317, R326). -/
def namesBar (c : Ctx) (s : State) (n v : Nat) : Prop :=
  ∃ i, c.act.lowest = some i ∧ (c.opA .n32 i).pLo = false ∧ (c.opB .n32 i).pLo = false ∧
    (lwLo (c.opA .n32 i)).toNat = n ∧ (lwLo (c.opB .n32 i)).toNat = v ∧ n < s.bbarsOf c.T

end Sys2Proof.Claims

/-- R312, R316, R317, R318, R319, R320, R321, R323: CPY, CPYS, CPYL and CPYG, where nothing of R118 stops them, go on behind
themselves with `active` empty. With clean and legal operands an empty copy, where its engine has a place, takes a number and
leaves its batch as it was; another whose bounds, first page and engine let it in stands in the engine with its extent and
joins the open batch of its class, CPYS that of class 1; CPYL reads a record that no held store is bound for. CPYG, its
accesses passing the checks without a fault, claims a row of registers for every executing lane as a load of 4 N bytes.
Registers, memory and the rest are as before. -/
def Obligations.CopiesComplete : Prop :=
  (∀ (o : Op) (x : Ops) (s : State) (c : Ctx), o ∈ [Op.cpy, .cpys, .cpyl, .cpyg] → Runs o x s c → c.act = 0 →
    ∃ t, exec (o.instr x) s = .next t ∧ c.goesOn s t) ∧
  (∀ (o : Op) (x : Ops) (s : State) (c : Ctx) (i : Nat), o = .cpy ∨ o = .cpys → Runs o x s c → c.act.lowest = some i →
    (c.opA .n32 i).pLo = false → lwAny (c.opB .n64 i) = false →
    (x.mf 0 1 = 1 → ∀ k, k < 7 → (c.word (cReg x + k) i).psn = false) → (x.mf 0 1 ≠ 1 → (c.opC .n32 i).pLo = false) →
    barOk c s (copyBar x) →
    let cp := rowsCopy o c i
    (cp.total = 0 → s.copiesOn c.k < 64 → Map.has s.eng.copies s.eng.next = false →
      ∃ t, exec (o.instr x) s = .next t ∧
        c.goesTo { s with eng := { s.eng with next := s.eng.next + 1 } } t (c.afterGroup c.after)) ∧
    (∀ s1, CopyPasses c s s1 cp →
      ∃ t, exec (o.instr x) s = .next t ∧ c.goesTo (withCopy s1 cp) t ((c.afterGroup c.after).joinBatch cp.cls).2)) ∧
  (∀ (x : Ops) (s : State) (c : Ctx) (i ro : Nat), Runs .cpyl x s c → c.act.lowest = some i →
    (c.opA .n32 i).pLo = false → (c.opB .n32 i).pLo = false → (c.opC .b32 i).pLo = false →
    (lwLo (c.opB .n32 i)).toNat = ro → ro % 32 = 0 → 16 * s.bbarsOf c.T ≤ ro → ro + 32 ≤ s.galSizeOf c.T →
    c.T.gmarked ro 32 = false → s.heldBehind c.g c.ctx 32 [{ lane := i, a := (ro : Int) }] = none → barOk c s (copyBar x) →
    let r := leNat (c.T.gbs ro 32)
    (fld r 64 16 ≠ 0 ∧ fld r 80 16 ≠ 0 ∧ fld r 128 16 ≠ 0 ∧ fld r 144 16 ≠ 0 ∧ fld r 160 8 ≠ 0 ∧ fld r 168 8 ≠ 0 ∧
      fld r 176 16 ≠ 0 ∧ fld r 216 8 = 0) →
    ∀ s1, CopyPasses c s s1 (layoutCopy c i r) →
      ∃ t, exec (.cpyl x) s = .next t ∧ c.goesTo (withCopy s1 (layoutCopy c i r)) t ((c.afterGroup c.after).joinBatch 0).2) ∧
  (∀ (x : Ops) (s s1 : State) (c : Ctx) (ls : List Lane1) (tk : Option Nat), Runs .cpyg x s c → c.act ≠ 0 → x.mf 5 1 ≠ 1 →
    (∀ r ∈ accesses c false, r.aPsn = false) →
    let n := x.mf 0 5 + 1
    c.globalReq (s.begun c.g) (4 * n) 4 .read true false (accesses c false) = .go ls s1 → (∀ l ∈ ls, l.2 = none) →
    c.loadTicket = some tk →
    let f : Flight :=
      { g := c.g, seq := c.G.seq, core := c.k, kind := .load, size := 4 * n, op := 1, scope := 0, ticket := tk
        lanes := (c.readLanes s1 (4 * n) false ls).map (fun l => l.1), user := c.user, ctx := c.ctx }
    ∃ t H, exec (.cpyg x) s = .next t ∧ t.grp c.g = some H ∧ ClaimGroup c tk (c.places n) 0 H ∧
      Elsewhere c (withRequest s1 f) t) ∧
  (∀ (x : Ops) (s s1 : State) (c : Ctx) (gs : List Gal1) (tk : Option Nat), Runs .cpyg x s c → c.act ≠ 0 → x.mf 5 1 = 1 →
    (∀ r ∈ accesses c true, r.aPsn = false) →
    let n := x.mf 0 5 + 1
    c.galleyReq (s.begun c.g) (4 * n) false false (accesses c true) = .go gs s1 →
    s1.heldBehind c.g c.ctx (4 * n) (gs.map (fun g => g.r)) = none → c.loadTicket = some tk →
    let f : Flight :=
      { g := c.g, seq := c.G.seq, core := c.k, kind := .load, size := 4 * n, op := 1, scope := 0, ticket := tk
        lanes := gs.map (c.galLane (4 * n)), user := c.user, ctx := c.ctx }
    ∃ t H, exec (.cpyg x) s = .next t ∧ t.grp c.g = some H ∧ ClaimGroup c tk (c.places n) 0 H ∧
      Elsewhere c (withFills c s1 gs f) t)

/-- R325, R326, R327, R328, R329, R330: BBINIT, BBEXP, BBARR, BBWAIT, SEAL and WAITB, where nothing of R118 stops them, go on
behind themselves with `active` empty. Else, with clean and legal operands: BBINIT and BBEXP set up the barrier's counts, and
BBARR, its release done, also arrives and returns the phase it arrived in, each followed by the test of the phase; BBWAIT
goes on once the phase is over, and returns whether it was poisoned; SEAL seals the open batch of each class that it names;
WAITB goes on once few enough sealed batches are left. BATCH_COMPLETE takes away the oldest sealed batch of a class once its
operations have been performed. Nothing else changes. -/
def Obligations.BarriersAndBatchesComplete : Prop :=
  (∀ (o : Op) (x : Ops) (s : State) (c : Ctx), o ∈ [Op.bbinit, .bbexp, .bbarr, .bbwait, .seal, .waitb] → Runs o x s c →
    c.act = 0 → ∃ t, exec (o.instr x) s = .next t ∧ c.goesOn s t) ∧
  (∀ (x : Ops) (s : State) (c : Ctx) (n v : Nat), Runs .bbinit x s c → namesBar c s n v → 1 ≤ v → v ≤ 65535 →
    ∃ t b, exec (.bbinit x) s = .next t ∧
      tested { c.T.bb n with expa := v, expb := 0, arrb := 0, arra := 0, psn := false, plast := false } b ∧
      c.goesTo (withBar s c.G.team n b) t (c.afterGroup c.after)) ∧
  (∀ (x : Ops) (s : State) (c : Ctx) (n v : Nat), Runs .bbexp x s c → namesBar c s n v →
    ∃ t b, exec (.bbexp x) s = .next t ∧ tested (expecting (c.T.bb n) v) b ∧
      c.goesTo (withBar s c.G.team n b) t (c.afterGroup c.after)) ∧
  (∀ (x : Ops) (s : State) (c : Ctx) (n v : Nat), Runs .bbarr x s c → namesBar c s n v → c.sp.relDone = true →
    ∃ t b, exec (.bbarr x) s = .next t ∧ tested (arrivedAt (expecting (c.T.bb n) v)) b ∧
      c.laneDone (withBar s c.G.team n b) t false false (fun _ => { val := if (c.T.bb n).ph then 1 else 0 }) (fun _ => 0)) ∧
  (∀ (x : Ops) (s : State) (c : Ctx) (n v : Nat), Runs .bbwait x s c → namesBar c s n v →
    ((c.T.bb n).ph ≠ decide (v % 2 = 1) ∨ c.sp.arrived ≠ 0) →
    ∃ t, exec (.bbwait x) s = .next t ∧
      c.laneDone s t false false (fun _ => { val := if (c.T.bb n).plast then 0xFFFFFFFF else 0 }) (fun _ => 0)) ∧
  (∀ (x : Ops) (s : State) (c : Ctx), Runs .seal x s c → c.act ≠ 0 → c.sp.arrived = 0 →
    (∀ k, k < 4 → x.m.getLsbD k = true → (c.G.bat k).sealedOps.length < 63) →
    ∃ t, exec (.seal x) s = .next t ∧ c.goesTo s t { c.afterGroup c.after with
      bat0 := sealedIf c 0, bat1 := sealedIf c 1, bat2 := sealedIf c 2, bat3 := sealedIf c 3 }) ∧
  (∀ (x : Ops) (s : State) (c : Ctx) (i : Nat), Runs .waitb x s c → c.act.lowest = some i →
    let n := if (c.opA .n32 i).pLo then 0 else min (lwLo (c.opA .n32 i)).toNat 63
    (c.G.bat (x.mf 0 2)).sealedOps.length ≤ n → ∃ t, exec (.waitb x) s = .next t ∧ c.goesOn s t) ∧
  (∀ (s : State) (g cls n : Nat) (G : Group) (rest : List (Nat × Nat)), s.grp g = some G →
    (G.bat cls).sealedOps = (n, 0) :: rest →
    ∃ t, exec (.batchComplete g cls) s = .next t ∧
      (s.setGrp g (G.setBat cls { G.bat cls with sealedOps := rest })).becomes t)

namespace Sys2Proof.Claims

/-! ### The Platen -/

/-- The state in which the Platen's queue holds one more operation. -/
def withPop (s : State) (p : POp) : State :=
  { s with eng := { s.eng with pops := Map.insert s.eng.pops s.eng.next p, next := s.eng.next + 1 } }

/-- An operation of the Platen for the executing rows. -/
def platenOp (c : Ctx) (k : PKind) : POp :=
  { g := c.g, team := c.G.team, core := c.k, tile := c.x.mf 0 3, rows := c.ex, seq := c.G.seq, kind := k }

/-- A range of galley bytes lies within the part of the galley that a team may name (R290). -/
def inGalley (c : Ctx) (s : State) (a n : Nat) : Prop := 16 * s.bbarsOf c.T ≤ a ∧ a + n ≤ s.galSizeOf c.T

/-- Bytes of a row in a drain to the galley (R351, R353). -/
def rowBytes (mx : Option Ty) : Nat := match mx with | some t => 8 * denseBits t | none => 256

/-- A drain to the galley, from the lowest active lane's operands (R350-R353). -/
def galleyDrain (c : Ctx) (mx : Option Ty) (i : Nat) : Drain :=
  { mx := mx, z := c.x.mf 4 1 = 1, ticket := none, g := (lwLo (c.opA .n32 i)).toNat, sg := (lwLo (c.opC .n32 i)).toNat
    rs := if c.x.b = Opd.zero then rowBytes mx else (lwLo (c.opB .n32 i)).toNat, bb := if c.x.mf 5 1 = 1 then some (c.x.d.toNat % 64) else none
    batch := (c.G.bat 0).opened, buf := none, unit := 0, secs := [] }

/-- A drain to registers under a ticket (R350, R353). -/
def registerDrain (c : Ctx) (mx : Option Ty) (tk : Nat) : Drain :=
  { mx := mx, z := c.x.mf 4 1 = 1, ticket := some tk, g := 0, sg := 0, rs := 0, bb := none, batch := 0, buf := none, unit := 0
    secs := [] }

/-- The registers of a drain to registers: 64, or those of the elements and the scale register (R350, R353). -/
def drainPlaces (c : Ctx) (mx : Option Ty) : List (Option Nat) :=
  match mx with
  | none => c.places 64
  | some t => c.places (drainRegs true t) ++ [if aReg c.x = 0 then none else some (aReg c.x)]

/-- What MSTAT returns (R354). -/
def statOf (c : Ctx) (q : List Nat) (t : Tile) (sel : Nat) : Nat :=
  match sel with
  | 0 => (if q.isEmpty then 0 else 1) + (if t.poison = 0 then 0 else 2) + (if c.G.alatch.isSome then 4 else 0) + 256 * q.length
  | 1 => (t.poison.word 0).toNat
  | 2 => (t.poison.word 1).toNat
  | 3 => (t.poison.word 2).toNat
  | 4 => t.satc
  | 5 => t.nanb
  | 6 => t.ufc
  | _ => t.kdone

end Sys2Proof.Claims

/-- R334, R335, R340, R341, R343, R349, R350, R351, R353, R354: MLOOP, MZERO, MDRAIN, MDRAINMX and MSTAT, where nothing of R118
stops them, go on behind themselves with `active` empty. Else, with clean and legal operands and room in the Platen, MLOOP,
MZERO and the drains stand in its queue for the executing rows: MLOOP holds the registers that it will read, unless A comes
from the latch, and with `.reuse` begins the latch; a drain to registers claims them, and a drain to the galley joins the
open batch of class 0. MSTAT returns the state of a tile, a counter or poison word once the operations that were queued when it
issued are done, and clears a counter where asked.
Registers, memory and the rest are as before. -/
def Obligations.PlatenInstructionsComplete : Prop :=
  (∀ (o : Op) (x : Ops) (s : State) (c : Ctx), o ∈ [Op.mloop, .mzero, .mdrain, .mdrainmx, .mstat] → Runs o x s c →
    c.act = 0 → ∃ t, exec (o.instr x) s = .next t ∧ c.goesOn s t) ∧
  (∀ (x : Ops) (s : State) (c : Ctx) (i : Nat), Runs .mloop x s c → c.act.lowest = some i → (c.opA .n32 i).pLo = false →
    (x.c ≠ Opd.zero → (c.opC .n32 i).pLo = false) →
    let m := c.mloopOf i
    (∀ g, m.gate = some g → g.1 < s.bbarsOf c.T) →
    (∀ k, k < m.ks → inGalley c s (m.b0 + m.binc * k) (64 * blockBytes m.tb)) →
    (∀ b, m.bs = some b → inGalley c s b (64 * m.ks)) →
    (∀ L, c.G.alatch = some L → L.t = m.ta ∧ L.ks = m.ks) → s.popsOn c.k < 16 →
    ∃ t hs, exec (.mloop x) s = .next t ∧
      (∀ r, Map.getD hs r 0 =
        Map.getD c.G.holds r 0 + (if c.G.alatch.isNone ∧ r ∈ m.regsFrom 0 then 1 else 0)) ∧
      c.goesTo (withPop s (platenOp c (.mloop m))) t
        { c.afterGroup c.after with
            holds := hs
            alatch := if c.G.alatch.isNone && m.reuse then
                some { t := m.ta, ks := m.ks, rows := 0, words := [], scales := [], scaled := m.sb != 0, poisoned := false, full := false, ended := false }
              else c.G.alatch }) ∧
  (∀ (x : Ops) (s : State) (c : Ctx), Runs .mzero x s c → c.act ≠ 0 → s.popsOn c.k < 16 →
    ∃ t, exec (.mzero x) s = .next t ∧ c.goesTo (withPop s (platenOp c .mzero)) t (c.afterGroup c.after)) ∧
  (∀ (o : Op) (x : Ops) (s : State) (c : Ctx) (mx : Option Ty),
    (o = .mdrain ∧ mx = none) ∨ (o = .mdrainmx ∧ mx = some x.t) → Runs o x s c → c.act ≠ 0 → s.popsOn c.k < 16 →
    (∀ tk, x.mf 3 1 = 0 → c.G.freeTicket = some tk →
      ∃ t H, exec (o.instr x) s = .next t ∧ t.grp c.g = some H ∧ ClaimGroup c (some tk) (drainPlaces c mx) 0 H ∧
        Elsewhere c (withPop s (platenOp c (.drain (registerDrain c mx tk)))) t) ∧
    (∀ i, x.mf 3 1 = 1 → c.act.lowest = some i → (c.opA .n32 i).pLo = false → (c.opB .n32 i).pLo = false →
      (mx ≠ none → (c.opC .n32 i).pLo = false) →
      let d := galleyDrain c mx i
      barOk c s d.bb →
      (∀ j, c.ex.has j = true → inGalley c s (d.g + d.rs * j) (rowBytes mx) ∧ (mx ≠ none → inGalley c s (d.sg + 2 * j) 2)) →
      ∃ t, exec (o.instr x) s = .next t ∧ c.goesTo (withPop s (platenOp c (.drain d))) t ((c.afterGroup c.after).joinBatch 0).2)) ∧
  (∀ (x : Ops) (s : State) (c : Ctx), Runs .mstat x s c → c.act ≠ 0 →
    let n := x.mf 0 3
    let sel := x.mf 3 3
    let q := s.tileQueue c.G.team n
    (sel ≠ 0 → q = [] ∨ c.sp.arrived ≠ 0) →
    let cleared : State :=
      if x.mf 6 1 = 1 then s.modTm c.G.team (fun T => T.setTile n
        (match sel with
          | 4 => { T.tile n with satc := 0 } | 5 => { T.tile n with nanb := 0 } | 6 => { T.tile n with ufc := 0 }
          | _ => { T.tile n with kdone := 0 }))
      else s
    ∃ t, exec (.mstat x) s = .next t ∧
      c.laneDone cleared t false false (fun _ => { val := BitVec.ofNat 64 (statOf c q (c.T.tile n) sel) }) (fun _ => 0))

namespace Sys2Proof.Claims

/-! ### Fences, team barriers, Seam, code -/

/-- A team barrier that one more group has arrived at, before its test: the first arrival fixes the target (R392). -/
def barArrival (b : TeamBar) (count groups : Nat) : TeamBar :=
  { b with arr := b.arr + 1, tgt := if b.arr = 0 then (if count = 0 then 0 else min count groups) else b.tgt }

/-- The groups of a team that are live. -/
def liveOf (s : State) (T : Team) : Nat :=
  (T.groups.filter (fun g => ((s.grp g).map (fun G => !G.valid.isEmpty)).getD false)).length

/-- A team barrier's phase is over (R392): as many groups as its target, or all live ones, have arrived. -/
def barOver (s : State) (T : Team) (b : TeamBar) : Bool := decide ((if b.tgt = 0 then liveOf s T else b.tgt) ≤ b.arr)

/-- A route of the team, and room in the core's Seam engine (R383, R393). -/
def seamReady (c : Ctx) (s : State) : Prop := Map.has c.T.routes (c.x.mf 0 4) = true ∧ s.seamLoad c.k < 16

/-- The state with one more message on its way, whose sending is an operation of batch `b` of class 2 (R395, R400). -/
def withMsg (c : Ctx) (s : State) (b : Nat) (body : SeamWords) : State :=
  { s with eng := { s.eng with
      next := s.eng.next + 1
      smsgs := Map.insert s.eng.smsgs s.eng.next
        { g := c.g, team := c.G.team, route := c.x.mf 0 4
          dest := ((Map.getD c.T.routes (c.x.mf 0 4) []).getLast?).bind (s.teamAt c.T.launch)
          port := c.x.mf 4 4, seq := s.eng.next, batch := some b, body := body } } }

/-- The state with one more operation that waits for the next message of the port in SB. -/
def withSeamOp (c : Ctx) (s : State) (batch : Option Nat) (k : SKind) : State :=
  { s with eng := { s.eng with
      next := s.eng.next + 1
      sops := Map.insert s.eng.sops s.eng.next
        { g := c.g, team := c.G.team, port := portOf c.x, seq := s.eng.next, batch := batch, kind := k } } }

/-- The windows that a code instruction lists (R152): from the window of SA, or of PC + IMM32, as many as SB says, at most
`cap`. -/
def lists (c : Ctx) (cap : Nat) (ws : List Nat) (n : Nat) : Prop :=
  ∃ j, c.act.lowest = some j ∧ (c.x.a ≠ Opd.zero → lwAny (c.opA .n64 j) = false) ∧ (c.opB10 .n32 j).pLo = false ∧
    n = (lwLo (c.opB10 .n32 j)).toNat ∧
    let base : DWord := if c.x.a = Opd.zero then c.sp.pc + c.x.imm.signExtend 64 else (c.opA .n64 j).val
    ws = (List.range (min n cap)).map (fun i => (windowOf base.toNat + 32 * i) % 2 ^ 64)

/-- Every window of a list may be named with the first (R152). -/
def listOk (ws : List Nat) : Prop := ∀ w ∈ ws, canonical w = true ∧ handlerHalf w = handlerHalf (ws.headD 0)

end Sys2Proof.Claims

/-- R390, R392: FENCE and BAR, where nothing of R118 stops them, go on behind themselves with `active` empty. A FENCE that
issues begins its wait, for what its kind names at its scope: it stands at its PC, and later accesses of its group have later
numbers. It goes on once that wait is over, a release or full fence at wafer or system scope where no lost store is to
report. BAR, its release done, counts one arrival at its barrier and tests it; where that ends the phase, or its mode is
`.arr`, it goes on, else its split waits at the BAR for the phase; a BAR whose arrival has been counted goes on when it is
woken. In each that goes on nothing else changes. -/
def Obligations.FencesAndTeamBarriersComplete : Prop :=
  (∀ (o : Op) (x : Ops) (s : State) (c : Ctx), o = .fence ∨ o = .bar → Runs o x s c → c.act = 0 →
    ∃ t, exec (o.instr x) s = .next t ∧ c.goesOn s t) ∧
  (∀ (x : Ops) (s : State) (c : Ctx), Runs .fence x s c → c.act ≠ 0 → c.sp.relDone = false →
    ∃ t H, exec (.fence x) s = .next t ∧ t.grp c.g = some H ∧ (H.sp c.e).pc = c.sp.pc ∧ (H.sp c.e).v = true ∧
      (H.sp c.e).st = .waiting ∧ (H.sp c.e).wait = .fence (x.mf 0 2) c.G.seq (x.mf 2 2) ∧
      H.seq = c.G.seq + 1) ∧
  (∀ (x : Ops) (s : State) (c : Ctx), Runs .fence x s c → c.act ≠ 0 → c.sp.relDone = true →
    (x.mf 2 2 ≠ 1 → 2 ≤ x.mf 0 2 → c.G.lostst = false) → ∃ t, exec (.fence x) s = .next t ∧ c.goesOn s t) ∧
  (∀ (x : Ops) (s : State) (c : Ctx), Runs .bar x s c → c.act ≠ 0 → c.sp.arrived ≠ 0 →
    ∃ t, exec (.bar x) s = .next t ∧ c.goesOn s t) ∧
  (∀ (x : Ops) (s : State) (c : Ctx) (i : Nat), Runs .bar x s c → c.act.lowest = some i → c.sp.arrived = 0 →
    c.sp.relDone = true → (c.opA .n32 i).pLo = false →
    let n := x.mf 0 3
    let b := barArrival (c.T.tb n) (lwLo (c.opA .n32 i)).toNat c.T.groups.length
    let ends := barOver (s.begun c.g) c.T b
    let b' : TeamBar := if ends then { b with arr := 0, ph := !b.ph } else b
    ∃ t T, exec (.bar x) s = .next t ∧ t.tm c.G.team = some T ∧ T = { c.T with tbars := T.tbars } ∧
      (∀ m, T.tb m = if m = n then b' else c.T.tb m) ∧ (∀ m, m ≠ c.G.team → t.tm m = s.tm m) ∧
      (ends = true ∨ x.mf 3 2 = 1 →
        c.goesTo { s with exe := { s.exe with teams := t.exe.teams } } t (c.afterGroup c.after)) ∧
      (ends = false → x.mf 3 2 ≠ 1 → ∃ H, t.grp c.g = some H ∧ (H.sp c.e).pc = c.sp.pc ∧ (H.sp c.e).st = .waiting ∧
        (H.sp c.e).wait = .teamBar n b.ph))

/-- R393, R394, R395, R396, R397, R398, R399: SEAMSEND, SEAMRED, SEAMBC and SEAMRECV, where nothing of R118 stops them, go on
behind themselves with `active` empty. Else, on a route of the team, with room in the engine and in a launch that has lost
no team, SEAMSEND, once its release (where it asks for one) is done with no lost store to report, sends the words captured
from vs when it issued; SEAMRED and SEAMBC wait in the engine for the next message of their port, and SEAMRECV also, with its
registers claimed. Those that send join the open batch of class 2, SEAMSEND when it issued (SEAMSEND does so in a launch that
has lost a team too). Registers, memory and the rest are as before. -/
def Obligations.SeamInstructionsComplete : Prop :=
  (∀ (o : Op) (x : Ops) (s : State) (c : Ctx), o ∈ [Op.seamsend, .seamred, .seambc, .seamrecv] → Runs o x s c →
    c.act = 0 → ∃ t, exec (o.instr x) s = .next t ∧ c.goesOn s t) ∧
  (∀ (x : Ops) (s : State) (c : Ctx), Runs .seamsend x s c → c.act ≠ 0 → seamReady c s →
    (x.d.getLsbD 4 = true → c.sp.relDone = true ∧ c.G.lostst = false) →
    ∃ t, exec (.seamsend x) s = .next t ∧
      c.goesTo (withMsg c s (c.sp.joined.getD (c.G.bat 2).opened) (c.sp.msg.getD (c.capture (x.d.toNat % 16 + 1)))) t
        (if c.sp.joined = none then ((c.afterGroup c.after).joinBatch 2).2 else c.afterGroup c.after)) ∧
  (∀ (o : Op) (x : Ops) (s : State) (c : Ctx) (k : SKind), Runs o x s c → c.act ≠ 0 → seamReady c s →
    s.launchLost c.T = false →
    ((o = .seamred ∧ k = .sred x.t (x.d.toNat / 32 % 4) (c.capture (x.d.toNat % 16 + 1)) (x.mf 0 4) (x.mf 4 4)) ∨
      (o = .seambc ∧ k = .sbc (x.d.getLsbD 4) (x.d.toNat % 16 + 1) (x.mf 0 4) (x.mf 4 4))) →
    ∃ t, exec (o.instr x) s = .next t ∧
      c.goesTo (withSeamOp c s (some (c.G.bat 2).opened) k) t ((c.afterGroup c.after).joinBatch 2).2) ∧
  (∀ (x : Ops) (s : State) (c : Ctx) (tk : Nat), Runs .seamrecv x s c → c.act ≠ 0 → s.seamLoad c.k < 16 →
    c.G.freeTicket = some tk → s.launchLost c.T = false →
    let n := x.mf 0 4 + 1
    ∃ t H, exec (.seamrecv x) s = .next t ∧ t.grp c.g = some H ∧ ClaimGroup c (some tk) (c.places n) 0 H ∧
      Elsewhere c (withSeamOp c s none (.recv (some tk) n (x.mf 4 1 = 1) c.G.seq)) t)

/-- R152, R153, R154, R155, R156: IPREF, IPIN, IUNPIN and ICINV, where nothing of R118 stops them, go on behind themselves with
`active` empty. Else, with clean operands: IPREF, where no window must wait for a walk, fetches each window of its list that
may be named with the first (see `prefAll`), and a single one that translates is then pinned or in the core's instruction
cache; IPIN, where no window faults or waits, pins the windows of its list in turn while its domain has room (see `pinAll`)
and returns how many of them are pinned; IUNPIN removes their pins and
returns how many there were; after ICINV no instruction cache and no fetch buffer of its scope holds a window that it covers,
and the pins that it covers have been refetched (see `icinv`). Nothing else changes. -/
def Obligations.CodeInstructionsComplete : Prop :=
  (∀ (o : Op) (x : Ops) (s : State) (c : Ctx), o ∈ [Op.ipref, .ipin, .iunpin, .icinv] → Runs o x s c → c.act = 0 →
    ∃ t, exec (o.instr x) s = .next t ∧ c.goesOn s t) ∧
  (∀ (x : Ops) (s : State) (c : Ctx) (ws : List Nat) (n : Nat), Runs .ipref x s c → lists c 256 ws n →
    ∀ s', c.prefAll (ws.filter (fun w => canonical w && handlerHalf w == handlerHalf (ws.headD 0))) (s.begun c.g) = (none, s') →
    ∃ t, exec (.ipref x) s = .next t ∧ c.goesTo s' t (c.afterGroup c.after) ∧
      s' = { s.begun c.g with tr := s'.tr, exe := { (s.begun c.g).exe with cores := s'.exe.cores } } ∧
      (∀ k, s'.coreAt k = if k = c.k then { s.coreAt k with icache := (s'.coreAt k).icache } else s.coreAt k) ∧
      (∀ w l pa s1, ws = [w] → canonical w = true →
        issueXl (s.begun c.g) c.k c.ctx c.sp w .fetch c.user = (.done (.ok l pa), s1) →
        winFind (t.coreAt c.k).icache c.ctx w ≠ none ∨ t.pinned (c.k / 72) c.ctx w = true)) ∧
  (∀ (x : Ops) (s s1 : State) (c : Ctx) (ws : List Nat) (n : Nat), Runs .ipin x s c → lists c 1024 ws n → listOk ws →
    c.pinAll ws (s.begun c.g) = (.done, s1) →
    ∃ t, exec (.ipin x) s = .next t ∧
      c.laneDone s1 t false false (fun _ => { val := BitVec.ofNat 64 (ws.filter (s1.pinned (c.k / 72) c.ctx)).length })
        (fun _ => 0)) ∧
  (∀ (x : Ops) (s : State) (c : Ctx) (ws : List Nat) (n : Nat), Runs .iunpin x s c → lists c 1024 ws n → listOk ws →
    ∃ t, exec (.iunpin x) s = .next t ∧
      c.laneDone { s with tr := { s.tr with
          pins := s.tr.pins.filter (fun p => !(p.domain == c.k / 72 && p.win.ctx == c.ctx && ws.contains p.win.va)) } }
        t false false (fun _ => { val := BitVec.ofNat 64 (ws.filter (s.pinned (c.k / 72) c.ctx)).length }) (fun _ => 0)) ∧
  (∀ (x : Ops) (s : State) (c : Ctx) (ws : List Nat) (n : Nat), Runs .icinv x s c → c.act ≠ 0 →
    (x.mf 2 1 ≠ 1 → lists c 1024 ws n ∧ listOk ws) →
    let covers (va : Nat) : Bool := x.mf 2 1 == 1 || decide (1024 < n) || ws.contains va
    let inScope (k : Nat) : Prop :=
      if x.mf 0 2 = 0 then k = c.k else if x.mf 0 2 = 2 then s.inPartition c.ctx (k / 72) = true else k / 72 = c.k / 72
    ∃ t H, exec (.icinv x) s = .next t ∧ t.grp c.g = some H ∧
      (∀ k, inScope k → ∀ w ∈ (t.coreAt k).icache, w.ctx = c.ctx → covers w.va = false) ∧
      (∀ h G T, t.grp h = some G → t.tm G.team = some T → inScope T.coreKey → ∀ e, ∀ w ∈ (G.sp e).fbuf, w.ctx = c.ctx →
        covers w.va = false) ∧
      (∀ e, ({ (c.afterGroup c.after).sp e with fbuf := (H.sp e).fbuf } : Split).same (H.sp e)) ∧
      H = { c.afterGroup c.after with splits := H.splits, rq := H.rq } ∧
      Elsewhere c (c.icinv (s.begun c.g) (x.mf 0 2) covers).commit t)

namespace Sys2Proof.Claims

/-! ### Traps, handlers and system instructions -/

/-- The frame of a group's traps is mapped, `n` bytes of it from offset `o` (R411, R415). -/
def FrameMapped (c : Ctx) (s s1 : State) (o n : Nat) (acc : Acc) (segs : List Seg) : Prop :=
  ∃ mem lease, xlateRange (s.begun c.g) c.k c.ctx (s.tframe c.G c.T + o) n acc false = (.ok segs mem lease, s1)

/-- The entries of a group but `e`, as a set of bits (R413). -/
def othersHeld (G : Group) (e : Nat) : BitVec 4 :=
  (G.valid.filter (fun x => x != e)).foldl (fun m x => m ||| BitVec.twoPow 4 x) 0

/-- A group has entered level 1 for the trap `r` in entry `e` (R414, R415, R418): the trap's values stand in its system
registers, the other splits are held, and its split starts at TBASE with its lanes, without latch history or chain; the
registers of the program are as before, but for v240-v255, which the handler finds zero and FULL. -/
structure AtLevel1 (c : Ctx) (s : State) (r : TrapRec) (H : Group) : Prop where
  level : H.lvl = 1
  cause : H.tcause = BitVec.ofNat 32 r.cause
  tpc : H.tpc = r.tpc
  tva : H.tva = r.tva
  tlanes : H.tlanes = r.tlanes
  tmask : H.tmask = r.tmask
  tinst : H.tinst = r.tinst
  held : H.held = othersHeld c.G c.e
  split : ({ c.sp with
    pc := (s.trapBlk c.ctx).tbase, rpc := 0, chain := 0, lval := 0, latch := [], sig := 0xFFFF, xlat := [], relDone := false
    msg := none, fbuf := [], exempt := false, inst := none } : Split).same (H.sp c.e)
  others : ∀ e, e ≠ c.e → (c.G.sp e).same (H.sp e)
  low : ∀ r j, 4 ≤ r → r < 240 → j < 96 → H.reg r j = c.G.reg r j ∧ H.pendOf r = c.G.pendOf r
  high : ∀ r j, 240 ≤ r → r < 256 → j < 96 → H.reg r j = {} ∧ H.pendOf r = none
  slots : c.G.regs8 = 32 → ∀ m, m < 16 → Map.find H.slots m = c.G.pendOf (240 + m)
  rest : H.dead = c.G.dead ∧ H.exited = c.G.exited ∧ H.fflags = c.G.fflags ∧ H.frozen = c.G.frozen ∧ H.team = c.G.team ∧
    H.req = c.G.req ∧ H.seq = c.G.seq

/-- Neither the level nor a lack of handler banks stops an entry to level 1 (R418, R420). -/
def canEnter (c : Ctx) (s : State) : Prop :=
  c.G.lvl = 0 ∧ c.G.bank = false ∧ (c.G.regs8 = 32 ∨ s.banksUsed c.k c.G.slice < 2)

/-- The value of a system register at handler level (R412). -/
def systemRegister (c : Ctx) (s : State) (n : Nat) : DWord :=
  let G := c.G
  let B := s.trapBlk c.ctx
  if n = 0 then
    (BitVec.ofNat 32 (G.lvl + (if G.duplex then 4 else 0) + (if G.bank then 8 else 0) + 16 * G.held.toNat +
      (if G.frozen then 256 else 0))).zeroExtend 64
  else if n = 1 then B.tbase
  else if n = 2 then BitVec.ofNat 64 (B.fbase.toNat + 10240 * (48 * c.k + 8 * G.slice + G.slot))
  else if n = 3 then G.tpc
  else if n = 4 then G.tcause.zeroExtend 64
  else if 5 ≤ n ∧ n ≤ 8 then (G.tinst >>> (32 * (n - 5))).truncate 32 |>.zeroExtend 64
  else if n = 9 then G.tva
  else if 10 ≤ n ∧ n ≤ 12 then (G.tlanes >>> (32 * (n - 10))).truncate 32 |>.zeroExtend 64
  else if 13 ≤ n ∧ n ≤ 15 then (G.tmask >>> (32 * (n - 13))).truncate 32 |>.zeroExtend 64
  else if n = 16 then BitVec.ofNat 64 (c.ctx % 2 ^ 16)
  else B.fqbase.zeroExtend 64

/-- The system registers that fill a pair (R412). -/
def sysWide (n : Nat) : Bool := n = 1 || n = 2 || n = 3 || n = 9 || n = 17

/-- What RFE from level 1 takes from the frame's bytes `f` (R416, R423): RPC, CHAIN, LVAL, the signature and the
latch entries of the interrupted split, and with a budget of 256 registers the words of v240-v255. -/
structure FromFrame (c : Ctx) (f : Nat → Byte) (H : Group) : Prop where
  rpc : (H.sp c.e).rpc = BitVec.ofNat 64 (leNat ((List.range 8).map (fun i => f (0x2560 + 8 + i))))
  chain : (H.sp c.e).chain = min ((f 0x2588).toNat / 16) 9
  lval : (H.sp c.e).lval = min (f 0x2592).toNat 4
  sig : (H.sp c.e).sig = BitVec.ofNat 16 ((f 0x2590).toNat + 256 * (f 0x2591).toNat)
  latch : ∀ k j, k < 4 → j < 96 → ((H.sp c.e).latchAt k j).val =
    BitVec.ofNat 64 (leNat ((List.range 8).map (fun i => f (0x1900 + 768 * k + 8 * j + i))))
  marks : ∀ k j, k < 4 → j < 96 →
    ((H.sp c.e).latchAt k j).pLo = (f (0x2500 + 24 * k + j / 4)).getLsbD (2 * (j % 4)) ∧
    ((H.sp c.e).latchAt k j).pHi = (f (0x2500 + 24 * k + j / 4)).getLsbD (2 * (j % 4) + 1)
  slots : c.G.regs8 = 32 → ∀ m j, m < 16 → j < 96 → H.reg (240 + m) j =
    { val := BitVec.ofNat 32 (leNat ((List.range 4).map (fun i => f (384 * m + 4 * j + i))))
      psn := (f (0x1800 + 12 * m + j / 8)).getLsbD (j % 8) }

/-- The bytes that RFE reads, by their offset in the frame. -/
def frameByte (rd : List (Nat × Byte × Bool)) (o : Nat) : Byte := ((rd.find? (fun b => b.1 == o)).map (fun b => b.2.1)).getD 0

/-- The groups that FREEZE and THAW name (R427): the others of the team, or the others of the context on the core. -/
def named (c : Ctx) (s : State) (h : Nat) : Prop := h ∈ c.frozenSet s

/-- No TLB, walk cache or split in the domains of an invalidation holds a translation of its range (R145). -/
structure NoneCached (t : State) (v : Inval) : Prop where
  tlb : ∀ e ∈ t.tr.tlb, e.ctx = v.ctx → v.domains.getLsbD e.at_.domainOf = true → v.covers (vaUnit e.leaf.va) e.leaf.units = false
  walks : ∀ w ∈ t.tr.walkCache, w.ctx = v.ctx → v.domains.getLsbD w.domain = true →
    v.covers (w.va / 2 ^ levelShift w.level * 2 ^ levelShift w.level / 65536) (2 ^ (levelShift w.level - 16)) = false
  splits : ∀ h G T, t.grp h = some G → t.tm G.team = some T → t.ctxOf T = v.ctx → v.domains.getLsbD T.domain = true →
    ∀ e, ∀ x ∈ (G.sp e).xlat, v.coversKept x = false

/-- The state with the groups of `t`. -/
def withGroups (s t : State) : State := { s with exe := { s.exe with groups := t.exe.groups } }

end Sys2Proof.Claims

/-- R117, R279, R409, R412, R413, R414, R415, R418: TRAP with `active` not empty enters the handler of its context at level 1:
SW_TRAP in tcause, PC + len in tpc, `active` in tlanes, MASK in tmask, the instruction in tinst, 0 in tva. With `active` empty
it goes on. An unassigned opcode enters it with ILLEGAL_INSTR at its own PC for every lane of MASK. Each completes where the
frame is mapped and a handler bank is free (and, for TRAP, nothing of R118 stops it). -/
def Obligations.TrapsEnterTheHandler : Prop :=
  (∀ (x : Ops) (s : State) (c : Ctx), Runs .trap x s c → predAgree c → c.act = 0 →
    ∃ t, exec (.trap x) s = .next t ∧ c.goesOn s t) ∧
  (∀ (x : Ops) (s s1 : State) (c : Ctx) (segs : List Seg), Runs .trap x s c → predAgree c → c.act ≠ 0 → canEnter c s →
    FrameMapped c s s1 0 0x25A0 .write segs →
    ∃ t H, exec (.trap x) s = .next t ∧ t.grp c.g = some H ∧ t.exe.teams = s.exe.teams ∧
      AtLevel1 c s { cause := 0x0A, tpc := c.next, tva := 0, tlanes := c.act, tmask := c.sp.mask, tinst := instrWord (.trap x) } H) ∧
  (∀ (f : Fmt) (w : BitVec 128) (s s1 : State) (c : Ctx) (segs : List Seg), s.context .nop {} = some c → canEnter c s →
    FrameMapped c s s1 0 0x25A0 .write segs →
    ∃ t H, exec (.unassignedOpcode f w) s = .next t ∧ t.grp c.g = some H ∧ t.exe.teams = s.exe.teams ∧
      AtLevel1 c s { cause := 0x01, tpc := c.sp.pc, tva := 0, tlanes := c.sp.mask, tmask := c.sp.mask, tinst := w } H)

/-- R206, R422: every system instruction, RGET, RPUT and SELFTEST trap PRIVILEGED at user level, before predicate and operands,
and have no effect: the handler is entered at level 1 with every lane of MASK in tlanes. -/
def Obligations.PrivilegedInstructionsTrapAtUserLevel : Prop :=
  ∀ (o : Op) (x : Ops) (s s1 : State) (c : Ctx) (segs : List Seg),
    o ∈ [Op.rget, .rput, .rfe, .mfs, .mts, .tlbinv, .freeze, .thaw, .halt, .selftest] → s.context o x = some c →
    dynOk o x c.G (s.accOf c.T) = true → canEnter c s → FrameMapped c s s1 0 0x25A0 .write segs →
    ∃ t H, exec (o.instr x) s = .next t ∧ t.grp c.g = some H ∧
      AtLevel1 c s { cause := 0x03, tpc := c.sp.pc, tva := 0, tlanes := c.sp.mask, tmask := c.sp.mask, tinst := instrWord (o.instr x) } H

/-- R161, R416: the first bytes of a trap frame, as an entry to level 1 with a budget of 256 registers writes them: word j of
slot m at 0x180 m + 4 j, its poison bit in the 12 bytes at 0x1800 + 12 m, the latch entry k of lane j at 0x1900 + 768 k + 8 j,
PC, RPC, MEMB and MASK of the split at 0x2560, its signature at 0x2590, psw at 0x2594; 0x25A0 bytes in all. -/
def Obligations.TrapFrameLayout : Prop :=
  ∀ (G : Group) (sp : Split) (psw : Word), G.regs8 = 32 →
    let bs := frameBytes G sp psw
    bs.length = 0x25A0 ∧
    (∀ m j i, m < 16 → j < 96 → i < 4 → bs[384 * m + 4 * j + i]? = some (((G.reg (240 + m) j).val >>> (8 * i)).truncate 8)) ∧
    (∀ m j, m < 16 → j < 96 → (bs[0x1800 + 12 * m + j / 8]?).map (fun b => b.getLsbD (j % 8)) = some (G.reg (240 + m) j).psn) ∧
    (∀ k j i, k < 4 → j < 96 → i < 8 →
      bs[0x1900 + 768 * k + 8 * j + i]? = some (((sp.latchAt k j).val >>> (8 * i)).truncate 8)) ∧
    (∀ i, i < 8 → bs[0x2560 + i]? = some ((sp.pc >>> (8 * i)).truncate 8) ∧
      bs[0x2568 + i]? = some ((sp.rpc >>> (8 * i)).truncate 8)) ∧
    (∀ i, i < 12 → bs[0x2570 + i]? = some ((sp.memb >>> (8 * i)).truncate 8) ∧
      bs[0x257C + i]? = some ((sp.mask >>> (8 * i)).truncate 8)) ∧
    (∀ i, i < 2 → bs[0x2590 + i]? = some ((sp.sig >>> (8 * i)).truncate 8)) ∧
    (∀ i, i < 4 → bs[0x2594 + i]? = some ((psw >>> (8 * i)).truncate 8))

/-- R423: RFE at level 1, where nothing of R118 stops it, goes on behind itself with `active` empty. Else, where no other split
runs in the handler, no store of the group to the frame is under way, and the frame is mapped and clean, it returns to level 0:
its split goes on at tpc with the lanes of tmask that are its live members, and what the frame holds; no split is held; v4 to
v239 are as before. At level 2 it returns to level 1, with tpc, tva, tcause, tlanes and tmask from the frame. -/
def Obligations.ReturnFromTheHandler : Prop :=
  (∀ (x : Ops) (s : State) (c : Ctx), Runs .rfe x s c → c.act = 0 → ∃ t, exec (.rfe x) s = .next t ∧ c.goesOn s t) ∧
  (∀ (x : Ops) (s s1 s2 : State) (c : Ctx) (segs : List Seg) (rd : List (Nat × Byte × Bool)), Runs .rfe x s c → c.act ≠ 0 →
    c.G.lvl = 1 → c.G.otherHandlers c.e = [] →
    let o := if c.G.regs8 = 32 then 0 else 0x1900
    s.storesTo c.g c.ctx (s.tframe c.G c.T + o) (0x2598 - o) = false →
    FrameMapped c s s1 o (0x2598 - o) .read segs → s1.readNow c.k segs = (rd, s2) → (∀ b ∈ rd, b.2.2 = false) →
    ∃ t H, exec (.rfe x) s = .next t ∧ t.grp c.g = some H ∧ H.lvl = 0 ∧ H.held = 0 ∧ H.bank = false ∧
      (H.sp c.e).pc = c.G.tpc ∧ (H.sp c.e).mask = c.G.tmask &&& c.sp.memb &&& ~~~ c.G.dead ∧
      (H.sp c.e).memb = c.sp.memb &&& ~~~ c.G.dead ∧ (H.sp c.e).exempt = true ∧ (H.sp c.e).v = true ∧
      (∀ e, e ≠ c.e → (c.G.sp e).same (H.sp e)) ∧ (∀ r j, 4 ≤ r → r < 240 → j < 96 → H.reg r j = c.G.reg r j) ∧
      FromFrame c (fun n => if o ≤ n then (rd.map (fun b => b.2.1)).getD (n - o) 0 else 0) H) ∧
  (∀ (x : Ops) (s s1 s2 : State) (c : Ctx) (segs : List Seg) (rd : List (Nat × Byte × Bool)), Runs .rfe x s c → c.act ≠ 0 →
    c.G.lvl = 2 → c.G.otherHandlers c.e = [] →
    s.storesTo c.g c.ctx (s.tframe c.G c.T + 0x25A0) 128 = false → FrameMapped c s s1 0x25A0 128 .read segs →
    s1.readNow c.k segs = (rd, s2) → (∀ b ∈ rd, b.2.2 = false) →
    let n (o k : Nat) : Nat := leNat ((List.range k).map (fun i => (rd.map (fun b => b.2.1)).getD (o + i) 0))
    ∃ t H, exec (.rfe x) s = .next t ∧ t.grp c.g = some H ∧ H.lvl = 1 ∧ H.held = c.G.held1 ∧ (H.sp c.e).pc = c.G.tpc ∧
      H.tpc = BitVec.ofNat 64 (n 0 8) ∧ H.tva = BitVec.ofNat 64 (n 8 8) ∧ H.tcause = BitVec.ofNat 32 (n 0x10 4) ∧
      H.tinst = BitVec.ofNat 128 (n 0x14 16) ∧ H.tlanes = BitVec.ofNat 96 (n 0x24 12) ∧ H.tmask = BitVec.ofNat 96 (n 0x30 12) ∧
      (∀ e, e ≠ c.e → (c.G.sp e).same (H.sp e)) ∧ (∀ r j, 4 ≤ r → r < 256 → H.reg r j = c.G.reg r j))

/-- R184, R412, R424: MFS gives every executing lane the value of its system register; MTS sets tpc, with its two low bits zero,
or a word of tmask from the lowest active lane; SPL sets the group's request to at most 2, and leaves it with a poisoned
operand. Each completes where nothing of R118 stops it and, for MTS, its operand is clean; nothing else changes. -/
def Sys2Proof.Claims.SystemRegistersComplete : Prop :=
  (∀ (x : Ops) (s : State) (c : Ctx), Runs .mfs x s c →
    ∃ t, exec (.mfs x) s = .next t ∧
      c.laneDone s t (sysWide (x.mf 0 5)) false (fun _ => { val := systemRegister c s (x.mf 0 5) }) (fun _ => 0)) ∧
  (∀ (o : Op) (x : Ops) (s : State) (c : Ctx), o = .mts ∨ o = .spl → Runs o x s c → c.act = 0 →
    ∃ t, exec (o.instr x) s = .next t ∧ c.goesOn s t) ∧
  (∀ (x : Ops) (s : State) (c : Ctx) (i : Nat), Runs .mts x s c → c.act.lowest = some i → x.mf 0 5 = 3 →
    lwAny (c.opA .n64 i) = false →
    ∃ t, exec (.mts x) s = .next t ∧ c.goesTo s t { c.afterGroup c.after with tpc := (c.opA .n64 i).val &&& ~~~ 3 }) ∧
  (∀ (x : Ops) (s : State) (c : Ctx) (i : Nat), Runs .mts x s c → c.act.lowest = some i → x.mf 0 5 ≠ 3 →
    (c.opA .n32 i).pLo = false →
    ∃ t m, exec (.mts x) s = .next t ∧ c.goesTo s t { c.afterGroup c.after with tmask := m } ∧
      ∀ j, j < 96 → m.has j =
        if j / 32 = x.mf 0 5 - 13 then (lwLo (c.opA .n32 i)).getLsbD (j % 32) else c.G.tmask.has j) ∧
  (∀ (x : Ops) (s : State) (c : Ctx) (i : Nat), Runs .spl x s c → c.act.lowest = some i →
    ∃ t, exec (.spl x) s = .next t ∧ c.goesTo s t { c.afterGroup c.after with
      req := if (c.opA .n32 i).pLo then c.G.req else min (lwLo (c.opA .n32 i)).toNat 2 })

/-- R145, R425, R426, R427: TLBINV, FREEZE, THAW and HALT, where nothing of R118 stops them, go on behind themselves with
`active` empty. TLBINV begins an invalidation of its range in the domains of its partition, after which none of their
TLBs, walk caches and splits holds a translation of it; its split waits for that to complete, and then goes on. FREEZE, in a group not frozen
itself and with no latch chain under way in the groups it names, freezes them; THAW lets them go. HALT ends the team with the
cause in tcause; its groups stop, and the launch takes the cause unless it has one. -/
def Sys2Proof.Claims.SystemControlCompletes : Prop :=
  (∀ (o : Op) (x : Ops) (s : State) (c : Ctx), o ∈ [Op.tlbinv, .freeze, .thaw, .halt] → Runs o x s c → c.act = 0 →
    ∃ t, exec (o.instr x) s = .next t ∧ c.goesOn s t) ∧
  (∀ (x : Ops) (s : State) (c : Ctx), Runs .tlbinv x s c → c.act ≠ 0 → c.sp.relDone = true →
    ∃ t, exec (.tlbinv x) s = .next t ∧ c.goesOn s t) ∧
  (∀ (x : Ops) (s : State) (c : Ctx) (i : Nat), Runs .tlbinv x s c → c.act.lowest = some i → c.sp.relDone = false →
    let all : Bool := x.mf 0 1 == 1
    (all = false → lwAny (c.opA .n64 i) = false ∧ (c.opB .n32 i).pLo = false ∧ canonical (c.opA .n64 i).val.toNat = true) →
    ∃ t H V, exec (.tlbinv x) s = .next t ∧ t.grp c.g = some H ∧ (H.sp c.e).st = .waiting ∧ (H.sp c.e).pc = c.sp.pc ∧
      (H.sp c.e).wait = .inval s.tr.next ∧ Map.find t.tr.invals s.tr.next = some V ∧ V.ctx = c.ctx ∧ V.all = all ∧
      V.first = vaUnit (c.opA .n64 i).val.toNat ∧ V.count = (lwLo (c.opB .n32 i)).toNat ∧ V.domains = s.domainsOf c.ctx ∧
      V.icache = (x.mf 1 1 == 1) ∧ V.seq = none ∧ V.began = s.ms.next ∧
      NoneCached t V ∧
      t.ms = s.ms ∧ t.exe.teams = s.exe.teams) ∧
  (∀ (x : Ops) (s : State) (c : Ctx), Runs .freeze x s c → c.act ≠ 0 → c.G.frozen = false →
    (∀ h, named c s h → s.inChain h = false) →
    ∃ t, exec (.freeze x) s = .next t ∧ c.goesTo (withGroups s t) t (c.afterGroup c.after) ∧
      ∀ h G, h ≠ c.g → s.grp h = some G →
        ∃ H, t.grp h = some H ∧ (named c s h → ({ G with frozen := true } : Group).same H) ∧ (¬ named c s h → G.same H)) ∧
  (∀ (x : Ops) (s : State) (c : Ctx), Runs .thaw x s c → c.act ≠ 0 → x.mf 1 1 ≠ 1 →
    ∃ t, exec (.thaw x) s = .next t ∧ c.goesTo (withGroups s t) t (c.afterGroup c.after) ∧
      ∀ h G, h ≠ c.g → s.grp h = some G →
        ∃ H, t.grp h = some H ∧ (named c s h → ({ G with frozen := false } : Group).same H) ∧ (¬ named c s h → G.same H)) ∧
  (∀ (x : Ops) (s : State) (c : Ctx), Runs .halt x s c → c.act ≠ 0 → c.T.st ≠ .terminated → c.T.st ≠ .retired → c.T.st ≠ .lost →
    ∃ t, exec (.halt x) s = .next t ∧
      t.tm c.G.team = some { c.T with st := .terminated, cause := some (c.G.tcause.toNat % 256), ports := [] } ∧
      (∀ g G, g ∈ c.T.groups → s.grp g = some G → ∃ H, t.grp g = some H ∧ H.stopped = true ∧ H.regs = G.regs) ∧
      (∀ L, s.launch c.T.launch = some L → ∃ M, t.launch c.T.launch = some M ∧
        M.cause = if L.cause = none then some (c.G.tcause.toNat % 256) else L.cause) ∧
      t.tr = s.tr ∧ t.ct = s.ct ∧ t.ms = s.ms)

/-- R447, R455, R456, R457, R458: PTEST, PCLR, LANEKILL and SELFTEST, where nothing of R118 stops them, go on behind themselves
with `active` empty. PTEST shows each lane's poison as a clean mask word; PCLR takes the poisoned words of a from b. LANEKILL
kills the members that its clean mask names, where the group keeps a live lane and the split a member: they leave every split
and claim. SELFTEST holds its split until its test ends, and then writes the results; SELFTEST_COMPLETE ends it, with the
words that say for each lane, or for the unit, whether a fault was found and lasts, whether a spare took its lane, and whether
the core is taken out of use, which then shows STATE 2. LANE_DEATH kills one lane of a group that is not duplex. -/
def Obligations.ReliabilityInstructionsComplete : Prop :=
  (∀ (o : Op) (x : Ops) (s : State) (c : Ctx), o ∈ [Op.ptest, .pclr, .lanekill, .selftest] → Runs o x s c → c.act = 0 →
    ∃ t, exec (o.instr x) s = .next t ∧ c.goesOn s t) ∧
  (∀ (x : Ops) (s : State) (c : Ctx), Runs .ptest x s c → c.act ≠ 0 →
    ∃ t, exec (.ptest x) s = .next t ∧ c.laneDone s t false true
      (fun j => { val := if lwPsn (c.opA x.t j) x.t then 0xFFFFFFFF else 0 }) (fun _ => 0)) ∧
  (∀ (x : Ops) (s : State) (c : Ctx), Runs .pclr x s c → c.act ≠ 0 →
    c.maskSafe (fun j => (c.opA x.t j).pLo && (c.opB x.t j).pLo) →
    ∃ (t : State) (v : Nat → LW2), exec (.pclr x) s = .next t ∧ c.laneDone s t x.t.wide true v (fun _ => 0) ∧
      ∀ j, c.ex.has j = true →
        let a := c.opA x.t j
        let b := c.opB x.t j
        lwLo (v j) = lwLo (if a.pLo then b else a) ∧ (v j).pLo = (a.pLo && b.pLo) ∧
        (x.t.wide = true → ((v j).val >>> 32 = if a.pHi then b.val >>> 32 else a.val >>> 32) ∧ (v j).pHi = (a.pHi && b.pHi))) ∧
  (∀ (x : Ops) (s : State) (c : Ctx) (i : Nat), Runs .lanekill x s c → c.act.lowest = some i →
    (∀ k, k < 3 → (c.word (aReg x + k) i).psn = false) →
    let m := Lanes.ofWords (c.word (aReg x) i).val (c.word (aReg x + 1) i).val (c.word (aReg x + 2) i).val
    let members := if c.G.lvl = 0 then c.sp.memb else c.G.valid.foldl (fun a e => a ||| (c.G.sp e).memb) 0
    let gone := if c.G.duplex then shadows (m &&& members) else m &&& members
    c.G.live &&& ~~~ gone ≠ 0 → (if c.G.lvl = 0 then c.sp.memb &&& ~~~ gone ≠ 0 else c.G.held.getLsbD c.e = false) →
    ∃ t H, exec (.lanekill x) s = .next t ∧ t.grp c.g = some H ∧ Elsewhere c s t ∧ H.dead = c.G.dead ||| gone ∧
      (∀ r j, 4 ≤ r → r < 256 → H.reg r j = c.G.reg r j) ∧ (∀ r, r < 256 → H.pendOf r = pendWithout c gone r) ∧
      (∀ k, Map.find H.claims k = (Map.find c.G.claims k).map (fun C => { C with lanes := C.lanes &&& ~~~ gone })) ∧
      (H.sp c.e).pc = c.next ∧
      (∀ e, (c.G.sp e).v = true → (H.sp e).mask = (c.G.sp e).mask &&& ~~~ gone ∧
        (H.sp e).memb = if c.G.lvl ≠ 0 ∧ c.G.held.getLsbD e = false then (c.G.sp e).memb else (c.G.sp e).memb &&& ~~~ gone)) ∧
  (∀ (x : Ops) (s : State) (c : Ctx) (m : SeamWords), Runs .selftest x s c → c.act ≠ 0 → c.sp.msg = some m →
    c.maskSafe (fun j => (Map.getD m.words j {}).psn) →
    ∃ t, exec (.selftest x) s = .next t ∧
      c.laneDone s t false false (fun j => single (Map.getD m.words j {})) (fun _ => 0)) ∧
  (∀ (x : Ops) (s : State) (c : Ctx) (i : Nat), Runs .selftest x s c → c.act.lowest = some i → c.sp.msg = none →
    (c.opA .n32 i).pLo = false → (x.mf 0 3 = 2 → (lwLo (c.opA .n32 i)).toNat ≤ 63) →
    ∃ t H, exec (.selftest x) s = .next t ∧ t.grp c.g = some H ∧ (H.sp c.e).pc = c.sp.pc ∧ (H.sp c.e).st = .waiting ∧
      (H.sp c.e).wait = .selftest (x.mf 0 3) x.d c.ex ∧ t.ms = s.ms ∧ t.exe.teams = s.exe.teams) ∧
  (∀ (s : State) (g e u : Nat) (found lasting act : Lanes) (d : BitVec 8) (G : Group) (T : Team), s.grp g = some G →
    s.tm G.team = some T → T.st = .started → (G.sp e).v = true → (G.sp e).st = .waiting → (G.sp e).wait = .selftest u d act →
    let S := s.sliceAt (sliceKey T.coreKey G.slice)
    let bad (j : Nat) : Bool := act.has j && found.has j && lasting.has j
    let short := (dedup ((List.range 96).filter bad |>.map (fun j => j % 32))).filter (fun p => !S.swapped.contains p)
    let spared (j : Nat) : Bool := bad j && (S.swapped.contains (j % 32) || (short.take S.spares).contains (j % 32))
    let word (j : Nat) : Word :=
      if u ≤ 1 then testWord (found.has j) (lasting.has j) (spared j) (bad j && !spared j)
      else testWord (found.has 0) (lasting.has 0) false (found.has 0 && lasting.has 0)
    ∃ t H m, exec (.selftestComplete g e found lasting) s = .next t ∧ t.grp g = some H ∧ (H.sp e).st = .ready ∧
      (H.sp e).relDone = true ∧ (H.sp e).msg = some m ∧ (H.sp e).pc = (G.sp e).pc ∧ H.regs = G.regs ∧
      (∀ j, act.has j = true → Map.find m.words j = some { val := word j }) ∧
      (u ≤ 1 → (t.sliceAt (sliceKey T.coreKey G.slice)).spares = S.spares - short.length) ∧
      ((t.coreAt T.coreKey).state =
        if (s.coreAt T.coreKey).state = 1 then 1
        else if (if u ≤ 1 then (List.range 96).any (fun j => bad j && !spared j) else found.has 0 && lasting.has 0) then 2
        else (s.coreAt T.coreKey).state)) ∧
  (∀ (s : State) (g lane : Nat) (G : Group), s.grp g = some G → lane < 96 → G.dead.has lane = false → G.retired = false →
    G.duplex = false → G.live &&& ~~~ Lanes.one lane ≠ 0 →
    ∃ t H, exec (.laneDeath g lane) s = .next t ∧ t.grp g = some H ∧ H.dead = G.dead ||| Lanes.one lane ∧ H.regs = G.regs ∧
      (∀ e, (G.sp e).v = true → (H.sp e).memb = (G.sp e).memb &&& ~~~ Lanes.one lane ∧
        (H.sp e).mask = (G.sp e).mask &&& ~~~ Lanes.one lane) ∧
      (∀ k C, Map.find G.claims k = some C →
        ∃ D, Map.find H.claims k = some D ∧ D = { C with lanes := C.lanes &&& ~~~ Lanes.one lane }) ∧
      t.exe.teams = s.exe.teams ∧ ∀ a, t.mb a = s.mb a)

/-- The instructions on system registers and those that control translation and other groups complete (see
`SystemRegistersComplete`, `SystemControlCompletes`). -/
def Obligations.SystemInstructionsComplete : Prop := SystemRegistersComplete ∧ SystemControlCompletes

namespace Sys2Proof.Claims

/-! ### Encon -/

/-- Core `k` has become `D` by an instruction or an event; the other cores and all else of `s` are as before. -/
structure EnconDone (s t : State) (k : Nat) (D : EnCore) : Prop where
  cores : ∀ j, t.enc j = if j = k then D else s.enc j
  rest : { s with en := { s.en with cores := t.en.cores } }.becomes t

/-- The turn is over. -/
def turnOver (s : State) : State := { s with cur := .idle }

/-- A core has written `v` to rd, and goes on behind a four-byte instruction: x0 reads zero. -/
structure Wrote (C D : EnCore) (rd : BitVec 5) (v : BitVec 64) : Prop where
  regs : ∀ r, D.get r = if r = rd ∧ r ≠ 0 then v else C.get r
  rest : D = { C with x := D.x, pc := C.pc + 4 }

/-- A core has taken an exception (R59): mepc holds the instruction's address, its registers are unchanged. -/
structure Raised (C D : EnCore) (cause : BitVec 64) : Prop where
  mepc : D.mepc = C.pc
  mcause : D.mcause = cause
  rest : D = { C with mepc := C.pc, mcause := cause, mtval := D.mtval, mstatus := D.mstatus, machine := D.machine, pc := D.pc }

/-- It is the turn of Encon core `k`, in machine mode. -/
def machineTurn (s : State) (k : Nat) : Prop := s.cur = .encon k ∧ (s.enc k).machine = true

/-- The physical address of the forme that a queue fetches next (R60). -/
def nextForme (Q : Queue) : Nat := Q.base + 512 * (Q.acc.toNat % 2 ^ Q.log2n)

/-- A byte of the next forme is poisoned where a completed write of the host has put it, or lies behind a fence (R42, R60). -/
def formePoisoned (s : State) (Q : Queue) : Prop := ∃ i, i < 512 ∧ (s.hostRead (nextForme Q + i)).2 = true

/-- The state but for queue `q`, which is `Q`. -/
def queueSet (s t : State) (q : Nat) (Q : Queue) : Prop := ∀ n, t.queue n = if n = q then Q else s.queue n

/-- The state with the queues of `t`. -/
def withQueues (s t : State) : State := { s with ct := { s.ct with queues := t.ct.queues } }

/-- An instruction of the Encon cores that is checked for machine mode. -/
def isXencon (i : Instr) : Prop :=
  (∃ a b, i = .qfetch a b) ∨ (∃ a b p l, i = .bfxu a b p l) ∨ (∃ a b d, i = .swait a b d) ∨ (∃ a b, i = .dispatch a b) ∨
    ∃ f a b, i = .encsigWrite f a b

/-- The value that an access to encsig writes or sets, where it does either (R63). -/
def sent (C : EnCore) (f : CsrOp) (src : BitVec 5) : Option Nat :=
  match f with
  | .rw => some (C.get src).toNat
  | .rwi => some src.toNat
  | .rs => if src = 0 then none else some (C.get src).toNat
  | .rsi => if src = 0 then none else some src.toNat
  | .rc | .rci => none

end Sys2Proof.Claims

/-- R58, R63: in user mode every Xencon instruction and every access to encsig raises the illegal-instruction exception, mcause
2, and has no other effect. -/
def Obligations.XenconInUserModeIsIllegal : Prop :=
  ∀ (i : Instr) (s : State) (k : Nat), isXencon i → s.cur = .encon k → (s.enc k).machine = false →
    ∃ t D, exec i s = .next t ∧ EnconDone (turnOver { s with free := t.free }) t k D ∧ Raised (s.enc k) D 2

/-- R42, R59, R60, R61, R64: QFETCH, BFXU and DISPATCH in machine mode. Each raises its own exception where it fails for a reason of
its own. BFXU extracts its field. QFETCH returns −1 with nothing to fetch and −2 with no free buffer; else the 512 bytes of
the slot, as a completed write of the host has left them, stand in the lowest free buffer, rd holds SQACC and the buffer, and SQACC moves on; a poisoned slot sets ERR 5 and
clears EN. DISPATCH returns −1 with 1,024 live launches; else the buffer becomes free and rd holds the next sequence number,
under which the launch stands. -/
def Obligations.XenconInstructionsComplete : Prop :=
  (∀ (s : State) (k : Nat) (rd rs1 : BitVec 5) (pos len1 : BitVec 6), machineTurn s k → pos.toNat + len1.toNat + 1 ≤ 64 →
    ∃ t D, exec (.bfxu rd rs1 pos len1) s = .next t ∧ EnconDone (turnOver s) t k D ∧
      Wrote (s.enc k) D rd (((s.enc k).get rs1 >>> pos.toNat) &&& BitVec.ofNat 64 (2 ^ (len1.toNat + 1) - 1))) ∧
  (∀ (s : State) (k : Nat) (rd rs1 : BitVec 5) (pos len1 : BitVec 6), machineTurn s k → 64 < pos.toNat + len1.toNat + 1 →
    ∃ t D w, exec (.bfxu rd rs1 pos len1) s = .next t ∧ EnconDone (turnOver s) t k D ∧ Raised (s.enc k) D 25 ∧
      enconWord (.bfxu rd rs1 pos len1) = some w ∧ D.mtval = w.zeroExtend 64) ∧
  (∀ (s : State) (k : Nat) (rd rs1 : BitVec 5), machineTurn s k →
    let C := s.enc k
    let q := (C.get rs1).toNat
    let Q := s.queue q
    (255 < q → ∃ t D, exec (.qfetch rd rs1) s = .next t ∧ EnconDone (turnOver s) t k D ∧ Raised C D 24 ∧
      D.mtval.toNat % 256 = q % 256 ∧ D.mtval.toNat / 256 = 1) ∧
    (q ≤ 255 → (Q.en = false ∨ Q.acc = Q.tail) →
      ∃ t D, exec (.qfetch rd rs1) s = .next t ∧ EnconDone (turnOver s) t k D ∧ Wrote C D rd (-1)) ∧
    (q ≤ 255 → Q.en = true → Q.acc ≠ Q.tail → (∀ b, b < 16 → Map.has C.bufs b = true) →
      ∃ t D, exec (.qfetch rd rs1) s = .next t ∧ EnconDone (turnOver s) t k D ∧ Wrote C D rd (-2)) ∧
    (∀ b, q ≤ 255 → Q.en = true → Q.acc ≠ Q.tail → b < 16 → (∀ n, n < b → Map.has C.bufs n = true) →
      Map.has C.bufs b = false →
      (formePoisoned s Q → ∃ t D, exec (.qfetch rd rs1) s = .next t ∧ EnconDone (turnOver (withQueues s t)) t k D ∧ Raised C D 24 ∧
        D.mtval.toNat % 256 = q ∧ D.mtval.toNat / 256 = 2 ∧ queueSet s t q { Q with err := 5, en := false }) ∧
      (¬ formePoisoned s Q → ∃ t D F, exec (.qfetch rd rs1) s = .next t ∧ EnconDone (turnOver (withQueues s t)) t k D ∧
        Wrote { C with bufs := D.bufs } D rd ((Q.acc.zeroExtend 64 <<< 32) ||| BitVec.ofNat 64 b) ∧
        (∀ n, Map.find D.bufs n = if n = b then some F else Map.find C.bufs n) ∧
        (∀ i, i < 512 → F.bytes[i]? = some (s.hostRead (nextForme Q + i)).1) ∧ F.queue = q ∧ F.slot = Q.acc ∧
        queueSet s t q { Q with acc := Q.acc + 1 }))) ∧
  (∀ (s : State) (k : Nat) (rd rs1 : BitVec 5), machineTurn s k →
    let C := s.enc k
    let b := (C.get rs1).toNat
    (15 < b → ∃ t D, exec (.dispatch rd rs1) s = .next t ∧ EnconDone (turnOver s) t k D ∧ Raised C D 27 ∧
      D.mtval.toNat % 256 = b % 256 ∧ D.mtval.toNat / 256 = 1) ∧
    (b ≤ 15 → Map.find C.bufs b = none → ∃ t D, exec (.dispatch rd rs1) s = .next t ∧ EnconDone (turnOver s) t k D ∧ Raised C D 27 ∧
      D.mtval.toNat % 256 = b ∧ D.mtval.toNat / 256 = 2) ∧
    (∀ F, b ≤ 15 → Map.find C.bufs b = some F → 1024 ≤ s.liveLaunches →
      ∃ t D, exec (.dispatch rd rs1) s = .next t ∧ EnconDone (turnOver s) t k D ∧ Wrote C D rd (-1)) ∧
    (∀ F, b ≤ 15 → Map.find C.bufs b = some F → s.liveLaunches < 1024 →
      ∃ t D L, exec (.dispatch rd rs1) s = .next t ∧
        EnconDone (turnOver { s with wk := { s.wk with launches := t.wk.launches, next := s.wk.next + 1 } }) t k D ∧
        Wrote { C with bufs := D.bufs } D rd (BitVec.ofNat 64 s.wk.next) ∧
        (∀ n, Map.find D.bufs n = if n = b then none else Map.find C.bufs n) ∧
        t.launch (8 * s.wk.next) = some L ∧ L.queue = F.queue ∧ L.slot = F.slot ∧ L.forme = parseForme F.bytes ∧
        L.prio = (s.queue F.queue).prio ∧ L.started = false ∧ L.retired = false ∧
        ∀ l, l / 8 ≠ s.wk.next → t.launch l = s.launch l))

/-- R59, R62, R63: SWAIT in machine mode waits, or raises SWAIT_FAULT; it completes with the pending signals of its mask, which
it takes away, and at its timeout also where there are none, with 0. An access to encsig in machine mode reads zero, and one that writes or sets a
value below 256 sends each core of the value the signal of its sender; another value raises the illegal-instruction exception
and sends nothing. -/
def Obligations.SignalsComplete : Prop :=
  (∀ (s : State) (k : Nat) (rd rs1 rs2 : BitVec 5), machineTurn s k →
    let C := s.enc k
    let m := C.get rs1
    let n := (C.get rs2).toNat
    (m >>> 16 ≠ 0 → ∃ t D, exec (.swait rd rs1 rs2) s = .next t ∧ EnconDone (turnOver s) t k D ∧ Raised C D 26 ∧ D.mtval = 2) ∧
    (m = 0 → n = 0 → ∃ t D, exec (.swait rd rs1 rs2) s = .next t ∧ EnconDone (turnOver s) t k D ∧ Raised C D 26 ∧ D.mtval = 1) ∧
    (m >>> 16 = 0 → (m ≠ 0 ∨ n ≠ 0) → ∃ t, exec (.swait rd rs1 rs2) s = .next t ∧
      EnconDone (turnOver s) t k { C with
        swait := some { mask := m.truncate 16, until_ := if n = 0 then none else some (s.wtimeEnc + n), rd := rd } })) ∧
  (∀ (s : State) (k : Nat) (w : Swait), (s.enc k).swait = some w → (s.enc k).sigs &&& w.mask ≠ 0 →
    ∃ t D, exec (.swaitComplete k) s = .next t ∧ EnconDone s t k D ∧
      Wrote { s.enc k with swait := none, sigs := (s.enc k).sigs &&& ~~~ w.mask } D w.rd
        (((s.enc k).sigs &&& w.mask).zeroExtend 64)) ∧
  (∀ (s : State) (k n : Nat) (w : Swait), (s.enc k).swait = some w → w.until_ = some n → n ≤ s.wtimeEnc →
    ∃ t D, exec (.swaitTimeout k) s = .next t ∧ EnconDone s t k D ∧
      Wrote { s.enc k with swait := none, sigs := (s.enc k).sigs &&& ~~~ w.mask } D w.rd
        (((s.enc k).sigs &&& w.mask).zeroExtend 64)) ∧
  (∀ (s : State) (k : Nat) (f : CsrOp) (rd src : BitVec 5), machineTurn s k → (∀ v, sent (s.enc k) f src = some v → v < 256) →
    ∃ t D, exec (.encsigWrite f rd src) s = .next t ∧ Wrote (s.enc k) D rd 0 ∧
      (∀ j, t.enc j =
        let E := if j = k then D else s.enc j
        if j < 8 ∧ ∃ v, sent (s.enc k) f src = some v ∧ v.testBit j then { E with sigs := E.sigs ||| BitVec.twoPow 16 (8 + k) }
        else E) ∧
      { turnOver s with en := { s.en with cores := t.en.cores } }.becomes t) ∧
  (∀ (s : State) (k v : Nat) (f : CsrOp) (rd src : BitVec 5), machineTurn s k → sent (s.enc k) f src = some v → 256 ≤ v →
    ∃ t D, exec (.encsigWrite f rd src) s = .next t ∧ EnconDone (turnOver { s with free := t.free }) t k D ∧ Raised (s.enc k) D 2)

namespace Sys2Proof.Claims

/-! ### The control region -/

/-- The signal `b` is pending at every Encon core (R62), and nothing else of them has changed. -/
def signalled (s t : State) (b : Nat) : Prop :=
  ∀ k, t.enc k = if k < 8 then { s.enc k with sigs := (s.enc k).sigs ||| BitVec.twoPow 16 b } else s.enc k

/-- The state with the Encon cores of `t`. -/
def withCores (s t : State) : State := { s with en := { s.en with cores := t.en.cores } }

/-- The fields that a write to word 0x08 of a queue gives it (R43). -/
def queueFields (Q : Queue) (w : BitVec 64) : Queue :=
  { Q with log2n := (w.extractLsb' 0 5).toNat, prio := (w.extractLsb' 5 2).toNat, ctx := (w.extractLsb' 8 16).toNat }

/-- SQBASE and the ring size pass (R44). -/
def ringOk (Q : Queue) : Prop := Q.base < 2 ^ 52 ∧ Q.base % 512 = 0 ∧ 3 ≤ Q.log2n ∧ Q.log2n ≤ 16

/-- A head launch of a queue that CANCEL retires: none of its unit's groups has issued an instruction (R48). -/
def cancels (s : State) (q h : Nat) : Prop :=
  ∃ L, (h, L) ∈ s.wk.launches ∧ L.queue = q ∧ L.sub = 0 ∧ L.retired = false ∧
    ∀ l ∈ s.unit h, ∀ M, s.launch l = some M → M.started = false

/-- The function of a ready bit exists (R71). -/
def functionExists : ReadyFn → Prop
  | .disp d | .walk d | .l2 d | .dram d => d < 64
  | .border d side => d < 64 ∧ side < 4
  | .core d c => d < 64 ∧ c < 72
  | .memPort p => p < 16
  | .encon k => k < 8
  | .host => True
  | .scale p => p < 64

/-- The state with the trap blocks of `t`. -/
def withTraps (s t : State) : State := { s with ct := { s.ct with trap := t.ct.trap } }

/-- The trap block of one context has become `B`. -/
def trapSet (s t : State) (ctx : Nat) (B : TrapBlk) : Prop :=
  (∀ x, t.trapBlk x = if x = ctx then B else s.trapBlk x) ∧ (withTraps s t).becomes t

end Sys2Proof.Claims

/-- R43, R44, R45: a doorbell that the ring has room for moves SQTAIL and raises the signal of the queue's priority; another sets
ERR 1, and one to a disabled queue ERR 6. A write to word 0x08 sets the fields of a disabled queue, and with EN set it
enables the queue where SQBASE and the size pass (else ERR 2), the queue is not busy (else ERR 4), and an owner key, the
host port and an Encon core are there; an enabled queue keeps its fields, with ERR 3 where the write would change one, and loses EN where EN is clear. -/
def Obligations.QueueRegistersComplete : Prop :=
  (∀ (s : State) (q : Nat) (w : BitVec 32), q < 256 →
    let Q := s.queue q
    let room : Prop := (w - Q.tail).toNat ≤ 2 ^ Q.log2n - (Q.tail - Q.head).toNat
    ∃ t, exec (.doorbell q w) s = .next t ∧
      (Q.en = false → queueSet s t q { Q with err := 6 } ∧ (withQueues s t).becomes t) ∧
      (Q.en = true → ¬ room → queueSet s t q { Q with err := 1 } ∧ (withQueues s t).becomes t) ∧
      (Q.en = true → room →
        queueSet s t q { Q with tail := w } ∧ signalled s t Q.prio ∧ (withCores (withQueues s t) t).becomes t)) ∧
  (∀ (s : State) (q : Nat) (w : BitVec 64), q < 256 → w.getLsbD 7 = true →
    let Q := s.queue q
    let R := queueFields Q w
    ∃ t, exec (.sqEnable q w) s = .next t ∧ (withQueues s t).becomes t ∧
      (Q.en = true → queueSet s t q (if R = Q then Q else { Q with err := 3 })) ∧
      (Q.en = false → s.queuesOpen = false → ringOk R → Q.head = Q.acc → queueSet s t q R) ∧
      (Q.en = false → s.queuesOpen = true → ringOk R → Q.head = Q.acc →
        queueSet s t q { R with tail := 0, acc := 0, head := 0, en := true }) ∧
      (Q.en = false → ¬ ringOk R → queueSet s t q { R with err := 2 }) ∧
      (Q.en = false → ringOk R → Q.head ≠ Q.acc → queueSet s t q { R with err := 4 })) ∧
  (∀ (s : State) (q : Nat) (w : BitVec 64), q < 256 → w.getLsbD 7 = false →
    let Q := s.queue q
    let R := queueFields Q w
    ∃ t, exec (.sqDisable q w) s = .next t ∧ (withQueues s t).becomes t ∧
      (Q.en = false → queueSet s t q R) ∧
      (Q.en = true → queueSet s t q (if R = Q then { Q with en := false } else { Q with err := 3, en := false })))

/-- R48: CANCEL cancels every head launch of the queue none of whose groups has issued an instruction, with its bodies: their
teams give up what they hold. It also reaches the formes of the queue in forme buffers. The queue, other launches, other
teams and their groups are as before. -/
def Sys2Proof.Claims.CancelCompletes : Prop :=
  ∀ (s : State) (q : Nat), Map.sorted s.exe.teams = true → Map.sorted s.exe.groups = true → Map.sorted s.wk.launches = true →
    ∃ t, exec (.cancel q) s = .next t ∧
      (∀ l L, s.launch l = some L →
        ((∃ h, cancels s q h ∧ l ∈ s.unit h) → t.launch l = some { L with cancelled := true }) ∧
        (¬ (∃ h, cancels s q h ∧ l ∈ s.unit h) → t.launch l = some L)) ∧
      (∀ n T, s.tm n = some T →
        ((∃ h, cancels s q h ∧ T.launch ∈ s.unit h) → t.tm n = none) ∧
        (¬ (∃ h, cancels s q h ∧ T.launch ∈ s.unit h) → t.tm n = some T)) ∧
      (∀ g G T, s.grp g = some G → s.tm G.team = some T →
        ((∃ h, cancels s q h ∧ T.launch ∈ s.unit h) → t.grp g = none) ∧
        (¬ (∃ h, cancels s q h ∧ T.launch ∈ s.unit h) → ∃ H, t.grp g = some H ∧ G.same H)) ∧
      (∀ k b F, Map.find (s.enc k).bufs b = some F →
        Map.find (t.enc k).bufs b = some (if F.queue = q then { F with cancelled := true } else F)) ∧
      { s with
          wk := { s.wk with launches := t.wk.launches, gathering := t.wk.gathering, frames := t.wk.frames }
          exe := { s.exe with teams := t.exe.teams, groups := t.exe.groups }
          en := { s.en with cores := t.en.cores } }.becomes t

/-- R71, R72, R77, R78: a ready bit of a function that exists, and that no fence, failed link or STATE of its core bars, goes
from 0 to 1, and raises the readiness signal; a core becomes
enabled with it. No other ready bit changes. Firmware's write of STATE 1 or 2 disables a core that is not excluded: its ready bit
falls; a STATE of a core that is not in use follows its ready bit. -/
def Sys2Proof.Claims.ReadinessCompletes : Prop :=
  (∀ (s : State) (f : ReadyFn), s.mayReady f = true → s.isReady f = false →
    ∃ t, exec (.readyBitSet f) s = .next t ∧ t.isReady f = true ∧ signalled s t 6 ∧
      (∀ f', functionExists f' → f' ≠ f → t.isReady f' = s.isReady f') ∧
      (∀ k, t.coreAt k = s.coreAt k ∨ t.coreAt k = { s.coreAt k with ready := true, state := 0 }) ∧
      { withCores s t with
          ct := { s.ct with dom := t.ct.dom, memp := t.ct.memp, enc := t.ct.enc, host := t.ct.host, scale := t.ct.scale }
          exe := { s.exe with cores := t.exe.cores } }.becomes t) ∧
  (∀ (s : State) (d c : Nat) (st : BitVec 2), (s.coreAt (coreKey d c)).state ≠ 1 → st = 1 ∨ st = 2 →
    ∃ t, exec (.coreStateChange d c st) s = .next t ∧
      (t.coreAt (coreKey d c)).state = st.toNat ∧ (t.coreAt (coreKey d c)).ready = false ∧
      (∀ k, k ≠ coreKey d c → t.coreAt k = s.coreAt k) ∧
      ((s.coreAt (coreKey d c)).ready = true → signalled s t 6) ∧ t.tr = s.tr ∧ t.ct = s.ct ∧ ∀ a, t.mb a = s.mb a) ∧
  (∀ (s : State) (d c : Nat) (st : BitVec 2), (s.coreAt (coreKey d c)).state = 0 ∨ (s.coreAt (coreKey d c)).state = 3 →
    st = 0 ∨ st = 3 →
    ∃ t, exec (.coreStateChange d c st) s = .next t ∧
      (∀ k, t.coreAt k = if k = coreKey d c then { s.coreAt k with state := if (s.coreAt k).ready then 0 else 3 } else s.coreAt k) ∧
      { s with exe := { s.exe with cores := t.exe.cores } }.becomes t)

/-- R75, R80, R130, R135, R143, R181, R380, R411, R421, R453, R475, R479: the host's writes to control registers. Each register
takes the word's writable bits, or discards the write where the rule says so, and nothing else changes. -/
def Sys2Proof.Claims.ControlRegistersComplete : Prop :=
  (∀ (s : State) (q : Nat) (w : BitVec 64), q < 256 →
    let Q := s.queue q
    ∃ t, exec (.registerWrite (0x10000 + 64 * q) w) s = .next t ∧ (withQueues s t).becomes t ∧
      queueSet s t q (if Q.en then { Q with err := 3 } else { Q with base := (w.truncate 56 : BitVec 56).toNat })) ∧
  (∀ (s : State) (i : Nat) (w : BitVec 64), i < 256 →
    ∃ t, exec (.registerWrite (0x90000 + 8 * i) w) s = .next t ∧
      (∀ j, Map.getD t.tr.stripes j 0 = if j = i then w else Map.getD s.tr.stripes j 0) ∧
      { s with tr := { s.tr with stripes := t.tr.stripes } }.becomes t) ∧
  (∀ (s : State) (w : BitVec 64), s.tr.invBusy = false →
    (∃ t, exec (.registerWrite 0xA0000 w) s = .next t ∧
      { s with tr := { s.tr with invCtx := w.truncate 16, invAll := w.getLsbD 16, invIc := w.getLsbD 17 } }.becomes t) ∧
    (∃ t, exec (.registerWrite 0xA0008 w) s = .next t ∧ { s with tr := { s.tr with invVa := (w >>> 16).truncate 41 } }.becomes t) ∧
    (∃ t, exec (.registerWrite 0xA0010 w) s = .next t ∧ { s with tr := { s.tr with invN := w.truncate 32 } }.becomes t)) ∧
  (∀ (s : State) (o : Nat) (w : BitVec 64), s.tr.invBusy = true → o ∈ [0xA0000, 0xA0008, 0xA0010] →
    ∃ t, exec (.registerWrite o w) s = .next t ∧ s.becomes t) ∧
  (∀ (s : State) (w : BitVec 64),
    (∃ t, exec (.registerWrite 0xC0000 w) s = .next t ∧
      (if w.truncate 6 = (0 : BitVec 6) then s else { s with ct := { s.ct with cflush := (w.truncate 6 : BitVec 6).toNat } }).becomes t) ∧
    (∃ t, exec (.registerWrite 0xD2000 w) s = .next t ∧
      (if s.ct.ckBusy then s else { s with ct := { s.ct with ckDest := BitVec.ofNat 56 (w.toNat / 2 ^ 43 * 2 ^ 43) } }).becomes t) ∧
    (∃ t, exec (.registerWrite 0xD2008 w) s = .next t ∧
      (if s.ct.ckBusy then s else { s with ct := { s.ct with ckMask := w } }).becomes t) ∧
    (∃ t, exec (.registerWrite 0xE0000 w) s = .next t ∧
      (if s.ct.nren then s else { s with ct := { s.ct with nrbase := (w &&& ~~~ 0xFFF).truncate 56 } }).becomes t)) ∧
  (∀ (s : State) (d : Nat) (w : BitVec 64), d < 64 →
    let v := (w.extractLsb' 16 10).toNat
    ∃ t, exec (.registerWrite (0xE1008 + 64 * d) w) s = .next t ∧
      (∀ k, t.powerOf k = if k = d ∧ 100 ≤ v ∧ v ≤ 600 then { s.powerOf k with pcap := v } else s.powerOf k) ∧
      { s with ct := { s.ct with power := t.ct.power } }.becomes t) ∧
  (∀ (s : State) (ctx : Nat) (w : BitVec 64), ctx < 65536 →
    let B := s.trapBlk ctx
    (s.ctxLive ctx = false →
      (∃ t, exec (.registerWrite (0x400000 + 64 * ctx) w) s = .next t ∧ trapSet s t ctx { B with tbase := w &&& ~~~ 0xFF }) ∧
      (∃ t, exec (.registerWrite (0x400008 + 64 * ctx) w) s = .next t ∧ trapSet s t ctx { B with fbase := w &&& ~~~ 0xFFFF }) ∧
      (∃ t, exec (.registerWrite (0x400010 + 64 * ctx) w) s = .next t ∧
        trapSet s t ctx { B with savebase := (w &&& ~~~ 0xFFFF).truncate 56 }) ∧
      (∃ t, exec (.registerWrite (0x400020 + 64 * ctx) w) s = .next t ∧
        trapSet s t ctx { B with fqbase := (w &&& ~~~ 0x1F).truncate 56 }) ∧
      (w.getLsbD 5 = true → ∃ t, exec (.faultQueueEnable ctx w) s = .next t ∧
        trapSet s t ctx { B with
          fqlog2n := w.truncate 5, fqen := true
          fqtail := if B.fqen then B.fqtail else 0, fqdone := if B.fqen then B.fqdone else 0 })) ∧
    (s.ctxLive ctx = true →
      (∃ t, exec (.registerWrite (0x400000 + 64 * ctx) w) s = .next t ∧ trapSet s t ctx B) ∧
      (∃ t, exec (.faultQueueEnable ctx w) s = .next t ∧ trapSet s t ctx B)) ∧
    (∃ t, exec (.registerWrite (0x400038 + 64 * ctx) w) s = .next t ∧
      trapSet s t ctx { B with brken := w.getLsbD 0, brkpc := (w >>> 2).truncate 62 })) ∧
  (∀ (s : State) (ctx : Nat) (v : BitVec 8),
    ∃ t, exec (.rcapWrite ctx v) s = .next t ∧ { s with ct := { s.ct with rcap := t.ct.rcap } }.becomes t ∧
      ∀ x, t.rcapOf x = if x = ctx ∧ v.toNat % 4 ≠ 3 then v.toNat % 4 else s.rcapOf x)

/-- R80, R129, R130: the partition masks, the context table and the root entries. A mask that shares a domain with another
partition's is refused with ERR 1, one that takes away a domain on which a team of the partition is resident with ERR 2, and
a context of a live launch keeps its partition, with ERR 3; else the write is taken. A root entry of a context without live
launch takes the word's fields; where EN falls, the context's pins go, and no TLB and no walk cache of the 64 domains keeps a translation of it. -/
def Sys2Proof.Claims.PartitionsAndRootsComplete : Prop :=
  (∀ (s : State) (p : Nat) (m : BitVec 64), p < 16 →
    let part (x : State) (q : Nat) : BitVec 64 := Map.getD x.ct.parts q 0
    let shared : Prop := ∃ q, q < 16 ∧ q ≠ p ∧ part s q &&& m ≠ 0
    let gone : Prop := ∃ d, d < 64 ∧ (part s p).getLsbD d = true ∧ m.getLsbD d = false ∧ s.residentIn p d = true
    ∃ t, exec (.partitionMaskWrite p m) s = .next t ∧
      (shared → { s with ct := { s.ct with partErr := 1 } }.becomes t) ∧
      (¬ shared → gone → { s with ct := { s.ct with partErr := 2 } }.becomes t) ∧
      (¬ shared → ¬ gone → (∀ q, part t q = if q = p then m else part s q) ∧
        { s with ct := { s.ct with parts := t.ct.parts } }.becomes t)) ∧
  (∀ (s : State) (ctx : Nat) (b : BitVec 8),
    ∃ t, exec (.contextTableWrite ctx b) s = .next t ∧
      (s.ctxLive ctx = true → { s with ct := { s.ct with partErr := 3 } }.becomes t) ∧
      (s.ctxLive ctx = false → (∀ x, t.partOfCtx x = if x = ctx then b.toNat else s.partOfCtx x) ∧
        { s with ct := { s.ct with partOf := t.ct.partOf } }.becomes t)) ∧
  (∀ (s : State) (ctx : Nat) (hi : Bool) (w : BitVec 64),
    let root (x : State) (c : Nat) : Root := Map.getD x.tr.roots c {}
    let R := root s ctx
    let R' : Root :=
      if hi then { R with en := w.getLsbD 0, pinmax := (w.extractLsb' 16 11).toNat }
      else { R with root := (w.extractLsb' 12 44).toNat * 2 ^ 12 }
    ∃ t, exec (.rootEntryWrite ctx hi w) s = .next t ∧
      (hi = true → w.getLsbD 0 = false → exec (.ctxTranslationDisable ctx w) s = .next t) ∧
      (s.ctxLive ctx = true → s.becomes t) ∧
      (s.ctxLive ctx = false → (∀ x, root t x = if x = ctx then R' else root s x) ∧
        ((R.en = true → R'.en = true) → { s with tr := { s.tr with roots := t.tr.roots } }.becomes t) ∧
        (R.en = true → R'.en = false →
          (∀ p ∈ t.tr.pins, p.win.ctx ≠ ctx ∧ p ∈ s.tr.pins) ∧ (∀ p ∈ s.tr.pins, p.win.ctx ≠ ctx → p ∈ t.tr.pins) ∧
          (∀ e ∈ t.tr.tlb, e ∈ s.tr.tlb) ∧ (∀ e ∈ s.tr.tlb, e.ctx ≠ ctx → e ∈ t.tr.tlb) ∧
          (∀ e ∈ t.tr.tlb, e.ctx = ctx → 64 ≤ e.at_.domainOf) ∧ (∀ e ∈ t.tr.walkCache, e.ctx = ctx → 64 ≤ e.domain) ∧
          t.ct = s.ct ∧ t.exe.teams = s.exe.teams ∧ ∀ a, t.mb a = s.mb a)))

/-- The cancellation of a queue, and what changes a function's or a core's readiness complete (see `CancelCompletes`,
`ReadinessCompletes`). -/
def Obligations.CancellationAndReadinessComplete : Prop := CancelCompletes ∧ ReadinessCompletes

/-- The writes of the control region complete (see `ControlRegistersComplete`, `PartitionsAndRootsComplete`). -/
def Obligations.ControlRegionWritesComplete : Prop := ControlRegistersComplete ∧ PartitionsAndRootsComplete

namespace Sys2Proof.Claims

/-! ### Translation -/

/-- A walk is one of the 512 oldest of its domain (R138). -/
def walkRuns (s : State) (id : Nat) (w : Walk) : Prop :=
  Map.find s.tr.walks id = some w ∧ ∃ n, n < 512 ∧ (walksOf s w.domain)[n]? = some (id, w)

/-- A window lies in the range of an invalidation. -/
def Covered (v : Inval) (w : CodeWin) : Prop := w.ctx = v.ctx ∧ v.covers (vaUnit w.va) 1 = true

/-- The first entry of a context's fault queue that stands in slot `k`. -/
def slotEntry (s : State) (ctx k id : Nat) (f : FaultEnt) : Prop :=
  s.tr.faults.find? (fun p => p.2.ctx == ctx && p.2.slot == some k) = some (id, f)

/-- The status byte that the driver has written into the entry of slot `k` (R429). -/
def slotStatus (s : State) (ctx k : Nat) : Nat :=
  (s.mb ((s.trapBlk ctx).fqbase.toNat + 32 * (k % 2 ^ (s.trapBlk ctx).fqlog2n.toNat) + 7)).toNat

/-- The state before a classification's requests retry (R136, R483): the entry at `pa` says shared, the page's modified lines are
home, and no TLB, walk cache or split holds the page's leaf `l`. -/
structure Classified (s s1 : State) (f : FaultEnt) (pa e : Nat) (l : Leaf) : Prop where
  bytes : ∀ a, a < l.addr ∨ l.addr + 2 ^ pageBits l.level ≤ a →
    s1.mb a = if pa ≤ a ∧ a < pa + 8 then BitVec.ofNat 8 ((e + 2 ^ 10) / 256 ^ (a - pa)) else s.mb a
  owned : ∀ d line, d < 64 → l.addr ≤ 128 * line → 128 * line < l.addr + 2 ^ pageBits l.level →
    Map.find s1.ms.owned (64 * line + d) = none
  home : ∀ d line L i b, d < 64 → l.addr ≤ 128 * line → 128 * line < l.addr + 2 ^ pageBits l.level →
    Map.find s.ms.owned (64 * line + d) = some L → Map.find L.bytes i = some b → s1.mb (128 * line + i) = b
  tlb : NoneCached s1 { wholeCtx f.ctx with all := false, first := vaUnit l.va, count := l.units }
  rest : s1.ct = s.ct ∧ s1.exe.teams = s.exe.teams ∧ s1.eng = s.eng ∧ s1.tr.faults = s.tr.faults

end Sys2Proof.Claims

/-- R137, R138, R140, R145: the end of a walk. A walk that an invalidation has overtaken walks again; another ends: the splits
that waited for it alone are ready and know its outcome, and a leaf stands in its domain's TLB. Nothing of memory changes but
the entry that the walker writes to claim a page. -/
def Obligations.WalksComplete : Prop :=
  (∀ (s : State) (id : Nat) (w : Walk), walkRuns s id w → w.stale = true →
    ∃ t, exec (.walkComplete id) s = .next t ∧
      (∀ j, Map.find t.tr.walks j = if j = id then some { w with stale := false } else Map.find s.tr.walks j) ∧
      { s with tr := { s.tr with walks := t.tr.walks } }.becomes t) ∧
  (∀ (s : State) (id : Nat) (w : Walk) (x : Xl) (cas : Option (Nat × Nat)) (ts : List (Nat × Nat)),
    walkRuns s id w → w.stale = false → walkRun s w.domain w.ctx (w.unit * 65536) = (x, cas, ts) →
    ∃ t, exec (.walkComplete id) s = .next t ∧
      (∀ j, Map.find t.tr.walks j = if j = id then none else Map.find s.tr.walks j) ∧
      (∀ g G e, s.grp g = some G → e < 4 → (G.sp e).v = true → (G.sp e).wait = .walks [id] →
        ∃ H, t.grp g = some H ∧ (H.sp e).st = .ready ∧ (H.sp e).wait = .none ∧ (H.sp e).pc = (G.sp e).pc ∧
          (H.sp e).xlat = (G.sp e).xlat ++ [(w.unit, x)] ∧ H.regs = G.regs) ∧
      (∀ l, x = .leaf l → { at_ := .domain w.domain, ctx := w.ctx, leaf := l } ∈ t.tr.tlb) ∧
      (∀ a, (∀ pa v, cas = some (pa, v) → a < pa ∨ pa + 8 ≤ a) → t.mb a = s.mb a) ∧
      t.ct = s.ct ∧ t.exe.teams = s.exe.teams ∧ t.eng.copies = s.eng.copies)

/-- R136, R411, R428, R429, R483: the service of faults. A value of FQDONE that the queue does not hold is discarded; one that
serves the next entry takes it out of the machine, and the split that waited for it is ready again; where the driver's
status is 2 or more, a fetch finds its page not mapped. The classification service makes a private page shared: its entry's
class becomes 2, what the owner's L2 has modified goes home, and its requests retry. -/
def Sys2Proof.Claims.FaultServiceCompletes : Prop :=
  (∀ (s : State) (ctx : Nat) (w : BitVec 32),
    let B := s.trapBlk ctx
    (w = B.fqdone ∨ B.fqtail - B.fqdone < w - B.fqdone) →
      ∃ t, exec (.fqdoneWrite ctx w) s = .next t ∧ s.becomes t) ∧
  (∀ (s : State) (ctx id g e : Nat) (f : FaultEnt) (G : Group),
    let B := s.trapBlk ctx
    let k := B.fqdone.toNat
    B.fqtail ≠ B.fqdone → slotEntry s ctx k id f → f.reqs = [.split g e] → s.grp g = some G → (G.sp e).v = true →
    (G.sp e).wait = .fault id → (2 ≤ slotStatus s ctx k → f.fetch = true) →
    Map.find s.tr.faults id = some f →
    ∃ t H, exec (.fqdoneWrite ctx (B.fqdone + 1)) s = .next t ∧ (t.trapBlk ctx).fqdone = B.fqdone + 1 ∧
      Map.find t.tr.faults id = none ∧ t.grp g = some H ∧ (H.sp e).st = .ready ∧ (H.sp e).wait = .none ∧
      (H.sp e).pc = (G.sp e).pc ∧ H.regs = G.regs ∧
      (H.sp e).xlat = (G.sp e).xlat.filter (fun x => x.1 != f.page) ++
        (if 2 ≤ slotStatus s ctx k then [(f.page, .fatal 0x14)] else []) ∧
      t.exe.teams = s.exe.teams) ∧
  (∀ (s : State) (fe pa level e : Nat) (f : FaultEnt),
    s.tr.faults.find? (fun p => p.2.cls) = some (fe, f) →
    findLeaf s f.va [3, 2, 1, 0] (Map.getD s.tr.roots f.ctx ({} : Root)).root = some (pa, level, e) →
    let l := leafOf s level f.va e
    (∀ p ∈ s.ms.owned, Map.sorted p.2.bytes = true ∧ ∀ b ∈ p.2.bytes, b.1 < 128) → Map.sorted s.ms.owned = true →
    (∀ p ∈ s.ms.owned, ∀ q ∈ s.ms.owned, p.1 / 64 = q.1 / 64 → p = q) → l.cls = 1 → s.pageBusy l.addr (2 ^ pageBits level) = false →
    ∃ t s1, exec .classificationService s = .next t ∧ Classified s s1 f pa e l ∧ (s1.serve fe false).becomes t)

/-- R143, R144, R145: a write to SEQ starts the invalidation that the block describes, in every domain: BUSY is 1, and no TLB,
walk cache or split holds a translation of its range; a write while BUSY is discarded. Once nothing made before it is under way
it is complete: SEQ shows its number and BUSY is 0, or the splits that wait for it go on; without the code bit still no
structure holds a translation of its range, and with it no instruction cache and no fetch buffer holds a window of it. -/
def Sys2Proof.Claims.InvalidationsComplete : Prop :=
  (∀ (s : State) (w : BitVec 32), s.tr.invBusy = true → ∃ t, exec (.invalidationStart w) s = .next t ∧ s.becomes t) ∧
  (∀ (s : State) (w : BitVec 32), s.tr.invBusy = false →
    ∃ t V, exec (.invalidationStart w) s = .next t ∧ t.tr.invBusy = true ∧ Map.find t.tr.invals s.tr.next = some V ∧
      V.ctx = s.tr.invCtx.toNat ∧ V.all = s.tr.invAll ∧ V.first = s.tr.invVa.toNat ∧ V.count = s.tr.invN.toNat ∧
      V.domains = BitVec.allOnes 64 ∧ V.icache = s.tr.invIc ∧ V.seq = some w ∧ V.began = s.ms.next ∧ NoneCached t V ∧
      t.ct = s.ct ∧ t.exe.teams = s.exe.teams ∧ ∀ a, t.mb a = s.mb a) ∧
  (∀ (s : State) (id : Nat) (v : Inval), Map.find s.tr.invals id = some v → s.invalBusy v = false →
    ∃ t, exec (.invalidationComplete id) s = .next t ∧ Map.find t.tr.invals id = none ∧
      (v.icache = false → NoneCached t v ∧ ∀ a, t.mb a = s.mb a) ∧
      (v.icache = true → ∀ k, v.domains.getLsbD (k / 72) = true → ∀ w ∈ (t.coreAt k).icache, ¬ Covered v w) ∧
      (v.icache = true → ∀ h G T, t.grp h = some G → t.tm G.team = some T → v.domains.getLsbD (T.coreKey / 72) = true →
        ∀ e, ∀ w ∈ (G.sp e).fbuf, ¬ Covered v w) ∧
      (∀ q, v.seq = some q → t.tr.invSeq = q ∧ t.tr.invBusy = false) ∧
      (v.seq = none → ∀ g G e, s.grp g = some G → e < 4 → (G.sp e).v = true → (G.sp e).wait = .inval id →
        ∃ H, t.grp g = some H ∧ (H.sp e).st = .ready ∧ (H.sp e).relDone = true ∧ (H.sp e).pc = (G.sp e).pc ∧ H.regs = G.regs) ∧
      t.ct = s.ct ∧ t.exe.teams = s.exe.teams)

/-- The service of faults and of classification, and invalidations complete (see `FaultServiceCompletes`,
`InvalidationsComplete`). -/
def Obligations.FaultsAndInvalidationsComplete : Prop := FaultServiceCompletes ∧ InvalidationsComplete

namespace Sys2Proof.Claims

/-! ### Loads, stores and their completion -/

/-- The bytes of a lane's access that lie in a line, each with its offset in the access. -/
def inLine (l : LaneAcc) (line : Nat) : List (Nat × Nat) := (l.bytesIn line).map (fun b => (b.1, b.2.1))

/-- No byte of a request lies in a private page (R374). -/
def notPrivate (f : Flight) : Prop := ∀ l ∈ f.lanes, ∀ g ∈ l.segs, g.cls ≠ 1

/-- A request in flight, numbered as requests are, whose lanes are distinct. -/
def inFlight (s : State) (req : Nat) (f : Flight) : Prop :=
  Map.find s.ms.flights req = some f ∧ req < s.ms.next ∧ (f.lanes.map (fun l => l.lane)).Nodup

/-- What a lane has after it has read the line's bytes (R301), each with its poison, given for an address, an offset, CLS and
OWNER: the value, little-endian, and its poisoned words. -/
structure HasRead (l l' : LaneAcc) (line : Nat) (v : Nat × Nat × Nat × Nat → Byte × Bool) : Prop where
  lane : l'.lane = l.lane
  left : l'.left = l.left.filter (fun x => x != line)
  got : l'.got = (l.bytesIn line).foldl (fun n b => n + (v b).1.toNat * 256 ^ b.2.1) l.got
  psn : ∀ i, l'.gotPsn.testBit i = (l.gotPsn.testBit i || (l.bytesIn line).any (fun b => b.2.1 / 4 == i && (v b).2))

/-- The lane of a request whose read has been performed and not delivered (R168). -/
def delivers (f : Flight) (C : Claim) (j : Nat) (l : LaneAcc) : Prop :=
  l ∈ f.lanes ∧ l.lane = j ∧ l.left = [] ∧ l.fault = none ∧ l.done = false ∧ C.lanes.has j = true

/-- A store's bytes `ws` of a line touch the sector of an address with poison. -/
def spoils (ws : List WByte) (a : Nat) : Prop := ∃ w ∈ ws, w.1 / 32 = a / 32 ∧ w.2.2 = true

/-- With its bytes `ws` of a line a store has written the sector of an address in full with clean data: at once, or with what it
has written before, which the request records (a copy-out names the sectors that it has completed) (R303, R314). -/
def completes (f : Flight) (line : Nat) (ws : List WByte) (a : Nat) : Prop :=
  a / 128 = line ∧
  ((∀ i, i < 32 → ∃ w ∈ ws, w.1 = a / 32 * 32 + i) ∨
    if f.batch.isSome = true then f.op.testBit (a / 32 % 4) = true
    else (Map.getD f.secs (a / 32) 0).getLsbD 32 = false ∧
      ∀ i, i < 32 → (∃ w ∈ ws, w.1 = a / 32 * 32 + i) ∨ (Map.getD f.secs (a / 32) 0).getLsbD i = true)

/-- The bytes `ws` of a store have been written, the last of each address, with the marks of R303: `v` reads a byte and its mark
before, `v'` after. -/
structure Written (f : Flight) (line : Nat) (ws : List WByte) (v v' : Nat → Byte × Bool) : Prop where
  bytes : ∀ a, (v' a).1 = ((ws.reverse.find? (fun w => w.1 == a)).map (fun w => w.2.1)).getD (v a).1
  marked : ∀ a, spoils ws a → (v' a).2 = true
  cleared : ∀ a, ¬ spoils ws a → completes f line ws a → (v' a).2 = false
  kept : ∀ a, ¬ spoils ws a → ¬ completes f line ws a → (v' a).2 = (v a).2

/-- The lanes of a request that reached a line have it left no longer. -/
def Reached (s t : State) (req line : Nat) (f : Flight) : Prop :=
  ∀ F, Map.find t.ms.flights req = some F → ∀ l ∈ F.lanes, (∃ m ∈ s.lanesAt req f line, m.lane = l.lane) → line ∉ l.left

/-- Neither groups but for what they owe, nor teams, translation or the control region have changed. -/
structure Nearby (s t : State) : Prop where
  groups : ∀ g G, s.grp g = some G → ∃ H, t.grp g = some H ∧ H.regs = G.regs ∧ H.hregs = G.hregs ∧ H.pend = G.pend ∧
    H.claims = G.claims ∧ H.fflags = G.fflags
  teams : t.exe.teams = s.exe.teams
  tr : t.tr = s.tr
  ct : t.ct = s.ct

/-- The value that an atomic's lane reads from memory `m` in a line, little-endian. -/
def atomOld (line : Nat) (m : Nat → Byte) (l : LaneAcc) : Nat :=
  (inLine l line).foldl (fun n b => n + (m b.1).toNat * 256 ^ b.2) 0

/-- Memory after the read-modify-write of one lane (R388). -/
def atomMem (f : Flight) (line : Nat) (m : Nat → Byte) (l : LaneAcc) (a : Nat) : Byte :=
  match atomNew f.op f.ty (atomOld line m l) l.data l.data2 with
  | none => m a
  | some n =>
    match (inLine l line).find? (fun b => b.1 == a) with
    | some b => BitVec.ofNat 8 (n / 256 ^ b.2)
    | none => m a

/-- No byte of a line is combined for core `k` (R372). -/
def nothingCombined (s : State) (k : Nat) : Prop :=
  ∀ p ∈ s.ms.combs, p.1 % 64 = k / 72 → p.2.cores.getLsbD (k % 72) = false

/-- The combined bytes of a line, without those of a mask, have gone home (R372). -/
def sentHome (s t : State) (d line : Nat) (without : BitVec 128) : Prop :=
  Map.find t.ms.combs (64 * line + d) = none ∧
  ∀ a, t.mb a = match Map.find s.ms.combs (64 * line + d) with
    | some c =>
      if a / 128 = line ∧ c.mask.getLsbD (a % 128) = true ∧ without.getLsbD (a % 128) = false then Map.getD c.bytes (a % 128) 0
      else s.mb a
    | none => s.mb a

/-- The state with the probes and requests of `t`. -/
def withProbes (s t : State) : State := { s with ms := { s.ms with probes := t.ms.probes, flights := t.ms.flights } }

/-- A probe has been answered at time `n` (R362): it is gone, and its store's line completes no earlier. -/
def answered (s t : State) (id : Nat) (req : Option Nat) (n : Nat) : Prop :=
  Map.find t.ms.probes id = none ∧ (withProbes s t).becomes t ∧
  (∀ i, i ≠ id → Map.find t.ms.probes i = Map.find s.ms.probes i) ∧
  (∀ i, req ≠ some i → Map.find t.ms.flights i = Map.find s.ms.flights i) ∧
  ∀ f F, req = some f → Map.find s.ms.flights f = some F → ∃ F', Map.find t.ms.flights f = some F' ∧
    F'.performed.length = F.performed.length ∧
    ∀ (i : Nat) (P : StLine), F.performed[i]? = some P → ∃ P' : StLine, F'.performed[i]? = some P' ∧
      P' = if id ∈ P.probes then { P with probes := P.probes.erase id, t := max P.t n } else P

/-- What a lane `q` of a galley load has after a fill (lane `l` of request `f`) that it waits for: the line's bytes that were clean
when the load issued, poisoned where the fill read poison, where the galley's sector is marked, or where the fill has failed
(R294). -/
structure HasFilled (F f : Flight) (l q q' : LaneAcc) (mark : Nat → Bool) : Prop where
  left : q'.left = q.left.filter (fun x => x != l.data2)
  got : q'.got = (List.range F.size).foldl (fun n i =>
    let o := q.va - 2 ^ 64 + i
    if f.galLine ≤ o ∧ o < f.galLine + 128 ∧ l.data.testBit (o - f.galLine) = false
    then n + (l.got / 256 ^ (o - f.galLine)) % 256 * 256 ^ i else n) q.got
  psn : ∀ w, q'.gotPsn.testBit w = (q.gotPsn.testBit w || (List.range F.size).any (fun i =>
    let o := q.va - 2 ^ 64 + i
    decide (f.galLine ≤ o ∧ o < f.galLine + 128 ∧ l.data.testBit (o - f.galLine) = false ∧ i / 4 = w) &&
      (l.psn || l.gotPsn.testBit ((o - f.galLine) / 4) || mark o)))

/-- The load that a fill serves has taken its line in each lane that waits for it (R294). -/
def served (s t : State) (req : Nat) (f : Flight) (l : LaneAcc) (mark : Nat → Bool) : Prop :=
  ∀ p F, f.parent = some p → p ≠ req → Map.find s.ms.flights p = some F → F.ticket.isSome = true → (∃ q ∈ F.lanes, q.done = false) →
    ∃ F', Map.find t.ms.flights p = some F' ∧ F'.lanes.length = F.lanes.length ∧
      ∀ (i : Nat) (q : LaneAcc), F.lanes[i]? = some q → ∃ q', F'.lanes[i]? = some q' ∧
        (l.data2 ∈ q.left → HasFilled F f l q q' mark) ∧ (l.data2 ∉ q.left → q' = q)

end Sys2Proof.Claims

/-- R168, R281, R301, R359, R361, R441: a load reads a line for each of its lanes that may go, at the line's point of coherence:
the home's bytes and sector marks where the line is homed in its core's domain (and the line's LX rises by its lease, where it
takes one); the domain's copy under its combined bytes at domain scope elsewhere; the owner's L2 for a private page; the home,
after the domain's combined bytes have gone there, at a wider scope or for an uncached page; a fenced range reads as poison.
The completion of a claim, where it may be served in the cycle, writes the words that its lanes have read into the places of the
claim that still wait for it, and makes a register FULL with the claim's last outstanding lane. -/
def Sys2Proof.Claims.LoadsReadAndDeliver : Prop :=
  (∀ (s : State) (req line d : Nat) (f : Flight) (l0 : LaneAcc), inFlight s req f → f.kind = .load → f.ticket.isSome = true →
    (∀ l ∈ f.lanes, l.va < 2 ^ 64) → d = f.core / 72 → s.fencedAcc (128 * line) (f.lineAttr line).1 (f.lineAttr line).2 = false →
    (s.lanesAt req f line).head? = some l0 → (∀ l ∈ s.lanesAt req f line, l.done = false) →
    let wide : Bool := (f.acq && decide (2 ≤ f.scope)) || l0.mem != 0
    let remote : Prop := (f.lineAttr line).1 ≠ 1 ∧ ∃ h, homeOf (128 * line) = some h ∧ h ≠ d
    ¬ remote ∨ (wide = false ∧ d < 64 ∧ notPrivate f) →
    ∃ t, exec (.loadAtHome req line) s = .next t ∧ Nearby s t ∧
      (∀ l ∈ s.lanesAt req f line, ∃ F l', Map.find t.ms.flights req = some F ∧ l' ∈ F.lanes ∧
        HasRead l l' line (fun b => s.pocByte d b.1 b.2.2.1 b.2.2.2 wide)) ∧
      (¬ remote → (∀ a, t.mb a = s.mb a) ∧
        (homeOf (128 * line) = some d → notPrivate f → l0.mem = 0 → f.noAlloc = false → f.acq = false →
          t.lxOf d line = max (s.wtime d + leaseNs l0.lease) (s.lxOf d line)))) ∧
  (∀ (s : State) (d a : Nat) (cls owner : Nat) (wide : Bool), cls ≠ 1 → homeOf a = some d →
    s.pocByte d a cls owner wide = (s.mb a, s.mark a)) ∧
  (∀ (s : State) (req line d h : Nat) (f : Flight) (l0 : LaneAcc), inFlight s req f → f.kind = .load → f.ticket.isSome = true →
    (∀ l ∈ f.lanes, l.va < 2 ^ 64) → notPrivate f → d = f.core / 72 → homeOf (128 * line) = some h → h ≠ d →
    s.fencedPa (128 * line) = false → (s.lanesAt req f line).head? = some l0 → (∀ l ∈ s.lanesAt req f line, l.done = false) →
    (f.acq = true ∧ 2 ≤ f.scope) ∨ l0.mem ≠ 0 →
    ∃ t, exec (.loadAtHome req line) s = .next t ∧ Nearby s t ∧ sentHome s t d line 0 ∧
      (∀ l ∈ s.lanesAt req f line, ∃ F l', Map.find t.ms.flights req = some F ∧ l' ∈ F.lanes ∧
        HasRead l l' line (fun b => (t.mb b.1, t.mark b.1)))) ∧
  (∀ (s : State) (req line : Nat) (f : Flight), inFlight s req f → f.kind = .load → f.ticket.isSome = true →
    (∀ l ∈ f.lanes, l.va < 2 ^ 64) → s.fencedPa (128 * line) = true →
    (∀ l ∈ s.lanesAt req f line, l.done = false) →
    ∃ t, exec (.loadAtHome req line) s = .next t ∧
      (∀ l ∈ s.lanesAt req f line, ∃ F l', Map.find t.ms.flights req = some F ∧ l' ∈ F.lanes ∧ l'.lane = l.lane ∧
        ∀ b ∈ inLine l line, l'.gotPsn.testBit (b.2 / 4) = true) ∧
      (∀ a, t.mb a = s.mb a) ∧ Nearby s t) ∧
  (∀ (f : Flight) (l : LaneAcc) (i : Nat), f.kind = .load → f.op ≠ 1 → f.sext = false → l.got < 256 ^ f.size →
    i < (f.size + 3) / 4 →
    (f.words l)[i]? = some { val := BitVec.ofNat 32 (l.got / 2 ^ (32 * i)), psn := decide (l.gotPsn ≠ 0) }) ∧
  (∀ (s : State) (req tk i r : Nat) (f : Flight) (G : Group) (T : Team) (C : Claim), inFlight s req f → f.ticket = some tk →
    (∀ l ∈ f.lanes, l.lane < 96) → s.grp f.g = some G → s.tm G.team = some T → G.duplex = false →
    Map.find G.claims tk = some C → s.mayComplete T.coreKey f.g C.seq = true →
    C.dests[i]? = some (some r) → G.pendOf r = some tk → 4 ≤ r →
    (∀ k q, C.dests[k]? = some (some q) → q < 256 ∧ (q = r → k = i)) →
    ∃ t H, exec (.claimCompletion req) s = .next t ∧ t.grp f.g = some H ∧
      (∀ j l, delivers f C j l → H.reg r j = (f.words l).getD i {}) ∧
      (∀ j, j < 96 → (∀ l, ¬ delivers f C j l) → H.reg r j = G.reg r j) ∧
      ((∀ j, j < 96 → C.lanes.has j = true → ∃ l, delivers f C j l) → H.pendOf r = none) ∧
      ((∃ j, j < 96 ∧ C.lanes.has j = true ∧ ∀ l, ¬ delivers f C j l) → H.pendOf r = some tk) ∧
      (∀ q j, 4 ≤ q → q < 256 → j < 96 → some q ∉ C.dests → H.reg q j = G.reg q j ∧ H.pendOf q = G.pendOf q) ∧
      (∀ e, (G.sp e).same (H.sp e)) ∧ H.fflags = G.fflags ∧
      (∀ h K, h ≠ f.g → s.grp h = some K → ∃ L, t.grp h = some L ∧ K.same L) ∧
      (∀ n, n ≠ req → Map.find t.ms.flights n = Map.find s.ms.flights n) ∧
      { s.noteComplete T.coreKey f.g C.seq with
          ms := { s.ms with flights := t.ms.flights }
          exe := { s.exe with groups := t.exe.groups } }.becomes t)

/-- R292, R294, R304: a fill of a stash window's line that has been read at home writes the line's clean bytes into the galley,
keeps the bytes that the team has written since, marks and clears sectors as a store does, and fills the line; the load that it
serves takes the bytes that were clean when it issued; the fill is over. A fill that has failed marks the line's sectors, and the
load takes poison. -/
def Sys2Proof.Claims.StashFillsComplete : Prop :=
  ∀ (s : State) (req n w i : Nat) (f : Flight) (l : LaneAcc) (T : Team), Map.find s.ms.flights req = some f →
    f.kind = .stashFill → f.lanes = [l] → l.left = [] → l.fault = none → f.win = some (n, w, i) → f.galLine % 32 = 0 →
    s.tm n = some T → Map.has T.windows w = true →
    ∃ t T', exec (.stashFillComplete req) s = .next t ∧ t.tm n = some T' ∧ Map.find t.ms.flights req = none ∧
      (l.psn = false →
        (∀ b, b < 128 → T'.gb (f.galLine + b) =
          if (T.dirty w i).getLsbD b then T.gb (f.galLine + b) else BitVec.ofNat 8 (l.got / 256 ^ b)) ∧
        (∀ k, k < 4 →
          let bad := ∃ b, b / 32 = k ∧ (T.dirty w i).getLsbD b = false ∧ l.gotPsn.testBit (b / 4) = true
          let whole := ∀ b, b / 32 = k → (T.dirty w i).getLsbD b = false
          (bad → T'.gmark (f.galLine + 32 * k) = true) ∧
          (¬ bad → whole → T'.gmark (f.galLine + 32 * k) = false) ∧
          (¬ bad → ¬ whole → T'.gmark (f.galLine + 32 * k) = T.gmark (f.galLine + 32 * k))) ∧
        T'.winLine w i = some { filled := true, expiry := l.expiry, dirty := T.dirty w i }) ∧
      (l.psn = true → (∀ o, T'.gb o = T.gb o) ∧ ∀ k, k < 4 → T'.gmark (f.galLine + 32 * k) = true) ∧
      (∀ o, o < f.galLine ∨ f.galLine + 128 ≤ o → T'.gb o = T.gb o ∧ T'.gmark o = T.gmark o) ∧
      served s t req f l T'.gmark ∧
      (∀ m, m ≠ n → t.tm m = s.tm m) ∧
      (∀ m, m ≠ req → f.parent ≠ some m → Map.find t.ms.flights m = Map.find s.ms.flights m) ∧
      { s with
          ms := { s.ms with flights := t.ms.flights }
          exe := { s.exe with teams := t.exe.teams } }.becomes t

namespace Sys2Proof.Claims

/-- A request of stores reaches a line (STORE_AT_HOME): it is a store or an atomic, its core stands in domain `d`, and no
checkpoint is being saved. -/
structure Arrives (s : State) (req line d : Nat) (f : Flight) : Prop where
  flight : inFlight s req f
  domain : d = f.core / 72
  ck : s.ct.ckBusy = false
  secs : Map.sorted f.secs = true

/-- The line of a store has been performed at time `n` under the group's issue number (R362, R363). -/
def performedAt (t : State) (req line n : Nat) (f : Flight) : Prop :=
  ∃ F ps, Map.find t.ms.flights req = some F ∧
    F.performed = f.performed ++ [{ line := line, probes := ps, t := n, refs := [{ g := f.g, seq := f.owes, dom := true }] }]

end Sys2Proof.Claims

/-- R288, R302, R303, R362, R372, R374, R441, R453: a store of lines homed in its core's domain writes its bytes at home in increasing
lane number and marks sectors; its completion time is the later of its arrival and the line's LX (its arrival in a device page). In
a private page it does so in the owner's L2. A store at domain scope of a line homed elsewhere joins the combined bytes of its
domain. In a fenced range a store is lost, and its group's lostst is set. While a checkpoint of the line's domain is saved, a store of
a domain that is not part of it waits. -/
def Sys2Proof.Claims.StoresArePerformed : Prop :=
  (∀ (s : State) (req line d : Nat) (f : Flight) (l0 : LaneAcc), Arrives s req line d f → f.kind = .store → notPrivate f →
    homeOf (128 * line) = some d → (2 ≤ f.scope → Map.find s.ms.combs (64 * line + d) = none) →
    (s.lanesAt req f line).head? = some l0 → s.fencedPa (128 * line) = false →
    ∃ t, exec (.storeAtHome req line) s = .next t ∧ Nearby s t ∧ Reached s t req line f ∧
      Written f line (storeBytes (s.lanesAt req f line) line) (fun a => (s.mb a, s.mark a)) (fun a => (t.mb a, t.mark a)) ∧
      performedAt t req line (if l0.mem = 2 then s.wtime d else max (s.wtime d) (s.lxOf d line)) f) ∧
  (∀ (s : State) (req line d o : Nat) (f : Flight) (l0 : LaneAcc), Arrives s req line d f → f.kind = .store →
    f.lineAttr line = (1, o) → homeOf (128 * line) ≠ some o → (s.ms.l2Held o).length < l2Lines →
    (2 ≤ f.scope → Map.find s.ms.combs (64 * line + d) = none) →
    (s.lanesAt req f line).head? = some l0 → storeBytes (s.lanesAt req f line) line ≠ [] → s.fencedAcc (128 * line) 1 o = false →
    ∃ t, exec (.storeAtHome req line) s = .next t ∧ Nearby s t ∧ Reached s t req line f ∧
      Written f line (storeBytes (s.lanesAt req f line) line) (fun a => s.pocByte d a 1 o true) (fun a => t.pocByte d a 1 o true) ∧
      (∀ a, t.mb a = s.mb a) ∧
      performedAt t req line (if l0.mem = 2 then s.wtime o else max (s.wtime o) (s.lxOf o line)) f) ∧
  (∀ (s : State) (req line d h : Nat) (f : Flight) (l0 : LaneAcc), Arrives s req line d f → f.kind = .store → f.scope < 2 →
    notPrivate f → homeOf (128 * line) = some h → h ≠ d → 128 * line / 2 ^ 52 = 0 → s.fencedPa (128 * line) = false →
    (s.lanesAt req f line).head? = some l0 → l0.mem = 0 → (s.ms.l2Held d).length < l2Lines →
    let ws := storeBytes (s.lanesAt req f line) line
    let old : Comb := Map.getD s.ms.combs (64 * line + d) { first := s.wtime d, limit := s.wtime d + 1000 * s.ct.cflush }
    ∃ t C, exec (.storeAtHome req line) s = .next t ∧ Nearby s t ∧ Reached s t req line f ∧
      (∀ a, t.mb a = s.mb a ∧ t.mark a = s.mark a) ∧ Map.find t.ms.combs (64 * line + d) = some C ∧
      (∀ i, i < 128 → C.mask.getLsbD i = (old.mask.getLsbD i || ws.any (fun w => w.1 % 128 == i))) ∧
      (∀ i, i < 128 → Map.getD C.bytes i 0 =
        ((ws.reverse.find? (fun w => w.1 % 128 == i)).map (fun w => w.2.1)).getD (Map.getD old.bytes i 0)) ∧
      C.cores.getLsbD (f.core % 72) = true ∧ C.first = old.first ∧ C.limit = old.limit ∧ C.reg = old.reg ∧
      C.stores = old.stores ++
        [{ g := f.g, seq := f.owes, dom := decide (old.reg ≠ 2), t := max (s.wtime d) (s.lxOf d line) }] ∧
      (∀ n, n ≠ 64 * line + d → Map.find t.ms.combs n = Map.find s.ms.combs n)) ∧
  (∀ (s : State) (req line d : Nat) (f : Flight), Arrives s req line d f → f.kind = .store → s.lanesAt req f line ≠ [] →
    s.fencedPa (128 * line) = true →
    ∃ t, exec (.storeAtHome req line) s = .next t ∧ Nearby s t ∧ Reached s t req line f ∧
      (∀ a, t.mb a = s.mb a ∧ t.mark a = s.mark a) ∧
      ∀ G, s.grp f.g = some G → ∃ H, t.grp f.g = some H ∧ H.lostst = true) ∧
  (∀ (s : State) (req line : Nat) (f : Flight), inFlight s req f → s.ct.ckBusy = true → s.ct.ckCmd = 1 → line < 2 ^ 36 →
    s.ct.ckMask.getLsbD (line / 2 ^ 30) = true → s.ct.ckMask.getLsbD (f.core / 72) = false →
    ∃ t, exec (.storeAtHome req line) s = .next t ∧ s.becomes t)

/-- R379, R386, R388, R441: an atomic reads, operates and writes at home as one, lane after lane in increasing number: each lane
reads what the lanes before it have left, with its poison, and writes what its operation gives, nothing where it gives none. In a
fenced range nothing is written, its lanes read poison, and its group's lostst is set. -/
def Sys2Proof.Claims.AtomicsArePerformed : Prop :=
  (∀ (s : State) (req line d : Nat) (f : Flight), Arrives s req line d f → f.kind = .atom ∨ f.kind = .red → notPrivate f →
    (homeOf (128 * line)).isSome = true → s.fencedPa (128 * line) = false →
    Map.find s.ms.combs (64 * line + d) = none → s.lanesAt req f line ≠ [] →
    (∀ l ∈ s.lanesAt req f line, ((inLine l line).map (fun b => b.1)).Nodup) →
    ∃ t, exec (.storeAtHome req line) s = .next t ∧ Nearby s t ∧ Reached s t req line f ∧
      (∀ a, t.mb a = (s.lanesAt req f line).foldl (atomMem f line) s.mb a) ∧
      (∀ xs l ys, s.lanesAt req f line = xs ++ l :: ys → ∀ F, Map.find t.ms.flights req = some F →
        ∀ l' ∈ F.lanes, l'.lane = l.lane → l'.got = l.got + atomOld line (xs.foldl (atomMem f line) s.mb) l) ∧
      ∀ l, s.lanesAt req f line = [l] →
        (∀ F, Map.find t.ms.flights req = some F → ∀ l' ∈ F.lanes, l'.lane = l.lane → ∀ i, l'.gotPsn.testBit i =
          (l.gotPsn.testBit i || ((inLine l line).any (fun b => b.2 / 4 == i) && (inLine l line).any (fun b => s.mark b.1)))) ∧
        ∀ a, t.mark a = (s.mark a || (l.psn && (atomNew f.op f.ty (atomOld line s.mb l) l.data l.data2).isSome &&
          (inLine l line).any (fun b => b.1 / 32 == a / 32)))) ∧
  (∀ (s : State) (req line d : Nat) (f : Flight), Arrives s req line d f → f.kind = .atom ∨ f.kind = .red →
    s.fencedPa (128 * line) = true → s.lanesAt req f line ≠ [] →
    ∃ t, exec (.storeAtHome req line) s = .next t ∧ Nearby s t ∧ (∀ a, t.mb a = s.mb a ∧ t.mark a = s.mark a) ∧
      (∀ F, Map.find t.ms.flights req = some F → ∀ l ∈ s.lanesAt req f line, ∀ l' ∈ F.lanes, l'.lane = l.lane →
        ∀ b ∈ inLine l line, l'.gotPsn.testBit (b.2 / 4) = true) ∧
      ∀ G, s.grp f.g = some G → ∃ H, t.grp f.g = some H ∧ H.lostst = true) ∧
  (∀ o b c : Nat, o < 2 ^ 32 → b < 2 ^ 32 → c < 2 ^ 32 →
    atomNew 0 .n32 o b c = some ((o + b) % 2 ^ 32) ∧ atomNew 1 .n32 o b c = some (min o b) ∧
    atomNew 2 .n32 o b c = some (max o b) ∧ atomNew 3 .n32 o b c = some (o &&& b) ∧ atomNew 4 .n32 o b c = some (o ||| b) ∧
    atomNew 5 .n32 o b c = some (o ^^^ b) ∧ atomNew 6 .n32 o b c = some b ∧
    atomNew 7 .n32 o b c = (if o = c then some b else none) ∧ atomNew 11 .n32 o b c = some (if b ≤ o then 0 else o + 1) ∧
    atomNew 12 .n32 o b c = some (if o = 0 ∨ b < o then b else o - 1))

/-- R288, R302, R303, R362, R372, R374, R386, R388, R441, R453: stores and atomics that reach a line are performed there (see
`StoresArePerformed`, `AtomicsArePerformed`). -/
def Obligations.StoresAndAtomicsArePerformed : Prop := StoresArePerformed ∧ AtomicsArePerformed

/-- R362, R363, R365, R375, R390: the completion time of a line of stores returns once every probe has answered (to the host not
before that time): each group that it carries stores of takes it into its times at domain (where still owed), wafer and system
scope. A release and a fence end when what they wait for has been performed: the earlier loads, and, but for a fence of kind
acquire, the earlier stores, whose times the core's wtime has reached. -/
def Sys2Proof.Claims.CompletionTimesReturn : Prop :=
  (∀ (s : State) (req line : Nat) (f : Flight) (P : StLine), Map.find s.ms.flights req = some f →
    f.performed.find? (fun l => l.line == line && l.probes.isEmpty) = some P →
    (∀ l ∈ f.performed, l.line = line → l.refs = [] → l.t ≤ s.wtime ((homeOf (128 * line)).getD 0)) →
    ∃ t, exec (.storeCompletionReturn req line) s = .next t ∧
      (∀ F, Map.find t.ms.flights req = some F → F.performed = f.performed.erase P) ∧
      (∀ n, n ≠ req → Map.find t.ms.flights n = Map.find s.ms.flights n) ∧
      (∀ g G, s.grp g = some G → ∃ H, t.grp g = some H ∧ H.regs = G.regs ∧ H.lostst = G.lostst ∧
        ((∃ r ∈ P.refs, r.g = g) → H.tWafer = max G.tWafer P.t ∧ H.tSys = max G.tSys P.t) ∧
        ((∃ r ∈ P.refs, r.g = g ∧ r.dom = true) → H.tDom = max G.tDom P.t) ∧
        ((∀ r ∈ P.refs, r.g ≠ g) → G.same H)) ∧
      { s with
          ms := { s.ms with flights := t.ms.flights }
          exe := { s.exe with groups := t.exe.groups } }.becomes t) ∧
  (∀ (s : State) (g e scope seq : Nat) (G : Group) (T : Team) (w : Wait), s.grp g = some G → s.tm G.team = some T →
    (G.sp e).v = true → (G.sp e).st = .waiting → (G.sp e).wait = w → s.loadsOut g seq = false →
    w = .fence scope seq 1 ∨
      (((∃ m, w = .release scope seq m) ∨ w = .fence scope seq 0 ∨ w = .fence scope seq 2) ∧
        (2 ≤ scope → nothingCombined s T.coreKey) ∧
        s.storeHeld g seq = false ∧ G.tAt scope ≤ s.wtimeCore T.coreKey ∧
        ∀ p ∈ G.stores, p.1 ≤ seq ∨ (2 ^ 64 ≤ p.1 ∧ G.batchOver 1 (p.1 - 2 ^ 64) = true) → p.2.known scope = true) →
    ∃ t H, exec (.completionTimeReached g e) s = .next t ∧ t.grp g = some H ∧ (H.sp e).st = .ready ∧ (H.sp e).relDone = true ∧
      (H.sp e).msg = w.words ∧ (H.sp e).pc = (G.sp e).pc ∧ H.regs = G.regs ∧ (∀ x, x ≠ e → (G.sp x).same (H.sp x)) ∧
      (∀ h K, h ≠ g → s.grp h = some K → ∃ L, t.grp h = some L ∧ K.same L) ∧
      { s with exe := { s.exe with groups := t.exe.groups } }.becomes t)

/-- R362, R370, R371, R372: a probe takes away its domain's copy of the line, sends its combined bytes home but for those that a
later store has written, and is answered with the LX of the copy, 0 where the domain holds none; the answer raises the store's
completion time, as does the filter's, which comes 48 ns after the probe has reached the partition's border. The registration of a
remote writer enters its domain in the line's entry (and changes nothing else while the home's directory has room), and once
acknowledged its stores have their domain times. Combined bytes go home CFLUSH µs after the first. -/
def Sys2Proof.Claims.CoherenceEventsComplete : Prop :=
  (∀ (s : State) (id : Nat) (p : Probe), Map.find s.ms.probes id = some p → p.answer = none → p.filter = false → p.domain < 64 → id < s.ms.next →
    s.fencedPa (128 * p.line) = false →
    ∃ t q, exec (.probe id) s = .next t ∧ sentHome s t p.domain p.line p.written ∧
      Map.find t.ms.l2 (64 * p.line + p.domain) = none ∧ Map.find t.ms.probes id = some q ∧
      q = { p with
        answer := some (if Map.has s.ms.l2 (64 * p.line + p.domain) then s.lxOf p.domain p.line else 0)
        at_ := s.wtime p.domain, written := q.written } ∧ Nearby s t) ∧
  (∀ (s : State) (id lxd : Nat) (p : Probe), Map.find s.ms.probes id = some p → p.answer = some lxd →
    ∃ t, exec (.probeAck id) s = .next t ∧ answered s t id p.req (max p.at_ lxd)) ∧
  (∀ (s : State) (id : Nat) (p : Probe), Map.find s.ms.probes id = some p → p.filter = true →
    p.at_ + 48 ≤ s.wtime ((homeOf (128 * p.line)).getD 0) →
    ∃ t, exec (.probeFilterAnswer id) s = .next t ∧ answered s t id p.req (p.at_ + 48)) ∧
  (∀ (s : State) (d line : Nat) (c : Comb), Map.find s.ms.combs (64 * line + d) = some c → c.reg = 0 → d < 64 →
    s.fencedPa (128 * line) = false →
    ∃ t E, exec (.remoteWriterRegistration d line) s = .next t ∧ Map.find t.ms.dir line = some E ∧ E.writers.getLsbD d = true ∧
      Map.find t.ms.combs (64 * line + d) = some { c with reg := 1 } ∧
      ((s.ms.dir.filter (fun p => homeOf (128 * p.1) == homeOf (128 * line))).length < 1048576 →
        (∀ n, n ≠ line → Map.find t.ms.dir n = Map.find s.ms.dir n) ∧
        (∀ n, n ≠ 64 * line + d → Map.find t.ms.combs n = Map.find s.ms.combs n) ∧
        { s with ms := { s.ms with dir := t.ms.dir, dirSeq := t.ms.dirSeq, combs := t.ms.combs } }.becomes t)) ∧
  (∀ (s : State) (d line : Nat) (c : Comb), Map.find s.ms.combs (64 * line + d) = some c → c.reg = 1 →
    ∃ t, exec (.registrationAcknowledged d line) s = .next t ∧
      (∀ n, Map.find t.ms.combs n = if n = 64 * line + d
        then some { c with reg := 2, ackAt := s.wtime d, stores := c.stores.map (fun r => { r with dom := false }), batches := [] }
        else Map.find s.ms.combs n) ∧
      (∀ r ∈ c.stores, r.dom = true → ∀ G, s.grp r.g = some G →
        ∃ H, t.grp r.g = some H ∧ max G.tDom (max r.t (s.wtime d)) ≤ H.tDom) ∧
      Nearby s t ∧ ∀ a, t.mb a = s.mb a) ∧
  (∀ (s : State) (d line : Nat) (c : Comb), Map.find s.ms.combs (64 * line + d) = some c → c.limit ≤ s.wtime d → d < 64 →
    s.fencedPa (128 * line) = false →
    ∃ t, exec (.cflushExpiry d line) s = .next t ∧ sentHome s t d line 0 ∧
      (∀ E, Map.find t.ms.dir line = some E → E.writers.getLsbD d = false) ∧ Nearby s t)

/-- R41, R359, R375, R441: the host reads the homes' bytes with their poison, a fenced range as poison, and a line that an owner's
L2 holds modified there; its writes are performed where it reads; outside device memory it reads and writes nothing. A snoop of a
line of host memory is answered only once the bridge's wtime has passed the line's LX + 4 ns, and then the bridge grants it no
longer. -/
def Obligations.HostPortCompletes : Prop :=
  (∀ (s : State) (pa len : Nat), pa + len ≤ 2 ^ 43 →
    ∃ t, exec (.hostMemRead pa len) s = .next t ∧ t.hp.read.length = len ∧
      (∀ i, i < len → s.ownerOf ((pa + i) / 128) = none →
        t.hp.read[i]? = some (s.mb (pa + i), s.mark (pa + i) || s.fencedPa (pa + i))) ∧
      (∀ i d l, i < len → s.ownerOf ((pa + i) / 128) = some d → Map.find s.ms.owned (64 * ((pa + i) / 128) + d) = some l →
        t.hp.read[i]? = some ((Map.find l.bytes ((pa + i) % 128)).getD (s.mb (pa + i)),
          l.marks.getLsbD ((pa + i) % 128 / 32) || s.fencedPa (pa + i) || (s.fencedD d && (homeOf (pa + i)).isSome))) ∧
      { s with hp := { s.hp with read := t.hp.read } }.becomes t) ∧
  (∀ (s : State) (pa len : Nat) (bytes : List Byte), 2 ^ 43 < pa + len →
    (∃ t, exec (.hostMemRead pa len) s = .next t ∧ s.becomes t) ∧
    (bytes.length = len → ∃ t, exec (.hostMemWrite pa bytes) s = .next t ∧ s.becomes t)) ∧
  (∀ (s : State) (pa : Nat) (bytes : List Byte), pa + bytes.length ≤ 2 ^ 43 →
    (∀ i, i < bytes.length →
      s.fencedAcc (128 * ((pa + i) / 128)) (s.hostAttr ((pa + i) / 128)).1 (s.hostAttr ((pa + i) / 128)).2 = false ∧
      ∀ d, s.ownerOf ((pa + i) / 128) = some d → homeOf (pa + i) ≠ some d) →
    ∃ t, exec (.hostMemWrite pa bytes) s = .next t ∧ Nearby s t ∧
      ∀ a, (t.hostRead a).1 = if pa ≤ a ∧ a < pa + bytes.length then bytes.getD (a - pa) 0 else (s.hostRead a).1) ∧
  (∀ (s : State) (line : Nat), 128 * line / 2 ^ 52 = 2 →
    ∃ t, exec (.hostSnoop line) s = .next t ∧
      (s.wtime 0 ≤ s.lxOf 0 line + 4 → s.becomes t) ∧
      (s.lxOf 0 line + 4 < s.wtime 0 → t.hp = { s.hp with snooped := some line } ∧ Map.find t.ms.lx (64 * line) = none ∧
        (∀ n, n ≠ 64 * line → Map.find t.ms.lx n = Map.find s.ms.lx n) ∧
        { s with hp := t.hp, ms := { s.ms with lx := t.ms.lx } }.becomes t))

/-- Reads at the home, the completion of claims, and the fills of stash windows complete (see `LoadsReadAndDeliver`,
`StashFillsComplete`). -/
def Obligations.ReadsComplete : Prop := LoadsReadAndDeliver ∧ StashFillsComplete

/-- The return of completion times, and the events of the coherence of copies complete (see `CompletionTimesReturn`,
`CoherenceEventsComplete`). -/
def Obligations.CompletionTimesAndProbesComplete : Prop := CompletionTimesReturn ∧ CoherenceEventsComplete

namespace Sys2Proof.Claims

/-! ### Placement, start and choice -/

/-- Every team and every group has a number below the next one. -/
def numbered (s : State) : Prop :=
  Map.sorted s.exe.teams = true ∧ Map.sorted s.exe.groups = true ∧ (∀ p ∈ s.exe.teams, p.1 < s.exe.nextTeam) ∧
    ∀ p ∈ s.exe.groups, p.1 < s.exe.nextGroup

/-- The machine's only launch: it has one team, not yet sent, no hint and no region, has passed its checks, and heads its queue. -/
def oneLaunch (s : State) (l : Nat) (L : Launch) : Prop :=
  s.wk.launches = [(l, L)] ∧ L.head = l ∧ L.sub = 0 ∧ L.bodies = [] ∧ L.checked = true ∧ L.retired = false ∧ L.cancelled = false ∧
    L.invalid = none ∧ L.qfail = none ∧ L.sent = [] ∧ L.prio < 4 ∧ L.slot = (s.queue L.queue).head ∧ L.forme.teams = 1 ∧
    L.forme.coRes = false ∧ L.forme.region = false ∧ L.forme.hmode = 0

/-- A group has just started (R91): one split at ENTRY with every lane, or the primaries in duplex mode; its arguments in every
lane of v4 onward, its other registers zero and FULL. -/
structure Started (f : Forme) (r : Role) (G : Group) : Prop where
  v : ∀ e, (G.sp e).v = decide (e = 0)
  pc : (G.sp 0).pc = BitVec.ofNat 64 r.entry
  rpc : (G.sp 0).rpc = 0
  st : (G.sp 0).st = .ready
  lanes : ∀ j, j < 96 → (G.sp 0).memb.has j = decide (f.duplex = false ∨ j < 48) ∧ (G.sp 0).mask.has j = (G.sp 0).memb.has j
  args : ∀ k j, k < r.narg → j < 96 → G.reg (4 + k) j = { val := f.args.getD (r.argofs + k) 0 }
  zero : ∀ q j, 4 + r.narg ≤ q → j < 96 → G.reg q j = {}
  full : ∀ q, G.pendOf q = none
  marks : G.lvl = 0 ∧ G.frozen = false ∧ G.lostst = false ∧ G.fflags = 0 ∧ G.dead = 0 ∧ G.exited = 0 ∧ G.req = 0
  claims : G.claims = []

/-- The role of a forme; the one that a missing entry stands for is never used. -/
def roleAt (f : Forme) (i : Nat) : Role :=
  f.roles.getD i { entry := 0, groups := 0, regs8 := 1, narg := 0, argofs := 0, shed := false, crit := false }

/-- A group may be chosen for its entry `e` (R178): its team runs on the core, it stands on the slice, and the split is ready. -/
def issuable (s : State) (k sl g e : Nat) : Prop :=
  ∃ G T, s.grp g = some G ∧ s.tm G.team = some T ∧ (G.sp e).v = true ∧ (G.sp e).st = .ready ∧ G.stopped = false ∧
    G.retired = false ∧ G.slice = sl ∧ T.coreKey = k ∧ T.st = .started

end Sys2Proof.Claims

/-- R83, R84: what a domain's dispatcher reserves is free: on an enabled core of the domain, a group slot and the register units
for each group on its slice, a contiguous run of the galley, byte barriers and tiles. -/
def Sys2Proof.Claims.ReservationsFit : Prop :=
  ∀ (s : State) (d l : Nat) (f : Forme) (only : Option Nat) (k gal : Nat) (plan : List (Nat × Nat)),
    s.chooseCore d l f only = some (k, plan, gal) →
    (∃ c, c < 72 ∧ k = coreKey d c) ∧ (s.coreAt k).state = 0 ∧ (∀ x, only = some x → k = x) ∧
    plan.map (fun p => p.2) = f.unitsOf ∧
    (∀ p ∈ plan, p.1 < 6 ∧ s.rsvOk k p.1 l f.rsv = true) ∧
    (∀ sl, sl < 6 → (plan.filter (fun p => p.1 == sl)).length ≤ s.freeSlots k sl ∧
      ((plan.filter (fun p => p.1 == sl)).map (fun p => p.2)).sum ≤ s.freeRegs k sl) ∧
    gal + f.galSize / 512 ≤ 4096 ∧ (∀ r ∈ s.galRuns k, r.1 + r.2 ≤ gal ∨ gal + f.galSize / 512 ≤ r.1) ∧
    f.bbars ≤ s.freeBbars k ∧ f.acc ≤ s.freeAcc k

/-- R81, R82: a placement cycle sends at most one team to each domain, and only to domains with PLACE; it changes nothing but
teams and launches. The one team of the machine's one launch goes, where some domain of its partition fits it, to one that
fits it and has the most free group slots of those. -/
def Sys2Proof.Claims.PlacementCyclesComplete : Prop :=
  (∀ s : State, numbered s →
    ∃ t, exec .placementCycle s = .next t ∧
      (∀ n T, t.tm n = some T → s.tm n = some T ∨ (s.exe.nextTeam ≤ n ∧ T.st = .inFlight ∧ s.placeBit T.domain = true)) ∧
      (∀ n m T U, s.exe.nextTeam ≤ n → s.exe.nextTeam ≤ m → n ≠ m → t.tm n = some T → t.tm m = some U → T.domain ≠ U.domain) ∧
      { s with wk := t.wk, exe := { s.exe with teams := t.exe.teams, nextTeam := t.exe.nextTeam } }.becomes t) ∧
  (∀ (s : State) (l d : Nat) (L : Launch), numbered s → oneLaunch s l L → d < 64 → s.inPartition L.forme.ctx d = true →
    s.fits d l L.forme 0 = true →
    ∃ t T, exec .placementCycle s = .next t ∧ t.tm s.exe.nextTeam = some T ∧ T.launch = l ∧ T.index = 0 ∧ T.st = .inFlight ∧
      s.inPartition L.forme.ctx T.domain = true ∧ s.fits T.domain l L.forme 0 = true ∧ s.freeSlotsOf d ≤ s.freeSlotsOf T.domain)

/-- R51, R73, R81, R83, R85, R87, R91, R92: a team that arrives is reserved on the core and with the resources that its dispatcher
chooses, where its domain is still one of its partition's and ready and the order of its queue holds; else it returns unplaced. When every team of a co-resident unit is reserved, all of them start. A team that starts has its groups as
R91 says. -/
def Obligations.TeamsArriveAndStart : Prop :=
  (∀ (s : State) (n : Nat) (T : Team) (L : Launch), s.tm n = some T → T.st = .inFlight → s.launch T.launch = some L →
    (∀ p ∈ s.exe.teams, p.1 < n → p.2.st = .inFlight → p.2.domain ≠ T.domain) →
    let may := s.inPartition L.forme.ctx T.domain = true ∧ s.placeBit T.domain = true ∧
      ∃ H, s.launch L.head = some H ∧ s.orderOk H = true
    let pick := s.chooseCore T.domain T.launch L.forme (s.onlyTile L.forme T.index)
    ∃ t, exec (.teamArrival n) s = .next t ∧
      (∀ k plan gal, may → pick = some (k, plan, gal) →
        (s.setTm n { T with core := k % 72, st := .reserved, plan := plan, galBase := gal }).becomes t) ∧
      (¬ may ∨ pick = none → t.tm n = none ∧ (∀ m, m ≠ n → t.tm m = s.tm m) ∧
        (∃ M, t.launch T.launch = some M ∧ M = { L with sent := M.sent } ∧ Map.find M.sent T.index = none) ∧
        { s with wk := { s.wk with launches := t.wk.launches }, exe := { s.exe with teams := t.exe.teams } }.becomes t)) ∧
  (∀ (s : State) (head : Nat), numbered s → s.wk.gathering = some head →
    (∀ l ∈ s.unit head, ∃ L, s.launch l = some L ∧
      (s.exe.teams.filter (fun p => p.2.launch == l && p.2.st == .reserved)).length = L.forme.teams) →
    (∀ n T, s.tm n = some T → T.launch ∈ s.unit head → T.st = .reserved) →
    ∃ t, exec .unitStart s = .next t ∧ t.wk.gathering = none ∧
      (∀ n T, s.tm n = some T → T.launch ∈ s.unit head →
        ∃ T', t.tm n = some T' ∧ T'.st = .started ∧ T'.domain = T.domain ∧ T'.core = T.core ∧ T'.plan = T.plan) ∧
      (∀ n T, s.tm n = some T → T.launch ∉ s.unit head → t.tm n = some T) ∧
      (∀ g G, s.grp g = some G → ∃ H, t.grp g = some H ∧ G.same H) ∧ t.tr = s.tr ∧ t.ct = s.ct ∧ ∀ a, t.mb a = s.mb a) ∧
  (∀ (s : State) (n : Nat) (T : Team) (L : Launch), numbered s → s.tm n = some T → T.st = .reserved → T.frame = none →
    s.launch T.launch = some L → L.forme.coRes = false → T.plan.length = L.forme.roleOf.length →
    ∃ t T', exec (.teamStart n) s = .next t ∧ t.tm n = some T' ∧ T'.st = .started ∧
      T'.groups = T.groups ++ (List.range T.plan.length).map (fun i => s.exe.nextGroup + i) ∧
      (∀ i, i < T.plan.length → ∃ G, t.grp (s.exe.nextGroup + i) = some G ∧ G.team = n ∧ G.index = i ∧
        G.role = L.forme.roleOf.getD i 0 ∧ G.slice = (T.plan.getD i (0, 0)).1 ∧
        Started L.forme (roleAt L.forme (L.forme.roleOf.getD i 0)) G) ∧
      (∀ g G, s.grp g = some G → ∃ H, t.grp g = some H ∧ G.same H) ∧ (∀ m, m ≠ n → t.tm m = s.tm m) ∧
      t.tr = s.tr ∧ t.ct = s.ct ∧ ∀ a, t.mb a = s.mb a)

/-- R164, R170, R176, R178, R181, R182, R334: in a cluster cycle a slice chooses once and after the slices below it, and then the turn is a
split's that may issue, or nobody's: the split that holds the slice's latch chain before any other, unless it stands at its
reconvergence address; the only ready split of a slice where the allowance lets it. A slice's clock takes the highest ratio that
its groups ask for and their contexts allow, under the domain's ceiling, and the cycles so far count at the old one. -/
def Obligations.ChoicesComplete : Prop :=
  (∀ (s : State) (d c sl : Nat), numbered s → s.cur = .idle →
    ∃ t, exec (.issueChoice d c sl) s = .next t ∧
      (t.cur = .idle ∨ ∃ g e, t.cur = .split g e ∧ issuable t (coreKey d c) sl g e ∧ t.mayIssue (coreKey d c) sl = false ∧
        ∃ H, t.grp g = some H ∧ (H.sp e).fresh = false) ∧
      (s.mayIssue (coreKey d c) sl = false → s.becomes t)) ∧
  (∀ (s : State) (d c sl g e : Nat), numbered s → (s.sliceAt (sliceKey (coreKey d c) sl)).chain = some (g, e) →
    issuable s (coreKey d c) sl g e → s.mayIssue (coreKey d c) sl = true →
    (∃ G, s.grp g = some G ∧ G.canIssue e = true ∧ (G.sp e).chain ≠ 0 ∧ G.atRpc e = false) →
    ∃ t u, exec (.issueChoice d c sl) s = .next t ∧ (s.noteIssue (coreKey d c) sl).becomes u ∧ t = { u with cur := .split g e }) ∧
  (∀ (s : State) (d c sl g e : Nat) (G : Group), numbered s → (s.sliceAt (sliceKey (coreKey d c) sl)).chain = none →
    s.issuers (coreKey d c) sl = [(g, G)] → G.valid = [e] → G.rq = [e] → (G.sp e).st = .ready → (G.sp e).fresh = false →
    s.mayIssue (coreKey d c) sl = true → G.lvl = 0 → G.frozen = false →
    G.shed = false → 0 ≤ (s.sliceAt (sliceKey (coreKey d c) sl)).c →
    ∃ t, exec (.issueChoice d c sl) s = .next t ∧ t.cur = .split g e ∧
      (t.sliceAt (sliceKey (coreKey d c) sl)).last = G.slot) ∧
  (∀ (s : State) (d c sl : Nat), numbered s →
    let k := coreKey d c
    let r (x : State) : Nat := (x.sliceAt (sliceKey k sl)).ratio
    let ceiling := (s.powerOf (k / 72)).dceil
    let asks (p : Nat × Group) : Nat := match s.tm p.2.team with
      | some T => min p.2.req (s.rcapOf (s.ctxOf T))
      | none => 0
    ∃ t, exec (.clockRatioChange d c sl) s = .next t ∧
      r t ≤ ceiling ∧ (∀ p ∈ s.onSlice k sl, min ceiling (asks p) ≤ r t) ∧
      (r t = 0 ∨ r t = ceiling ∨ ∃ p ∈ s.onSlice k sl, r t = asks p) ∧
      (∀ p ∈ s.onSlice k sl, ∃ H, t.grp p.1 = some H ∧ H.cyclesAt = s.clk.cycle ∧
        H.halfCycles = p.2.halfCycles + (s.clk.cycle - p.2.cyclesAt) * (2 + r s)) ∧
      { s with exe := { s.exe with groups := t.exe.groups, slices := t.exe.slices } }.becomes t)

/-- R89, R430, R431, R433, R434, R435: pre-emption. The victim that a demand names stops with its unit: its frames are allocated
within the pool, a waiting instruction is abandoned but for a counted BAR, and no register changes. Once its engines are at
rest (and the trap frames of its groups can be read) it is saved: its registers stand in its frame as R434 lays them out, and
neither its galley nor anything else changes. A saved team outside co-resident units whose frame is accepted, and whose frame
shows its groups at program level, runs again in its own domain, with the registers of its frame. -/
def Obligations.PreemptionCompletes : Prop :=
  (∀ (s s1 : State) (n : Nat) (D : Demand), numbered s → D ∈ s.demands → s.victim D = some n → s.chainsOver (s.stopsWith n) = true →
    s.allocFrames (s.stopsWith n) = some s1 →
    ∃ t, exec (.preemptTeam n) s = .next t ∧
      ∀ m T, m ∈ s.stopsWith n → s.tm m = some T →
        (∃ T', t.tm m = some T' ∧ T'.st = .stopping ∧ T'.core = T.core ∧ T'.groups = T.groups) ∧
        (∃ f, Map.find t.wk.frames m = some f ∧ f.size = s.frameSize T ∧
          f.base + f.size ≤ (s.trapBlk (s.ctxOf T)).savebase.toNat + (s.trapBlk (s.ctxOf T)).savesize.toNat * 65536) ∧
        ∀ g G, g ∈ T.groups → s.grp g = some G → ∃ H, t.grp g = some H ∧ H.regs = G.regs ∧ H.pend = G.pend ∧
          ∀ e, (H.sp e).pc = (G.sp e).pc ∧ (H.sp e).mask = (G.sp e).mask ∧
            ((G.sp e).st = .waiting → (∀ b ph, (G.sp e).wait ≠ .teamBar b ph) → (H.sp e).st = .ready)) ∧
  (∀ (s : State) (n : Nat) (D : Demand), numbered s → D ∈ s.demands → s.victim D = some n →
    (∃ T, s.tm n = some T ∧ T.st = .started) ∧ ∀ m T, m ∈ s.stopsWith n → s.tm m = some T → s.prioOf T < D.prio) ∧
  (∀ (s : State) (n : Nat) (T : Team) (f : SaveFrame), s.tm n = some T → Map.find s.wk.frames n = some f → T.st = .stopping →
    s.atRest n T = true → s.frameWait T = none →
    ∃ t f', exec (.preemptionEnd n) s = .next t ∧ t.tm n = some { T with st := .saved, frame := some f.base } ∧
      Map.find t.wk.frames n = some f' ∧ f'.base = f.base ∧ f'.size = f.size ∧ (∀ a, a < f.base → t.mb a = s.mb a) ∧
      t.mNat f.base 4 = 0x46545653 ∧
      (∀ i g G r j, T.groups[i]? = some g → s.grp g = some G → 4 ≤ r → r < 8 * G.regs8 → j < 96 →
        let at_ := f.base + s.sectionOfs T i + 0xA400 + 400 * r
        let v : LW := Map.getD G.regs (96 * r + j) {}
        t.mNat (at_ + 4 * j) 4 = v.val.toNat ∧ (t.mb (at_ + 384 + j / 8)).getLsbD (j % 8) = v.psn) ∧
      (∀ g G, s.grp g = some G → ∃ H, t.grp g = some H ∧ H.regs = G.regs ∧ H.pend = G.pend ∧ H.claims = G.claims) ∧
      (∀ m, m ≠ n → t.tm m = s.tm m) ∧ t.ct = s.ct ∧ t.ms.flights = s.ms.flights) ∧
  (∀ (s s1 : State) (n core : Nat) (T T1 : Team) (f : SaveFrame), s.tm n = some T → s.inUnit T = false → T.st = .saved →
    s.reserveSaved n (some core) = some s1 → s1.tm n = some T1 → Map.find s.wk.frames n = some f → f.requests = [] →
    s1.frameRefused T1 f = none → T.groups.Nodup → T1.plan.length = T.groups.length →
    (∀ i g, T.groups[i]? = some g → (s.grp g).isSome = true ∧ s.mNat (f.base + s.sectionOfs T i + 200) 4 % 4 = 0 ∧
      (s.mNat (f.base + s.sectionOfs T i + 200) 4).testBit 3 = false) → core < 72 →
    ∃ t T', exec (.restoreTeam n core) s = .next t ∧ t.tm n = some T' ∧ T'.st = .started ∧ T'.domain = T.domain ∧
      T'.core = core ∧ T'.frame = none ∧ T'.groups = T.groups ∧ Map.find t.wk.frames n = none ∧
      (∀ i g G, T.groups[i]? = some g → s.grp g = some G → ∃ H, t.grp g = some H ∧ H.slice = (T1.plan.getD i (0, 0)).1 ∧
        ∀ r j, 4 ≤ r → r < 8 * G.regs8 → j < 96 →
          let at_ := f.base + s.sectionOfs T i + 0xA400 + 400 * r
          H.reg r j = { val := BitVec.ofNat 32 (s.mNat (at_ + 4 * j) 4), psn := (s.mb (at_ + 384 + j / 8)).getLsbD (j % 8) }) ∧
      ∀ a, t.mb a = s.mb a)

/-- Placement cycles complete, and what they reserve is free (see `ReservationsFit`, `PlacementCyclesComplete`). -/
def Obligations.PlacementCompletes : Prop := ReservationsFit ∧ PlacementCyclesComplete

namespace Sys2Proof.Claims

/-! ### What the engines do after the issue -/

/-- The physical address of a byte in the translated pages of a unit. -/
def physOf (ps : List (Nat × Leaf × Nat)) (va : Nat) : Nat :=
  match ps.find? (fun p => p.1 == va / 4096) with
  | some p => p.2.2 + va % 4096
  | none => 0

/-- The last byte of a list that goes to galley offset `o`. -/
def lastAt (ws : List (Nat × Byte × Bool)) (o : Nat) : Option Byte := (ws.reverse.find? (fun w => w.1 == o)).map (fun w => w.2.1)

/-- A unit of `k` bytes, one of them poisoned where `p`, has been counted at barrier `bb` (R313, R325). -/
structure UnitCounted (T T' : Team) (k : Nat) (p : Bool) (bb : Option Nat) : Prop where
  counted : ∀ n, bb = some n → tested
    { T.bb n with
        arrb := min ((T.bb n).arrb + k) (2 ^ 32 - 1)
        psn := (T.bb n).psn || p || decide (2 ^ 32 ≤ (T.bb n).arrb + k) } (T'.bb n)
  others : ∀ n, bb ≠ some n → T'.bb n = T.bb n
  rest : T' = { T with galley := T'.galley, gmarks := T'.gmarks, bbars := T'.bbars }

/-- A poisoned byte of a unit lies in the sector of an offset. -/
def unitSpoils (ws : List (Nat × Byte × Bool)) (o : Nat) : Prop := ∃ w ∈ ws, w.1 / 32 = o / 32 ∧ w.2.2 = true

/-- With the bytes `ws` a copy or drain has written the sector of an offset in full with clean data; `old` is what it had written
before (R314). -/
def unitFills (ws : List (Nat × Byte × Bool)) (old : Map (BitVec 33)) (o : Nat) : Prop :=
  (Map.getD old (o / 32) 0).getLsbD 32 = false ∧
    ∀ i, i < 32 → (∃ w ∈ ws, w.1 = o / 32 * 32 + i) ∨ (Map.getD old (o / 32) 0).getLsbD i = true

/-- The bytes `ws` of a unit have been written into the galley, and counted at barrier `bb` (R313, R314, R325); `old` is what the
copy or drain has written before. -/
structure UnitIn (T T' : Team) (ws : List (Nat × Byte × Bool)) (old : Map (BitVec 33)) (bb : Option Nat) : Prop where
  bytes : ∀ o, T'.gb o = (lastAt ws o).getD (T.gb o)
  marked : ∀ o, unitSpoils ws o → T'.gmark o = true
  cleared : ∀ o, ¬ unitSpoils ws o → unitFills ws old o → T'.gmark o = false
  kept : ∀ o, ¬ unitSpoils ws o → ¬ unitFills ws old o → T'.gmark o = T.gmark o
  count : UnitCounted T T' ws.length (ws.any (fun w => w.2.2)) bb

/-- What the engines leave unchanged when they work for a team `n`: the other teams, the registers, flags and lanes of every
group, and memory's control. -/
structure EngineStep (n : Nat) (s t : State) : Prop where
  teams : ∀ m, m ≠ n → t.tm m = s.tm m
  groups : ∀ g G, s.grp g = some G → ∃ H, t.grp g = some H ∧ H.regs = G.regs ∧ H.hregs = G.hregs ∧ H.pend = G.pend ∧
    H.claims = G.claims ∧ H.fflags = G.fflags ∧ ∀ e, (G.sp e).same (H.sp e)
  ct : t.ct = s.ct
  work : t.wk = s.wk

/-- The page of a byte among the translated pages of a unit. -/
def pageLeaf (ps : List (Nat × Leaf × Nat)) (va : Nat) : Option Leaf := (ps.find? (fun p => p.1 == va / 4096)).map (fun p => p.2.1)

/-- A unit of a copy into the galley: galley offsets, bytes as the copy's domain reads them at their points of coherence (at the home
itself for an uncached page), with the marks of their sectors; the padding byte where the image has none (R313, R314, R319,
R359). -/
def unitBytes (s : State) (ps : List (Nat × Leaf × Nat)) (c : Copy) : List (Nat × Byte × Bool) :=
  (c.unit c.done).map (fun b =>
    match b.1 with
    | some a =>
      (match pageLeaf ps a with
       | some l =>
         let v := s.pocByte (c.core / 72) (physOf ps a) l.cls l.owner (l.mem != 0)
         (b.2.1, v.1, v.2)
       | none => (b.2.1, b.2.2, false))
    | none => (b.2.1, b.2.2, false))

/-- A copy may move its next unit: its team's engines work, it is among the 64 of its core, nothing earlier of its group stands before
the unit's bytes, its barrier may be counted now, and no walk that its pages need is held up (R312, R313, R315, R325, R138). -/
structure mayMove (s : State) (id : Nat) (c : Copy) (T : Team) : Prop where
  pop : Map.find s.eng.pops id = none
  copy : Map.find s.eng.copies id = some c
  going : c.suspended = none
  team : s.tm c.team = some T
  works : T.st.works = true
  seat : s.seated id c = true
  clear : c.blocked s (c.unit c.done) = false
  count : c.bb ≠ none → s.mayCount c.core id = true
  walks : ∀ b ∈ c.unit c.done, ∀ a, b.1 = some a → walkClear s c.core c.ctx a = true
  secs : Map.sorted c.secs = true

/-- Bit `k` of byte `b` of the words of row `j`, as a signed element of an INT8 K-step (R205, R338). -/
def aByte (G : Group) (m : MLoop) (j k : Nat) : Int :=
  (BitVec.ofNat 8 ((G.reg (m.d + m.step * m.astr + k / 4) j).val.toNat / 256 ^ (k % 4))).toInt

/-- Element `k` of column `n` of B in an INT8 K-step (R205, R339). -/
def bByte (T : Team) (m : MLoop) (n k : Nat) : Int := (T.gb (m.b0 + m.binc * m.step + 32 * n + k)).toInt

/-- The words of row `j` that an INT8 K-step reads are poisoned, or B is, or the lane has died (R342). -/
def stepPoison (G : Group) (T : Team) (m : MLoop) (j : Nat) : Bool :=
  G.dead.has j || (List.range 8).any (fun i => (G.reg (m.d + m.step * m.astr + i) j).psn) ||
    (List.range 2048).any (fun i => T.gmark (m.b0 + m.binc * m.step + i))

/-- An operation of the Platen that may work: its team runs, its group is not frozen, and it is the first of its tile (R334). -/
def atWork (s : State) (id : Nat) (p : POp) (G : Group) (T : Team) : Prop :=
  Map.find s.eng.pops id = some p ∧ s.grp p.g = some G ∧ s.tm p.team = some T ∧ (T.st = .started ∨ T.st = .terminated) ∧
    G.frozen = false ∧ s.firstOfTile id p = true

/-- An operation of the Seam engine that may take a message: its team runs, and it is the first of its port (R397). -/
def firstOfPort (s : State) (id : Nat) (o : SeamOp) (T : Team) : Prop :=
  Map.find s.eng.sops id = some o ∧ s.tm o.team = some T ∧ T.st = .started ∧
    ∀ q ∈ s.eng.sops, q.2.team = o.team → q.2.port = o.port → id ≤ q.1

/-- The completions of a claim may be applied in this cycle, and go to registers (R168, R170). -/
def servable (s : State) (g tk : Nat) : Prop :=
  ∀ (G : Group) (C : Claim) (T : Team), s.grp g = some G → Map.find G.claims tk = some C → s.tm G.team = some T →
    s.mayComplete T.coreKey g C.seq = true ∧ ∀ (k v : Nat), C.dests[k]? = some (some v) → v < 256

/-- A tile of a team. -/
def tileOf (T : Team) (n : Nat) : Tile := Map.getD T.tiles n {}

end Sys2Proof.Claims

/-- R312, R313, R314, R318, R319, R322, R325: the next unit of a copy. A suspended copy moves nothing; a unit whose page faults
recoverably suspends it until its entry has been served; one whose page fails ends the copy, with what it has not moved poisoned or
lost. A unit of a copy into the galley writes its bytes, the padding byte where the image has none, marks the sectors of poisoned
ones and clears those that the copy has written in full and clean; a unit of a copy out leaves as stores of the galley's bytes. Each
unit is counted at the copy's barrier, and the copy ends with its last. -/
def Sys2Proof.Claims.CopyUnitsMove : Prop :=
  (∀ (s : State) (id fe : Nat) (c : Copy), Map.find s.eng.pops id = none → Map.find s.eng.copies id = some c →
    c.suspended = some fe → ∃ t, exec (.copyUnitDone id) s = .next t ∧ s.becomes t) ∧
  (∀ (s : State) (id fe : Nat) (c : Copy), Map.find s.eng.copies id = some c → c.suspended = some fe →
    ∃ t, exec (.copyResume id) s = .next t ∧
      (Map.has s.tr.faults fe = true → s.becomes t) ∧
      (Map.has s.tr.faults fe = false →
        { s with eng := { s.eng with copies := Map.insert s.eng.copies id { c with suspended := none } } }.becomes t)) ∧
  (∀ (s s1 : State) (id va level : Nat) (cls : Bool) (c : Copy) (T : Team), mayMove s id c T →
    c.translate s ((c.unit c.done).filterMap (fun b => b.1)) = (.recov va level cls, s1) →
    ∃ t fe, exec (.copyUnitDone id) s = .next t ∧ Map.find t.eng.copies id = some { c with suspended := some fe } ∧
      Map.has t.tr.faults fe = true ∧ t.exe.teams = s1.exe.teams ∧
      ∀ g G, s1.grp g = some G → ∃ H, t.grp g = some H ∧ G.same H) ∧
  (∀ (s s1 : State) (id : Nat) (c : Copy) (T : Team), mayMove s id c T →
    c.translate s ((c.unit c.done).filterMap (fun b => b.1)) = (.fatal, s1) →
    ∃ t T', exec (.copyUnitDone id) s = .next t ∧ t.tm c.team = some T' ∧ EngineStep c.team s1 t ∧ Map.find t.eng.copies id = none ∧
      (c.out = true → ∀ G, s1.grp c.g = some G → ∃ H, t.grp c.g = some H ∧ H.lostst = true) ∧
      (c.out = false → ∀ n, 128 * c.done ≤ n → n < c.total → T'.gmark (c.byteAt n).2.1 = true) ∧
      (∀ o, T'.gb o = T.gb o) ∧ ∀ a, t.mb a = s1.mb a) ∧
  (∀ (s s1 : State) (id : Nat) (c : Copy) (T : Team) (ps : List (Nat × Leaf × Nat)), mayMove s id c T →
    c.translate s ((c.unit c.done).filterMap (fun b => b.1)) = (.ok ps, s1) →
    (c.out = false → ∀ b ∈ c.unit c.done, ∀ a l, b.1 = some a → pageLeaf ps a = some l →
      s1.fencedAcc (physOf ps a) l.cls l.owner = false) →
    ∃ t T', exec (.copyUnitDone id) s = .next t ∧ t.tm c.team = some T' ∧ EngineStep c.team s1 t ∧ (∀ a, t.mb a = s1.mb a) ∧
      (∀ C, Map.find t.eng.copies id = some C → C = { c with done := c.done + 1, secs := C.secs } ∧ c.done + 1 ≠ c.units) ∧
      (Map.find t.eng.copies id = none → c.done + 1 = c.units) ∧
      (c.out = false → UnitIn T T' (unitBytes s1 ps c) c.secs c.bb) ∧
      (c.out = true → UnitCounted T T' (c.unit c.done).length ((c.unit c.done).any (fun b => T.gmark b.2.1)) c.bb ∧
        T'.galley = T.galley ∧ T'.gmarks = T.gmarks ∧
        ∀ b ∈ c.unit c.done, ∀ a, b.1 = some a → (T.gmark b.2.1 = true → paRegion (physOf ps a) = 0 ∨ 3 < paRegion (physOf ps a)) →
          ∃ r F l, Map.find t.ms.flights r = some F ∧ s1.ms.next ≤ r ∧ F.g = c.g ∧ F.kind = .store ∧ F.batch = some (1, c.batch) ∧
            l ∈ F.lanes ∧ (∃ q ∈ l.segs, q.pa = physOf ps a ∧ q.len = 1) ∧ l.data = (T.gb b.2.1).toNat ∧ l.psn = T.gmark b.2.1))

/-- R170, R314, R325, R333, R350, R351, R353: drains. MZERO sets its rows of the tile to +0.0 and clears their poison. A drain to
registers, where its claim may be served in the cycle, delivers each row's words to the claim (for MDRAIN the 64 words of the tile
with the row's poison), and one to the galley takes up the rows' bytes; with `.z` either clears the rows. A unit of a drain to the galley writes its bytes and is counted at the drain's barrier, and the
drain ends with its last. -/
def Sys2Proof.Claims.DrainsMove : Prop :=
  (∀ (s : State) (id : Nat) (p : POp) (G : Group) (T : Team), atWork s id p G T → p.kind = .mzero →
    ∃ t T', exec (.tileDrain id) s = .next t ∧ t.tm p.team = some T' ∧ Map.find t.eng.pops id = none ∧ EngineStep p.team s t ∧
      (∀ j n, n < 64 → Map.getD (tileOf T' p.tile).elems (64 * j + n) 0 =
        if p.rows.has j then 0 else Map.getD (tileOf T p.tile).elems (64 * j + n) 0) ∧
      (∀ j, j < 96 → (tileOf T' p.tile).poison.has j = ((tileOf T p.tile).poison.has j && !p.rows.has j)) ∧
      (∀ n, n ≠ p.tile → tileOf T' n = tileOf T n) ∧ (∀ o, T'.gb o = T.gb o) ∧ ∀ a, t.mb a = s.mb a) ∧
  (∀ (s : State) (id tk i r : Nat) (p : POp) (G : Group) (T : Team) (d : Drain) (C : Claim), atWork s id p G T →
    p.kind = .drain d → d.buf = none → d.ticket = some tk → G.team = p.team →
    Map.find G.claims tk = some C → s.mayComplete T.coreKey p.g C.seq = true →
    C.dests[i]? = some (some r) → G.pendOf r = some tk → 4 ≤ r →
    (∀ k q, C.dests[k]? = some (some q) → q < 256 ∧ (q = r → k = i)) →
    ∃ t H T', exec (.tileDrain id) s = .next t ∧ t.tm p.team = some T' ∧ t.grp p.g = some H ∧ Map.find t.eng.pops id = none ∧
      (∀ j, j < 96 → (p.rows.has j && C.lanes.has j) = false → H.reg r j = G.reg r j) ∧
      (∀ q ∈ drainRows G (tileOf T p.tile) d.mx p.rows, C.lanes.has q.row = true → H.reg r q.row = (q.regWords d.mx).getD i {}) ∧
      (∀ j, j < 96 → (p.rows.has j && C.lanes.has j) = true → d.mx = none → G.duplex = false → i < 64 →
        H.reg r j = { val := Map.getD (tileOf T p.tile).elems (64 * j + i) 0, psn := (tileOf T p.tile).poison.has j }) ∧
      (∀ j n, n < 64 → Map.getD (tileOf T' p.tile).elems (64 * j + n) 0 =
        if d.z && p.rows.has j then 0 else Map.getD (tileOf T p.tile).elems (64 * j + n) 0) ∧
      (∀ q j, 4 ≤ q → q < 256 → j < 96 → some q ∉ C.dests → H.reg q j = G.reg q j) ∧ ∀ a, t.mb a = s.mb a) ∧
  (∀ (s : State) (id : Nat) (p : POp) (G : Group) (T : Team) (d : Drain), atWork s id p G T → p.kind = .drain d →
    d.buf = none → d.ticket = none →
    ∃ t T' bs, exec (.tileDrain id) s = .next t ∧ t.tm p.team = some T' ∧ EngineStep p.team s t ∧
      Map.find t.eng.pops id = some { p with kind := .drain { d with buf := some bs } } ∧
      bs = d.bytes (drainRows G (tileOf T p.tile) d.mx p.rows) ∧
      (d.mx = none → G.duplex = false → bs = p.rows.list.flatMap (fun j => (List.range 256).map (fun b =>
        (d.g + d.rs * j + b, BitVec.ofNat 8 ((Map.getD (tileOf T p.tile).elems (64 * j + b / 4) 0).toNat / 256 ^ (b % 4)),
          (tileOf T p.tile).poison.has j)))) ∧
      (∀ j n, n < 64 → Map.getD (tileOf T' p.tile).elems (64 * j + n) 0 =
        if d.z && p.rows.has j then 0 else Map.getD (tileOf T p.tile).elems (64 * j + n) 0) ∧
      (∀ o, T'.gb o = T.gb o) ∧ ∀ a, t.mb a = s.mb a) ∧
  (∀ (s : State) (id : Nat) (p : POp) (G : Group) (T : Team) (d : Drain) (bs : List (Nat × Byte × Bool)),
    Map.find s.eng.pops id = some p → s.grp p.g = some G → s.tm p.team = some T →
    (T.st = .stopping ∨ (G.frozen = false ∧ (T.st = .started ∨ T.st = .terminated))) →
    p.kind = .drain d → d.buf = some bs → (d.bb ≠ none → s.mayCount p.core id = true) → Map.sorted d.secs = true →
    ∃ t T', exec (.copyUnitDone id) s = .next t ∧ t.tm p.team = some T' ∧ EngineStep p.team s t ∧
      UnitIn T T' ((bs.drop (128 * d.unit)).take 128) d.secs d.bb ∧
      (bs.length ≤ 128 * (d.unit + 1) → Map.find t.eng.pops id = none) ∧
      (128 * (d.unit + 1) < bs.length →
        ∃ q, Map.find t.eng.pops id = some { p with kind := .drain { d with unit := d.unit + 1, secs := q } }) ∧
      ∀ a, t.mb a = s.mb a)

/-- R205, R334, R338, R339, R341, R342: a K-step. A shut gate lets none begin; a gate whose phase was poisoned marks all 96 rows,
and the MLOOP ends. An INT8 K-step from registers adds to each element of its rows, modulo 2^32, the 32 products of the row's
A bytes and the column's B bytes, and joins their poison and that of dead lanes to the row's; other rows, the registers and
the galley are as before, and the MLOOP ends with its last K-step. -/
def Obligations.KStepsAccumulate : Prop :=
  (∀ (s : State) (id : Nat) (p : POp) (G : Group) (T : Team) (m : MLoop) (g : Nat × Bool), atWork s id p G T → p.kind = .mloop m →
    m.gate = some g → m.opened = none → ∃ t, exec (.kstep id) s = .next t ∧ s.becomes t) ∧
  (∀ (s : State) (id : Nat) (p : POp) (G : Group) (T : Team) (m : MLoop) (g : Nat × Bool), atWork s id p G T → p.kind = .mloop m →
    m.gate = some g → m.opened = some true →
    ∃ t T', exec (.kstep id) s = .next t ∧ t.tm p.team = some T' ∧ Map.find t.eng.pops id = none ∧ EngineStep p.team s t ∧
      tileOf T' p.tile = { tileOf T p.tile with poison := BitVec.allOnes 96 } ∧
      (∀ n, n ≠ p.tile → tileOf T' n = tileOf T n) ∧ (∀ o, T'.gb o = T.gb o) ∧ ∀ a, t.mb a = s.mb a) ∧
  (∀ (s : State) (id : Nat) (p : POp) (G : Group) (T : Team) (m : MLoop), atWork s id p G T → p.kind = .mloop m →
    m.ta = .i8 → m.tb = .i8 → m.sb = 0 → m.bs = none → m.fromLatch = false → m.gate = none ∨ m.opened = some false → G.lvl = 0 → G.bank = false →
    4 ≤ m.d → (∀ i, i < 8 → G.pendOf (m.d + m.step * m.astr + i) = none) →
    s.galleyHeld p.g (s.ctxOf T) p.seq (m.b0 + m.binc * m.step) 2048 = false →
    ∃ t T', exec (.kstep id) s = .next t ∧ t.tm p.team = some T' ∧ EngineStep p.team s t ∧
      (∀ j n, j < 96 → n < 64 → Map.getD (tileOf T' p.tile).elems (64 * j + n) 0 =
        Map.getD (tileOf T p.tile).elems (64 * j + n) 0 +
          if p.rows.has j then BitVec.ofInt 32 (((List.range 32).map (fun k => aByte G m j k * bByte T m n k)).sum) else 0) ∧
      (∀ j, j < 96 → (tileOf T' p.tile).poison.has j =
        ((tileOf T p.tile).poison.has j || (p.rows.has j && stepPoison G T m j))) ∧
      (tileOf T' p.tile).kdone = min ((tileOf T p.tile).kdone + 1) 0xFFFFFFFF ∧
      (∀ n, n ≠ p.tile → tileOf T' n = tileOf T n) ∧ (∀ o, T'.gb o = T.gb o) ∧ (∀ a, t.mb a = s.mb a) ∧
      (m.step + 1 = m.ks → Map.find t.eng.pops id = none) ∧
      (m.step + 1 ≠ m.ks → Map.find t.eng.pops id = some { p with kind := .mloop { m with step := m.step + 1 } }))

/-- R395, R397, R398, R399, R400, R401, R441: Seam messages. The first message of its route for its port enters that port of its
receiver behind those that are there; a port with four messages lets none in, and one whose path enters a fenced domain, or whose
team is gone, is discarded. The first operation of a port takes the message at its head, words beyond the message as poison:
SEAMRED sends on the combination of its words with its own, SEAMBC sends it on, and SEAMRECV delivers its words to the claim, where
that may be served in the cycle. -/
def Obligations.SeamEventsComplete : Prop :=
  (∀ (s : State) (id d : Nat) (m : SeamMsg) (S T : Team), Map.find s.eng.smsgs id = some m →
    (∀ q ∈ s.eng.smsgs, q.1 < id → q.2.team = m.team → q.2.route = m.route → q.2.port ≠ m.port) → s.tm m.team = some S →
    m.dest = some d → s.tm d = some T → T.st.takes = true →
    let path := Map.getD S.routes m.route []
    let q := Map.getD T.ports m.port []
    ∃ t, exec (.seamMessageArrival id) s = .next t ∧
      ((∀ k ∈ path, s.fencedD (k / 72) = false) → 4 ≤ q.length → s.becomes t) ∧
      ((∀ k ∈ path, s.fencedD (k / 72) = false) → q.length < 4 →
        (∃ T', t.tm d = some T' ∧ T' = { T with ports := T'.ports } ∧
          ∀ n, Map.find T'.ports n = if n = m.port then some (q ++ [m.body]) else Map.find T.ports n) ∧
        (∀ n, Map.find t.eng.smsgs n = if n = id then none else Map.find s.eng.smsgs n) ∧ EngineStep d s t ∧ ∀ a, t.mb a = s.mb a) ∧
      ((∃ k ∈ path, s.fencedD (k / 72) = true) → t.exe.teams = s.exe.teams ∧
        (∀ n, Map.find t.eng.smsgs n = if n = id then none else Map.find s.eng.smsgs n) ∧ ∀ a, t.mb a = s.mb a)) ∧
  (∀ (s : State) (id : Nat) (m : SeamMsg), Map.find s.eng.smsgs id = some m →
    (∀ q ∈ s.eng.smsgs, q.1 < id → q.2.team = m.team → q.2.route = m.route → q.2.port ≠ m.port) →
    (∀ d T, m.dest = some d → s.tm d = some T → T.st.takes = false) →
    ∃ t, exec (.seamMessageArrival id) s = .next t ∧ t.exe.teams = s.exe.teams ∧
      (∀ n, Map.find t.eng.smsgs n = if n = id then none else Map.find s.eng.smsgs n) ∧ ∀ a, t.mb a = s.mb a) ∧
  (∀ (s : State) (id : Nat) (o : SeamOp) (T : Team) (m : SeamWords) (rest : List SeamWords), firstOfPort s id o T →
    Map.getD T.ports o.port [] = m :: rest → (∀ tk n acq q, o.kind = .recv (some tk) n acq q → servable s o.g tk) →
    ∃ t T', exec (.seamOperationMatch id) s = .next t ∧ t.tm o.team = some T' ∧
      (∀ n, Map.find t.eng.sops n = if n = id then none else Map.find s.eng.sops n) ∧
      Map.getD T'.ports o.port [] = (match o.kind with | .sbc true _ _ _ => m :: rest | _ => rest) ∧
      (∀ n, n ≠ o.port → Map.getD T'.ports n [] = Map.getD T.ports n []) ∧
      (∀ ty op (x : SeamWords) route port, o.kind = .sred ty op x route port → ∃ M, Map.find t.eng.smsgs s.eng.next = some M ∧
        M.team = o.team ∧ M.route = route ∧ M.port = port ∧ M.batch = o.batch ∧ M.body.n = x.n ∧
        ∀ i, i < 96 * x.n →
          let a : LW := Map.getD m.words i {}
          let b : LW := Map.getD x.words i {}
          (i < 96 * m.n → Map.getD M.body.words i {} =
            ({ val := BitVec.ofNat 32 (seamOp ty op a.val.toNat b.val.toNat), psn := a.psn || b.psn } : LW)) ∧
          (96 * m.n ≤ i → (Map.getD M.body.words i {}).psn = true)) ∧
      (∀ keep n route port, o.kind = .sbc keep n route port → ∃ M, Map.find t.eng.smsgs s.eng.next = some M ∧
        M.team = o.team ∧ M.route = route ∧ M.port = port ∧ M.batch = o.batch ∧ M.body.n = n ∧
        ∀ i, i < 96 * n → (i < 96 * m.n → Map.getD M.body.words i {} = Map.getD m.words i {}) ∧
          (96 * m.n ≤ i → (Map.getD M.body.words i {}).psn = true)) ∧
      (∀ tk n acq q i r G C, o.kind = .recv (some tk) n acq q → s.grp o.g = some G →
        Map.find G.claims tk = some C → C.dests[i]? = some (some r) → G.pendOf r = some tk → 4 ≤ r → i < n →
        (∀ (k v : Nat), C.dests[k]? = some (some v) → v < 256 ∧ (v = r → k = i)) →
        ∃ H, t.grp o.g = some H ∧ ∀ j, j < 96 →
          ((C.arriving.has j && C.lanes.has j) = false → H.reg r j = G.reg r j) ∧
          ((C.arriving.has j && C.lanes.has j) = true →
            (i < m.n → H.reg r j = Map.getD m.words (96 * i + j) {}) ∧ (m.n ≤ i → (H.reg r j).psn = true))) ∧
      ∀ a, t.mb a = s.mb a) ∧
  (∀ a b : Nat, a < 2 ^ 32 → b < 2 ^ 32 →
    seamOp .n32 0 a b = (a + b) % 2 ^ 32 ∧ seamOp .n32 1 a b = min a b ∧ seamOp .n32 2 a b = max a b)

/-- The units of copies and drains move and are counted (see `CopyUnitsMove`, `DrainsMove`). -/
def Obligations.CopiesAndDrainsMove : Prop := CopyUnitsMove ∧ DrainsMove

namespace Sys2Proof.Claims

/-! ### Retirement and notification -/

/-- STATUS and DETAIL of a completion record (R38): the first that applies. -/
def statusOf (L : Launch) : Nat × Nat :=
  if L.invalid.isSome then (1, L.invalid.getD 0)
  else if L.nlost ≠ 0 then (3, 0)
  else if L.cause.isSome then (2, L.cause.getD 0)
  else if L.qfail.isSome then (4, L.qfail.getD 0)
  else if L.cancelled then (5, 0)
  else (0, 0)

/-- The completion record of `L` stands at `pa`, and no other byte has changed (R36). -/
structure RecordAt (s t : State) (L : Launch) (pa : Nat) : Prop where
  status : t.mNat pa 2 = (statusOf L).1
  detail : t.mNat (pa + 2) 2 = (statusOf L).2 % 2 ^ 16
  tag : t.mNat (pa + 4) 4 = L.forme.tag.toNat
  wstart : t.mNat (pa + 8) 8 = L.wstart % 2 ^ 64
  wend : t.mNat (pa + 16) 8 = s.wtimeEnc % 2 ^ 64
  nlost : t.mNat (pa + 24) 4 = L.nlost % 2 ^ 32
  done : t.mNat (pa + 28) 4 = 2 ^ 31
  others : ∀ a, a < pa ∨ pa + 32 ≤ a → t.mb a = s.mb a

/-- A launch is over in `t`: it has left the machine, or stands retired with its status. -/
def overIn (t : State) (l : Nat) (L : Launch) (lost : Bool) : Prop :=
  t.launch l = none ∨ ∃ M, t.launch l = some M ∧ M.retired = true ∧ M.recorded = true ∧ M.rlost = lost ∧ M.status = (statusOf L).1

/-- The stores of a team are over: each group's have their times, which the core's wtime has reached (R36, R472). -/
def storesAtEnd (s : State) (T : Team) : Prop :=
  ∀ g ∈ T.groups, ∀ G, s.grp g = some G → G.stores = [] ∧ G.tSys ≤ s.wtimeCore T.coreKey ∧ s.storeHeld g (2 ^ 65) = false

/-- A launch has ended (R36, R473): every team has been placed, or none will be, and each has retired, with its stores over, or been
lost. -/
def ended (s : State) (l : Nat) (L : Launch) : Prop :=
  (L.forme.teams ≤ L.sent.length ∨ L.invalid.isSome = true ∨ L.cancelled = true ∨ L.qfail.isSome = true) ∧
    ∀ p ∈ s.exe.teams, p.2.launch = l → (p.2.st = .retired ∧ storesAtEnd s p.2) ∨ p.2.st = .lost

/-- No byte of a team's windows is dirty (R295). -/
def windowsClean (T : Team) : Prop := ∀ p ∈ T.windows, ∀ q ∈ p.2.lines, T.dirty p.1 q.1 = 0

/-- Each core of Encon has been sent signal `b` (R62). -/
def rung (s t : State) (b : Nat) : Prop := ∀ k, k < 8 → (t.enc k).sigs = (s.enc k).sigs ||| BitVec.twoPow 16 b

/-- Nothing of a team is in an engine (R331, R348, R401). -/
def enginesEmpty (s : State) (n : Nat) : Prop :=
  (∀ p ∈ s.eng.copies, p.2.team ≠ n) ∧ (∀ p ∈ s.eng.pops, p.2.team ≠ n) ∧ (∀ p ∈ s.eng.sops, p.2.team ≠ n) ∧
    ∀ p ∈ s.eng.smsgs, p.2.team ≠ n

/-- A team has retired (R86, R472): its resources are free and its galley is scrubbed, and its groups have retired with it; its tiles
keep what they hold. -/
structure TeamGone (s t : State) (n : Nat) (T T' : Team) : Prop where
  st : T'.st = .retired
  free : T'.galley = [] ∧ T'.gmarks = [] ∧ T'.bbars = [] ∧ T'.tbars = [] ∧ T'.tiles = T.tiles ∧ T'.windows = [] ∧ T'.plan = []
  groups : ∀ g G, g ∈ T.groups → s.grp g = some G → ∃ H, t.grp g = some H ∧ H.retired = true ∧ H.regs = G.regs
  teams : ∀ m, m ≠ n → t.tm m = s.tm m
  bytes : ∀ a, t.mb a = s.mb a
  ct : t.ct = s.ct

/-- The control region of `s` with the ring's configuration of the word `w` (R475). -/
def ringWith (s : State) (w : BitVec 64) : Ctl :=
  { s.ct with nrlog2n := w.truncate 5, nrvec := (w >>> 16).truncate 11, nrcoal := (w >>> 32).truncate 16 }

/-- The interval since the last message is over (R477). -/
def intervalOver (s : State) : Prop := ∀ n, s.ct.lastMsg = some n → n + 100 * s.ct.nrcoal.toNat ≤ s.wtimeEnc

/-- The state in which a message has been sent for the entries written so far, or for one of them without coalescing. -/
def messageSent (s : State) : State :=
  { s with ct := { s.ct with
    msgs := s.ct.msgs + 1, lastMsg := some s.wtimeEnc, unsent := if s.ct.nrcoal = 0 then s.ct.unsent - 1 else 0 } }

end Sys2Proof.Claims

/-- R343, R471, R472, R425: a group retires once every lane has exited or died, no claim or hold is left and every batch has
completed. A team whose groups have retired, whose engines and
windows are empty and whose stores are over retires: its resources are free; where a store of
its was lost, it and its launch take the cause 0x1A. A terminated team whose requests have ended retires too. -/
def Sys2Proof.Claims.GroupsAndTeamsRetire : Prop :=
  (∀ (s : State) (g : Nat) (G : Group), s.grp g = some G → G.retired = false → G.stopped = false → G.valid = [] →
    G.claims = [] → G.holds = [] → (∀ k, k < 4 → (G.bat k).openOps = 0 ∧ (G.bat k).sealedOps = []) →
    ∃ t, exec (.groupRetire g) s = .next t ∧ (s.setGrp g { G with retired := true, alatch := none }).becomes t) ∧
  (∀ (s : State) (g : Nat) (G : Group), s.grp g = some G → G.valid ≠ [] ∨ G.claims ≠ [] ∨ G.holds ≠ [] →
    ∃ t, exec (.groupRetire g) s = .next t ∧ s.becomes t) ∧
  (∀ (s : State) (n : Nat) (T : Team), s.tm n = some T → T.st = .started → windowsClean T → enginesEmpty s n →
    nothingCombined s T.coreKey →
    (∀ g ∈ T.groups, ∃ G, s.grp g = some G ∧ G.retired = true) → storesAtEnd s T →
    ∃ t T', exec (.teamRetire n) s = .next t ∧ t.tm n = some T' ∧ TeamGone s t n T T' ∧
      ((∀ g ∈ T.groups, ∀ G, s.grp g = some G → G.lostst = false) → T'.cause = T.cause ∧ t.wk.launches = s.wk.launches) ∧
      ((∃ g ∈ T.groups, ∃ G, s.grp g = some G ∧ G.lostst = true) → T'.cause = some 0x1A ∧
        ∀ L, s.launch T.launch = some L → ∃ M, t.launch T.launch = some M ∧ M.cause = some (L.cause.getD 0x1A))) ∧
  (∀ (s : State) (n : Nat) (T : Team), s.tm n = some T → T.st = .terminated → windowsClean T → enginesEmpty s n →
    nothingCombined s T.coreKey → (∀ p ∈ s.ms.flights, p.2.g ∉ T.groups) →
    ∃ t T', exec (.teamRetire n) s = .next t ∧ t.tm n = some T' ∧ TeamGone s t n T T' ∧ T'.cause = T.cause ∧
      t.wk.launches = s.wk.launches)

/-- R36, R38, R46, R473, R474: a launch whose teams have ended retires: its completion record is written through its context's
translation, or is lost; each Encon core is sent signal 4; with NOTIFY and the ring enabled its entry joins those that wait;
else, at the head of its queue, it leaves. A quire's launches retire together, or all wait for a page. -/
def Sys2Proof.Claims.LaunchesRetire : Prop :=
  (∀ (s : State) (l : Nat) (L : Launch), s.launch l = some L → L.retired = false → L.sub = 0 → L.forme.quire = false →
    ended s l L →
    let n : Notify :=
      { lseq := l / 8, tag := L.forme.tag, status := (statusOf L).1, queue := L.queue, rlost := false, quire := false, req := some s.ms.next }
    (∀ lf pa, L.forme.crec % 32 = 0 → canonical L.forme.crec = true → plainXl s L.forme.ctx L.forme.crec .write = .ok lf pa →
      s.fencedAcc pa lf.cls lf.owner = false → lf.cls ≠ 1 →
      ∃ t, exec (.launchRetire l) s = .next t ∧ RecordAt s t L pa ∧ overIn t l L false ∧ rung s t 4 ∧
        t.ct.waiting = s.ct.waiting ++ (if L.forme.notify && s.ct.nren then [n] else [])) ∧
    (L.forme.crec % 32 ≠ 0 ∨ canonical L.forme.crec = false →
      ∃ t, exec (.launchRetire l) s = .next t ∧ overIn t l L true ∧ rung s t 4 ∧ (∀ a, t.mb a = s.mb a) ∧
        t.ct.waiting = s.ct.waiting ++ (if L.forme.notify && s.ct.nren then [{ n with rlost := true, req := none }] else []))) ∧
  (∀ (s : State) (l : Nat) (L : Launch), s.launch l = some L → L.retired = false → L.sub = 0 → L.forme.quire = false →
    ended s l L → L.forme.crec % 32 ≠ 0 → L.head = l → L.bodies = [] → L.forme.notify = false ∨ s.ct.nren = false →
    L.slot = (s.queue L.queue).head → (s.queue L.queue).head ≠ (s.queue L.queue).acc →
    (∀ p ∈ s.wk.launches, p.2.queue = L.queue → p.2.slot = L.slot → p.1 = l) → (∀ w ∈ s.ct.waiting, w.lseq ≠ l / 8) →
    ∃ t, exec (.launchRetire l) s = .next t ∧ t.launch l = none ∧ ∀ m T, t.tm m = some T → T.launch ≠ l) ∧
  (∀ (s : State) (l : Nat) (L : Launch), s.launch l = some L → L.retired = false → L.sub = 0 → L.forme.quire = true →
    (∀ b ∈ s.unit l, ∀ M, s.launch b = some M → ended s b M) →
    let writes := (L.bodies ++ [l]).foldl
      (fun (r : Option (Option Nat × State)) b => r.bind (fun p => p.2.retireOne b)) (some (none, s))
    ∃ t, exec (.quireRetire l) s = .next t ∧
      (writes = none → s.becomes t) ∧
      (writes ≠ none → rung s t 4 ∧
        ∀ b ∈ s.unit l, ∀ M, s.launch b = some M → overIn t b M true ∨ overIn t b M false))

/-- R475, R476, R477: notification. Where the ring has room and the record has been written, the entry that waits first is
written at NRBASE + 16 × (NRTAIL mod 2^NRLOG2N), and NRTAIL moves on; a full ring lets none be written. A message is sent
for entries written since the last, at most one an interval. The ring's registers take what their writes may change. -/
def Obligations.NotificationsComplete : Prop :=
  (∀ (s : State) (n : Notify) (rest : List Notify), s.ct.waiting = n :: rest →
    let k := s.ct.nrtail.toNat
    let N := 2 ^ s.ct.nrlog2n.toNat
    let a := s.ct.nrbase.toNat + 16 * (k % N)
    let room : Prop := (s.ct.nrtail - s.ct.nrhead).toNat < N
    ∃ t, exec .notifyEntryWrite s = .next t ∧
      (¬ room → s.becomes t) ∧
      (room → (∀ r, n.req = some r → Map.find s.ms.flights r = none) →
        t.mNat a 8 = n.lseq % 2 ^ 64 ∧ t.mNat (a + 8) 4 = n.tag.toNat ∧ t.mNat (a + 12) 2 = n.status % 2 ^ 16 ∧
        t.mNat (a + 14) 1 = n.queue % 2 ^ 8 ∧
        t.mNat (a + 15) 1 = (if n.rlost then 1 else 0) + (if n.quire then 2 else 0) + (if k / N % 2 = 0 then 128 else 0) ∧
        (∀ b, b < a ∨ a + 16 ≤ b → t.mb b = s.mb b) ∧ t.ct.waiting = rest ∧ t.ct.nrtail = s.ct.nrtail + 1 ∧
        t.ct.unsent = s.ct.unsent + 1 ∧ t.ct.nrhead = s.ct.nrhead)) ∧
  (∀ s : State, ∃ t, exec .msixMessage s = .next t ∧
    (0 < s.ct.unsent → intervalOver s → (messageSent s).becomes t) ∧ (s.ct.unsent = 0 ∨ ¬ intervalOver s → s.becomes t)) ∧
  (∀ s : State, 0 < s.ct.unsent → s.ct.nrcoal ≠ 0 → s.ct.lastMsg ≠ none → intervalOver s →
    ∃ t, exec .coalIntervalExpiry s = .next t ∧ (messageSent s).becomes t ∧ t.ct.unsent = 0) ∧
  (∀ (s : State) (w : BitVec 64), w.getLsbD 5 = true →
    ∃ t, exec (.notifyRingEnable w) s = .next t ∧
      (s.ct.nren = true → { s with ct := { s.ct with nrcoal := (w >>> 32).truncate 16 } }.becomes t) ∧
      (s.ct.nren = false → 4 ≤ w.toNat % 32 → w.toNat % 32 ≤ 16 →
        { s with ct := { ringWith s w with nren := true, nrtail := 0, nrhead := 0 } }.becomes t) ∧
      (s.ct.nren = false → w.toNat % 32 < 4 ∨ 16 < w.toNat % 32 → { s with ct := ringWith s w }.becomes t)) ∧
  (∀ (s : State) (w : BitVec 64), w.getLsbD 5 = false →
    ∃ t, exec (.notifyRingDisable w) s = .next t ∧
      (s.ct.nren = true → t.ct.nren = false ∧ t.ct.waiting = [] ∧ t.ct.nrcoal = (w >>> 32).truncate 16 ∧
        t.ct.nrbase = s.ct.nrbase ∧ t.ct.nrlog2n = s.ct.nrlog2n ∧ t.ct.nrtail = s.ct.nrtail ∧ t.ct.nrhead = s.ct.nrhead ∧
        ∀ a, t.mb a = s.mb a) ∧
      (s.ct.nren = false → { s with ct := ringWith s w }.becomes t)) ∧
  (∀ (s : State) (w : BitVec 32),
    ∃ t, exec (.nrheadWrite w) s = .next t ∧
      ((w - s.ct.nrhead).toNat ≤ (s.ct.nrtail - s.ct.nrhead).toNat → { s with ct := { s.ct with nrhead := w } }.becomes t) ∧
      ((s.ct.nrtail - s.ct.nrhead).toNat < (w - s.ct.nrhead).toNat → s.becomes t))

/-- Groups, teams, launches and quires retire (see `GroupsAndTeamsRetire`, `LaunchesRetire`). -/
def Obligations.RetirementCompletes : Prop := GroupsAndTeamsRetire ∧ LaunchesRetire

namespace Sys2Proof.Claims

/-! ### Heartbeats, fences, tests, checkpoints, power -/

/-- Some switch has declared a node silent. -/
def silenced (s : State) (n : Node) : Prop := ∃ sw b, sw < 64 ∧ s.beat n sw = some b ∧ b.silent = true

/-- The switches have heard a peer for 10 µs without a gap. -/
def heardWell (s : State) (p : Nat) : Prop :=
  s.beats (.peer p) ≠ [] ∧ ∀ b ∈ s.beats (.peer p), b.silent = false ∧ b.since + 10000 ≤ b.last ∧ s.wtimeEnc < b.last + 2000

/-- The stores and atomics of a request that are still to reach a line are lost: its group's lostst is set. -/
def losesStores (s t : State) (f : Flight) (line : Nat) : Prop :=
  f.kind = .store ∨ f.kind = .red ∨ f.kind = .atom → (∃ l ∈ f.lanes, l.fault = none ∧ l.va < 2 ^ 64 ∧ line ∈ l.left) →
    ∀ G, s.grp f.g = some G → ∃ H, t.grp f.g = some H ∧ H.lostst = true

/-- Domain `d` has been fenced (R441, R442, R443): its fence word, its cores' ready bits, its caches, the signals; the teams that
ran on it are lost, and so are those not yet placed, or on their way to it, whose hard hint names it; their launches count them. -/
structure DomainFenced (s t : State) (d why : Nat) : Prop where
  fence : ∀ k, Map.find t.ct.fenceD k =
    if k = d then some { fenced := true, why := why, wfence := s.wtimeEnc } else Map.find s.ct.fenceD k
  ready : t.domReady d = { lost := true }
  cores : ∀ c, c < 72 → (t.coreAt (coreKey d c)).ready = false ∧ (t.coreAt (coreKey d c)).state ≠ 0
  caches : ∀ k, k % 64 = d → Map.find t.ms.l2 k = none ∧ Map.find t.ms.owned k = none ∧ Map.find t.ms.combs k = none
  signals : ∀ k, k < 8 → (t.enc k).sigs.getLsbD 6 = true ∧ (t.enc k).sigs.getLsbD 7 = true
  teams : numbered s → s.wk.gathering = none → ∀ n T L, s.tm n = some T → T.domain = d →
    T.st = .started ∨ T.st = .stopping ∨ T.st = .terminated → s.launch T.launch = some L →
    ∃ T' M, t.tm n = some T' ∧ T'.st = .lost ∧ T'.galley = [] ∧ t.launch T.launch = some M ∧ L.nlost < M.nlost
  hinted : ∀ l L i, s.launch l = some L → L.retired = false → L.forme.hhard = true → i < L.forme.teams →
    L.forme.hint L.hints i = some d →
    (Map.has L.sent i = false ∨
      ∃ n T, s.tm n = some T ∧ T.launch = l ∧ T.index = i ∧ T.domain = d ∧ T.st = .inFlight) →
    ∃ M, t.launch l = some M ∧ Map.has M.sent i = true ∧ L.nlost < M.nlost

/-- Domains `d` and `n` are facing across the side `side` of `d`, which is the side `back` of `n` (R72). -/
def facing (d side n back : Nat) : Prop :=
  (side = 0 ∧ 8 ≤ d ∧ n = d - 8 ∧ back = 2) ∨ (side = 1 ∧ d % 8 ≠ 7 ∧ n = d + 1 ∧ back = 3) ∨
    (side = 2 ∧ d < 56 ∧ n = d + 8 ∧ back = 0) ∨ (side = 3 ∧ d % 8 ≠ 0 ∧ n = d - 1 ∧ back = 1)

/-- The array log of a domain. -/
def arrayLogOf (s : State) (d : Nat) : LogRing := Map.getD s.ct.arrayLog d {}

/-- The vertical log of a domain. -/
def vertLogOf (s : State) (d : Nat) : LogRing := Map.getD s.ct.vertLog d {}

/-- A ring has one more entry, which holds the wtime `w` in its low word (R452). -/
structure Logged (r r' : LogRing) (w : Nat) : Prop where
  head : r'.head = (r.head + 1) % 2 ^ 32
  entry : ∃ e, Map.find r'.ents (r.head % 256) = some e ∧ e.toNat % 2 ^ 64 = w % 2 ^ 64
  others : ∀ k, k ≠ r.head % 256 → Map.find r'.ents k = Map.find r.ents k

/-- The two sectors of the burst at `pa` alone have been poisoned. -/
def burstPoisoned (s t : State) (pa : Nat) : Prop :=
  ∀ a, t.mark a = (decide (pa ≤ a ∧ a < pa + 64) || s.mark a)

/-- The vertical lanes of a channel that spares have replaced. -/
def sparesOf (s : State) (d chan : Nat) : List Nat := Map.getD s.rb.spares (32 * d + chan) []

/-- Memory and sector marks of `t` and `s` agree, but for the addresses `hit`, which hold what `from_ a` held in `s`. -/
def movedTo (s t : State) (hit : Nat → Prop) (from_ : Nat → Nat) : Prop :=
  (∀ a, hit a → t.mb a = s.mb (from_ a) ∧ t.mark a = s.mark (from_ a)) ∧ ∀ a, ¬ hit a → t.mb a = s.mb a ∧ t.mark a = s.mark a

/-- Memory and marks list each address and sector once, in order. -/
def ordered (s : State) : Prop := Map.sorted s.ms.bytes = true ∧ Map.sorted s.ms.marks = true

/-- The checkpoint's DEST is the base of an image in region 1 (R453). -/
def destOk (s : State) : Prop := s.ct.ckDest.toNat / 2 ^ 52 = 1 ∧ s.ct.ckDest.toNat % 2 ^ 43 = 0

/-- A DRAM burst address of a domain. -/
def isBurst (d ofs : Nat) : Prop := d < 64 ∧ ofs < 2 ^ 37 ∧ ofs % 64 = 0

/-- A group runs on a domain of a checkpoint's mask. -/
def inMask (s : State) (G : Group) : Prop :=
  G.retired = false ∧ ∃ T, s.tm G.team = some T ∧ (T.st = .started ∨ T.st = .stopping) ∧ s.ct.ckMask.getLsbD T.domain = true

/-- Memory of a domain of a checkpoint's mask. -/
def masked (s : State) (a : Nat) : Prop := a < 2 ^ 43 ∧ s.ct.ckMask.getLsbD (a / 2 ^ 37) = true

/-- The settings of a domain's power manager (R479). -/
def Settings (p q : Power) : Prop :=
  q.tact = p.tact ∧ q.refill = p.refill ∧ q.shedlvl = p.shedlvl ∧ q.dceil = p.dceil ∧ q.undo = p.undo ∧ q.cap = p.cap ∧ q.pcap = p.pcap

end Sys2Proof.Claims

/-- R439, R441, R442, R443, R482: heartbeats, fences and links. A switch records a heartbeat, and one that comes after 2 µs
without any begins a new run; a switch that has heard none for 2 µs declares the node silent, and no later heartbeat takes that back
before the node is fenced. A node that a switch has declared silent is fenced, and so is a domain at 105 °C or above for 10 µs. A
failed link clears the border bits on both its sides, and loses the stores outstanding between the two domains. A reply from a
fenced range completes no claim and writes no byte: stores are lost. A peer's fence is lifted only after 10 µs of its heartbeats
without a gap. -/
def Obligations.FencesComplete : Prop :=
  (∀ (s : State) (n : Node) (sw : Nat),
    (hasSwitch n sw = false → ∃ t, exec (.heartbeat ⟨n, sw⟩) s = .next t ∧ s.becomes t) ∧
    (hasSwitch n sw = true → s.beat n sw = none → ∃ t, exec (.heartbeat ⟨n, sw⟩) s = .next t ∧
      (s.setBeat n sw { last := s.wtimeEnc, since := s.wtimeEnc, silent := false }).becomes t) ∧
    ∀ B : Beat, hasSwitch n sw = true → s.beat n sw = some B → ∃ t b, exec (.heartbeat ⟨n, sw⟩) s = .next t ∧
      (s.setBeat n sw b).becomes t ∧ b.last = s.wtimeEnc ∧
      (b.silent = true ↔ B.silent = true ∧ s.fencedN n = false) ∧
      (s.wtimeEnc < B.last + 2000 → b.since = B.since) ∧ (B.last + 2000 ≤ s.wtimeEnc → b.since = s.wtimeEnc)) ∧
  (∀ (s : State) (n : Node) (sw : Nat) (B : Beat), s.beat n sw = some B → hasSwitch n sw = true →
    ∃ t, exec (.heartbeatTimeout ⟨n, sw⟩) s = .next t ∧
      (B.silent = false → B.last + 2000 ≤ s.wtimeEnc → (s.setBeat n sw { B with silent := true }).becomes t) ∧
      (B.silent = true ∨ s.wtimeEnc < B.last + 2000 → s.becomes t)) ∧
  (∀ (s : State) (d : Nat), d < 64 →
    ∃ t, exec (.domainFence (.domain d)) s = .next t ∧
      (silenced s (.domain d) → s.fencedD d = false → DomainFenced s t d 1) ∧
      (¬ silenced s (.domain d) ∨ s.fencedD d = true → s.becomes t)) ∧
  (∀ (s : State) (p : Nat), p < 256 →
    ∃ t, exec (.domainFence (.peer p)) s = .next t ∧
      (silenced s (.peer p) → s.fencedP p = false → t.exe.teams = s.exe.teams ∧
        (∀ k, Map.find t.ct.fenceP k =
          if k = p then some { fenced := true, why := 1, wfence := s.wtimeEnc } else Map.find s.ct.fenceP k) ∧
        ∀ k, k < 8 → (t.enc k).sigs.getLsbD 7 = true) ∧
      (¬ silenced s (.peer p) ∨ s.fencedP p = true → s.becomes t)) ∧
  (∀ (s : State) (d : Nat), d < 64 →
    ∃ t, exec (.thermalFence d) s = .next t ∧
      (∀ hot, (s.powerOf d).hotSince = some hot → hot + 10000 ≤ s.wtime d → s.fencedD d = false → DomainFenced s t d 2) ∧
      ((∀ hot, (s.powerOf d).hotSince = some hot → s.wtime d < hot + 10000) ∨ s.fencedD d = true → s.becomes t)) ∧
  (∀ (s : State) (req : Nat) (f : Flight), inFlight s req f →
    ∃ t, exec (.fencedReplyDiscard req) s = .next t ∧ Nearby s t ∧ (∀ a, t.mb a = s.mb a) ∧
      ∀ line, s.lineFenced f line = true → losesStores s t f line) ∧
  (∀ (s : State) (d side n back : Nat), d < 64 → facing d side n back → (d, side) ∉ s.rb.links →
    ∃ t, exec (.linkFailure d side) s = .next t ∧
      (t.domReady d).border.getLsbD side = false ∧ (t.domReady n).border.getLsbD back = false ∧
      (∀ k b, b < 4 → (k, b) ≠ (d, side) → (k, b) ≠ (n, back) →
        (t.domReady k).border.getLsbD b = (s.domReady k).border.getLsbD b) ∧
      (d, side) ∈ t.rb.links ∧ (n, back) ∈ t.rb.links ∧ (∀ k, k < 8 → (t.enc k).sigs.getLsbD 6 = true) ∧
      t.exe.teams = s.exe.teams ∧ t.wk = s.wk ∧ (∀ a, t.mb a = s.mb a) ∧
      ∀ req f line, inFlight s req f →
        (f.core / 72 = d ∧ homeOf (128 * line) = some n ∨ f.core / 72 = n ∧ homeOf (128 * line) = some d) →
        losesStores s t f line) ∧
  (∀ (s : State) (p : Nat) (F : Fence), Map.find s.ct.fenceP p = some F → F.fenced = true →
    ∃ t, exec (.peerFenceClear p) s = .next t ∧
      (heardWell s p → { s with ct := { s.ct with fenceP := Map.insert s.ct.fenceP p { F with fenced := false, why := 0 } } }.becomes t) ∧
      (¬ heardWell s p → s.becomes t))

/-- R78, R450, R451, R452, R453, R480, R482: maintenance. A lasting fault that firmware's test finds takes its unit out of use: a
spare takes the place of a physical lane that has none yet, else the core is soft-disabled, if the wafer map does not exclude it; L2
ways, DRAM rows and vertical lanes are replaced. An error of a DRAM burst is logged, and poisons its sectors where it stays
uncorrected. A checkpoint stops the groups of its domains, and once they have stopped copies their memory and its marks, with the
snapshots of the stopped teams, to the image; a restore copies the image back. The power manager lowers one setting a step while the
domain is over its cap or hot. (A DEST outside region 1 is refused: log entry 70.) -/
def Obligations.MaintenanceCompletes : Prop :=
  (∀ (s : State) (d c sl lane : Nat),
    let S := s.sliceAt (sliceKey (coreKey d c) sl)
    ((s.coreAt (coreKey d c)).state = 1 → ∃ t, exec (.firmwareSelftest (.coreUnit d c) true) s = .next t ∧ s.becomes t) ∧
    ((s.coreAt (coreKey d c)).state ≠ 1 →
      ∃ t, exec (.firmwareSelftest (.coreUnit d c) true) s = .next t ∧ (t.coreAt (coreKey d c)).state = 2 ∧
        (t.coreAt (coreKey d c)).ready = false ∧ ∀ k, k ≠ coreKey d c → t.coreAt k = s.coreAt k) ∧
    (lane % 32 ∈ S.swapped →
      ∃ t, exec (.firmwareSelftest (.lane d c sl lane) true) s = .next t ∧ (∀ k, t.sliceAt k = s.sliceAt k) ∧
        t.exe.cores = s.exe.cores) ∧
    (lane % 32 ∉ S.swapped → 0 < S.spares →
      ∃ t, exec (.firmwareSelftest (.lane d c sl lane) true) s = .next t ∧
        t.sliceAt (sliceKey (coreKey d c) sl) = { S with spares := S.spares - 1, swapped := S.swapped ++ [lane % 32] } ∧
        (∀ k, k ≠ sliceKey (coreKey d c) sl → t.sliceAt k = s.sliceAt k) ∧ t.exe.cores = s.exe.cores) ∧
    (lane % 32 ∉ S.swapped → S.spares = 0 →
      ∃ t, exec (.firmwareSelftest (.lane d c sl lane) true) s = .next t ∧
        ((s.coreAt (coreKey d c)).state ≠ 1 → (t.coreAt (coreKey d c)).state = 2 ∧ (t.coreAt (coreKey d c)).ready = false) ∧
        ((s.coreAt (coreKey d c)).state = 1 → t.exe.cores = s.exe.cores) ∧
        ∀ k, k ≠ coreKey d c → t.coreAt k = s.coreAt k)) ∧
  (∀ (s : State) (d way row : Nat),
    (∃ t, exec (.firmwareSelftest (.l2Way d way) true) s = .next t ∧ (d, way) ∈ t.rb.ways) ∧
    (∃ t, exec (.firmwareSelftest (.dramRow d row) true) s = .next t ∧ (d, row) ∈ t.rb.rows) ∧
    ∃ t, exec (.firmwareSelftest (.l2Way d way) false) s = .next t ∧ s.becomes t) ∧
  (∀ (s : State) (d chan lane : Nat), lane ∉ sparesOf s d chan →
    ∃ t, exec (.firmwareSelftest (.verticalLane d chan lane) true) s = .next t ∧
      ((sparesOf s d chan).length < 2 → sparesOf t d chan = sparesOf s d chan ++ [lane]) ∧
      (2 ≤ (sparesOf s d chan).length → t.fencedD d = true)) ∧
  (∀ (s : State) (d ofs : Nat) (bit : BitVec 9), isBurst d ofs →
    (∃ t, exec (.dramBurstTransfer d ofs .none) s = .next t ∧ s.becomes t) ∧
    (∃ t, exec (.dramBurstTransfer d ofs (.corrected bit)) s = .next t ∧ Logged (arrayLogOf s d) (arrayLogOf t d) (s.wtime d) ∧
      (∀ a, t.mark a = s.mark a) ∧ ∀ a, t.mb a = s.mb a) ∧
    (∃ t, exec (.dramBurstTransfer d ofs (.uncorrectable bit)) s = .next t ∧ Logged (arrayLogOf s d) (arrayLogOf t d) (s.wtime d) ∧
      burstPoisoned s t (d * 2 ^ 37 + ofs) ∧ ∀ a, t.mb a = s.mb a) ∧
    (∃ t, exec (.scrub d ofs bit) s = .next t ∧ Logged (arrayLogOf s d) (arrayLogOf t d) (s.wtime d) ∧
      (∀ a, t.mark a = s.mark a) ∧ ∀ a, t.mb a = s.mb a)) ∧
  (∀ (s : State) (d ofs lane tries : Nat), isBurst d ofs → lane < 74 → 1 ≤ tries → tries ≤ 4 →
    let chan := ofs / 256 % 32
    ∃ t, exec (.dramBurstTransfer d ofs (.parity lane tries)) s = .next t ∧ Logged (vertLogOf s d) (vertLogOf t d) (s.wtime d) ∧
      (∀ a, t.mb a = s.mb a) ∧
      (tries < 4 → sparesOf t d chan = sparesOf s d chan ∧ ∀ a, t.mark a = s.mark a) ∧
      (tries = 4 → (sparesOf s d chan).length < 2 →
        sparesOf t d chan = sparesOf s d chan ++ [lane] ∧ ∀ a, t.mark a = s.mark a) ∧
      (tries = 4 → 2 ≤ (sparesOf s d chan).length → burstPoisoned s t (d * 2 ^ 37 + ofs))) ∧
  (∀ s : State, numbered s → ∃ t, exec .checkpointSave s = .next t ∧
    (s.ct.ckBusy = true → s.becomes t) ∧
    (s.ct.ckBusy = false → s.ct.ckDest.toNat / 2 ^ 52 ≠ 1 →
      { s with ct := { s.ct with ckResult := 1, ckDone := s.wtimeEnc } }.becomes t) ∧
    (s.ct.ckBusy = false → s.ct.ckDest.toNat / 2 ^ 52 = 1 → t.ct.ckBusy = true ∧ t.ct.ckCmd = 1 ∧ (∀ a, t.mb a = s.mb a) ∧
      ∀ g G, s.grp g = some G → ∃ H, t.grp g = some H ∧ H.regs = G.regs ∧ (inMask s G → H.frozen = true) ∧
        (¬ inMask s G → H.frozen = G.frozen))) ∧
  (∀ s : State, ∃ t, exec .checkpointRestore s = .next t ∧
    (s.ct.ckBusy = true → s.becomes t) ∧
    (s.ct.ckBusy = false →
      (∃ p ∈ s.exe.teams, p.2.st.resident = true ∧ s.ct.ckMask.getLsbD p.2.domain = true) ∨ s.ct.ckDest.toNat / 2 ^ 52 ≠ 1 →
      { s with ct := { s.ct with ckResult := 1, ckDone := s.wtimeEnc } }.becomes t) ∧
    (s.ct.ckBusy = false → (∀ p ∈ s.exe.teams, p.2.st.resident = true → s.ct.ckMask.getLsbD p.2.domain = false) → destOk s →
      s.ms.combs = [] → ordered s →
      t.ct.ckBusy = true ∧ t.ct.ckCmd = 2 ∧ movedTo s t (masked s) (fun a => s.ct.ckDest.toNat + a))) ∧
  (∀ (s : State) (failed : Bool), ∃ t, exec (.checkpointEnd failed) s = .next t ∧
    (s.ct.ckBusy = false → s.becomes t) ∧
    (s.ct.ckBusy = true → s.ct.ckCmd = 1 →
      (∀ g ∈ s.rb.ckFrozen, ∀ G, s.grp g = some G → ∀ e, e < 4 → (G.sp e).v = true → (G.sp e).chain = 0) →
      let s0 := s.snapshots s.ckTeams
      t.ct.ckBusy = false ∧ t.ct.ckDone = s.wtimeEnc ∧ t.rb.ckFrozen = [] ∧
      (∀ g ∈ s.rb.ckFrozen, ∀ G, s.grp g = some G → ∃ H, t.grp g = some H ∧ H.frozen = false) ∧
      (failed = true → t.ct.ckResult = 3 ∧ ∀ a, t.mb a = s.mb a) ∧
      (failed = false → s.ms.combs = [] → ordered s → destOk s →
        t.ct.ckResult = (if s0.ms.marks.any (fun p => p.2 && decide (p.1 < 2 ^ 38 ∧ s.ct.ckMask.getLsbD (p.1 / 2 ^ 32) = true))
          then 2 else 0) ∧
        movedTo s0 t (fun b => ∃ a, masked s a ∧ b = s.ct.ckDest.toNat + a) (fun b => b - s.ct.ckDest.toNat))) ∧
    (s.ct.ckBusy = true → s.ct.ckCmd ≠ 1 →
      (s.ct.ckT ≤ s.wtimeEnc →
        { s with ct := { s.ct with
          ckBusy := false, ckDone := s.wtimeEnc, ckResult := if failed then 3 else s.ct.ckResult } }.becomes t) ∧
      (s.wtimeEnc < s.ct.ckT → s.becomes t))) ∧
  (∀ (s : State) (d : Nat) (pwr : BitVec 16) (tj : BitVec 8), d < 64 → (s.powerOf d).steppedAt + 1000 ≤ s.wtime d →
    let P := s.powerOf d
    let cap2 := if s.ct.coolantOut then P.pcap else 2 * P.pcap
    let hot : Prop := cap2 < 2 * pwr.toNat ∨ 95 ≤ tj.toNat
    ∃ t, exec (.powerStep d pwr tj) s = .next t ∧
      let Q := t.powerOf d
      Q.pwr = pwr.toNat ∧ Q.tj = tj.toNat ∧ Q.steppedAt = s.wtime d ∧ (∀ k, k ≠ d → t.powerOf k = s.powerOf k) ∧
      (Q.hotSince = none ↔ tj.toNat < 105) ∧
      (hot → P.tact < 64 → Q.tact = min (2 * P.tact) 64 ∧ Q.refill = P.refill ∧ Q.shedlvl = P.shedlvl ∧ Q.dceil = P.dceil) ∧
      (hot → 64 ≤ P.tact → 1 < P.refill →
        Q.tact = P.tact ∧ Q.refill = P.refill - 1 ∧ Q.shedlvl = min (P.shedlvl + 64) P.cap ∧ Q.dceil = P.dceil) ∧
      (hot → 64 ≤ P.tact → P.refill ≤ 1 → s.dmin d tj.toNat < P.dceil →
        Q.tact = P.tact ∧ Q.refill = P.refill ∧ Q.shedlvl = P.shedlvl ∧ Q.dceil = P.dceil - 1) ∧
      (hot → 64 ≤ P.tact → P.refill ≤ 1 → P.dceil ≤ s.dmin d tj.toNat → Settings P Q) ∧
      (¬ hot → cap2 ≤ 2 * pwr.toNat + 60 ∨ 90 ≤ tj.toNat ∨ P.undo = [] → Settings P Q) ∧
      (∀ o us v w, ¬ hot → 2 * pwr.toNat + 60 < cap2 → tj.toNat < 90 → P.undo = (o, v, w) :: us → Q.undo = us ∧
        (o = 0 → Q.tact = v) ∧ (o = 1 → Q.refill = v ∧ Q.shedlvl = w) ∧ (2 ≤ o → Q.dceil = v))) ∧
  (∀ s : State,
    (∃ t, exec .coolantLimit s = .next t ∧ { s with ct := { s.ct with coolantOut := true } }.becomes t) ∧
    ∃ t, exec .coolantWithinLimits s = .next t ∧ { s with ct := { s.ct with coolantOut := false } }.becomes t)

/-- R67, R68, R69, R70, R72: boot, ownership and module reset. An image of another form is rejected unmeasured; each other one is
entered in the attestation log with its result, and one that passes every check is loaded; a main image starts the eight
cores at its entry. A committed image's SEQ raises its kind's minimum. A P-384 key is enrolled as owner key only while there is none,
and given up only under its own signature. Module reset puts every register back and keeps memory, unless ownership was
transferred. -/
def Obligations.BootAndResetComplete : Prop :=
  (∀ (s : State) (img : List Byte), imgFormed img = false → ∃ t, exec (.bootImageLoad img) s = .next t ∧ s.becomes t) ∧
  (∀ (s : State) (img : List Byte), imgFormed img = true → s.ct.attest.length < 256 →
    let kind := leNat ((img.drop 4).take 1)
    let load := leNat ((img.drop 0x18).take 8)
    let entry := BitVec.ofNat 64 (leNat ((img.drop 0x20).take 8))
    ∃ (t : State) (e : BitVec 512), exec (.bootImageLoad img) s = .next t ∧
      e.toNat % 2 ^ 64 = leNat ((img.drop 0x10).take 8) ∧ e.toNat / 2 ^ 64 % 256 = kind ∧ e.toNat / 2 ^ 72 % 256 = s.imgResult img ∧
      (s.imgResult img ≠ 0 → { s with ct := { s.ct with attest := s.ct.attest ++ [e] } }.becomes t) ∧
      (s.imgResult img = 0 → kind ≠ 1 →
        (∀ k, t.enc k = s.enc k) ∧ t.ct.attest = s.ct.attest ++ [e]) ∧
      (s.imgResult img = 0 → kind = 1 → ∀ k, k < 8 → (t.enc k).pc = entry ∧ (t.enc k).machine = true ∧ (t.enc k).swait = none) ∧
      (s.imgResult img = 0 → load + (img.length - 0x200) ≤ 2 ^ 64 →
        ∀ i, i < img.length - 0x200 → Map.getD t.en.mem (load + i) 0 = img.getD (0x200 + i) 0)) ∧
  (∀ (s : State) (kind : BitVec 8) (i : Image), s.en.images.reverse.find? (fun x => x.kind == kind) = some i →
    ∃ t, exec (.imageCommit kind) s = .next t ∧ t.ct = s.ct ∧ t.exe.cores = s.exe.cores ∧
      (Map.getD t.en.minSeq kind.toNat 0).toNat = max (Map.getD s.en.minSeq kind.toNat (0 : BitVec 64)).toNat i.seq.toNat ∧
      ∀ k, k ≠ kind.toNat → Map.getD t.en.minSeq k 0 = Map.getD s.en.minSeq k (0 : BitVec 64)) ∧
  (∀ (s : State) (key : BitVec 768), ∃ t, exec (.ownerEnrol key) s = .next t ∧
    (s.en.ownerKey = none → ecOn (ecKey key.toNat) = true → { s with en := { s.en with ownerNext := some key } }.becomes t) ∧
    (s.en.ownerKey ≠ none ∨ ecOn (ecKey key.toNat) = false → s.becomes t)) ∧
  (∀ (s : State) (sig key : BitVec 768), s.en.ownerKey = some key → ∃ t, exec (.ownershipTransfer sig) s = .next t ∧
    (ecdsaVerify key.toNat sig.toNat Config.transferText = false → s.becomes t) ∧
    (ecdsaVerify key.toNat sig.toNat Config.transferText = true → t.en.ownerKey = none ∧ t.en.erase = true ∧
      Map.getD t.en.minSeq 2 0 = (0 : BitVec 64) ∧ Map.getD t.en.minSeq 3 0 = (0 : BitVec 64) ∧
      Map.getD t.en.minSeq 1 0 = Map.getD s.en.minSeq 1 (0 : BitVec 64))) ∧
  (∀ (s : State) (nonce : BitVec 384), ∃ t, exec (.attestSign nonce) s = .next t ∧
    { s with ct := { s.ct with
      nonce := nonce, attestSig := Config.attestSign nonce (s.ct.attest.flatMap (fun e : BitVec 512 => leBytes 64 e.toNat)) } }.becomes t) ∧
  (∀ s : State, ∃ t, exec .moduleReset s = .next t ∧
    (∀ a, t.mb a = if s.en.erase = true ∧ paRegion a = 0 then 0 else s.mb a) ∧
    t.cur = .idle ∧ t.tr = State.reset.tr ∧ t.ct = State.reset.ct ∧ t.wk = State.reset.wk ∧ t.exe = State.reset.exe ∧
    t.eng = State.reset.eng ∧ t.rb = State.reset.rb ∧ t.hp = State.reset.hp ∧ t.ms.flights = [] ∧ t.ms.owned = [] ∧
    t.en = { State.reset.en with
      minSeq := s.en.minSeq
      ownerKey := match s.en.ownerNext with | some k => some k | none => s.en.ownerKey })

/-! ### The whole machine -/

/-- R2, R94, R98, R99, R100, R103, R109: words that the spec's listings give decode to the instructions beside them. -/
def Obligations.EncodingsOfTheSpecDecode : Prop :=
  decode (leBytes 12 (0x0002505C * 2 ^ 64 + 0x000059C54802800A)) =
    .ok (.iadd3 { fmt := .b, d := 20, a := .full 21 1 5, b := .reg 22 1, c := .reg 23 0 }) .b ∧
  decode (leBytes 16 (0x12345678 * 2 ^ 64 + 0x0008000248010003)) =
    .ok (.iadd { fmt := .c, d := 8, a := .reg 9 0, b := .imm 0, imm := 0x12345678 }) .c ∧
  decode (leBytes 8 0x0580000208028135) = .ok (.pack { d := 20, a := .reg 8 0, t := .e4m3, m := 5 }) .a ∧
  decode (leBytes 8 0x000808808A800201) =
    .ok (.bra { p := 20, a := .imm 8, b := .imm 8 }) .a ∧
  decode (leBytes 12 (0x980 * 2 ^ 64 + 0x02001001C800028A)) =
    .ok (.stash { fmt := .b, a := .reg 7 0, b := .reg 4 0, c := .imm 384, m := 2 }) .b ∧
  decode (leBytes 8 0x0100000008080349) = .ok (.mdrain { d := 64, m := 1 }) .a ∧
  decode (leBytes 8 0x2018010208028389) = .ok (.atom { d := 20, a := .reg 8 0, b := .imm 1, t := .n32, m := 0x20 }) .a ∧
  decode (leBytes 8 0x000803000163C3A5) =
    .ok (.seamrecv { d := 30, p := 11, pn := false, b := .imm 3 }) .a ∧
  decode (leBytes 8 0x0300003D08000489) = .ok (.mts { a := .reg 244 0, m := 3 }) .a ∧
  decodeEncon 0x1C83128B = .ok (.bfxu 5 6 8 7)

/-- R58, R63, R94, R98, R99, R100, R103, R114, R116, R117: decoding undoes encoding. The bytes of every well-formed instruction, with
every operand at every value that its encoding admits and whatever bytes follow, decode to that instruction. -/
def Obligations.DecodeUndoesEncode : Prop :=
  ∀ i : Instr, i.wf = true →
    (∀ o x, i.limov? = some (o, x) → ∀ rest, decode (encode i ++ rest) = .ok i x.fmt) ∧
    (∀ f w, i = .unassignedOpcode f w → ∀ rest, decode (encode i ++ rest) = .ok i f) ∧
    (∀ w, enconWord i = some w → encode i = leBytes 4 w.toNat ∧ decodeEncon w = .ok i)

/-- R118, R169: a step runs the decoded instruction. Where it is the turn of a split that has no trap to take, and the clean window
at its PC decodes to `i`, the step is `i`'s execution, with the window in the split's fetch buffer and what translating and reading
it has left; a split that has stopped at an instruction executes that one again, without fetching it; where it is
an Encon core's turn, and its next word decodes to `i`, the step is `i`'s execution, and a word of the base architecture is
executed as such (R57; log entry 10); where the agenda begins with an event,
it is the event's. -/
def Obligations.AStepRunsTheDecodedInstruction : Prop :=
  (∀ (s s1 s2 : State) (g e pa : Nat) (G : Group) (T : Team) (l : Leaf) (w : CodeWin) (i : Instr) (f : Fmt),
    s.cur = .split g e → s.grp g = some G → s.tm G.team = some T → (G.sp e).pendingTrap = none →
    (G.sp e).again = none → (G.sp e).doomed = 0 →
    let win := (G.sp e).pc.toNat / 32 * 32
    fetchXl { s with cur := .idle } g e T (G.sp e) win (G.lvl == 0) = (.ok l pa, s1) →
    codeWin s1 T.coreKey (s.ctxOf T) (G.sp e).fbuf win l pa = (w, s2) → w.mark = false →
    decode (w.bytes.drop ((G.sp e).pc.toNat % 32)) = .ok i f →
    step s = exec i { s2.modGrp g (fun G => G.modSp e (fun sp => sp.buffer w)) with cur := .split g e }) ∧
  (∀ (s : State) (g e : Nat) (G : Group) (T : Team) (w : BitVec 128) (i : Instr) (f : Fmt),
    s.cur = .split g e → s.grp g = some G → s.tm G.team = some T → (G.sp e).pendingTrap = none →
    (G.sp e).inst = some w → decode (leBytes 16 w.toNat) = .ok i f → step s = exec i s) ∧
  (∀ (s : State) (k : Nat) (i : Instr), s.cur = .encon k → (s.enc k).swait = none →
    decodeEncon (BitVec.ofNat 32 (leNat ((List.range 4).map (fun n => Map.getD s.en.mem ((s.enc k).pc.toNat + n) 0)))) = .ok i →
    step s = exec i s) ∧
  (∀ (s : State) (k : Nat) (w : BitVec 32), s.cur = .encon k → (s.enc k).swait = none →
    w = BitVec.ofNat 32 (leNat ((List.range 4).map (fun n => Map.getD s.en.mem ((s.enc k).pc.toNat + n) 0))) →
    decodeEncon w = .base → step s = .next (rvStep k w s)) ∧
  (∀ (s : State) (i : Instr) (ms : List Move), s.cur = .idle → s.agenda = .event i :: ms → isEvent i = true →
    step s = exec i { s with agenda := ms })

/-- R44, R71, R78, R80, R130, R181, R372, R410, R442, R453, R475, R479: after module reset every register of the control region
holds the value that the tables of the spec give for reset: queues are disabled, nothing is ready, no context translates, no
node is fenced, and the power managers stand at their defaults; nothing has been launched, and memory holds no mark. (That
memory reads as zero is the model's choice, log entry 6.) -/
def Obligations.ResetHoldsItsValues : Prop :=
  (∀ q, State.reset.queue q = {}) ∧ (∀ d, State.reset.domReady d = {}) ∧
  State.reset.ct.memp = 0 ∧ State.reset.ct.enc = 0 ∧ State.reset.ct.host = false ∧ State.reset.ct.scale = 0 ∧
  (∀ ctx, (Map.getD State.reset.tr.roots ctx ({} : Root)).en = false) ∧
  (∀ ctx, (State.reset.trapBlk ctx).fqen = false ∧ (State.reset.trapBlk ctx).fqtail = 0 ∧ (State.reset.trapBlk ctx).fqdone = 0) ∧
  (∀ ctx, State.reset.rcapOf ctx = 2) ∧ State.reset.ct.cflush = 4 ∧
  (∀ d, State.reset.fencedD d = false) ∧ (∀ p, State.reset.fencedP p = false) ∧
  State.reset.ct.ckBusy = false ∧ State.reset.ct.nren = false ∧ State.reset.ct.nrtail = 0 ∧ State.reset.ct.nrhead = 0 ∧
  (∀ d, let P := State.reset.powerOf d
    P.refill = 4 ∧ P.cap = 512 ∧ P.shedlvl = 0 ∧ P.dceil = 2 ∧ P.tact = 16 ∧ P.pcap = 600) ∧
  (∀ k, (State.reset.coreAt k).ready = false ∧ (State.reset.coreAt k).state = 3) ∧
  State.reset.wk.launches = [] ∧ State.reset.exe.teams = [] ∧ State.reset.exe.groups = [] ∧
  (∀ a, State.reset.mark a = false) ∧ ∀ a, State.reset.mb a = 0

/-- The state after module reset meets the invariant of `EveryStepKeepsTheMachineQuiet`, and its memory is canonical. -/
def Obligations.ResetIsQuiet : Prop := State.reset.quiet ∧ State.reset.memOk

/-- R118, R163, R169, R170, R341: the machine never stops: from every state between steps the step leads to another, whatever
instruction it meets. After it, a split whose turn it is is valid, no split waits on for what has come about, no gate whose
phase is over stays shut, and no written byte is left out of memory. -/
def Obligations.EveryStepKeepsTheMachineQuiet : Prop :=
  ∀ s : State, s.quiet → ∃ t, step s = .next t ∧ t.quiet
end

