-- ==== Sys2Proof/Laws/Map.lean ====
section
/-! SUPPORT. Laws of finite maps: what a lookup finds after an update, and that every update keeps the canonical form. -/

namespace Sys2Proof.Machine

variable {α : Type}

/-! ### Sorting -/

/-- An element that is put into a list is in it, beside those that were. -/
theorem mem_insertBy {α : Type} (le : α → α → Bool) (a b : α) (l : List α) : b ∈ insertBy le a l ↔ b = a ∨ b ∈ l := by
  induction l with
  | nil => simp [insertBy]
  | cons c l ih =>
    simp only [insertBy]
    split
    · simp
    · simp only [List.mem_cons, ih]
      constructor <;> (rintro (h | h | h) <;> simp [h])

/-- Sorting keeps the elements. -/
@[simp] theorem mem_sortBy {α : Type} (le : α → α → Bool) (b : α) (l : List α) : b ∈ sortBy le l ↔ b ∈ l := by
  induction l with
  | nil => simp [sortBy]
  | cons a l ih => simp [sortBy, mem_insertBy, ih]

/-! ### Lookups -/

/-- A set key holds what it was set to, another key what it held. -/
theorem Map.find_insert (m : Map α) (a b : Nat) (v : α) :
    Map.find (Map.insert m a v) b = if b = a then some v else Map.find m b := by
  induction m with
  | nil => simp [Map.insert, Map.find]
  | cons p m ih =>
    obtain ⟨k, w⟩ := p
    by_cases h1 : a < k
    · simp only [Map.insert, h1, if_true, Map.find]
    · by_cases h2 : a = k
      · subst h2
        simp only [Map.insert, if_neg h1, if_true, Map.find]
        by_cases hb : b = a <;> simp [hb]
      · simp only [Map.insert, if_neg h1, if_neg h2, Map.find, ih]
        by_cases hb : b = k
        · subst hb; simp [Ne.symm h2]
        · simp [hb]

/-- A removed key is not found, another key holds what it held. -/
theorem Map.find_erase (m : Map α) (a b : Nat) :
    Map.find (Map.erase m a) b = if b = a then none else Map.find m b := by
  induction m with
  | nil => simp [Map.erase, Map.find]
  | cons p m ih =>
    obtain ⟨k, w⟩ := p
    by_cases hk : k = a
    · subst hk
      have : Map.erase ((k, w) :: m) k = Map.erase m k := by simp [Map.erase]
      rw [this, ih, Map.find]
      by_cases hb : b = k <;> simp [hb]
    · have : Map.erase ((k, w) :: m) a = (k, w) :: Map.erase m a := by simp [Map.erase, hk]
      rw [this, Map.find, ih, Map.find]
      by_cases hb : b = k
      · subst hb; simp [hk]
      · simp [hb]

/-- `put` sets what a lookup with the default reads. -/
theorem Map.getD_put [DecidableEq α] (m : Map α) (a b : Nat) (v d : α) :
    Map.getD (Map.put m a v d) b d = if b = a then v else Map.getD m b d := by
  unfold Map.getD Map.put
  by_cases hv : v = d
  · simp only [hv, if_true, Map.find_erase]
    by_cases hb : b = a <;> simp [hb]
  · simp only [if_neg hv, Map.find_insert]
    by_cases hb : b = a <;> simp [hb]

/-- A changed value is found where its key was listed. -/
theorem Map.find_modify (m : Map α) (a b : Nat) (f : α → α) :
    Map.find (Map.modify m a f) b = if b = a then (Map.find m b).map f else Map.find m b := by
  induction m with
  | nil => simp [Map.modify, Map.find]
  | cons p m ih =>
    obtain ⟨k, w⟩ := p
    unfold Map.modify at ih ⊢
    by_cases hk : k = a
    · subst hk
      simp only [List.map_cons, if_true, Map.find, ih]
      by_cases hb : b = k <;> simp [hb]
    · simp only [List.map_cons, if_neg hk, Map.find, ih]
      by_cases hb : b = k
      · subst hb; simp [hk]
      · simp [hb]

/-- A map changed entry by entry is looked up entry by entry. -/
theorem Map.find_map (m : Map α) (f : Nat → α → α) (b : Nat) :
    Map.find (m.map (fun p => (p.1, f p.1 p.2))) b = (Map.find m b).map (f b) := by
  induction m with
  | nil => simp [Map.find]
  | cons p m ih =>
    obtain ⟨k, w⟩ := p
    simp only [List.map_cons, Map.find, ih]
    by_cases hb : b = k
    · subst hb; simp
    · simp [hb]

/-! ### Canonical form -/

/-- Every key of the list lies above `k`. -/
def Map.above (k : Nat) (m : Map α) : Prop := ∀ p ∈ m, k < p.1

/-- The keys rise from a first one exactly when they rise and lie above it. -/
theorem Map.sorted_cons (k : Nat) (v : α) (m : Map α) :
    Map.sorted ((k, v) :: m) = true ↔ Map.above k m ∧ Map.sorted m = true := by
  induction m generalizing k v with
  | nil => simp [Map.sorted, Map.above]
  | cons p m ih =>
    obtain ⟨k', w⟩ := p
    simp only [Map.sorted, Bool.and_eq_true, decide_eq_true_eq]
    constructor
    · rintro ⟨h, hs⟩
      refine ⟨fun p hp => ?_, hs⟩
      rcases List.mem_cons.1 hp with rfl | hp
      · exact h
      · exact Nat.lt_trans h (((ih k' w).1 hs).1 p hp)
    · rintro ⟨h, hs⟩
      exact ⟨h (k', w) List.mem_cons_self, hs⟩

/-- What `insert` lists was listed, or is the pair inserted. -/
theorem Map.mem_insert (m : Map α) (a : Nat) (v : α) (p : Nat × α) (h : p ∈ Map.insert m a v) :
    p = (a, v) ∨ p ∈ m := by
  induction m with
  | nil => simpa [Map.insert] using h
  | cons q m ih =>
    obtain ⟨k, w⟩ := q
    simp only [Map.insert] at h
    split at h
    · rcases List.mem_cons.1 h with h | h
      · exact .inl h
      · exact .inr h
    · split at h
      · rcases List.mem_cons.1 h with h | h
        · exact .inl h
        · exact .inr (List.mem_cons_of_mem _ h)
      · rcases List.mem_cons.1 h with h | h
        · exact .inr (h ▸ List.mem_cons_self)
        · exact (ih h).imp_right (List.mem_cons_of_mem _)

/-- `insert` keeps the keys rising. -/
theorem Map.sorted_insert (m : Map α) (a : Nat) (v : α) (h : Map.sorted m = true) :
    Map.sorted (Map.insert m a v) = true := by
  induction m with
  | nil => rfl
  | cons p m ih =>
    obtain ⟨k, w⟩ := p
    have hc := (Map.sorted_cons k w m).1 h
    simp only [Map.insert]
    split
    · rename_i hlt
      refine (Map.sorted_cons _ _ _).2 ⟨fun p hp => ?_, h⟩
      rcases List.mem_cons.1 hp with rfl | hp
      · exact hlt
      · exact Nat.lt_trans hlt (hc.1 p hp)
    · rename_i hnl
      split
      · rename_i heq; subst heq
        exact (Map.sorted_cons _ _ _).2 hc
      · rename_i hne
        refine (Map.sorted_cons _ _ _).2 ⟨fun p hp => ?_, ih hc.2⟩
        rcases Map.mem_insert m a v p hp with rfl | hp
        · exact Nat.lt_of_le_of_ne (Nat.le_of_not_lt hnl) (Ne.symm hne)
        · exact hc.1 p hp

/-- Leaving pairs out keeps the keys rising. -/
theorem Map.sorted_filter (m : Map α) (f : Nat × α → Bool) (h : Map.sorted m = true) :
    Map.sorted (m.filter f) = true := by
  induction m with
  | nil => rfl
  | cons p m ih =>
    obtain ⟨k, w⟩ := p
    have hc := (Map.sorted_cons k w m).1 h
    simp only [List.filter_cons]
    split
    · exact (Map.sorted_cons _ _ _).2 ⟨fun p hp => hc.1 p (List.mem_filter.1 hp).1, ih hc.2⟩
    · exact ih hc.2

/-- `put` keeps the canonical form. -/
theorem Map.wf_put [DecidableEq α] (m : Map α) (a : Nat) (v d : α) (h : Map.wf m d = true) :
    Map.wf (Map.put m a v d) d = true := by
  simp only [Map.wf, Bool.and_eq_true, List.all_eq_true, decide_eq_true_eq] at h ⊢
  unfold Map.put
  split
  · exact ⟨Map.sorted_filter m _ h.1, fun p hp => h.2 p (List.mem_filter.1 hp).1⟩
  · rename_i hv
    refine ⟨Map.sorted_insert m a v h.1, fun p hp => ?_⟩
    rcases Map.mem_insert m a v p hp with rfl | hp
    · exact hv
    · exact h.2 p hp

/-- Setting many keys in turn keeps the canonical form. -/
theorem Map.wf_putAll [DecidableEq α] (m : Map α) (d : α) (l : List (Nat × α)) (h : Map.wf m d = true) :
    Map.wf (Map.putAll m d l) d = true := by
  induction l generalizing m with
  | nil => exact h
  | cons p l ih => exact ih _ (Map.wf_put m p.1 p.2 d h)

/-- Two maps in canonical form that read alike at every key are equal. -/
theorem Map.ext_of_wf [DecidableEq α] (m n : Map α) (d : α) (hm : Map.wf m d = true) (hn : Map.wf n d = true)
    (h : ∀ a, Map.getD m a d = Map.getD n a d) : m = n := by
  have key : ∀ (m : Map α), Map.sorted m = true → ∀ k v, (k, v) ∈ m → Map.find m k = some v := by
    intro m
    induction m with
    | nil => simp
    | cons p m ih =>
      obtain ⟨k', w⟩ := p
      intro hs k v hk
      have hc := (Map.sorted_cons k' w m).1 hs
      rcases List.mem_cons.1 hk with he | hk
      · cases he; simp [Map.find]
      · have : k ≠ k' := Nat.ne_of_gt (hc.1 _ hk)
        simp [Map.find, this, ih hc.2 k v hk]
  have lowNone : ∀ (m : Map α) (k : Nat), Map.above k m → ∀ a, a ≤ k → Map.find m a = none := by
    intro m
    induction m with
    | nil => intros; rfl
    | cons p m ih =>
      intro k ha a hle
      have h1 : k < p.1 := ha p List.mem_cons_self
      have h2 : a ≠ p.1 := by omega
      simp only [Map.find, if_neg h2]
      exact ih k (fun q hq => ha q (List.mem_cons_of_mem _ hq)) a hle
  induction m generalizing n with
  | nil =>
    cases n with
    | nil => rfl
    | cons q n =>
      obtain ⟨k, v⟩ := q
      simp only [Map.wf, Bool.and_eq_true, List.all_eq_true, decide_eq_true_eq] at hn
      have := h k
      rw [Map.getD, Map.getD, key _ hn.1 k v List.mem_cons_self] at this
      exact absurd this.symm (hn.2 (k, v) List.mem_cons_self)
  | cons p m ih =>
    obtain ⟨k, v⟩ := p
    have hm' := hm
    simp only [Map.wf, Bool.and_eq_true, List.all_eq_true, decide_eq_true_eq] at hm
    have hc := (Map.sorted_cons k v m).1 hm.1
    have hkv := key _ hm.1 k v List.mem_cons_self
    cases n with
    | nil =>
      have := h k
      rw [Map.getD, hkv] at this
      exact absurd this (hm.2 (k, v) List.mem_cons_self)
    | cons q n =>
      obtain ⟨k', v'⟩ := q
      have hn' := hn
      simp only [Map.wf, Bool.and_eq_true, List.all_eq_true, decide_eq_true_eq] at hn
      have hc' := (Map.sorted_cons k' v' n).1 hn.1
      have hkv' := key _ hn.1 k' v' List.mem_cons_self
      have hkk : k = k' := by
        rcases Nat.lt_trichotomy k k' with hlt | heq | hgt
        · have : Map.find ((k', v') :: n) k = none := by
            have hne : k ≠ k' := Nat.ne_of_lt hlt
            simp only [Map.find, if_neg hne]
            exact lowNone n k' hc'.1 k (Nat.le_of_lt hlt)
          have hh := h k
          rw [Map.getD, Map.getD, hkv, this] at hh
          exact absurd hh (hm.2 (k, v) List.mem_cons_self)
        · exact heq
        · have : Map.find ((k, v) :: m) k' = none := by
            have hne : k' ≠ k := Nat.ne_of_lt hgt
            simp only [Map.find, if_neg hne]
            exact lowNone m k hc.1 k' (Nat.le_of_lt hgt)
          have hh := h k'
          rw [Map.getD, Map.getD, hkv', this] at hh
          exact absurd hh.symm (hn.2 (k', v') List.mem_cons_self)
      subst hkk
      have hv : v = v' := by
        have hh := h k
        rwa [Map.getD, Map.getD, hkv, hkv'] at hh
      subst hv
      have hmn : m = n := by
        refine ih n ?_ ?_ ?_
        · simp only [Map.wf, Bool.and_eq_true, List.all_eq_true, decide_eq_true_eq]
          exact ⟨hc.2, fun p hp => hm.2 p (List.mem_cons_of_mem _ hp)⟩
        · simp only [Map.wf, Bool.and_eq_true, List.all_eq_true, decide_eq_true_eq]
          exact ⟨hc'.2, fun p hp => hn.2 p (List.mem_cons_of_mem _ hp)⟩
        · intro a
          by_cases ha : a ≤ k
          · rw [Map.getD, Map.getD, lowNone m k hc.1 a ha, lowNone n k hc'.1 a ha]
          · have hh := h a
            have hne : a ≠ k := by omega
            simpa [Map.getD, Map.find, hne] using hh
      rw [hmn]

end Sys2Proof.Machine
end

