-- ==== Sys2Proof/Laws/State.lean ====
section
/-! SUPPORT. Laws of the accessors of Machine/Access.lean: for every update and every field, what the field holds after it. -/

namespace Sys2Proof.Machine

variable (s : State)

/-! ### setGrp -/

@[simp] theorem State.setGrp_clk (g : Nat) (G : Group) : (s.setGrp g G).clk = s.clk := rfl
@[simp] theorem State.setGrp_cur (g : Nat) (G : Group) : (s.setGrp g G).cur = s.cur := rfl
@[simp] theorem State.setGrp_agenda (g : Nat) (G : Group) : (s.setGrp g G).agenda = s.agenda := rfl
@[simp] theorem State.setGrp_free (g : Nat) (G : Group) : (s.setGrp g G).free = s.free := rfl
@[simp] theorem State.setGrp_ms (g : Nat) (G : Group) : (s.setGrp g G).ms = s.ms := rfl
@[simp] theorem State.setGrp_wlog (g : Nat) (G : Group) : (s.setGrp g G).wlog = s.wlog := rfl
@[simp] theorem State.setGrp_tr (g : Nat) (G : Group) : (s.setGrp g G).tr = s.tr := rfl
@[simp] theorem State.setGrp_ct (g : Nat) (G : Group) : (s.setGrp g G).ct = s.ct := rfl
@[simp] theorem State.setGrp_wk (g : Nat) (G : Group) : (s.setGrp g G).wk = s.wk := rfl
@[simp] theorem State.setGrp_eng (g : Nat) (G : Group) : (s.setGrp g G).eng = s.eng := rfl
@[simp] theorem State.setGrp_en (g : Nat) (G : Group) : (s.setGrp g G).en = s.en := rfl
@[simp] theorem State.setGrp_rb (g : Nat) (G : Group) : (s.setGrp g G).rb = s.rb := rfl
@[simp] theorem State.setGrp_hp (g : Nat) (G : Group) : (s.setGrp g G).hp = s.hp := rfl
@[simp] theorem State.setGrp_exe_teams (g : Nat) (G : Group) : (s.setGrp g G).exe.teams = s.exe.teams := rfl
@[simp] theorem State.setGrp_exe_cores (g : Nat) (G : Group) : (s.setGrp g G).exe.cores = s.exe.cores := rfl
@[simp] theorem State.setGrp_exe_slices (g : Nat) (G : Group) : (s.setGrp g G).exe.slices = s.exe.slices := rfl
@[simp] theorem State.setGrp_exe_nextGroup (g : Nat) (G : Group) : (s.setGrp g G).exe.nextGroup = s.exe.nextGroup := rfl
@[simp] theorem State.setGrp_exe_nextTeam (g : Nat) (G : Group) : (s.setGrp g G).exe.nextTeam = s.exe.nextTeam := rfl
@[simp] theorem State.setGrp_exe_startSeq (g : Nat) (G : Group) : (s.setGrp g G).exe.startSeq = s.exe.startSeq := rfl

/-! ### modGrp -/

@[simp] theorem State.modGrp_clk (g : Nat) (f : Group → Group) : (s.modGrp g f).clk = s.clk := by unfold State.modGrp; split <;> rfl
@[simp] theorem State.modGrp_cur (g : Nat) (f : Group → Group) : (s.modGrp g f).cur = s.cur := by unfold State.modGrp; split <;> rfl
@[simp] theorem State.modGrp_agenda (g : Nat) (f : Group → Group) : (s.modGrp g f).agenda = s.agenda := by unfold State.modGrp; split <;> rfl
@[simp] theorem State.modGrp_free (g : Nat) (f : Group → Group) : (s.modGrp g f).free = s.free := by unfold State.modGrp; split <;> rfl
@[simp] theorem State.modGrp_ms (g : Nat) (f : Group → Group) : (s.modGrp g f).ms = s.ms := by unfold State.modGrp; split <;> rfl
@[simp] theorem State.modGrp_wlog (g : Nat) (f : Group → Group) : (s.modGrp g f).wlog = s.wlog := by unfold State.modGrp; split <;> rfl
@[simp] theorem State.modGrp_tr (g : Nat) (f : Group → Group) : (s.modGrp g f).tr = s.tr := by unfold State.modGrp; split <;> rfl
@[simp] theorem State.modGrp_ct (g : Nat) (f : Group → Group) : (s.modGrp g f).ct = s.ct := by unfold State.modGrp; split <;> rfl
@[simp] theorem State.modGrp_wk (g : Nat) (f : Group → Group) : (s.modGrp g f).wk = s.wk := by unfold State.modGrp; split <;> rfl
@[simp] theorem State.modGrp_eng (g : Nat) (f : Group → Group) : (s.modGrp g f).eng = s.eng := by unfold State.modGrp; split <;> rfl
@[simp] theorem State.modGrp_en (g : Nat) (f : Group → Group) : (s.modGrp g f).en = s.en := by unfold State.modGrp; split <;> rfl
@[simp] theorem State.modGrp_rb (g : Nat) (f : Group → Group) : (s.modGrp g f).rb = s.rb := by unfold State.modGrp; split <;> rfl
@[simp] theorem State.modGrp_hp (g : Nat) (f : Group → Group) : (s.modGrp g f).hp = s.hp := by unfold State.modGrp; split <;> rfl
@[simp] theorem State.modGrp_exe_teams (g : Nat) (f : Group → Group) : (s.modGrp g f).exe.teams = s.exe.teams := by unfold State.modGrp; split <;> rfl
@[simp] theorem State.modGrp_exe_cores (g : Nat) (f : Group → Group) : (s.modGrp g f).exe.cores = s.exe.cores := by unfold State.modGrp; split <;> rfl
@[simp] theorem State.modGrp_exe_slices (g : Nat) (f : Group → Group) : (s.modGrp g f).exe.slices = s.exe.slices := by unfold State.modGrp; split <;> rfl
@[simp] theorem State.modGrp_exe_nextGroup (g : Nat) (f : Group → Group) : (s.modGrp g f).exe.nextGroup = s.exe.nextGroup := by unfold State.modGrp; split <;> rfl
@[simp] theorem State.modGrp_exe_nextTeam (g : Nat) (f : Group → Group) : (s.modGrp g f).exe.nextTeam = s.exe.nextTeam := by unfold State.modGrp; split <;> rfl
@[simp] theorem State.modGrp_exe_startSeq (g : Nat) (f : Group → Group) : (s.modGrp g f).exe.startSeq = s.exe.startSeq := by unfold State.modGrp; split <;> rfl

/-! ### setTm -/

@[simp] theorem State.setTm_clk (t : Nat) (T : Team) : (s.setTm t T).clk = s.clk := rfl
@[simp] theorem State.setTm_cur (t : Nat) (T : Team) : (s.setTm t T).cur = s.cur := rfl
@[simp] theorem State.setTm_agenda (t : Nat) (T : Team) : (s.setTm t T).agenda = s.agenda := rfl
@[simp] theorem State.setTm_free (t : Nat) (T : Team) : (s.setTm t T).free = s.free := rfl
@[simp] theorem State.setTm_ms (t : Nat) (T : Team) : (s.setTm t T).ms = s.ms := rfl
@[simp] theorem State.setTm_wlog (t : Nat) (T : Team) : (s.setTm t T).wlog = s.wlog := rfl
@[simp] theorem State.setTm_tr (t : Nat) (T : Team) : (s.setTm t T).tr = s.tr := rfl
@[simp] theorem State.setTm_ct (t : Nat) (T : Team) : (s.setTm t T).ct = s.ct := rfl
@[simp] theorem State.setTm_wk (t : Nat) (T : Team) : (s.setTm t T).wk = s.wk := rfl
@[simp] theorem State.setTm_eng (t : Nat) (T : Team) : (s.setTm t T).eng = s.eng := rfl
@[simp] theorem State.setTm_en (t : Nat) (T : Team) : (s.setTm t T).en = s.en := rfl
@[simp] theorem State.setTm_rb (t : Nat) (T : Team) : (s.setTm t T).rb = s.rb := rfl
@[simp] theorem State.setTm_hp (t : Nat) (T : Team) : (s.setTm t T).hp = s.hp := rfl
@[simp] theorem State.setTm_exe_groups (t : Nat) (T : Team) : (s.setTm t T).exe.groups = s.exe.groups := rfl
@[simp] theorem State.setTm_exe_cores (t : Nat) (T : Team) : (s.setTm t T).exe.cores = s.exe.cores := rfl
@[simp] theorem State.setTm_exe_slices (t : Nat) (T : Team) : (s.setTm t T).exe.slices = s.exe.slices := rfl
@[simp] theorem State.setTm_exe_nextGroup (t : Nat) (T : Team) : (s.setTm t T).exe.nextGroup = s.exe.nextGroup := rfl
@[simp] theorem State.setTm_exe_nextTeam (t : Nat) (T : Team) : (s.setTm t T).exe.nextTeam = s.exe.nextTeam := rfl
@[simp] theorem State.setTm_exe_startSeq (t : Nat) (T : Team) : (s.setTm t T).exe.startSeq = s.exe.startSeq := rfl

/-! ### modTm -/

@[simp] theorem State.modTm_clk (t : Nat) (f : Team → Team) : (s.modTm t f).clk = s.clk := by unfold State.modTm; split <;> rfl
@[simp] theorem State.modTm_cur (t : Nat) (f : Team → Team) : (s.modTm t f).cur = s.cur := by unfold State.modTm; split <;> rfl
@[simp] theorem State.modTm_agenda (t : Nat) (f : Team → Team) : (s.modTm t f).agenda = s.agenda := by unfold State.modTm; split <;> rfl
@[simp] theorem State.modTm_free (t : Nat) (f : Team → Team) : (s.modTm t f).free = s.free := by unfold State.modTm; split <;> rfl
@[simp] theorem State.modTm_ms (t : Nat) (f : Team → Team) : (s.modTm t f).ms = s.ms := by unfold State.modTm; split <;> rfl
@[simp] theorem State.modTm_wlog (t : Nat) (f : Team → Team) : (s.modTm t f).wlog = s.wlog := by unfold State.modTm; split <;> rfl
@[simp] theorem State.modTm_tr (t : Nat) (f : Team → Team) : (s.modTm t f).tr = s.tr := by unfold State.modTm; split <;> rfl
@[simp] theorem State.modTm_ct (t : Nat) (f : Team → Team) : (s.modTm t f).ct = s.ct := by unfold State.modTm; split <;> rfl
@[simp] theorem State.modTm_wk (t : Nat) (f : Team → Team) : (s.modTm t f).wk = s.wk := by unfold State.modTm; split <;> rfl
@[simp] theorem State.modTm_eng (t : Nat) (f : Team → Team) : (s.modTm t f).eng = s.eng := by unfold State.modTm; split <;> rfl
@[simp] theorem State.modTm_en (t : Nat) (f : Team → Team) : (s.modTm t f).en = s.en := by unfold State.modTm; split <;> rfl
@[simp] theorem State.modTm_rb (t : Nat) (f : Team → Team) : (s.modTm t f).rb = s.rb := by unfold State.modTm; split <;> rfl
@[simp] theorem State.modTm_hp (t : Nat) (f : Team → Team) : (s.modTm t f).hp = s.hp := by unfold State.modTm; split <;> rfl
@[simp] theorem State.modTm_exe_groups (t : Nat) (f : Team → Team) : (s.modTm t f).exe.groups = s.exe.groups := by unfold State.modTm; split <;> rfl
@[simp] theorem State.modTm_exe_cores (t : Nat) (f : Team → Team) : (s.modTm t f).exe.cores = s.exe.cores := by unfold State.modTm; split <;> rfl
@[simp] theorem State.modTm_exe_slices (t : Nat) (f : Team → Team) : (s.modTm t f).exe.slices = s.exe.slices := by unfold State.modTm; split <;> rfl
@[simp] theorem State.modTm_exe_nextGroup (t : Nat) (f : Team → Team) : (s.modTm t f).exe.nextGroup = s.exe.nextGroup := by unfold State.modTm; split <;> rfl
@[simp] theorem State.modTm_exe_nextTeam (t : Nat) (f : Team → Team) : (s.modTm t f).exe.nextTeam = s.exe.nextTeam := by unfold State.modTm; split <;> rfl
@[simp] theorem State.modTm_exe_startSeq (t : Nat) (f : Team → Team) : (s.modTm t f).exe.startSeq = s.exe.startSeq := by unfold State.modTm; split <;> rfl

/-! ### modCore -/

@[simp] theorem State.modCore_clk (k : Nat) (f : Core → Core) : (s.modCore k f).clk = s.clk := rfl
@[simp] theorem State.modCore_cur (k : Nat) (f : Core → Core) : (s.modCore k f).cur = s.cur := rfl
@[simp] theorem State.modCore_agenda (k : Nat) (f : Core → Core) : (s.modCore k f).agenda = s.agenda := rfl
@[simp] theorem State.modCore_free (k : Nat) (f : Core → Core) : (s.modCore k f).free = s.free := rfl
@[simp] theorem State.modCore_ms (k : Nat) (f : Core → Core) : (s.modCore k f).ms = s.ms := rfl
@[simp] theorem State.modCore_wlog (k : Nat) (f : Core → Core) : (s.modCore k f).wlog = s.wlog := rfl
@[simp] theorem State.modCore_tr (k : Nat) (f : Core → Core) : (s.modCore k f).tr = s.tr := rfl
@[simp] theorem State.modCore_ct (k : Nat) (f : Core → Core) : (s.modCore k f).ct = s.ct := rfl
@[simp] theorem State.modCore_wk (k : Nat) (f : Core → Core) : (s.modCore k f).wk = s.wk := rfl
@[simp] theorem State.modCore_eng (k : Nat) (f : Core → Core) : (s.modCore k f).eng = s.eng := rfl
@[simp] theorem State.modCore_en (k : Nat) (f : Core → Core) : (s.modCore k f).en = s.en := rfl
@[simp] theorem State.modCore_rb (k : Nat) (f : Core → Core) : (s.modCore k f).rb = s.rb := rfl
@[simp] theorem State.modCore_hp (k : Nat) (f : Core → Core) : (s.modCore k f).hp = s.hp := rfl
@[simp] theorem State.modCore_exe_groups (k : Nat) (f : Core → Core) : (s.modCore k f).exe.groups = s.exe.groups := rfl
@[simp] theorem State.modCore_exe_teams (k : Nat) (f : Core → Core) : (s.modCore k f).exe.teams = s.exe.teams := rfl
@[simp] theorem State.modCore_exe_slices (k : Nat) (f : Core → Core) : (s.modCore k f).exe.slices = s.exe.slices := rfl
@[simp] theorem State.modCore_exe_nextGroup (k : Nat) (f : Core → Core) : (s.modCore k f).exe.nextGroup = s.exe.nextGroup := rfl
@[simp] theorem State.modCore_exe_nextTeam (k : Nat) (f : Core → Core) : (s.modCore k f).exe.nextTeam = s.exe.nextTeam := rfl
@[simp] theorem State.modCore_exe_startSeq (k : Nat) (f : Core → Core) : (s.modCore k f).exe.startSeq = s.exe.startSeq := rfl

/-! ### modSlice -/

@[simp] theorem State.modSlice_clk (k : Nat) (f : Slice → Slice) : (s.modSlice k f).clk = s.clk := rfl
@[simp] theorem State.modSlice_cur (k : Nat) (f : Slice → Slice) : (s.modSlice k f).cur = s.cur := rfl
@[simp] theorem State.modSlice_agenda (k : Nat) (f : Slice → Slice) : (s.modSlice k f).agenda = s.agenda := rfl
@[simp] theorem State.modSlice_free (k : Nat) (f : Slice → Slice) : (s.modSlice k f).free = s.free := rfl
@[simp] theorem State.modSlice_ms (k : Nat) (f : Slice → Slice) : (s.modSlice k f).ms = s.ms := rfl
@[simp] theorem State.modSlice_wlog (k : Nat) (f : Slice → Slice) : (s.modSlice k f).wlog = s.wlog := rfl
@[simp] theorem State.modSlice_tr (k : Nat) (f : Slice → Slice) : (s.modSlice k f).tr = s.tr := rfl
@[simp] theorem State.modSlice_ct (k : Nat) (f : Slice → Slice) : (s.modSlice k f).ct = s.ct := rfl
@[simp] theorem State.modSlice_wk (k : Nat) (f : Slice → Slice) : (s.modSlice k f).wk = s.wk := rfl
@[simp] theorem State.modSlice_eng (k : Nat) (f : Slice → Slice) : (s.modSlice k f).eng = s.eng := rfl
@[simp] theorem State.modSlice_en (k : Nat) (f : Slice → Slice) : (s.modSlice k f).en = s.en := rfl
@[simp] theorem State.modSlice_rb (k : Nat) (f : Slice → Slice) : (s.modSlice k f).rb = s.rb := rfl
@[simp] theorem State.modSlice_hp (k : Nat) (f : Slice → Slice) : (s.modSlice k f).hp = s.hp := rfl
@[simp] theorem State.modSlice_exe_groups (k : Nat) (f : Slice → Slice) : (s.modSlice k f).exe.groups = s.exe.groups := rfl
@[simp] theorem State.modSlice_exe_teams (k : Nat) (f : Slice → Slice) : (s.modSlice k f).exe.teams = s.exe.teams := rfl
@[simp] theorem State.modSlice_exe_cores (k : Nat) (f : Slice → Slice) : (s.modSlice k f).exe.cores = s.exe.cores := rfl
@[simp] theorem State.modSlice_exe_nextGroup (k : Nat) (f : Slice → Slice) : (s.modSlice k f).exe.nextGroup = s.exe.nextGroup := rfl
@[simp] theorem State.modSlice_exe_nextTeam (k : Nat) (f : Slice → Slice) : (s.modSlice k f).exe.nextTeam = s.exe.nextTeam := rfl
@[simp] theorem State.modSlice_exe_startSeq (k : Nat) (f : Slice → Slice) : (s.modSlice k f).exe.startSeq = s.exe.startSeq := rfl

/-! ### modLaunch -/

@[simp] theorem State.modLaunch_clk (l : Nat) (f : Launch → Launch) : (s.modLaunch l f).clk = s.clk := rfl
@[simp] theorem State.modLaunch_cur (l : Nat) (f : Launch → Launch) : (s.modLaunch l f).cur = s.cur := rfl
@[simp] theorem State.modLaunch_agenda (l : Nat) (f : Launch → Launch) : (s.modLaunch l f).agenda = s.agenda := rfl
@[simp] theorem State.modLaunch_free (l : Nat) (f : Launch → Launch) : (s.modLaunch l f).free = s.free := rfl
@[simp] theorem State.modLaunch_ms (l : Nat) (f : Launch → Launch) : (s.modLaunch l f).ms = s.ms := rfl
@[simp] theorem State.modLaunch_wlog (l : Nat) (f : Launch → Launch) : (s.modLaunch l f).wlog = s.wlog := rfl
@[simp] theorem State.modLaunch_tr (l : Nat) (f : Launch → Launch) : (s.modLaunch l f).tr = s.tr := rfl
@[simp] theorem State.modLaunch_ct (l : Nat) (f : Launch → Launch) : (s.modLaunch l f).ct = s.ct := rfl
theorem State.modLaunch_wk (l : Nat) (f : Launch → Launch) :
    (s.modLaunch l f).wk = { s.wk with launches := Map.modify s.wk.launches l f } := rfl
@[simp] theorem State.modLaunch_exe (l : Nat) (f : Launch → Launch) : (s.modLaunch l f).exe = s.exe := rfl
@[simp] theorem State.modLaunch_eng (l : Nat) (f : Launch → Launch) : (s.modLaunch l f).eng = s.eng := rfl
@[simp] theorem State.modLaunch_en (l : Nat) (f : Launch → Launch) : (s.modLaunch l f).en = s.en := rfl
@[simp] theorem State.modLaunch_rb (l : Nat) (f : Launch → Launch) : (s.modLaunch l f).rb = s.rb := rfl
@[simp] theorem State.modLaunch_hp (l : Nat) (f : Launch → Launch) : (s.modLaunch l f).hp = s.hp := rfl

/-! ### modTrapBlk -/

@[simp] theorem State.modTrapBlk_clk (c : Nat) (f : TrapBlk → TrapBlk) : (s.modTrapBlk c f).clk = s.clk := rfl
@[simp] theorem State.modTrapBlk_cur (c : Nat) (f : TrapBlk → TrapBlk) : (s.modTrapBlk c f).cur = s.cur := rfl
@[simp] theorem State.modTrapBlk_agenda (c : Nat) (f : TrapBlk → TrapBlk) : (s.modTrapBlk c f).agenda = s.agenda := rfl
@[simp] theorem State.modTrapBlk_free (c : Nat) (f : TrapBlk → TrapBlk) : (s.modTrapBlk c f).free = s.free := rfl
@[simp] theorem State.modTrapBlk_ms (c : Nat) (f : TrapBlk → TrapBlk) : (s.modTrapBlk c f).ms = s.ms := rfl
@[simp] theorem State.modTrapBlk_wlog (c : Nat) (f : TrapBlk → TrapBlk) : (s.modTrapBlk c f).wlog = s.wlog := rfl
@[simp] theorem State.modTrapBlk_tr (c : Nat) (f : TrapBlk → TrapBlk) : (s.modTrapBlk c f).tr = s.tr := rfl
@[simp] theorem State.modTrapBlk_wk (c : Nat) (f : TrapBlk → TrapBlk) : (s.modTrapBlk c f).wk = s.wk := rfl
@[simp] theorem State.modTrapBlk_exe (c : Nat) (f : TrapBlk → TrapBlk) : (s.modTrapBlk c f).exe = s.exe := rfl
@[simp] theorem State.modTrapBlk_eng (c : Nat) (f : TrapBlk → TrapBlk) : (s.modTrapBlk c f).eng = s.eng := rfl
@[simp] theorem State.modTrapBlk_en (c : Nat) (f : TrapBlk → TrapBlk) : (s.modTrapBlk c f).en = s.en := rfl
@[simp] theorem State.modTrapBlk_rb (c : Nat) (f : TrapBlk → TrapBlk) : (s.modTrapBlk c f).rb = s.rb := rfl
@[simp] theorem State.modTrapBlk_hp (c : Nat) (f : TrapBlk → TrapBlk) : (s.modTrapBlk c f).hp = s.hp := rfl

/-! ### putB -/

@[simp] theorem State.putB_clk (a : Nat) (b : Byte) : (s.putB a b).clk = s.clk := rfl
@[simp] theorem State.putB_cur (a : Nat) (b : Byte) : (s.putB a b).cur = s.cur := rfl
@[simp] theorem State.putB_agenda (a : Nat) (b : Byte) : (s.putB a b).agenda = s.agenda := rfl
@[simp] theorem State.putB_free (a : Nat) (b : Byte) : (s.putB a b).free = s.free := rfl
@[simp] theorem State.putB_ms (a : Nat) (b : Byte) : (s.putB a b).ms = s.ms := rfl
@[simp] theorem State.putB_tr (a : Nat) (b : Byte) : (s.putB a b).tr = s.tr := rfl
@[simp] theorem State.putB_ct (a : Nat) (b : Byte) : (s.putB a b).ct = s.ct := rfl
@[simp] theorem State.putB_wk (a : Nat) (b : Byte) : (s.putB a b).wk = s.wk := rfl
@[simp] theorem State.putB_exe (a : Nat) (b : Byte) : (s.putB a b).exe = s.exe := rfl
@[simp] theorem State.putB_eng (a : Nat) (b : Byte) : (s.putB a b).eng = s.eng := rfl
@[simp] theorem State.putB_en (a : Nat) (b : Byte) : (s.putB a b).en = s.en := rfl
@[simp] theorem State.putB_rb (a : Nat) (b : Byte) : (s.putB a b).rb = s.rb := rfl
@[simp] theorem State.putB_hp (a : Nat) (b : Byte) : (s.putB a b).hp = s.hp := rfl

/-! ### setMark -/

@[simp] theorem State.setMark_clk (a : Nat) (b : Bool) : (s.setMark a b).clk = s.clk := rfl
@[simp] theorem State.setMark_cur (a : Nat) (b : Bool) : (s.setMark a b).cur = s.cur := rfl
@[simp] theorem State.setMark_agenda (a : Nat) (b : Bool) : (s.setMark a b).agenda = s.agenda := rfl
@[simp] theorem State.setMark_free (a : Nat) (b : Bool) : (s.setMark a b).free = s.free := rfl
@[simp] theorem State.setMark_wlog (a : Nat) (b : Bool) : (s.setMark a b).wlog = s.wlog := rfl
@[simp] theorem State.setMark_tr (a : Nat) (b : Bool) : (s.setMark a b).tr = s.tr := rfl
@[simp] theorem State.setMark_ct (a : Nat) (b : Bool) : (s.setMark a b).ct = s.ct := rfl
@[simp] theorem State.setMark_wk (a : Nat) (b : Bool) : (s.setMark a b).wk = s.wk := rfl
@[simp] theorem State.setMark_exe (a : Nat) (b : Bool) : (s.setMark a b).exe = s.exe := rfl
@[simp] theorem State.setMark_eng (a : Nat) (b : Bool) : (s.setMark a b).eng = s.eng := rfl
@[simp] theorem State.setMark_en (a : Nat) (b : Bool) : (s.setMark a b).en = s.en := rfl
@[simp] theorem State.setMark_rb (a : Nat) (b : Bool) : (s.setMark a b).rb = s.rb := rfl
@[simp] theorem State.setMark_hp (a : Nat) (b : Bool) : (s.setMark a b).hp = s.hp := rfl

/-! ### draw -/

@[simp] theorem State.draw_clk  : (s.draw.2).clk = s.clk := rfl
@[simp] theorem State.draw_cur  : (s.draw.2).cur = s.cur := rfl
@[simp] theorem State.draw_agenda  : (s.draw.2).agenda = s.agenda := rfl
@[simp] theorem State.draw_ms  : (s.draw.2).ms = s.ms := rfl
@[simp] theorem State.draw_wlog  : (s.draw.2).wlog = s.wlog := rfl
@[simp] theorem State.draw_tr  : (s.draw.2).tr = s.tr := rfl
@[simp] theorem State.draw_ct  : (s.draw.2).ct = s.ct := rfl
@[simp] theorem State.draw_wk  : (s.draw.2).wk = s.wk := rfl
@[simp] theorem State.draw_exe  : (s.draw.2).exe = s.exe := rfl
@[simp] theorem State.draw_eng  : (s.draw.2).eng = s.eng := rfl
@[simp] theorem State.draw_en  : (s.draw.2).en = s.en := rfl
@[simp] theorem State.draw_rb  : (s.draw.2).rb = s.rb := rfl
@[simp] theorem State.draw_hp  : (s.draw.2).hp = s.hp := rfl

/-! ### draws -/

@[simp] theorem State.draws_clk (n : Nat) : ((s.draws n).2).clk = s.clk := rfl
@[simp] theorem State.draws_cur (n : Nat) : ((s.draws n).2).cur = s.cur := rfl
@[simp] theorem State.draws_agenda (n : Nat) : ((s.draws n).2).agenda = s.agenda := rfl
@[simp] theorem State.draws_ms (n : Nat) : ((s.draws n).2).ms = s.ms := rfl
@[simp] theorem State.draws_wlog (n : Nat) : ((s.draws n).2).wlog = s.wlog := rfl
@[simp] theorem State.draws_tr (n : Nat) : ((s.draws n).2).tr = s.tr := rfl
@[simp] theorem State.draws_ct (n : Nat) : ((s.draws n).2).ct = s.ct := rfl
@[simp] theorem State.draws_wk (n : Nat) : ((s.draws n).2).wk = s.wk := rfl
@[simp] theorem State.draws_exe (n : Nat) : ((s.draws n).2).exe = s.exe := rfl
@[simp] theorem State.draws_eng (n : Nat) : ((s.draws n).2).eng = s.eng := rfl
@[simp] theorem State.draws_en (n : Nat) : ((s.draws n).2).en = s.en := rfl
@[simp] theorem State.draws_rb (n : Nat) : ((s.draws n).2).rb = s.rb := rfl
@[simp] theorem State.draws_hp (n : Nat) : ((s.draws n).2).hp = s.hp := rfl

/-! ### modTurn -/

@[simp] theorem State.modTurn_cur (k : Nat) (f : CoreTurn → CoreTurn) : (s.modTurn k f).cur = s.cur := rfl
@[simp] theorem State.modTurn_agenda (k : Nat) (f : CoreTurn → CoreTurn) : (s.modTurn k f).agenda = s.agenda := rfl
@[simp] theorem State.modTurn_free (k : Nat) (f : CoreTurn → CoreTurn) : (s.modTurn k f).free = s.free := rfl
@[simp] theorem State.modTurn_ms (k : Nat) (f : CoreTurn → CoreTurn) : (s.modTurn k f).ms = s.ms := rfl
@[simp] theorem State.modTurn_wlog (k : Nat) (f : CoreTurn → CoreTurn) : (s.modTurn k f).wlog = s.wlog := rfl
@[simp] theorem State.modTurn_tr (k : Nat) (f : CoreTurn → CoreTurn) : (s.modTurn k f).tr = s.tr := rfl
@[simp] theorem State.modTurn_ct (k : Nat) (f : CoreTurn → CoreTurn) : (s.modTurn k f).ct = s.ct := rfl
@[simp] theorem State.modTurn_wk (k : Nat) (f : CoreTurn → CoreTurn) : (s.modTurn k f).wk = s.wk := rfl
@[simp] theorem State.modTurn_exe (k : Nat) (f : CoreTurn → CoreTurn) : (s.modTurn k f).exe = s.exe := rfl
@[simp] theorem State.modTurn_eng (k : Nat) (f : CoreTurn → CoreTurn) : (s.modTurn k f).eng = s.eng := rfl
@[simp] theorem State.modTurn_en (k : Nat) (f : CoreTurn → CoreTurn) : (s.modTurn k f).en = s.en := rfl
@[simp] theorem State.modTurn_rb (k : Nat) (f : CoreTurn → CoreTurn) : (s.modTurn k f).rb = s.rb := rfl
@[simp] theorem State.modTurn_hp (k : Nat) (f : CoreTurn → CoreTurn) : (s.modTurn k f).hp = s.hp := rfl
@[simp] theorem State.modTurn_clk_cycle (k : Nat) (f : CoreTurn → CoreTurn) : (s.modTurn k f).clk.cycle = s.clk.cycle := rfl
@[simp] theorem State.modTurn_clk_skew (k : Nat) (f : CoreTurn → CoreTurn) : (s.modTurn k f).clk.skew = s.clk.skew := rfl

/-- What has happened on a core in the present cycle, after it has been changed for one core. -/
@[simp] theorem State.turnAt_modTurn (k j : Nat) (f : CoreTurn → CoreTurn) :
    (s.modTurn k f).turnAt j = if j = k then f (s.turnAt k) else s.turnAt j :=
  Map.getD_put _ _ _ _ _

/-! ### Lookups -/

/-- A replaced group is found; another group is as before. -/
@[simp] theorem State.grp_setGrp (g h : Nat) (G : Group) :
    (s.setGrp g G).grp h = if h = g then some G else s.grp h := Map.find_insert _ _ _ _

/-- A changed group is found changed; another group is as before. -/
@[simp] theorem State.grp_modGrp (g h : Nat) (f : Group → Group) :
    (s.modGrp g f).grp h = if h = g then (s.grp h).map f else s.grp h := by
  unfold State.modGrp
  split
  · rename_i G hG
    rw [State.grp_setGrp]
    split
    · rename_i he; subst he; simp [hG]
    · rfl
  · rename_i hG
    split
    · rename_i he; subst he; simp [hG]
    · rfl

/-- A replaced team is found; another team is as before. -/
@[simp] theorem State.tm_setTm (t u : Nat) (T : Team) :
    (s.setTm t T).tm u = if u = t then some T else s.tm u := Map.find_insert _ _ _ _

/-- A changed team is found changed; another team is as before. -/
@[simp] theorem State.tm_modTm (t u : Nat) (f : Team → Team) :
    (s.modTm t f).tm u = if u = t then (s.tm u).map f else s.tm u := by
  unfold State.modTm
  split
  · rename_i T hT
    rw [State.tm_setTm]
    split
    · rename_i he; subst he; simp [hT]
    · rfl
  · rename_i hT
    split
    · rename_i he; subst he; simp [hT]
    · rfl

/-- A changed core is found changed; another core is as before. -/
@[simp] theorem State.coreAt_modCore (k l : Nat) (f : Core → Core) :
    (s.modCore k f).coreAt l = if l = k then f (s.coreAt k) else s.coreAt l := Map.getD_put _ _ _ _ _

/-- A changed slice is found changed; another slice is as before. -/
@[simp] theorem State.sliceAt_modSlice (k l : Nat) (f : Slice → Slice) :
    (s.modSlice k f).sliceAt l = if l = k then f (s.sliceAt k) else s.sliceAt l := Map.getD_put _ _ _ _ _

/-- A changed launch is found changed; another launch is as before. -/
@[simp] theorem State.launch_modLaunch (l m : Nat) (f : Launch → Launch) :
    (s.modLaunch l f).launch m = if m = l then (s.launch m).map f else s.launch m := Map.find_modify _ _ _ _

/-- A changed trap block is found changed; another is as before. -/
@[simp] theorem State.trapBlk_modTrapBlk (c d : Nat) (f : TrapBlk → TrapBlk) :
    (s.modTrapBlk c f).trapBlk d = if d = c then f (s.trapBlk c) else s.trapBlk d := Map.getD_put _ _ _ _ _

/-- `tm` reads one field of the state. -/
theorem State.tm_congr {s t : State} (h : s.exe.teams = t.exe.teams) (n : Nat) : s.tm n = t.tm n := by
  unfold State.tm; rw [h]

/-- `launch` reads one field of the state. -/
theorem State.launch_congr {s t : State} (h : s.wk = t.wk) (l : Nat) : s.launch l = t.launch l := by
  unfold State.launch; rw [h]

/-- `trapBlk` reads one field of the state. -/
theorem State.trapBlk_congr {s t : State} (h : s.ct = t.ct) (c : Nat) : s.trapBlk c = t.trapBlk c := by
  unfold State.trapBlk; rw [h]

/-- `coreAt` reads one field of the state. -/
theorem State.coreAt_congr {s t : State} (h : s.exe.cores = t.exe.cores) (k : Nat) : s.coreAt k = t.coreAt k := by
  unfold State.coreAt; rw [h]

/-- `sliceAt` reads one field of the state. -/
theorem State.sliceAt_congr {s t : State} (h : s.exe.slices = t.exe.slices) (k : Nat) : s.sliceAt k = t.sliceAt k := by
  unfold State.sliceAt; rw [h]

/-- `grp` reads one field of the state. -/
theorem State.grp_congr {s t : State} (h : s.exe.groups = t.exe.groups) (g : Nat) : s.grp g = t.grp g := by
  unfold State.grp; rw [h]

/-! ### Lookups across updates -/

@[simp] theorem State.grp_setTm (t : Nat) (T : Team) (n : Nat) : (s.setTm t T).grp n = s.grp n := State.grp_congr (by simp) n
@[simp] theorem State.grp_modTm (t : Nat) (f : Team → Team) (n : Nat) : (s.modTm t f).grp n = s.grp n := State.grp_congr (by simp) n
@[simp] theorem State.grp_modCore (k : Nat) (f : Core → Core) (n : Nat) : (s.modCore k f).grp n = s.grp n := State.grp_congr (by simp) n
@[simp] theorem State.grp_modSlice (k : Nat) (f : Slice → Slice) (n : Nat) : (s.modSlice k f).grp n = s.grp n := State.grp_congr (by simp) n
@[simp] theorem State.grp_modLaunch (l : Nat) (f : Launch → Launch) (n : Nat) : (s.modLaunch l f).grp n = s.grp n := State.grp_congr (by simp) n
@[simp] theorem State.tm_setGrp (g : Nat) (G : Group) (n : Nat) : (s.setGrp g G).tm n = s.tm n := State.tm_congr (by simp) n
@[simp] theorem State.tm_modGrp (g : Nat) (f : Group → Group) (n : Nat) : (s.modGrp g f).tm n = s.tm n := State.tm_congr (by simp) n
@[simp] theorem State.tm_modCore (k : Nat) (f : Core → Core) (n : Nat) : (s.modCore k f).tm n = s.tm n := State.tm_congr (by simp) n
@[simp] theorem State.tm_modSlice (k : Nat) (f : Slice → Slice) (n : Nat) : (s.modSlice k f).tm n = s.tm n := State.tm_congr (by simp) n
@[simp] theorem State.tm_modLaunch (l : Nat) (f : Launch → Launch) (n : Nat) : (s.modLaunch l f).tm n = s.tm n := State.tm_congr (by simp) n
@[simp] theorem State.coreAt_setGrp (g : Nat) (G : Group) (n : Nat) : (s.setGrp g G).coreAt n = s.coreAt n := State.coreAt_congr (by simp) n
@[simp] theorem State.coreAt_modGrp (g : Nat) (f : Group → Group) (n : Nat) : (s.modGrp g f).coreAt n = s.coreAt n := State.coreAt_congr (by simp) n
@[simp] theorem State.coreAt_setTm (t : Nat) (T : Team) (n : Nat) : (s.setTm t T).coreAt n = s.coreAt n := State.coreAt_congr (by simp) n
@[simp] theorem State.coreAt_modTm (t : Nat) (f : Team → Team) (n : Nat) : (s.modTm t f).coreAt n = s.coreAt n := State.coreAt_congr (by simp) n
@[simp] theorem State.coreAt_modSlice (k : Nat) (f : Slice → Slice) (n : Nat) : (s.modSlice k f).coreAt n = s.coreAt n := State.coreAt_congr (by simp) n
@[simp] theorem State.coreAt_modLaunch (l : Nat) (f : Launch → Launch) (n : Nat) : (s.modLaunch l f).coreAt n = s.coreAt n := State.coreAt_congr (by simp) n
@[simp] theorem State.sliceAt_setGrp (g : Nat) (G : Group) (n : Nat) : (s.setGrp g G).sliceAt n = s.sliceAt n := State.sliceAt_congr (by simp) n
@[simp] theorem State.sliceAt_modGrp (g : Nat) (f : Group → Group) (n : Nat) : (s.modGrp g f).sliceAt n = s.sliceAt n := State.sliceAt_congr (by simp) n
@[simp] theorem State.sliceAt_setTm (t : Nat) (T : Team) (n : Nat) : (s.setTm t T).sliceAt n = s.sliceAt n := State.sliceAt_congr (by simp) n
@[simp] theorem State.sliceAt_modTm (t : Nat) (f : Team → Team) (n : Nat) : (s.modTm t f).sliceAt n = s.sliceAt n := State.sliceAt_congr (by simp) n
@[simp] theorem State.sliceAt_modCore (k : Nat) (f : Core → Core) (n : Nat) : (s.modCore k f).sliceAt n = s.sliceAt n := State.sliceAt_congr (by simp) n
@[simp] theorem State.sliceAt_modLaunch (l : Nat) (f : Launch → Launch) (n : Nat) : (s.modLaunch l f).sliceAt n = s.sliceAt n := State.sliceAt_congr (by simp) n
@[simp] theorem State.launch_setGrp (g : Nat) (G : Group) (n : Nat) : (s.setGrp g G).launch n = s.launch n := State.launch_congr (by simp) n
@[simp] theorem State.launch_modGrp (g : Nat) (f : Group → Group) (n : Nat) : (s.modGrp g f).launch n = s.launch n := State.launch_congr (by simp) n
@[simp] theorem State.launch_setTm (t : Nat) (T : Team) (n : Nat) : (s.setTm t T).launch n = s.launch n := State.launch_congr (by simp) n
@[simp] theorem State.launch_modTm (t : Nat) (f : Team → Team) (n : Nat) : (s.modTm t f).launch n = s.launch n := State.launch_congr (by simp) n
@[simp] theorem State.launch_modCore (k : Nat) (f : Core → Core) (n : Nat) : (s.modCore k f).launch n = s.launch n := State.launch_congr (by simp) n
@[simp] theorem State.launch_modSlice (k : Nat) (f : Slice → Slice) (n : Nat) : (s.modSlice k f).launch n = s.launch n := State.launch_congr (by simp) n
@[simp] theorem State.trapBlk_setGrp (g : Nat) (G : Group) (n : Nat) : (s.setGrp g G).trapBlk n = s.trapBlk n := State.trapBlk_congr (by simp) n
@[simp] theorem State.trapBlk_modGrp (g : Nat) (f : Group → Group) (n : Nat) : (s.modGrp g f).trapBlk n = s.trapBlk n := State.trapBlk_congr (by simp) n
@[simp] theorem State.trapBlk_setTm (t : Nat) (T : Team) (n : Nat) : (s.setTm t T).trapBlk n = s.trapBlk n := State.trapBlk_congr (by simp) n
@[simp] theorem State.trapBlk_modTm (t : Nat) (f : Team → Team) (n : Nat) : (s.modTm t f).trapBlk n = s.trapBlk n := State.trapBlk_congr (by simp) n
@[simp] theorem State.trapBlk_modCore (k : Nat) (f : Core → Core) (n : Nat) : (s.modCore k f).trapBlk n = s.trapBlk n := State.trapBlk_congr (by simp) n
@[simp] theorem State.trapBlk_modSlice (k : Nat) (f : Slice → Slice) (n : Nat) : (s.modSlice k f).trapBlk n = s.trapBlk n := State.trapBlk_congr (by simp) n
@[simp] theorem State.trapBlk_modLaunch (l : Nat) (f : Launch → Launch) (n : Nat) : (s.modLaunch l f).trapBlk n = s.trapBlk n := State.trapBlk_congr (by simp) n

end Sys2Proof.Machine
end

