-- ==== Sys2Proof/Laws/Memory.lean ====
section
/-! SUPPORT. Laws of memory: the bytes that a step logs become memory at its end, and memory keeps its canonical form. -/

namespace Sys2Proof.Machine

/-- Logged bytes are read back; an address that is not logged reads as memory holds it. -/
theorem Memory.getD_apply (m : Map Byte) (w : List MWrite) (a : Nat) :
    Map.getD (Memory.apply m w) a 0 = (logFind w a).getD (Map.getD m a 0) := by
  induction w with
  | nil => rfl
  | cons p w ih =>
    obtain ⟨b, v⟩ := p
    simp only [Memory.apply, Map.getD_put, logFind, ih]
    by_cases h : b = a
    · subst h; simp
    · simp [Ne.symm h]

/-- Applying logged bytes keeps the canonical form. -/
theorem Memory.wf_apply (m : Map Byte) (w : List MWrite) (h : Memory.wf m = true) : Memory.wf (Memory.apply m w) = true := by
  induction w with
  | nil => exact h
  | cons p w ih => exact Map.wf_put _ p.1 p.2 0 ih

/-- A step's reads see the byte that the step has written. -/
@[simp] theorem State.mb_putB (s : State) (a b : Nat) (v : Byte) :
    (s.putB a v).mb b = if b = a then v else s.mb b := by
  simp only [State.mb, State.putB, logFind]
  by_cases h : a = b
  · subst h; simp
  · simp [Ne.symm h]

/-- Bytes put at rising addresses are read back; other addresses read as before. -/
theorem State.mb_putBs (s : State) (a b : Nat) (bs : List Byte) :
    (s.putBs a bs).mb b = if a ≤ b ∧ b < a + bs.length then bs.getD (b - a) 0 else s.mb b := by
  induction bs generalizing s a with
  | nil =>
    have : ¬ (a ≤ b ∧ b < a) := by omega
    simp [State.putBs, this]
  | cons v bs ih =>
    rw [State.putBs, ih, State.mb_putB]
    simp only [List.length_cons]
    by_cases h : b = a
    · subst h
      have h1 : ¬ (b + 1 ≤ b ∧ b < b + 1 + bs.length) := by omega
      simp [h1]
    · by_cases h2 : a + 1 ≤ b ∧ b < a + 1 + bs.length
      · have h3 : a ≤ b ∧ b < a + (bs.length + 1) := by omega
        have h4 : b - a = (b - (a + 1)) + 1 := by omega
        rw [if_pos h2, if_pos h3, h4, List.getD_cons_succ]
      · have h3 : ¬ (a ≤ b ∧ b < a + (bs.length + 1)) := by omega
        rw [if_neg h2, if_neg h3, if_neg h]

/-- The end of a step empties the log. -/
@[simp] theorem State.commit_wlog (s : State) : s.commit.wlog = [] := rfl

/-- The end of a step changes no byte that a read sees. -/
@[simp] theorem State.commit_mb (s : State) (a : Nat) : s.commit.mb a = s.mb a := by
  exact Memory.getD_apply _ _ _

/-- The end of a step keeps memory in canonical form. -/
theorem State.commit_wf (s : State) (h : Memory.wf s.ms.bytes = true) : Memory.wf s.commit.ms.bytes = true :=
  Memory.wf_apply _ _ h

/-- With nothing logged the end of a step leaves memory alone. -/
theorem State.commit_ms (s : State) (h : s.wlog = []) : s.commit.ms = s.ms := by
  simp [State.commit, h, Memory.apply]

end Sys2Proof.Machine
end

