-- ==== Sys2Proof/Laws/Turn.lean ====
section
/-! SUPPORT. Laws of the end of a step and of the turn: waking changes the waiting of splits alone, and an instruction that
nothing stops runs its body. -/

namespace Sys2Proof.Machine

/-! ### Entries of the split table -/

/-- Reading an entry after one has been replaced. -/
theorem Group.sp_setSp (G : Group) (e f : Nat) (sp : Split) : (G.setSp e sp).sp f = if f = e then sp else G.sp f := by
  simp only [Group.setSp, Group.sp, List.getD_eq_getElem?_getD, List.getElem?_set]
  by_cases h : e = f
  · subst h
    rw [if_pos rfl, if_pos rfl, if_pos (by simp; omega)]; rfl
  · rw [if_neg h, if_neg (Ne.symm h), List.getElem?_append]
    split
    · rfl
    · rename_i hf
      rw [List.getElem?_eq_none (l := G.splits) (by omega), List.getElem?_replicate]
      split <;> rfl

/-- Reading an entry after one has been changed. -/
theorem Group.sp_modSp (G : Group) (e f : Nat) (u : Split → Split) :
    (G.modSp e u).sp f = if f = e then u (G.sp e) else G.sp f := Group.sp_setSp _ _ _ _

/-! ### Waking -/

/-- Sameness is transitive. -/
theorem Split.same_trans {a b c : Split} (h : a.same b) (k : b.same c) : a.same c := by
  refine ⟨by rw [k.1, h.1], ?_⟩
  rcases k.2 with e | e
  · rw [e]; exact h.2
  · exact .inr e

/-- A split is the same as itself. -/
theorem Split.same_refl (a : Split) : a.same a := ⟨rfl, .inl rfl⟩

/-- A group is the same as itself. -/
theorem Group.same_refl (G : Group) : G.same G := ⟨fun _ => Split.same_refl _, rfl⟩

/-- Sameness is transitive. -/
theorem Group.same_trans {G H K : Group} (h : G.same H) (k : H.same K) : G.same K :=
  ⟨fun e => Split.same_trans (h.splits e) (k.splits e), by rw [k.rest, h.rest]⟩

/-- A change of one split's waiting alone keeps a group the same. -/
theorem Group.same_modSp (G : Group) (e : Nat) (u : Split → Split) (hu : ∀ sp : Split, sp.same (u sp)) (rq : List Nat) :
    G.same { G.modSp e u with rq := rq } := by
  refine ⟨fun f => ?_, rfl⟩
  have h : Group.sp { G.modSp e u with rq := rq } f = (G.modSp e u).sp f := rfl
  rw [h, Group.sp_modSp]
  split
  · rename_i hf; rw [hf]; exact hu _
  · exact Split.same_refl _

/-- Waking changes a split's waiting alone. -/
theorem Group.same_wake (G : Group) (e : Nat) : G.same (G.wake e) := by
  unfold Group.wake
  refine Group.same_modSp G e _ ?_ _
  intro sp
  exact ⟨rfl, .inl rfl⟩

/-- A group that stops outside its chain keeps its splits, with no chain. -/
theorem Group.same_unchain (G : Group) : G.same G.unchain := by
  refine ⟨fun e => ?_, rfl⟩
  simp only [Group.sp, Group.unchain, List.getD_eq_getElem?_getD, List.getElem?_map]
  cases G.splits[e]? with
  | none => exact Split.same_refl _
  | some sp => exact ⟨rfl, .inr rfl⟩

/-- Waking in turn changes the waiting of splits alone. -/
theorem Group.same_wakes (es : List Nat) (G : Group) : G.same (es.foldl Group.wake G) := by
  induction es generalizing G with
  | nil => exact G.same_refl
  | cons e es ih => exact Group.same_trans (G.same_wake e) (ih _)

/-- Settling changes the waiting of splits alone. -/
theorem State.same_settleGroup (s : State) (g : Nat) (G : Group) : G.same (s.settleGroup g G) := by
  unfold State.settleGroup
  dsimp only
  split
  · exact Group.same_trans (Group.same_wakes _ _) (Group.same_unchain _)
  · exact Group.same_wakes _ _

/-- The groups after settling. -/
theorem State.grp_settle (s : State) (g : Nat) : s.settle.grp g = (s.grp g).map (s.settleGroup g) :=
  Map.find_map _ _ _

/-- The groups at the end of a step. -/
theorem State.grp_finish (s : State) (g : Nat) : s.finish.grp g = (s.grp g).map (s.settleGroup g) :=
  State.grp_settle s g

/-- A group at the end of a step is what it was, but for what its splits waited for. -/
theorem State.finish_same (s : State) (g : Nat) (G : Group) (h : s.grp g = some G) :
    ∃ H, s.finish.grp g = some H ∧ G.same H :=
  ⟨_, by rw [State.grp_finish, h]; rfl, s.same_settleGroup g G⟩

@[simp] theorem State.finish_clk (s : State) : s.finish.clk = s.clk := rfl
@[simp] theorem State.finish_cur (s : State) : s.finish.cur = .idle := rfl
@[simp] theorem State.finish_agenda (s : State) : s.finish.agenda = s.agenda := rfl
@[simp] theorem State.finish_free (s : State) : s.finish.free = s.free := rfl
@[simp] theorem State.finish_wlog (s : State) : s.finish.wlog = [] := rfl
@[simp] theorem State.finish_tr (s : State) : s.finish.tr = s.tr := rfl
@[simp] theorem State.finish_ct (s : State) : s.finish.ct = s.ct := rfl
@[simp] theorem State.finish_wk (s : State) : s.finish.wk = s.wk := rfl
@[simp] theorem State.finish_en (s : State) : s.finish.en = s.en := rfl
@[simp] theorem State.finish_rb (s : State) : s.finish.rb = s.rb := rfl
@[simp] theorem State.finish_hp (s : State) : s.finish.hp = s.hp := rfl
@[simp] theorem State.finish_teams (s : State) : s.finish.exe.teams = s.exe.teams := rfl
@[simp] theorem State.finish_cores (s : State) : s.finish.exe.cores = s.exe.cores := rfl
@[simp] theorem State.finish_slices (s : State) : s.finish.exe.slices = s.exe.slices := rfl
@[simp] theorem State.finish_copies (s : State) : s.finish.eng.copies = s.eng.copies := rfl
@[simp] theorem State.finish_engNext (s : State) : s.finish.eng.next = s.eng.next := rfl
@[simp] theorem State.finish_sops (s : State) : s.finish.eng.sops = s.eng.sops := rfl
@[simp] theorem State.finish_smsgs (s : State) : s.finish.eng.smsgs = s.eng.smsgs := rfl
@[simp] theorem State.finish_tm (s : State) (n : Nat) : s.finish.tm n = s.tm n := rfl
@[simp] theorem State.finish_coreAt (s : State) (n : Nat) : s.finish.coreAt n = s.coreAt n := rfl
@[simp] theorem State.finish_sliceAt (s : State) (n : Nat) : s.finish.sliceAt n = s.sliceAt n := rfl
@[simp] theorem State.finish_launch (s : State) (n : Nat) : s.finish.launch n = s.launch n := rfl

/-- A step that logs nothing leaves memory and its copies alone. -/
theorem State.finish_ms (s : State) (h : s.wlog = []) : s.finish.ms = s.ms := State.commit_ms s.settle.openGates h

/-- Every byte of memory at the end of a step is what the step's reads saw. -/
theorem State.finish_mb (s : State) (a : Nat) : s.finish.mb a = s.mb a := State.commit_mb s.settle.openGates a

/-- A step keeps memory in canonical form. -/
theorem State.finish_wf (s : State) (h : Map.wf s.ms.bytes 0 = true) : Map.wf s.finish.ms.bytes 0 = true :=
  State.commit_wf s.settle.openGates h

/-- Releasing a gate changes nothing else of an operation. -/
theorem State.openGate_opens (s : State) (i : Nat) (p : POp) : p.opens (s.openGate i p) := by
  unfold State.openGate
  split
  · rename_i m hm
    split
    · split
      · exact .inr ⟨m, _, hm, ‹_›, rfl⟩
      · exact .inl rfl
    · exact .inl rfl
  · exact .inl rfl

/-- The end of a step leaves the Platen's operations, but for the release of gates. -/
theorem State.finish_pops (s : State) : samePops s s.finish := by
  intro i
  have h : Map.find s.finish.eng.pops i = (Map.find s.eng.pops i).map (s.settle.openGate i) := Map.find_map _ _ _
  rw [h]
  refine ⟨by cases Map.find s.eng.pops i <;> rfl, fun p hp => ?_⟩
  rw [hp]
  exact ⟨_, rfl, s.settle.openGate_opens i p⟩

/-- What the end of a step leaves of a state. -/
theorem State.finish_becomes (s : State) : s.becomes s.finish := by
  refine ⟨fun g => ⟨?_, fun G h => s.finish_same g G h⟩, s.finish_pops, s.finish_mb, rfl⟩
  rw [State.grp_finish]; cases s.grp g <;> rfl

/-! ### The turn -/

/-- Latch histories aside, a group is as it was when its instruction begins. -/
theorem State.begun_eq (s : State) (g : Nat) :
    s.begun g = { s with cur := .idle } ∨
    ∃ G, s.grp g = some G ∧
      s.begun g = State.setGrp { s with cur := .idle } g { G with splits := G.splits.map (fun sp => { sp with lval := 0, latch := [] }) } := by
  unfold State.begun State.loseLatches
  split
  · exact .inl rfl
  · rename_i G hG
    split
    · exact .inl rfl
    · split
      · exact .inl rfl
      · exact .inr ⟨G, hG, rfl⟩

/-- What begins an instruction touches the groups alone. -/
theorem State.begun_fields (s : State) (g : Nat) : ∃ gs,
    s.begun g = { s with cur := .idle, exe := { s.exe with groups := gs } } ∧
    ∀ h, h ≠ g → Map.find gs h = s.grp h := by
  rcases s.begun_eq g with h | ⟨G, -, h⟩
  · exact ⟨s.exe.groups, h, fun _ _ => rfl⟩
  · refine ⟨_, h, fun k hk => ?_⟩
    rw [Map.find_insert, if_neg hk]; rfl

@[simp] theorem State.begun_clk (s : State) (g : Nat) : (s.begun g).clk = s.clk := by
  obtain ⟨gs, h, -⟩ := s.begun_fields g; rw [h]
@[simp] theorem State.begun_agenda (s : State) (g : Nat) : (s.begun g).agenda = s.agenda := by
  obtain ⟨gs, h, -⟩ := s.begun_fields g; rw [h]
@[simp] theorem State.begun_free (s : State) (g : Nat) : (s.begun g).free = s.free := by
  obtain ⟨gs, h, -⟩ := s.begun_fields g; rw [h]
@[simp] theorem State.begun_ms (s : State) (g : Nat) : (s.begun g).ms = s.ms := by
  obtain ⟨gs, h, -⟩ := s.begun_fields g; rw [h]
@[simp] theorem State.begun_wlog (s : State) (g : Nat) : (s.begun g).wlog = s.wlog := by
  obtain ⟨gs, h, -⟩ := s.begun_fields g; rw [h]
@[simp] theorem State.begun_tr (s : State) (g : Nat) : (s.begun g).tr = s.tr := by
  obtain ⟨gs, h, -⟩ := s.begun_fields g; rw [h]
@[simp] theorem State.begun_ct (s : State) (g : Nat) : (s.begun g).ct = s.ct := by
  obtain ⟨gs, h, -⟩ := s.begun_fields g; rw [h]
@[simp] theorem State.begun_wk (s : State) (g : Nat) : (s.begun g).wk = s.wk := by
  obtain ⟨gs, h, -⟩ := s.begun_fields g; rw [h]
@[simp] theorem State.begun_eng (s : State) (g : Nat) : (s.begun g).eng = s.eng := by
  obtain ⟨gs, h, -⟩ := s.begun_fields g; rw [h]
@[simp] theorem State.begun_en (s : State) (g : Nat) : (s.begun g).en = s.en := by
  obtain ⟨gs, h, -⟩ := s.begun_fields g; rw [h]
@[simp] theorem State.begun_rb (s : State) (g : Nat) : (s.begun g).rb = s.rb := by
  obtain ⟨gs, h, -⟩ := s.begun_fields g; rw [h]
@[simp] theorem State.begun_hp (s : State) (g : Nat) : (s.begun g).hp = s.hp := by
  obtain ⟨gs, h, -⟩ := s.begun_fields g; rw [h]
@[simp] theorem State.begun_cur (s : State) (g : Nat) : (s.begun g).cur = .idle := by
  obtain ⟨gs, h, -⟩ := s.begun_fields g; rw [h]
@[simp] theorem State.begun_teams (s : State) (g : Nat) : (s.begun g).exe.teams = s.exe.teams := by
  obtain ⟨gs, h, -⟩ := s.begun_fields g; rw [h]
@[simp] theorem State.begun_cores (s : State) (g : Nat) : (s.begun g).exe.cores = s.exe.cores := by
  obtain ⟨gs, h, -⟩ := s.begun_fields g; rw [h]
@[simp] theorem State.begun_slices (s : State) (g : Nat) : (s.begun g).exe.slices = s.exe.slices := by
  obtain ⟨gs, h, -⟩ := s.begun_fields g; rw [h]
@[simp] theorem State.begun_tm (s : State) (g n : Nat) : (s.begun g).tm n = s.tm n := State.tm_congr (by simp) n
@[simp] theorem State.begun_launch (s : State) (g n : Nat) : (s.begun g).launch n = s.launch n := State.launch_congr (by simp) n
@[simp] theorem State.begun_trapBlk (s : State) (g n : Nat) : (s.begun g).trapBlk n = s.trapBlk n :=
  State.trapBlk_congr (by simp) n
@[simp] theorem State.begun_coreAt (s : State) (g n : Nat) : (s.begun g).coreAt n = s.coreAt n := State.coreAt_congr (by simp) n
@[simp] theorem State.begun_sliceAt (s : State) (g n : Nat) : (s.begun g).sliceAt n = s.sliceAt n :=
  State.sliceAt_congr (by simp) n

/-- Another group is untouched when an instruction begins. -/
theorem State.begun_grp (s : State) (g h : Nat) (hh : h ≠ g) : (s.begun g).grp h = s.grp h := by
  obtain ⟨gs, hb, hk⟩ := s.begun_fields g
  rw [hb]; exact hk h hh

/-- What a context says of its state. -/
theorem State.context_spec {s : State} {o : Op} {x : Ops} {c : Ctx} (h : s.context o x = some c) :
    s.cur = .split c.g c.e ∧ (s.begun c.g).grp c.g = some c.G ∧ s.tm c.G.team = some c.T ∧ (c.G.sp c.e).v = true ∧
    c.o = o ∧ c.x = x ∧ c.i = o.instr x ∧ c.sp = c.G.sp c.e ∧ c.k = c.T.coreKey ∧ c.ctx = s.ctxOf c.T ∧
    c.act = activeLanes c.G c.sp x.p.toNat x.pn := by
  unfold State.context at h
  split at h
  · rename_i g e hc
    split at h
    · cases h
    · rename_i G hG
      split at h
      · cases h
      · rename_i T hT
        split at h
        · rename_i hv
          cases h
          refine ⟨hc, hG, hT, hv, ?_⟩
          dsimp only
          exact ⟨rfl, rfl, rfl, rfl, rfl, rfl, rfl⟩
        · cases h
  · cases h

/-- Where nothing stops an instruction its front lets it go. -/
theorem Runs.front {o : Op} {x : Ops} {s : State} {c : Ctx} (h : Runs o x s c) : c.front (s.begun c.g) = .go c := by
  obtain ⟨-, -, -, -, ho, hx, -, -, -, -, -⟩ := State.context_spec h.ctx
  have h1 : (s.begun c.g).accOf c.T = s.accOf c.T := by simp [State.accOf, State.formeOf]
  have h2 : (s.begun c.g).trapBlk c.ctx = s.trapBlk c.ctx := by simp
  have h3 : (s.begun c.g).acquireOut c.g = s.acquireOut c.g := by simp [State.acquireOut]
  unfold Ctx.front
  simp only [ho, hx, h1, h2, h3]
  have hn := h.named
  have hl : (o.priv && c.user) = false := by
    cases hp : o.priv with
    | false => rfl
    | true => simpa [Ctx.user] using h.level hp
  have hla : (!isNever x && (latchReads x).any (fun k => decide (c.sp.lval ≤ k))) = false := by
    have : (latchReads x).any (fun k => decide (c.sp.lval ≤ k)) = false := by
      rw [List.any_eq_false]
      intro k hk
      simpa using h.latches k hk
    rw [this, Bool.and_false]
  have hch : (x.live && decide (9 ≤ c.sp.chain)) = false := by
    cases hp : x.live with
    | false => rfl
    | true => simpa using h.chain hp
  have hpend : c.pending = ([], []) := by
    unfold Ctx.pending
    simp only [ho, hx, h.dests]
    cases hr : c.sp.resumes with
    | true => simp
    | false =>
      simp only [h.predFull hr, Option.isNone_none]
      simpa using h.sources hr
  have hbr : (c.user && (s.trapBlk c.ctx).brken && (s.trapBlk c.ctx).brkpc == (c.sp.pc >>> 2).truncate 62 && c.act != 0 &&
      !c.sp.exempt && !c.sp.resumes) = false := by
    cases hu : c.user <;> cases hk : (s.trapBlk c.ctx).brken <;> cases he : c.sp.exempt <;> cases hr : c.sp.resumes <;>
      simp
    intro hb
    exact Classical.byContradiction fun ha => h.brk hr he ha (by simpa [Ctx.user] using hu) hk hb
  have hac : (makesAccess o x && c.act != 0 && !c.sp.resumes && (s.acquireOut c.g || c.G.inFence (makesStore o x))) = false := by
    cases hm : makesAccess o x <;> cases hr : c.sp.resumes <;> simp
    intro ha
    exact h.acquire hm hr ha
  rw [hn, hl, hla, hch, h.predOn, hpend, hbr, h.predClean, hac]
  rfl

/-- An instruction that nothing stops runs its body, and the step ends. -/
theorem Runs.limov {o : Op} {x : Ops} {s : State} {c : Ctx} (h : Runs o x s c) (body : Ctx → State → State) :
    Machine.limov o x s body = .next (body c (s.begun c.g)).finish := by
  unfold Machine.limov
  rw [h.ctx]
  simp only [Ctx.run, h.front]

end Sys2Proof.Machine
end

