-- ==== Sys2Proof/Laws/Done.lean ====
section
/-! SUPPORT. What issuing an instruction and going on behind it, or at another PC, does to the state. -/

namespace Sys2Proof.Machine

/-- The split after `Ctx.issue`. -/
def Ctx.issueSplit (c : Ctx) (sp : Split) : Split :=
  { sp with
      sig := if opUncounted c.o || isNever c.x then sp.sig else sigNext sp.sig c.o.code (c.sp.maskBad c.G.dead)
      chain := if c.x.live then c.sp.chain + 1 else 0
      xlat := [], relDone := false, arrived := 0, msg := none, exempt := false, inst := none, joined := none }

/-- The group after `Ctx.issue`. -/
def Ctx.issueGroup (c : Ctx) (G : Group) : Group :=
  { G.modSp c.e c.issueSplit with issued := true, seq := G.seq + 1 }

/-- The group after `Ctx.requeue`. -/
def Ctx.queueGroup (c : Ctx) (G : Group) : Group :=
  if (G.sp c.e).v then { G with rq := if c.x.live then c.e :: G.rq.erase c.e else G.rq.erase c.e ++ [c.e] }
  else { G with rq := G.rq.erase c.e }

/-- The groups after an instruction has issued. -/
theorem Ctx.grp_issue (c : Ctx) (s : State) (h : Nat) :
    (c.issue s).grp h = if h = c.g then (s.grp h).map c.issueGroup else s.grp h := by
  simp only [Ctx.issue, State.grp_modLaunch, State.grp_modCore, State.grp_modSlice, State.grp_modGrp]
  rfl

/-- The groups after a split has rejoined its queue. -/
theorem Ctx.grp_requeue (c : Ctx) (s : State) (h : Nat) :
    (c.requeue s).grp h = if h = c.g then (s.grp h).map c.queueGroup else s.grp h := by
  simp only [Ctx.requeue, State.grp_modGrp]
  rfl

/-- The state outside the groups after an instruction has issued. -/
structure Issued (c : Ctx) (s t : State) : Prop where
  cur : t.cur = s.cur
  clk : t.clk = s.clk
  agenda : t.agenda = s.agenda
  free : t.free = s.free
  ms : t.ms = s.ms
  wlog : t.wlog = s.wlog
  tr : t.tr = s.tr
  ct : t.ct = s.ct
  en : t.en = s.en
  rb : t.rb = s.rb
  hp : t.hp = s.hp
  eng : t.eng = s.eng
  teams : t.exe.teams = s.exe.teams
  cores : ∀ k, t.coreAt k =
    if k = c.k then { s.coreAt k with ctr := { (s.coreAt k).ctr with inst := (s.coreAt k).ctr.inst + 1 } } else s.coreAt k
  slices : ∀ k, t.sliceAt k = if k = sliceKey c.k c.G.slice then c.charge (s.sliceAt k) else s.sliceAt k
  launches : ∀ l, t.launch l = if l = c.T.launch
    then (s.launch l).map (fun L => if L.started then L else { L with started := true, wstart := s.wtime c.T.domain })
    else s.launch l
  work : t.wk = { s.wk with launches := t.wk.launches }

/-- Issuing counts the instruction, charges its slice, and begins its launch. -/
theorem Ctx.issue_issued (c : Ctx) (s : State) : Issued c s (c.issue s) := by
  constructor
  case launches =>
    intro l
    simp only [Ctx.issue, State.launch_modLaunch, State.launch_modCore, State.launch_modSlice, State.launch_modGrp]
  case slices =>
    intro k
    simp only [Ctx.issue, State.sliceAt_modLaunch, State.sliceAt_modCore, State.sliceAt_modSlice, State.sliceAt_modGrp]
    by_cases h : k = sliceKey c.k c.G.slice
    · subst h; simp [Ctx.charge]
    · simp [h]
  case cores =>
    intro k
    simp only [Ctx.issue, State.coreAt_modLaunch, State.coreAt_modCore, State.coreAt_modSlice, State.coreAt_modGrp]
    by_cases h : k = c.k
    · subst h; simp
    · simp [h]
  case work =>
    have h : (c.issue s).wk = { s.wk with launches := (c.issue s).wk.launches } := by
      unfold Ctx.issue
      dsimp only
      rw [State.modLaunch_wk]
      simp
    exact h
  all_goals simp [Ctx.issue]

/-- A change of the groups after an instruction has issued leaves the rest as it is. -/
theorem Issued.modGrp {c : Ctx} {s t : State} (h : Issued c s t) (g : Nat) (f : Group → Group) :
    Issued c s (t.modGrp g f) := by
  constructor
  · simp [h.cur]
  · simp [h.clk]
  · simp [h.agenda]
  · simp [h.free]
  · simp [h.ms]
  · simp [h.wlog]
  · simp [h.tr]
  · simp [h.ct]
  · simp [h.en]
  · simp [h.rb]
  · simp [h.hp]
  · simp [h.eng]
  · simp [h.teams]
  · intro k; rw [State.coreAt_modGrp]; exact h.cores k
  · intro k; rw [State.sliceAt_modGrp]; exact h.slices k
  · intro l; rw [State.launch_modGrp]; exact h.launches l
  · simpa using h.work

/-- A change of the groups before an instruction issues leaves the rest as it is. -/
theorem Issued.of_modGrp {c : Ctx} {s t : State} {g : Nat} {f : Group → Group} (h : Issued c (s.modGrp g f) t) :
    Issued c s t := by
  constructor
  · simpa using h.cur
  · simpa using h.clk
  · simpa using h.agenda
  · simpa using h.free
  · simpa using h.ms
  · simpa using h.wlog
  · simpa using h.tr
  · simpa using h.ct
  · simpa using h.en
  · simpa using h.rb
  · simpa using h.hp
  · simpa using h.eng
  · simpa using h.teams
  · intro k; simpa using h.cores k
  · intro k; simpa using h.slices k
  · intro l; simpa [State.wtime] using h.launches l
  · simpa using h.work

/-- Moving the PC to the next instruction of the same half takes no trap. -/
theorem Ctx.advance_eq (c : Ctx) (s : State) (h : c.seqOk = true) :
    c.advance s = s.modGrp c.g (fun G => G.modSp c.e (fun sp => { sp with pc := c.sp.pc + BitVec.ofNat 64 c.len })) := by
  unfold Ctx.seqOk at h
  unfold Ctx.advance
  dsimp only at h ⊢
  rw [if_pos h]

/-- Going on behind the instruction: the state outside the groups. -/
theorem Ctx.done_issued (c : Ctx) (s : State) (h : c.seqOk = true) : Issued c s (c.done s) := by
  unfold Ctx.done
  rw [c.advance_eq _ h]
  exact ((c.issue_issued s).modGrp _ _).modGrp _ _

/-- The group after the instruction, as it goes on behind it. -/
def Ctx.doneGroup (c : Ctx) (G : Group) : Group :=
  (c.queueGroup (c.issueGroup G)).modSp c.e (fun sp => { sp with pc := c.sp.pc + BitVec.ofNat 64 c.len })

/-- The groups after the instruction, as it goes on behind it. -/
theorem Ctx.grp_done (c : Ctx) (s : State) (h : c.seqOk = true) (g : Nat) :
    (c.done s).grp g = if g = c.g then (s.grp g).map c.doneGroup else s.grp g := by
  unfold Ctx.done
  rw [c.advance_eq _ h, State.grp_modGrp, c.grp_requeue, c.grp_issue]
  by_cases hg : g = c.g
  · simp only [hg, if_true, Option.map_map]; rfl
  · simp only [if_neg hg]

/-- The group after the instruction, as it goes on at another PC. -/
def Ctx.jumpGroup (c : Ctx) (pc : DWord) (G : Group) : Group :=
  c.queueGroup ((c.issueGroup G).modSp c.e (fun sp => { sp with pc := pc }))

/-- The groups after the instruction, as it goes on at another PC. -/
theorem Ctx.grp_jump (c : Ctx) (s : State) (pc : DWord) (g : Nat) :
    (c.jump s pc).grp g = if g = c.g then (s.grp g).map (c.jumpGroup pc) else s.grp g := by
  unfold Ctx.jump
  rw [c.grp_requeue, State.grp_modGrp, c.grp_issue]
  by_cases hg : g = c.g
  · simp only [hg, if_true, Option.map_map]; rfl
  · simp only [if_neg hg]

/-- Going on at another PC: the state outside the groups. -/
theorem Ctx.jump_issued (c : Ctx) (s : State) (pc : DWord) : Issued c s (c.jump s pc) :=
  ((c.issue_issued s).modGrp _ _).modGrp _ _

/-- The frame of an instruction that works in its own group (see `Elsewhere`). -/
theorem Issued.elsewhere {c : Ctx} {s t : State} (h : Issued c (s.begun c.g) t) (hl : s.wlog = [])
    (hg : ∀ g, g ≠ c.g → t.grp g = (s.begun c.g).grp g) : Elsewhere c s t.finish := by
  have hw : t.wlog = [] := by rw [h.wlog]; simpa using hl
  constructor
  · simp
  · simpa using h.clk
  · simpa using h.agenda
  · simpa using h.free
  · rw [State.finish_ms t hw]; simpa using h.ms
  · rfl
  · simpa using h.tr
  · simpa using h.ct
  · simpa using h.en
  · simpa using h.rb
  · simpa using h.hp
  · simpa using h.teams
  · have hp := State.finish_pops t
    unfold samePops at hp ⊢
    simpa only [h.eng, State.begun_eng] using hp
  · simp [h.eng]
  · simp [h.eng]
  · simp [h.eng]
  · simp [h.eng]
  · intro k hk G hG
    have : t.grp k = some G := by rw [hg k hk, State.begun_grp s c.g k hk, hG]
    exact State.finish_same t k G this
  · intro k; simpa using h.cores k
  · intro k; simpa using h.slices k
  · intro l; simpa [State.wtime] using h.launches l
  · simpa using h.work

end Sys2Proof.Machine
end

