-- ==== Sys2Proof/Laws/Regs.lean ====
section
/-! SUPPORT. Laws of the register file of a group: what a register reads as, and whether it is FULL, after a write (R168). -/

namespace Sys2Proof.Machine

/-- Two groups that differ in registers and claims alone. -/
def Group.regsOnly (G H : Group) : Prop :=
  H = { G with regs := H.regs, hregs := H.hregs, pend := H.pend, hpend := H.hpend, claims := H.claims }

/-- A group differs from itself in nothing. -/
theorem Group.regsOnly_refl (G : Group) : G.regsOnly G := rfl

/-- Such differences add up. -/
theorem Group.regsOnly_trans {G H K : Group} (h : G.regsOnly H) (k : H.regsOnly K) : G.regsOnly K := by
  unfold Group.regsOnly at *; rw [k, h]

/-- Setting one lane's word changes registers alone. -/
theorem Group.regsOnly_setReg (G : Group) (r j : Nat) (v : LW) : G.regsOnly (G.setReg r j v) := by
  unfold Group.setReg Group.regsOnly; split
  · rfl
  · split <;> rfl

/-- Setting words changes registers alone. -/
theorem Group.regsOnly_setRegs (G : Group) (r : Nat) (vs : List (Nat × LW)) : G.regsOnly (G.setRegs r vs) := by
  induction vs generalizing G with
  | nil => rfl
  | cons p vs ih => exact Group.regsOnly_trans (G.regsOnly_setReg r p.1 p.2) (ih _)

/-- Making a register FULL changes registers alone. -/
theorem Group.regsOnly_setFull (G : Group) (r : Nat) : G.regsOnly (G.setFull r) := by
  unfold Group.setFull Group.regsOnly; split <;> rfl

/-- Orphaning a claim changes registers and claims alone. -/
theorem Group.regsOnly_orphan (G : Group) (r : Nat) : G.regsOnly (G.orphan r) := by
  unfold Group.orphan
  split
  · rename_i t _
    have h := G.regsOnly_setFull r
    unfold Group.regsOnly at *
    rw [h]
  · rfl

/-- Writing a register changes registers and claims alone. -/
theorem Group.regsOnly_writeReg (G : Group) (r : Nat) (vs : List (Nat × LW)) : G.regsOnly (G.writeReg r vs) := by
  unfold Group.writeReg
  split
  · rfl
  · exact Group.regsOnly_trans (G.regsOnly_orphan r) (Group.regsOnly_setRegs _ _ _)

/-- Writing a value changes registers and claims alone. -/
theorem Group.regsOnly_writeVal (G : Group) (r : Nat) (wide : Bool) (vs : List (Nat × LW2)) :
    G.regsOnly (G.writeVal r wide vs) := by
  unfold Group.writeVal
  dsimp only
  split
  · exact Group.regsOnly_trans (G.regsOnly_writeReg _ _) (Group.regsOnly_writeReg _ _ _)
  · exact G.regsOnly_writeReg _ _

/-! ### Words -/

/-- The banks of two groups that differ in registers alone are the same. -/
theorem Group.inBank_congr {G H : Group} (h : G.regsOnly H) (r : Nat) : H.inBank r = G.inBank r := by
  unfold Group.inBank; rw [h]

/-- Reading a word after one has been set. -/
theorem Group.reg_setReg (G : Group) (r s i j : Nat) (v : LW) (hr : 4 ≤ r) (hs : 4 ≤ s) (hi : i < 96) (hj : j < 96) :
    (G.setReg r i v).reg s j = if s = r ∧ j = i then v else G.reg s j := by
  have hb := Group.inBank_congr (G.regsOnly_setReg r i v) s
  have r3 : ¬ r ≤ 3 := by omega
  have s0 : s ≠ 0 := by omega
  have s3 : ¬ s ≤ 3 := by omega
  simp only [Group.reg, if_neg s0, if_neg s3, hb]
  unfold Group.setReg
  rw [if_neg r3]
  by_cases hbr : G.inBank r = true
  · rw [if_pos hbr]
    by_cases hbs : G.inBank s = true
    · rw [if_pos hbs, if_pos hbs]
      dsimp only
      rw [Map.getD_put]
      have h1 : 240 ≤ r := by simp [Group.inBank] at hbr; exact hbr.2
      have h2 : 240 ≤ s := by simp [Group.inBank] at hbs; exact hbs.2
      by_cases he : s = r ∧ j = i
      · rw [if_pos he, if_pos (by rw [he.1, he.2])]
      · rw [if_neg he, if_neg (by omega)]
    · rw [if_neg hbs, if_neg hbs]
      have : ¬ (s = r ∧ j = i) := fun h => hbs (h.1 ▸ hbr)
      rw [if_neg this]
  · rw [if_neg hbr]
    by_cases hbs : G.inBank s = true
    · rw [if_pos hbs, if_pos hbs]
      have : ¬ (s = r ∧ j = i) := fun h => hbr (h.1 ▸ hbs)
      rw [if_neg this]
    · rw [if_neg hbs, if_neg hbs]
      dsimp only
      rw [Map.getD_put]
      by_cases he : s = r ∧ j = i
      · rw [if_pos he, if_pos (by rw [he.1, he.2])]
      · rw [if_neg he, if_neg (by omega)]

/-- Reading a word after lanes of a register have been set. -/
theorem Group.reg_setRegs (G : Group) (r s j : Nat) (L : List Nat) (f : Nat → LW) (hr : 4 ≤ r) (hs : 4 ≤ s)
    (hL : ∀ i ∈ L, i < 96) (hj : j < 96) :
    (G.setRegs r (L.map (fun i => (i, f i)))).reg s j = if s = r ∧ j ∈ L then f j else G.reg s j := by
  induction L generalizing G with
  | nil => simp [Group.setRegs]
  | cons i L ih =>
    rw [List.map_cons, Group.setRegs, ih _ (fun k hk => hL k (List.mem_cons_of_mem _ hk)),
      Group.reg_setReg G r s i j (f i) hr hs (hL i List.mem_cons_self) hj]
    by_cases h1 : s = r
    · by_cases h2 : j ∈ L
      · simp [h1, h2]
      · by_cases h3 : j = i
        · simp [h1, h3]
        · simp [h1, h2, h3]
    · simp [h1]

/-- The words of a group that differs in claims alone. -/
theorem Group.reg_congr (G H : Group) (h1 : H.regs = G.regs) (h2 : H.hregs = G.hregs) (h3 : H.bank = G.bank) (r j : Nat)
    (hr : 4 ≤ r) : H.reg r j = G.reg r j := by
  have r0 : r ≠ 0 := by omega
  have r3 : ¬ r ≤ 3 := by omega
  unfold Group.reg Group.inBank
  rw [if_neg r0, if_neg r3, if_neg r0, if_neg r3, h1, h2, h3]

/-- Orphaning a claim changes no word. -/
theorem Group.reg_orphan (G : Group) (r s j : Nat) (hs : 4 ≤ s) : (G.orphan r).reg s j = G.reg s j := by
  apply Group.reg_congr _ _ _ _ _ _ _ hs
  all_goals
    unfold Group.orphan Group.setFull
    split
    · split <;> rfl
    · rfl

/-! ### FULL and PENDING -/

/-- Which registers are PENDING after one has become FULL. -/
theorem Group.pendOf_setFull (G : Group) (r s : Nat) (hr : 4 ≤ r) :
    (G.setFull r).pendOf s = if s = r then none else G.pendOf s := by
  have hb := Group.inBank_congr (G.regsOnly_setFull r) s
  unfold Group.pendOf
  rw [hb]
  by_cases s3 : s ≤ 3
  · have : s ≠ r := by omega
    simp [s3, this]
  · simp only [if_neg s3]
    unfold Group.setFull
    by_cases hbr : G.inBank r = true
    · rw [if_pos hbr]
      by_cases hbs : G.inBank s = true
      · simp only [if_pos hbs, Map.find_erase]
      · have : s ≠ r := fun h => hbs (h ▸ hbr)
        simp only [if_neg hbs, if_neg this]
    · rw [if_neg hbr]
      by_cases hbs : G.inBank s = true
      · have : s ≠ r := fun h => hbr (h ▸ hbs)
        simp only [if_pos hbs, if_neg this]
      · simp only [if_neg hbs, Map.find_erase]

/-- PENDING registers do not depend on claims. -/
theorem Group.pendOf_claims (G : Group) (cs : Map Claim) (r : Nat) :
    Group.pendOf { G with claims := cs } r = G.pendOf r := rfl

/-- Which registers are PENDING after the claim of one has been orphaned. -/
theorem Group.pendOf_orphan (G : Group) (r s : Nat) (hr : 4 ≤ r) :
    (G.orphan r).pendOf s = if s = r then none else G.pendOf s := by
  unfold Group.orphan
  split
  · rw [Group.pendOf_claims, Group.pendOf_setFull _ _ _ hr]
  · rename_i h
    by_cases hs : s = r
    · rw [if_pos hs, hs, h]
    · rw [if_neg hs]

/-- PENDING registers after words have been set. -/
theorem Group.pendOf_setRegs (G : Group) (r s : Nat) (vs : List (Nat × LW)) : (G.setRegs r vs).pendOf s = G.pendOf s := by
  have key : ∀ (G : Group) (j : Nat) (v : LW), (G.setReg r j v).pendOf s = G.pendOf s := by
    intro G j v
    have hb := Group.inBank_congr (G.regsOnly_setReg r j v) s
    have h1 : (G.setReg r j v).pend = G.pend := by unfold Group.setReg; split; rfl; split <;> rfl
    have h2 : (G.setReg r j v).hpend = G.hpend := by unfold Group.setReg; split; rfl; split <;> rfl
    unfold Group.pendOf
    rw [hb, h1, h2]
  induction vs generalizing G with
  | nil => rfl
  | cons p vs ih => rw [Group.setRegs, ih, key]

/-- What a register reads as after a write (R168). -/
theorem Group.reg_writeReg (G : Group) (r s j : Nat) (L : List Nat) (f : Nat → LW) (hr : 4 ≤ r) (hs : 4 ≤ s)
    (hL : ∀ i ∈ L, i < 96) (hj : j < 96) :
    (G.writeReg r (L.map (fun i => (i, f i)))).reg s j = if s = r ∧ j ∈ L then f j else G.reg s j := by
  unfold Group.writeReg
  cases L with
  | nil => simp
  | cons i L =>
    rw [if_neg (by simp), Group.reg_setRegs _ _ _ _ _ _ hr hs hL hj, Group.reg_orphan _ _ _ _ hs]

/-- A written register is FULL, unless no lane was written (R168). -/
theorem Group.pendOf_writeReg (G : Group) (r s : Nat) (vs : List (Nat × LW)) (hr : 4 ≤ r) :
    (G.writeReg r vs).pendOf s = if s = r ∧ vs ≠ [] then none else G.pendOf s := by
  unfold Group.writeReg
  cases vs with
  | nil => simp
  | cons p vs =>
    rw [if_neg (by simp), Group.pendOf_setRegs, Group.pendOf_orphan _ _ _ hr]
    simp

end Sys2Proof.Machine
end

