-- ==== Sys2Proof/Laws/Lanes.lean ====
section
/-! SUPPORT. What `Ctx.result` does, said once: an instruction with a lane result leaves what `Ctx.laneDone` says. -/

namespace Sys2Proof.Machine

/-! ### Lane sets -/

/-- The lanes of a list are below 96. -/
theorem Lanes.lt_of_mem_list {m : Lanes} {j : Nat} (h : j ∈ m.list) : j < 96 := by
  unfold Lanes.list at h; simp at h; exact h.1

/-- A lane is listed exactly when it belongs to the set. -/
theorem Lanes.mem_list (m : Lanes) (j : Nat) : j ∈ m.list ↔ m.has j = true := by
  unfold Lanes.list Lanes.has
  simp only [List.mem_filter, List.mem_range]
  constructor
  · exact fun h => h.2
  · intro h
    refine ⟨?_, h⟩
    by_cases hj : j < 96
    · exact hj
    · rw [BitVec.getLsbD_of_ge m j (by omega)] at h; cases h

/-- A set has a listed lane exactly when it is not empty. -/
theorem Lanes.list_eq_nil (m : Lanes) : m.list = [] ↔ m = 0 := by
  constructor
  · intro h
    apply BitVec.eq_of_getLsbD_eq
    intro i hi
    have : i ∉ m.list := by rw [h]; simp
    rw [Lanes.mem_list] at this
    simpa [Lanes.has] using this
  · intro h
    rw [List.eq_nil_iff_forall_not_mem]
    intro j hj
    rw [Lanes.mem_list, h] at hj
    simp [Lanes.has] at hj

/-- The lowest lane of a set belongs to it. -/
theorem Lanes.has_lowest {m : Lanes} {j : Nat} (h : m.lowest = some j) : m.has j = true := by
  unfold Lanes.lowest at h
  exact List.find?_some h

/-! ### Latch histories and flags -/

/-- Setting listed keys of a map. -/
theorem Map.getD_putAll {α : Type} [DecidableEq α] (m : Map α) (d : α) (L : List Nat) (f : Nat → α) (a : Nat) :
    Map.getD (Map.putAll m d (L.map (fun i => (i, f i)))) a d = if a ∈ L then f a else Map.getD m a d := by
  induction L generalizing m with
  | nil => simp [Map.putAll]
  | cons i L ih =>
    rw [List.map_cons, Map.putAll, ih, Map.getD_put]
    by_cases h1 : a ∈ L
    · simp [h1]
    · by_cases h2 : a = i
      · simp [h2]
      · simp [h1, h2]

/-- A shifted map is looked up below the shift. -/
theorem Map.find_shift {α : Type} (m : Map α) (n a : Nat) :
    Map.find ((m.filter (fun p => decide (p.1 < 288))).map (fun p => (p.1 + n, p.2))) a =
      if n ≤ a ∧ a - n < 288 then Map.find m (a - n) else none := by
  induction m with
  | nil => simp [Map.find]
  | cons p m ih =>
    obtain ⟨k, w⟩ := p
    by_cases hk : k < 288
    · simp only [List.filter_cons, hk, decide_true, if_true, List.map_cons, Map.find, ih]
      by_cases ha : a = k + n
      · subst ha
        have h1 : n ≤ k + n ∧ k + n - n < 288 := by omega
        simp [hk]
      · by_cases h1 : n ≤ a ∧ a - n < 288
        · have h2 : a - n ≠ k := by omega
          simp [ha, h1, h2]
        · simp [ha, h1]
    · simp only [List.filter_cons, hk, decide_false, Bool.false_eq_true, if_false, ih, Map.find]
      by_cases h1 : n ≤ a ∧ a - n < 288
      · have h2 : a - n ≠ k := by omega
        simp [h1, h2]
      · simp [h1]

/-- The latch history after a push (R174). -/
theorem latchAt_push (old : Map LW2) (L : List Nat) (hL : ∀ i ∈ L, i < 96) (v : Nat → LW2) (k j : Nat) (hk : k < 4)
    (hj : j < 96) :
    Map.getD (pushLatch old (L.map (fun i => (i, v i)))) (96 * k + j) {} =
      if k = 0 then (if j ∈ L then v j else {}) else Map.getD old (96 * (k - 1) + j) {} := by
  unfold pushLatch
  rw [Map.getD_putAll]
  have hs : Map.getD ((old.filter (fun p => decide (p.1 < 288))).map (fun p => (p.1 + 96, p.2))) (96 * k + j) {} =
      if k = 0 then ({} : LW2) else Map.getD old (96 * (k - 1) + j) {} := by
    unfold Map.getD
    rw [Map.find_shift]
    by_cases h0 : k = 0
    · have : ¬ (96 ≤ 96 * k + j ∧ 96 * k + j - 96 < 288) := by omega
      rw [if_neg this, if_pos h0]; rfl
    · have h1 : 96 ≤ 96 * k + j ∧ 96 * k + j - 96 < 288 := by omega
      have h2 : 96 * k + j - 96 = 96 * (k - 1) + j := by omega
      rw [if_pos h1, if_neg h0, h2]
  rw [hs]
  by_cases h0 : k = 0
  · subst h0; simp
  · have : 96 * k + j ∉ L := fun h => by have := hL _ h; omega
    rw [if_neg this, if_neg h0, if_neg h0]

/-- Gathered flags, bit by bit. -/
theorem gatherFlags_bit (L : List Nat) (v : Nat → LW2) (fl : Nat → Fl) (b : Nat) :
    (gatherFlags (L.map (fun j => (j, v j, fl j)))).getLsbD b = L.any (fun j => !lwAny (v j) && (fl j).getLsbD b) := by
  have key : ∀ (L : List Nat) (a : Fl),
      ((L.map (fun j => (j, v j, fl j))).foldl (fun a r => if lwAny r.2.1 then a else a ||| r.2.2) a).getLsbD b =
        (a.getLsbD b || L.any (fun j => !lwAny (v j) && (fl j).getLsbD b)) := by
    intro L
    induction L with
    | nil => simp
    | cons j L ih =>
      intro a
      rw [List.map_cons, List.foldl_cons, ih, List.any_cons]
      cases lwAny (v j) <;> simp [Bool.or_assoc]
  unfold gatherFlags
  rw [key]; simp

/-! ### The write of D -/

/-- A mask after one of its words has been written, bit by bit (R160). -/
theorem maskWrite_has (G : Group) (sp : Split) (d : Nat) (w : Word) (i : Nat) (hd : 1 ≤ d) (hd3 : d ≤ 3) (hi : i < 96) :
    (maskWrite G sp d w).has i =
      if i / 32 + 1 = d then w.getLsbD (i % 32) && sp.memb.has i && !G.dead.has i else sp.mask.has i := by
  have hk : ∀ n, ((BitVec.allOnes 32).zeroExtend 96 : BitVec 96).getLsbD n = decide (n < 32) := by
    intro n
    rw [BitVec.zeroExtend, BitVec.getLsbD_setWidth, BitVec.getLsbD_allOnes]
    by_cases h : n < 32
    · have : n < 96 := by omega
      simp [h, this]
    · simp [h]
  unfold maskWrite Lanes.has
  simp only [BitVec.getLsbD_or, BitVec.getLsbD_and, BitVec.getLsbD_not, BitVec.getLsbD_shiftLeft, hk, BitVec.zeroExtend,
    BitVec.getLsbD_setWidth, hi, decide_true, Bool.true_and]
  by_cases h : i / 32 + 1 = d
  · have h2 : i - 32 * (d - 1) = i % 32 := by omega
    have h3 : i % 32 < 32 := by omega
    have h4 : i % 32 < 96 := by omega
    have h5 : ¬ i < 32 * (d - 1) := by omega
    simp only [h, if_true, h2, h3, h4, h5, decide_true, decide_false]
    simp
  · rw [if_neg h]
    by_cases h5 : i < 32 * (d - 1)
    · simp [h5]
    · have h6 : ¬ i - 32 * (d - 1) < 32 := by omega
      have h7 : BitVec.getLsbD w (i - 32 * (d - 1)) = false := BitVec.getLsbD_of_ge _ _ (by omega)
      simp [h6, h7]

/-- The lanes that act execute. -/
theorem Ctx.ex_of_act (c : Ctx) (hd : ∀ j, c.act.has j = true → c.G.dead.has j = false) (j : Nat) (h : c.act.has j = true) :
    c.ex.has j = true := by
  unfold Ctx.ex Group.exLanes shadows
  split
  · have := hd j h
    have hj : j < 96 := by
      by_cases hj : j < 96
      · exact hj
      · rw [Lanes.has, BitVec.getLsbD_of_ge _ _ (by omega)] at h; cases h
    unfold Lanes.has at *
    rw [BitVec.getLsbD_and, BitVec.getLsbD_or, BitVec.getLsbD_not, h, this]
    simp [hj]
  · exact h

/-- The low words of a lane result. -/
def loWords (v : Nat → LW2) (j : Nat) : LW := { val := (v j).val.truncate 32, psn := (v j).pLo }

/-- The high words of a lane result. -/
def hiWords (v : Nat → LW2) (j : Nat) : LW := { val := ((v j).val >>> 32).truncate 32, psn := (v j).pHi }

/-- What a register reads as after a value has been written (R111, R168). -/
theorem Group.reg_writeVal (G : Group) (d s j : Nat) (wide : Bool) (L : List Nat) (v : Nat → LW2) (hd : 4 ≤ d) (hs : 4 ≤ s)
    (hL : ∀ i ∈ L, i < 96) (hj : j < 96) :
    (G.writeVal d wide (L.map (fun i => (i, v i)))).reg s j =
      if j ∈ L then (if s = d then loWords v j else if wide = true ∧ s = d + 1 then hiWords v j else G.reg s j)
      else G.reg s j := by
  unfold Group.writeVal
  have hlo : (L.map (fun i => (i, v i))).map (fun (p : Nat × LW2) => (p.1, ({ val := p.2.val.truncate 32, psn := p.2.pLo } : LW)))
      = L.map (fun i => (i, loWords v i)) := by rw [List.map_map]; rfl
  have hhi : (L.map (fun i => (i, v i))).map
      (fun (p : Nat × LW2) => (p.1, ({ val := (p.2.val >>> 32).truncate 32, psn := p.2.pHi } : LW)))
      = L.map (fun i => (i, hiWords v i)) := by rw [List.map_map]; rfl
  dsimp only
  rw [hlo, hhi]
  cases wide with
  | false =>
    rw [if_neg (by simp), Group.reg_writeReg _ _ _ _ _ _ hd hs hL hj]
    by_cases h1 : j ∈ L <;> by_cases h2 : s = d <;> simp [h1, h2]
  | true =>
    rw [if_pos rfl, Group.reg_writeReg _ _ _ _ _ _ (by omega) hs hL hj, Group.reg_writeReg _ _ _ _ _ _ hd hs hL hj]
    by_cases h1 : j ∈ L
    · by_cases h2 : s = d
      · have : s ≠ d + 1 := by omega
        simp [h1, h2]
      · simp [h1, h2]
    · simp [h1]

/-- PENDING registers after a value has been written (R168). -/
theorem Group.pendOf_writeVal (G : Group) (d s : Nat) (wide : Bool) (L : List Nat) (v : Nat → LW2) (hd : 4 ≤ d) :
    (G.writeVal d wide (L.map (fun i => (i, v i)))).pendOf s =
      if L ≠ [] ∧ (s = d ∨ wide = true ∧ s = d + 1) then none else G.pendOf s := by
  unfold Group.writeVal
  dsimp only
  cases wide with
  | false =>
    rw [if_neg (by simp), Group.pendOf_writeReg _ _ _ _ hd]
    by_cases h1 : L = [] <;> by_cases h2 : s = d <;> simp [h1, h2]
  | true =>
    rw [if_pos rfl, Group.pendOf_writeReg _ _ _ _ (by omega), Group.pendOf_writeReg _ _ _ _ hd]
    by_cases h1 : L = [] <;> by_cases h2 : s = d <;> by_cases h3 : s = d + 1 <;> simp [h1, h2, h3]

/-- The group after the write of D, with its latch history and flags. -/
def Ctx.written (c : Ctx) (G : Group) (wide push : Bool) (rs : List (Nat × LW2 × Fl)) : Group :=
  let vs := rs.map (fun r => (r.1, r.2.1))
  let G1 := c.writeD G wide vs
  let G2 := if push then G1.modSp c.e (fun sp => sp.push vs) else G1
  { G2 with fflags := G2.fflags ||| gatherFlags rs }

/-- A lane result that meets no hem is written, and the instruction is done. -/
theorem Ctx.result_eq (c : Ctx) (s : State) (wide push : Bool) (v : Nat → LW2) (fl : Nat → Fl)
    (hm : c.maskSafe (fun j => (v j).pLo)) :
    c.result s wide push (c.ex.list.map (fun j => (j, v j, fl j))) =
      c.done (s.modGrp c.g (fun G => c.written G wide push (c.ex.list.map (fun j => (j, v j, fl j))))) := by
  have hh : c.maskHem ((c.ex.list.map (fun j => (j, v j, fl j))).map (fun r => (r.1, r.2.1))) = none := by
    unfold Ctx.maskHem
    dsimp only
    split
    · rfl
    · rename_i hd
      split
      · rename_i j hj
        have : (v j).pLo = false := by
          refine hm ?_ j hj
          unfold Ctx.toMask
          have : c.x.w = false := by cases hw : c.x.w <;> simp [hw] at hd ⊢
          rw [this]; simp at hd ⊢; omega
        rw [if_neg]
        rw [Bool.not_eq_true, List.any_eq_false]
        intro p hp
        simp only [List.map_map, List.mem_map] at hp
        obtain ⟨i, -, rfl⟩ := hp
        simp only [Function.comp]
        by_cases hij : i = j
        · subst hij; simp [this]
        · simp [hij]
      · rfl
  unfold Ctx.result
  dsimp only
  rw [hh]
  rfl

end Sys2Proof.Machine
end

