-- ==== Sys2Proof/Laws/PerInstr.lean ====
section
/-! SUPPORT. A law of every constructor of `Instr`, for proofs by cases on the instruction: what its opcode and fields are. -/

namespace Sys2Proof.Laws

open Sys2Proof Sys2Proof.Machine

/-- A Limov instruction is the one that its opcode and its fields name, and its opcode's code names the opcode (R97, R116);
an event of the machine has no encoding. -/
def Shape.Statement (i : Instr) : Prop :=
  (∀ o x, i.limov? = some (o, x) → o.instr x = i ∧ Op.ofCode o.code = some o) ∧ (isEvent i = true → encode i = [])

theorem Shape.iadd (x : Ops) : Shape.Statement (.iadd x) := ⟨by intro o y h; cases h; exact ⟨rfl, rfl⟩, fun h => (Bool.false_ne_true h).elim⟩
theorem Shape.isub (x : Ops) : Shape.Statement (.isub x) := ⟨by intro o y h; cases h; exact ⟨rfl, rfl⟩, fun h => (Bool.false_ne_true h).elim⟩
theorem Shape.iadd3 (x : Ops) : Shape.Statement (.iadd3 x) := ⟨by intro o y h; cases h; exact ⟨rfl, rfl⟩, fun h => (Bool.false_ne_true h).elim⟩
theorem Shape.imul (x : Ops) : Shape.Statement (.imul x) := ⟨by intro o y h; cases h; exact ⟨rfl, rfl⟩, fun h => (Bool.false_ne_true h).elim⟩
theorem Shape.imulh (x : Ops) : Shape.Statement (.imulh x) := ⟨by intro o y h; cases h; exact ⟨rfl, rfl⟩, fun h => (Bool.false_ne_true h).elim⟩
theorem Shape.imad (x : Ops) : Shape.Statement (.imad x) := ⟨by intro o y h; cases h; exact ⟨rfl, rfl⟩, fun h => (Bool.false_ne_true h).elim⟩
theorem Shape.imadw (x : Ops) : Shape.Statement (.imadw x) := ⟨by intro o y h; cases h; exact ⟨rfl, rfl⟩, fun h => (Bool.false_ne_true h).elim⟩
theorem Shape.idiv (x : Ops) : Shape.Statement (.idiv x) := ⟨by intro o y h; cases h; exact ⟨rfl, rfl⟩, fun h => (Bool.false_ne_true h).elim⟩
theorem Shape.irem (x : Ops) : Shape.Statement (.irem x) := ⟨by intro o y h; cases h; exact ⟨rfl, rfl⟩, fun h => (Bool.false_ne_true h).elim⟩
theorem Shape.imin (x : Ops) : Shape.Statement (.imin x) := ⟨by intro o y h; cases h; exact ⟨rfl, rfl⟩, fun h => (Bool.false_ne_true h).elim⟩
theorem Shape.imax (x : Ops) : Shape.Statement (.imax x) := ⟨by intro o y h; cases h; exact ⟨rfl, rfl⟩, fun h => (Bool.false_ne_true h).elim⟩
theorem Shape.iabs (x : Ops) : Shape.Statement (.iabs x) := ⟨by intro o y h; cases h; exact ⟨rfl, rfl⟩, fun h => (Bool.false_ne_true h).elim⟩
theorem Shape.ineg (x : Ops) : Shape.Statement (.ineg x) := ⟨by intro o y h; cases h; exact ⟨rfl, rfl⟩, fun h => (Bool.false_ne_true h).elim⟩
theorem Shape.isetc (x : Ops) : Shape.Statement (.isetc x) := ⟨by intro o y h; cases h; exact ⟨rfl, rfl⟩, fun h => (Bool.false_ne_true h).elim⟩
theorem Shape.isel (x : Ops) : Shape.Statement (.isel x) := ⟨by intro o y h; cases h; exact ⟨rfl, rfl⟩, fun h => (Bool.false_ne_true h).elim⟩
theorem Shape.lea (x : Ops) : Shape.Statement (.lea x) := ⟨by intro o y h; cases h; exact ⟨rfl, rfl⟩, fun h => (Bool.false_ne_true h).elim⟩
theorem Shape.shl (x : Ops) : Shape.Statement (.shl x) := ⟨by intro o y h; cases h; exact ⟨rfl, rfl⟩, fun h => (Bool.false_ne_true h).elim⟩
theorem Shape.shr (x : Ops) : Shape.Statement (.shr x) := ⟨by intro o y h; cases h; exact ⟨rfl, rfl⟩, fun h => (Bool.false_ne_true h).elim⟩
theorem Shape.sar (x : Ops) : Shape.Statement (.sar x) := ⟨by intro o y h; cases h; exact ⟨rfl, rfl⟩, fun h => (Bool.false_ne_true h).elim⟩
theorem Shape.rol (x : Ops) : Shape.Statement (.rol x) := ⟨by intro o y h; cases h; exact ⟨rfl, rfl⟩, fun h => (Bool.false_ne_true h).elim⟩
theorem Shape.ror (x : Ops) : Shape.Statement (.ror x) := ⟨by intro o y h; cases h; exact ⟨rfl, rfl⟩, fun h => (Bool.false_ne_true h).elim⟩
theorem Shape.xwin (x : Ops) : Shape.Statement (.xwin x) := ⟨by intro o y h; cases h; exact ⟨rfl, rfl⟩, fun h => (Bool.false_ne_true h).elim⟩
theorem Shape.andB (x : Ops) : Shape.Statement (.andB x) := ⟨by intro o y h; cases h; exact ⟨rfl, rfl⟩, fun h => (Bool.false_ne_true h).elim⟩
theorem Shape.orB (x : Ops) : Shape.Statement (.orB x) := ⟨by intro o y h; cases h; exact ⟨rfl, rfl⟩, fun h => (Bool.false_ne_true h).elim⟩
theorem Shape.xorB (x : Ops) : Shape.Statement (.xorB x) := ⟨by intro o y h; cases h; exact ⟨rfl, rfl⟩, fun h => (Bool.false_ne_true h).elim⟩
theorem Shape.andn (x : Ops) : Shape.Statement (.andn x) := ⟨by intro o y h; cases h; exact ⟨rfl, rfl⟩, fun h => (Bool.false_ne_true h).elim⟩
theorem Shape.bfn3 (x : Ops) : Shape.Statement (.bfn3 x) := ⟨by intro o y h; cases h; exact ⟨rfl, rfl⟩, fun h => (Bool.false_ne_true h).elim⟩
theorem Shape.clz (x : Ops) : Shape.Statement (.clz x) := ⟨by intro o y h; cases h; exact ⟨rfl, rfl⟩, fun h => (Bool.false_ne_true h).elim⟩
theorem Shape.ctz (x : Ops) : Shape.Statement (.ctz x) := ⟨by intro o y h; cases h; exact ⟨rfl, rfl⟩, fun h => (Bool.false_ne_true h).elim⟩
theorem Shape.popc (x : Ops) : Shape.Statement (.popc x) := ⟨by intro o y h; cases h; exact ⟨rfl, rfl⟩, fun h => (Bool.false_ne_true h).elim⟩
theorem Shape.brev (x : Ops) : Shape.Statement (.brev x) := ⟨by intro o y h; cases h; exact ⟨rfl, rfl⟩, fun h => (Bool.false_ne_true h).elim⟩
theorem Shape.bswap (x : Ops) : Shape.Statement (.bswap x) := ⟨by intro o y h; cases h; exact ⟨rfl, rfl⟩, fun h => (Bool.false_ne_true h).elim⟩
theorem Shape.bfe (x : Ops) : Shape.Statement (.bfe x) := ⟨by intro o y h; cases h; exact ⟨rfl, rfl⟩, fun h => (Bool.false_ne_true h).elim⟩
theorem Shape.bfi (x : Ops) : Shape.Statement (.bfi x) := ⟨by intro o y h; cases h; exact ⟨rfl, rfl⟩, fun h => (Bool.false_ne_true h).elim⟩
theorem Shape.pdep (x : Ops) : Shape.Statement (.pdep x) := ⟨by intro o y h; cases h; exact ⟨rfl, rfl⟩, fun h => (Bool.false_ne_true h).elim⟩
theorem Shape.pext (x : Ops) : Shape.Statement (.pext x) := ⟨by intro o y h; cases h; exact ⟨rfl, rfl⟩, fun h => (Bool.false_ne_true h).elim⟩
theorem Shape.bperm (x : Ops) : Shape.Statement (.bperm x) := ⟨by intro o y h; cases h; exact ⟨rfl, rfl⟩, fun h => (Bool.false_ne_true h).elim⟩
theorem Shape.gf2mm (x : Ops) : Shape.Statement (.gf2mm x) := ⟨by intro o y h; cases h; exact ⟨rfl, rfl⟩, fun h => (Bool.false_ne_true h).elim⟩
theorem Shape.bysel (x : Ops) : Shape.Statement (.bysel x) := ⟨by intro o y h; cases h; exact ⟨rfl, rfl⟩, fun h => (Bool.false_ne_true h).elim⟩
theorem Shape.mov (x : Ops) : Shape.Statement (.mov x) := ⟨by intro o y h; cases h; exact ⟨rfl, rfl⟩, fun h => (Bool.false_ne_true h).elim⟩
theorem Shape.movi (x : Ops) : Shape.Statement (.movi x) := ⟨by intro o y h; cases h; exact ⟨rfl, rfl⟩, fun h => (Bool.false_ne_true h).elim⟩
theorem Shape.take (x : Ops) : Shape.Statement (.take x) := ⟨by intro o y h; cases h; exact ⟨rfl, rfl⟩, fun h => (Bool.false_ne_true h).elim⟩
theorem Shape.rget (x : Ops) : Shape.Statement (.rget x) := ⟨by intro o y h; cases h; exact ⟨rfl, rfl⟩, fun h => (Bool.false_ne_true h).elim⟩
theorem Shape.rput (x : Ops) : Shape.Statement (.rput x) := ⟨by intro o y h; cases h; exact ⟨rfl, rfl⟩, fun h => (Bool.false_ne_true h).elim⟩
theorem Shape.fadd (x : Ops) : Shape.Statement (.fadd x) := ⟨by intro o y h; cases h; exact ⟨rfl, rfl⟩, fun h => (Bool.false_ne_true h).elim⟩
theorem Shape.fsub (x : Ops) : Shape.Statement (.fsub x) := ⟨by intro o y h; cases h; exact ⟨rfl, rfl⟩, fun h => (Bool.false_ne_true h).elim⟩
theorem Shape.fmul (x : Ops) : Shape.Statement (.fmul x) := ⟨by intro o y h; cases h; exact ⟨rfl, rfl⟩, fun h => (Bool.false_ne_true h).elim⟩
theorem Shape.ffma (x : Ops) : Shape.Statement (.ffma x) := ⟨by intro o y h; cases h; exact ⟨rfl, rfl⟩, fun h => (Bool.false_ne_true h).elim⟩
theorem Shape.fmin (x : Ops) : Shape.Statement (.fmin x) := ⟨by intro o y h; cases h; exact ⟨rfl, rfl⟩, fun h => (Bool.false_ne_true h).elim⟩
theorem Shape.fmax (x : Ops) : Shape.Statement (.fmax x) := ⟨by intro o y h; cases h; exact ⟨rfl, rfl⟩, fun h => (Bool.false_ne_true h).elim⟩
theorem Shape.fsetc (x : Ops) : Shape.Statement (.fsetc x) := ⟨by intro o y h; cases h; exact ⟨rfl, rfl⟩, fun h => (Bool.false_ne_true h).elim⟩
theorem Shape.fclass (x : Ops) : Shape.Statement (.fclass x) := ⟨by intro o y h; cases h; exact ⟨rfl, rfl⟩, fun h => (Bool.false_ne_true h).elim⟩
theorem Shape.frnd (x : Ops) : Shape.Statement (.frnd x) := ⟨by intro o y h; cases h; exact ⟨rfl, rfl⟩, fun h => (Bool.false_ne_true h).elim⟩
theorem Shape.fscale (x : Ops) : Shape.Statement (.fscale x) := ⟨by intro o y h; cases h; exact ⟨rfl, rfl⟩, fun h => (Bool.false_ne_true h).elim⟩
theorem Shape.fdot2 (x : Ops) : Shape.Statement (.fdot2 x) := ⟨by intro o y h; cases h; exact ⟨rfl, rfl⟩, fun h => (Bool.false_ne_true h).elim⟩
theorem Shape.fdot4 (x : Ops) : Shape.Statement (.fdot4 x) := ⟨by intro o y h; cases h; exact ⟨rfl, rfl⟩, fun h => (Bool.false_ne_true h).elim⟩
theorem Shape.cvt (x : Ops) : Shape.Statement (.cvt x) := ⟨by intro o y h; cases h; exact ⟨rfl, rfl⟩, fun h => (Bool.false_ne_true h).elim⟩
theorem Shape.pack (x : Ops) : Shape.Statement (.pack x) := ⟨by intro o y h; cases h; exact ⟨rfl, rfl⟩, fun h => (Bool.false_ne_true h).elim⟩
theorem Shape.unpack (x : Ops) : Shape.Statement (.unpack x) := ⟨by intro o y h; cases h; exact ⟨rfl, rfl⟩, fun h => (Bool.false_ne_true h).elim⟩
theorem Shape.rcp (x : Ops) : Shape.Statement (.rcp x) := ⟨by intro o y h; cases h; exact ⟨rfl, rfl⟩, fun h => (Bool.false_ne_true h).elim⟩
theorem Shape.rsq (x : Ops) : Shape.Statement (.rsq x) := ⟨by intro o y h; cases h; exact ⟨rfl, rfl⟩, fun h => (Bool.false_ne_true h).elim⟩
theorem Shape.sqrt (x : Ops) : Shape.Statement (.sqrt x) := ⟨by intro o y h; cases h; exact ⟨rfl, rfl⟩, fun h => (Bool.false_ne_true h).elim⟩
theorem Shape.ex2 (x : Ops) : Shape.Statement (.ex2 x) := ⟨by intro o y h; cases h; exact ⟨rfl, rfl⟩, fun h => (Bool.false_ne_true h).elim⟩
theorem Shape.lg2 (x : Ops) : Shape.Statement (.lg2 x) := ⟨by intro o y h; cases h; exact ⟨rfl, rfl⟩, fun h => (Bool.false_ne_true h).elim⟩
theorem Shape.sinp (x : Ops) : Shape.Statement (.sinp x) := ⟨by intro o y h; cases h; exact ⟨rfl, rfl⟩, fun h => (Bool.false_ne_true h).elim⟩
theorem Shape.cosp (x : Ops) : Shape.Statement (.cosp x) := ⟨by intro o y h; cases h; exact ⟨rfl, rfl⟩, fun h => (Bool.false_ne_true h).elim⟩
theorem Shape.tanh (x : Ops) : Shape.Statement (.tanh x) := ⟨by intro o y h; cases h; exact ⟨rfl, rfl⟩, fun h => (Bool.false_ne_true h).elim⟩
theorem Shape.rred (x : Ops) : Shape.Statement (.rred x) := ⟨by intro o y h; cases h; exact ⟨rfl, rfl⟩, fun h => (Bool.false_ne_true h).elim⟩
theorem Shape.lxch (x : Ops) : Shape.Statement (.lxch x) := ⟨by intro o y h; cases h; exact ⟨rfl, rfl⟩, fun h => (Bool.false_ne_true h).elim⟩
theorem Shape.poll (x : Ops) : Shape.Statement (.poll x) := ⟨by intro o y h; cases h; exact ⟨rfl, rfl⟩, fun h => (Bool.false_ne_true h).elim⟩
theorem Shape.redux (x : Ops) : Shape.Statement (.redux x) := ⟨by intro o y h; cases h; exact ⟨rfl, rfl⟩, fun h => (Bool.false_ne_true h).elim⟩
theorem Shape.fredux (x : Ops) : Shape.Statement (.fredux x) := ⟨by intro o y h; cases h; exact ⟨rfl, rfl⟩, fun h => (Bool.false_ne_true h).elim⟩
theorem Shape.scan (x : Ops) : Shape.Statement (.scan x) := ⟨by intro o y h; cases h; exact ⟨rfl, rfl⟩, fun h => (Bool.false_ne_true h).elim⟩
theorem Shape.rdsys (x : Ops) : Shape.Statement (.rdsys x) := ⟨by intro o y h; cases h; exact ⟨rfl, rfl⟩, fun h => (Bool.false_ne_true h).elim⟩
theorem Shape.bra (x : Ops) : Shape.Statement (.bra x) := ⟨by intro o y h; cases h; exact ⟨rfl, rfl⟩, fun h => (Bool.false_ne_true h).elim⟩
theorem Shape.brx (x : Ops) : Shape.Statement (.brx x) := ⟨by intro o y h; cases h; exact ⟨rfl, rfl⟩, fun h => (Bool.false_ne_true h).elim⟩
theorem Shape.call (x : Ops) : Shape.Statement (.call x) := ⟨by intro o y h; cases h; exact ⟨rfl, rfl⟩, fun h => (Bool.false_ne_true h).elim⟩
theorem Shape.callx (x : Ops) : Shape.Statement (.callx x) := ⟨by intro o y h; cases h; exact ⟨rfl, rfl⟩, fun h => (Bool.false_ne_true h).elim⟩
theorem Shape.ret (x : Ops) : Shape.Statement (.ret x) := ⟨by intro o y h; cases h; exact ⟨rfl, rfl⟩, fun h => (Bool.false_ne_true h).elim⟩
theorem Shape.exit (x : Ops) : Shape.Statement (.exit x) := ⟨by intro o y h; cases h; exact ⟨rfl, rfl⟩, fun h => (Bool.false_ne_true h).elim⟩
theorem Shape.bmz (x : Ops) : Shape.Statement (.bmz x) := ⟨by intro o y h; cases h; exact ⟨rfl, rfl⟩, fun h => (Bool.false_ne_true h).elim⟩
theorem Shape.bmnz (x : Ops) : Shape.Statement (.bmnz x) := ⟨by intro o y h; cases h; exact ⟨rfl, rfl⟩, fun h => (Bool.false_ne_true h).elim⟩
theorem Shape.maskp (x : Ops) : Shape.Statement (.maskp x) := ⟨by intro o y h; cases h; exact ⟨rfl, rfl⟩, fun h => (Bool.false_ne_true h).elim⟩
theorem Shape.maskr (x : Ops) : Shape.Statement (.maskr x) := ⟨by intro o y h; cases h; exact ⟨rfl, rfl⟩, fun h => (Bool.false_ne_true h).elim⟩
theorem Shape.land (x : Ops) : Shape.Statement (.land x) := ⟨by intro o y h; cases h; exact ⟨rfl, rfl⟩, fun h => (Bool.false_ne_true h).elim⟩
theorem Shape.sig (x : Ops) : Shape.Statement (.sig x) := ⟨by intro o y h; cases h; exact ⟨rfl, rfl⟩, fun h => (Bool.false_ne_true h).elim⟩
theorem Shape.trap (x : Ops) : Shape.Statement (.trap x) := ⟨by intro o y h; cases h; exact ⟨rfl, rfl⟩, fun h => (Bool.false_ne_true h).elim⟩
theorem Shape.nop (x : Ops) : Shape.Statement (.nop x) := ⟨by intro o y h; cases h; exact ⟨rfl, rfl⟩, fun h => (Bool.false_ne_true h).elim⟩
theorem Shape.yield (x : Ops) : Shape.Statement (.yield x) := ⟨by intro o y h; cases h; exact ⟨rfl, rfl⟩, fun h => (Bool.false_ne_true h).elim⟩
theorem Shape.ld (x : Ops) : Shape.Statement (.ld x) := ⟨by intro o y h; cases h; exact ⟨rfl, rfl⟩, fun h => (Bool.false_ne_true h).elim⟩
theorem Shape.st (x : Ops) : Shape.Statement (.st x) := ⟨by intro o y h; cases h; exact ⟨rfl, rfl⟩, fun h => (Bool.false_ne_true h).elim⟩
theorem Shape.stash (x : Ops) : Shape.Statement (.stash x) := ⟨by intro o y h; cases h; exact ⟨rfl, rfl⟩, fun h => (Bool.false_ne_true h).elim⟩
theorem Shape.unstash (x : Ops) : Shape.Statement (.unstash x) := ⟨by intro o y h; cases h; exact ⟨rfl, rfl⟩, fun h => (Bool.false_ne_true h).elim⟩
theorem Shape.flush (x : Ops) : Shape.Statement (.flush x) := ⟨by intro o y h; cases h; exact ⟨rfl, rfl⟩, fun h => (Bool.false_ne_true h).elim⟩
theorem Shape.inval (x : Ops) : Shape.Statement (.inval x) := ⟨by intro o y h; cases h; exact ⟨rfl, rfl⟩, fun h => (Bool.false_ne_true h).elim⟩
theorem Shape.pref (x : Ops) : Shape.Statement (.pref x) := ⟨by intro o y h; cases h; exact ⟨rfl, rfl⟩, fun h => (Bool.false_ne_true h).elim⟩
theorem Shape.cpy (x : Ops) : Shape.Statement (.cpy x) := ⟨by intro o y h; cases h; exact ⟨rfl, rfl⟩, fun h => (Bool.false_ne_true h).elim⟩
theorem Shape.cpyl (x : Ops) : Shape.Statement (.cpyl x) := ⟨by intro o y h; cases h; exact ⟨rfl, rfl⟩, fun h => (Bool.false_ne_true h).elim⟩
theorem Shape.cpys (x : Ops) : Shape.Statement (.cpys x) := ⟨by intro o y h; cases h; exact ⟨rfl, rfl⟩, fun h => (Bool.false_ne_true h).elim⟩
theorem Shape.cpyg (x : Ops) : Shape.Statement (.cpyg x) := ⟨by intro o y h; cases h; exact ⟨rfl, rfl⟩, fun h => (Bool.false_ne_true h).elim⟩
theorem Shape.seal (x : Ops) : Shape.Statement (.seal x) := ⟨by intro o y h; cases h; exact ⟨rfl, rfl⟩, fun h => (Bool.false_ne_true h).elim⟩
theorem Shape.waitb (x : Ops) : Shape.Statement (.waitb x) := ⟨by intro o y h; cases h; exact ⟨rfl, rfl⟩, fun h => (Bool.false_ne_true h).elim⟩
theorem Shape.bbinit (x : Ops) : Shape.Statement (.bbinit x) := ⟨by intro o y h; cases h; exact ⟨rfl, rfl⟩, fun h => (Bool.false_ne_true h).elim⟩
theorem Shape.bbexp (x : Ops) : Shape.Statement (.bbexp x) := ⟨by intro o y h; cases h; exact ⟨rfl, rfl⟩, fun h => (Bool.false_ne_true h).elim⟩
theorem Shape.bbarr (x : Ops) : Shape.Statement (.bbarr x) := ⟨by intro o y h; cases h; exact ⟨rfl, rfl⟩, fun h => (Bool.false_ne_true h).elim⟩
theorem Shape.bbwait (x : Ops) : Shape.Statement (.bbwait x) := ⟨by intro o y h; cases h; exact ⟨rfl, rfl⟩, fun h => (Bool.false_ne_true h).elim⟩
theorem Shape.mloop (x : Ops) : Shape.Statement (.mloop x) := ⟨by intro o y h; cases h; exact ⟨rfl, rfl⟩, fun h => (Bool.false_ne_true h).elim⟩
theorem Shape.mzero (x : Ops) : Shape.Statement (.mzero x) := ⟨by intro o y h; cases h; exact ⟨rfl, rfl⟩, fun h => (Bool.false_ne_true h).elim⟩
theorem Shape.mdrain (x : Ops) : Shape.Statement (.mdrain x) := ⟨by intro o y h; cases h; exact ⟨rfl, rfl⟩, fun h => (Bool.false_ne_true h).elim⟩
theorem Shape.mdrainmx (x : Ops) : Shape.Statement (.mdrainmx x) := ⟨by intro o y h; cases h; exact ⟨rfl, rfl⟩, fun h => (Bool.false_ne_true h).elim⟩
theorem Shape.mstat (x : Ops) : Shape.Statement (.mstat x) := ⟨by intro o y h; cases h; exact ⟨rfl, rfl⟩, fun h => (Bool.false_ne_true h).elim⟩
theorem Shape.ldacq (x : Ops) : Shape.Statement (.ldacq x) := ⟨by intro o y h; cases h; exact ⟨rfl, rfl⟩, fun h => (Bool.false_ne_true h).elim⟩
theorem Shape.strel (x : Ops) : Shape.Statement (.strel x) := ⟨by intro o y h; cases h; exact ⟨rfl, rfl⟩, fun h => (Bool.false_ne_true h).elim⟩
theorem Shape.atom (x : Ops) : Shape.Statement (.atom x) := ⟨by intro o y h; cases h; exact ⟨rfl, rfl⟩, fun h => (Bool.false_ne_true h).elim⟩
theorem Shape.red (x : Ops) : Shape.Statement (.red x) := ⟨by intro o y h; cases h; exact ⟨rfl, rfl⟩, fun h => (Bool.false_ne_true h).elim⟩
theorem Shape.fence (x : Ops) : Shape.Statement (.fence x) := ⟨by intro o y h; cases h; exact ⟨rfl, rfl⟩, fun h => (Bool.false_ne_true h).elim⟩
theorem Shape.bar (x : Ops) : Shape.Statement (.bar x) := ⟨by intro o y h; cases h; exact ⟨rfl, rfl⟩, fun h => (Bool.false_ne_true h).elim⟩
theorem Shape.seamred (x : Ops) : Shape.Statement (.seamred x) := ⟨by intro o y h; cases h; exact ⟨rfl, rfl⟩, fun h => (Bool.false_ne_true h).elim⟩
theorem Shape.seambc (x : Ops) : Shape.Statement (.seambc x) := ⟨by intro o y h; cases h; exact ⟨rfl, rfl⟩, fun h => (Bool.false_ne_true h).elim⟩
theorem Shape.seamsend (x : Ops) : Shape.Statement (.seamsend x) := ⟨by intro o y h; cases h; exact ⟨rfl, rfl⟩, fun h => (Bool.false_ne_true h).elim⟩
theorem Shape.seamrecv (x : Ops) : Shape.Statement (.seamrecv x) := ⟨by intro o y h; cases h; exact ⟨rfl, rfl⟩, fun h => (Bool.false_ne_true h).elim⟩
theorem Shape.ipref (x : Ops) : Shape.Statement (.ipref x) := ⟨by intro o y h; cases h; exact ⟨rfl, rfl⟩, fun h => (Bool.false_ne_true h).elim⟩
theorem Shape.ipin (x : Ops) : Shape.Statement (.ipin x) := ⟨by intro o y h; cases h; exact ⟨rfl, rfl⟩, fun h => (Bool.false_ne_true h).elim⟩
theorem Shape.iunpin (x : Ops) : Shape.Statement (.iunpin x) := ⟨by intro o y h; cases h; exact ⟨rfl, rfl⟩, fun h => (Bool.false_ne_true h).elim⟩
theorem Shape.icinv (x : Ops) : Shape.Statement (.icinv x) := ⟨by intro o y h; cases h; exact ⟨rfl, rfl⟩, fun h => (Bool.false_ne_true h).elim⟩
theorem Shape.spl (x : Ops) : Shape.Statement (.spl x) := ⟨by intro o y h; cases h; exact ⟨rfl, rfl⟩, fun h => (Bool.false_ne_true h).elim⟩
theorem Shape.rfe (x : Ops) : Shape.Statement (.rfe x) := ⟨by intro o y h; cases h; exact ⟨rfl, rfl⟩, fun h => (Bool.false_ne_true h).elim⟩
theorem Shape.mfs (x : Ops) : Shape.Statement (.mfs x) := ⟨by intro o y h; cases h; exact ⟨rfl, rfl⟩, fun h => (Bool.false_ne_true h).elim⟩
theorem Shape.mts (x : Ops) : Shape.Statement (.mts x) := ⟨by intro o y h; cases h; exact ⟨rfl, rfl⟩, fun h => (Bool.false_ne_true h).elim⟩
theorem Shape.tlbinv (x : Ops) : Shape.Statement (.tlbinv x) := ⟨by intro o y h; cases h; exact ⟨rfl, rfl⟩, fun h => (Bool.false_ne_true h).elim⟩
theorem Shape.freeze (x : Ops) : Shape.Statement (.freeze x) := ⟨by intro o y h; cases h; exact ⟨rfl, rfl⟩, fun h => (Bool.false_ne_true h).elim⟩
theorem Shape.thaw (x : Ops) : Shape.Statement (.thaw x) := ⟨by intro o y h; cases h; exact ⟨rfl, rfl⟩, fun h => (Bool.false_ne_true h).elim⟩
theorem Shape.halt (x : Ops) : Shape.Statement (.halt x) := ⟨by intro o y h; cases h; exact ⟨rfl, rfl⟩, fun h => (Bool.false_ne_true h).elim⟩
theorem Shape.ptest (x : Ops) : Shape.Statement (.ptest x) := ⟨by intro o y h; cases h; exact ⟨rfl, rfl⟩, fun h => (Bool.false_ne_true h).elim⟩
theorem Shape.pclr (x : Ops) : Shape.Statement (.pclr x) := ⟨by intro o y h; cases h; exact ⟨rfl, rfl⟩, fun h => (Bool.false_ne_true h).elim⟩
theorem Shape.lanekill (x : Ops) : Shape.Statement (.lanekill x) := ⟨by intro o y h; cases h; exact ⟨rfl, rfl⟩, fun h => (Bool.false_ne_true h).elim⟩
theorem Shape.selftest (x : Ops) : Shape.Statement (.selftest x) := ⟨by intro o y h; cases h; exact ⟨rfl, rfl⟩, fun h => (Bool.false_ne_true h).elim⟩
theorem Shape.unassignedOpcode (fmt : Fmt) (w : BitVec 128) : Shape.Statement (.unassignedOpcode fmt w) := ⟨fun _ _ h => (by cases h), fun h => (Bool.false_ne_true h).elim⟩
theorem Shape.qfetch (rd rs1 : BitVec 5) : Shape.Statement (.qfetch rd rs1) := ⟨fun _ _ h => (by cases h), fun h => (Bool.false_ne_true h).elim⟩
theorem Shape.bfxu (rd rs1 : BitVec 5) (pos len1 : BitVec 6) : Shape.Statement (.bfxu rd rs1 pos len1) := ⟨fun _ _ h => (by cases h), fun h => (Bool.false_ne_true h).elim⟩
theorem Shape.swait (rd rs1 rs2 : BitVec 5) : Shape.Statement (.swait rd rs1 rs2) := ⟨fun _ _ h => (by cases h), fun h => (Bool.false_ne_true h).elim⟩
theorem Shape.dispatch (rd rs1 : BitVec 5) : Shape.Statement (.dispatch rd rs1) := ⟨fun _ _ h => (by cases h), fun h => (Bool.false_ne_true h).elim⟩
theorem Shape.swaitComplete (core : Nat) : Shape.Statement (.swaitComplete core) := ⟨fun _ _ h => (by cases h), fun _ => rfl⟩
theorem Shape.swaitTimeout (core : Nat) : Shape.Statement (.swaitTimeout core) := ⟨fun _ _ h => (by cases h), fun _ => rfl⟩
theorem Shape.encsigWrite (f : CsrOp) (rd src : BitVec 5) : Shape.Statement (.encsigWrite f rd src) := ⟨fun _ _ h => (by cases h), fun h => (Bool.false_ne_true h).elim⟩
theorem Shape.doorbell (q : Nat) (w : BitVec 32) : Shape.Statement (.doorbell q w) := ⟨fun _ _ h => (by cases h), fun _ => rfl⟩
theorem Shape.sqEnable (q : Nat) (w : BitVec 64) : Shape.Statement (.sqEnable q w) := ⟨fun _ _ h => (by cases h), fun _ => rfl⟩
theorem Shape.sqDisable (q : Nat) (w : BitVec 64) : Shape.Statement (.sqDisable q w) := ⟨fun _ _ h => (by cases h), fun _ => rfl⟩
theorem Shape.cancel (q : Nat) : Shape.Statement (.cancel q) := ⟨fun _ _ h => (by cases h), fun _ => rfl⟩
theorem Shape.registerWrite (off : Nat) (w : BitVec 64) : Shape.Statement (.registerWrite off w) := ⟨fun _ _ h => (by cases h), fun _ => rfl⟩
theorem Shape.placementCycle : Shape.Statement (.placementCycle) := ⟨fun _ _ h => (by cases h), fun _ => rfl⟩
theorem Shape.teamArrival (team : Nat) : Shape.Statement (.teamArrival team) := ⟨fun _ _ h => (by cases h), fun _ => rfl⟩
theorem Shape.unitStart : Shape.Statement (.unitStart) := ⟨fun _ _ h => (by cases h), fun _ => rfl⟩
theorem Shape.teamStart (team : Nat) : Shape.Statement (.teamStart team) := ⟨fun _ _ h => (by cases h), fun _ => rfl⟩
theorem Shape.coreStateChange (d c : Nat) (st : BitVec 2) : Shape.Statement (.coreStateChange d c st) := ⟨fun _ _ h => (by cases h), fun _ => rfl⟩
theorem Shape.readyBitSet (f : ReadyFn) : Shape.Statement (.readyBitSet f) := ⟨fun _ _ h => (by cases h), fun _ => rfl⟩
theorem Shape.preemptTeam (team : Nat) : Shape.Statement (.preemptTeam team) := ⟨fun _ _ h => (by cases h), fun _ => rfl⟩
theorem Shape.preemptionEnd (team : Nat) : Shape.Statement (.preemptionEnd team) := ⟨fun _ _ h => (by cases h), fun _ => rfl⟩
theorem Shape.restoreTeam (team : Nat) (core : Nat) : Shape.Statement (.restoreTeam team core) := ⟨fun _ _ h => (by cases h), fun _ => rfl⟩
theorem Shape.issueChoice (d c sl : Nat) : Shape.Statement (.issueChoice d c sl) := ⟨fun _ _ h => (by cases h), fun _ => rfl⟩
theorem Shape.clockRatioChange (d c sl : Nat) : Shape.Statement (.clockRatioChange d c sl) := ⟨fun _ _ h => (by cases h), fun _ => rfl⟩
theorem Shape.rcapWrite (ctx : Nat) (v : BitVec 8) : Shape.Statement (.rcapWrite ctx v) := ⟨fun _ _ h => (by cases h), fun _ => rfl⟩
theorem Shape.walkComplete (walk : Nat) : Shape.Statement (.walkComplete walk) := ⟨fun _ _ h => (by cases h), fun _ => rfl⟩
theorem Shape.classificationService : Shape.Statement (.classificationService) := ⟨fun _ _ h => (by cases h), fun _ => rfl⟩
theorem Shape.fqdoneWrite (ctx : Nat) (w : BitVec 32) : Shape.Statement (.fqdoneWrite ctx w) := ⟨fun _ _ h => (by cases h), fun _ => rfl⟩
theorem Shape.faultQueueEnable (ctx : Nat) (w : BitVec 64) : Shape.Statement (.faultQueueEnable ctx w) := ⟨fun _ _ h => (by cases h), fun _ => rfl⟩
theorem Shape.rootEntryWrite (ctx : Nat) (hi : Bool) (w : BitVec 64) : Shape.Statement (.rootEntryWrite ctx hi w) := ⟨fun _ _ h => (by cases h), fun _ => rfl⟩
theorem Shape.ctxTranslationDisable (ctx : Nat) (w : BitVec 64) : Shape.Statement (.ctxTranslationDisable ctx w) := ⟨fun _ _ h => (by cases h), fun _ => rfl⟩
theorem Shape.invalidationStart (w : BitVec 32) : Shape.Statement (.invalidationStart w) := ⟨fun _ _ h => (by cases h), fun _ => rfl⟩
theorem Shape.invalidationComplete (id : Nat) : Shape.Statement (.invalidationComplete id) := ⟨fun _ _ h => (by cases h), fun _ => rfl⟩
theorem Shape.partitionMaskWrite (p : Nat) (m : BitVec 64) : Shape.Statement (.partitionMaskWrite p m) := ⟨fun _ _ h => (by cases h), fun _ => rfl⟩
theorem Shape.contextTableWrite (ctx : Nat) (b : BitVec 8) : Shape.Statement (.contextTableWrite ctx b) := ⟨fun _ _ h => (by cases h), fun _ => rfl⟩
theorem Shape.claimCompletion (req : Nat) : Shape.Statement (.claimCompletion req) := ⟨fun _ _ h => (by cases h), fun _ => rfl⟩
theorem Shape.loadAtHome (req : Nat) (line : Nat) : Shape.Statement (.loadAtHome req line) := ⟨fun _ _ h => (by cases h), fun _ => rfl⟩
theorem Shape.storeAtHome (req : Nat) (line : Nat) : Shape.Statement (.storeAtHome req line) := ⟨fun _ _ h => (by cases h), fun _ => rfl⟩
theorem Shape.probe (id : Nat) : Shape.Statement (.probe id) := ⟨fun _ _ h => (by cases h), fun _ => rfl⟩
theorem Shape.probeAck (id : Nat) : Shape.Statement (.probeAck id) := ⟨fun _ _ h => (by cases h), fun _ => rfl⟩
theorem Shape.probeFilterAnswer (id : Nat) : Shape.Statement (.probeFilterAnswer id) := ⟨fun _ _ h => (by cases h), fun _ => rfl⟩
theorem Shape.remoteWriterRegistration (d line : Nat) : Shape.Statement (.remoteWriterRegistration d line) := ⟨fun _ _ h => (by cases h), fun _ => rfl⟩
theorem Shape.cflushExpiry (d line : Nat) : Shape.Statement (.cflushExpiry d line) := ⟨fun _ _ h => (by cases h), fun _ => rfl⟩
theorem Shape.storeCompletionReturn (req : Nat) (line : Nat) : Shape.Statement (.storeCompletionReturn req line) := ⟨fun _ _ h => (by cases h), fun _ => rfl⟩
theorem Shape.hostMemRead (pa len : Nat) : Shape.Statement (.hostMemRead pa len) := ⟨fun _ _ h => (by cases h), fun _ => rfl⟩
theorem Shape.hostMemWrite (pa : Nat) (bytes : List Byte) : Shape.Statement (.hostMemWrite pa bytes) := ⟨fun _ _ h => (by cases h), fun _ => rfl⟩
theorem Shape.hostSnoop (line : Nat) : Shape.Statement (.hostSnoop line) := ⟨fun _ _ h => (by cases h), fun _ => rfl⟩
theorem Shape.stashFillComplete (req : Nat) : Shape.Statement (.stashFillComplete req) := ⟨fun _ _ h => (by cases h), fun _ => rfl⟩
theorem Shape.copyUnitDone (copy : Nat) : Shape.Statement (.copyUnitDone copy) := ⟨fun _ _ h => (by cases h), fun _ => rfl⟩
theorem Shape.copyResume (copy : Nat) : Shape.Statement (.copyResume copy) := ⟨fun _ _ h => (by cases h), fun _ => rfl⟩
theorem Shape.batchComplete (g : Nat) (cls : Nat) : Shape.Statement (.batchComplete g cls) := ⟨fun _ _ h => (by cases h), fun _ => rfl⟩
theorem Shape.kstep (op : Nat) : Shape.Statement (.kstep op) := ⟨fun _ _ h => (by cases h), fun _ => rfl⟩
theorem Shape.tileDrain (op : Nat) : Shape.Statement (.tileDrain op) := ⟨fun _ _ h => (by cases h), fun _ => rfl⟩
theorem Shape.seamMessageArrival (msg : Nat) : Shape.Statement (.seamMessageArrival msg) := ⟨fun _ _ h => (by cases h), fun _ => rfl⟩
theorem Shape.seamOperationMatch (op : Nat) : Shape.Statement (.seamOperationMatch op) := ⟨fun _ _ h => (by cases h), fun _ => rfl⟩
theorem Shape.groupRetire (g : Nat) : Shape.Statement (.groupRetire g) := ⟨fun _ _ h => (by cases h), fun _ => rfl⟩
theorem Shape.teamRetire (team : Nat) : Shape.Statement (.teamRetire team) := ⟨fun _ _ h => (by cases h), fun _ => rfl⟩
theorem Shape.launchRetire (l : Nat) : Shape.Statement (.launchRetire l) := ⟨fun _ _ h => (by cases h), fun _ => rfl⟩
theorem Shape.quireRetire (l : Nat) : Shape.Statement (.quireRetire l) := ⟨fun _ _ h => (by cases h), fun _ => rfl⟩
theorem Shape.notifyEntryWrite : Shape.Statement (.notifyEntryWrite) := ⟨fun _ _ h => (by cases h), fun _ => rfl⟩
theorem Shape.msixMessage : Shape.Statement (.msixMessage) := ⟨fun _ _ h => (by cases h), fun _ => rfl⟩
theorem Shape.coalIntervalExpiry : Shape.Statement (.coalIntervalExpiry) := ⟨fun _ _ h => (by cases h), fun _ => rfl⟩
theorem Shape.notifyRingEnable (w : BitVec 64) : Shape.Statement (.notifyRingEnable w) := ⟨fun _ _ h => (by cases h), fun _ => rfl⟩
theorem Shape.notifyRingDisable (w : BitVec 64) : Shape.Statement (.notifyRingDisable w) := ⟨fun _ _ h => (by cases h), fun _ => rfl⟩
theorem Shape.nrheadWrite (w : BitVec 32) : Shape.Statement (.nrheadWrite w) := ⟨fun _ _ h => (by cases h), fun _ => rfl⟩
theorem Shape.heartbeat (x : Ear) : Shape.Statement (.heartbeat x) := ⟨fun _ _ h => (by cases h), fun _ => rfl⟩
theorem Shape.heartbeatTimeout (x : Ear) : Shape.Statement (.heartbeatTimeout x) := ⟨fun _ _ h => (by cases h), fun _ => rfl⟩
theorem Shape.domainFence (n : Node) : Shape.Statement (.domainFence n) := ⟨fun _ _ h => (by cases h), fun _ => rfl⟩
theorem Shape.fencedReplyDiscard (req : Nat) : Shape.Statement (.fencedReplyDiscard req) := ⟨fun _ _ h => (by cases h), fun _ => rfl⟩
theorem Shape.linkFailure (d side : Nat) : Shape.Statement (.linkFailure d side) := ⟨fun _ _ h => (by cases h), fun _ => rfl⟩
theorem Shape.peerFenceClear (p : Nat) : Shape.Statement (.peerFenceClear p) := ⟨fun _ _ h => (by cases h), fun _ => rfl⟩
theorem Shape.laneDeath (g lane : Nat) : Shape.Statement (.laneDeath g lane) := ⟨fun _ _ h => (by cases h), fun _ => rfl⟩
theorem Shape.firmwareSelftest (u : TestUnit) (lasting : Bool) : Shape.Statement (.firmwareSelftest u lasting) := ⟨fun _ _ h => (by cases h), fun _ => rfl⟩
theorem Shape.dramBurstTransfer (d : Nat) (ofs : Nat) (f : BurstFault) : Shape.Statement (.dramBurstTransfer d ofs f) := ⟨fun _ _ h => (by cases h), fun _ => rfl⟩
theorem Shape.checkpointSave : Shape.Statement (.checkpointSave) := ⟨fun _ _ h => (by cases h), fun _ => rfl⟩
theorem Shape.checkpointRestore : Shape.Statement (.checkpointRestore) := ⟨fun _ _ h => (by cases h), fun _ => rfl⟩
theorem Shape.checkpointEnd (portFailed : Bool) : Shape.Statement (.checkpointEnd portFailed) := ⟨fun _ _ h => (by cases h), fun _ => rfl⟩
theorem Shape.powerStep (d : Nat) (pwr : BitVec 16) (tj : BitVec 8) : Shape.Statement (.powerStep d pwr tj) := ⟨fun _ _ h => (by cases h), fun _ => rfl⟩
theorem Shape.coolantLimit : Shape.Statement (.coolantLimit) := ⟨fun _ _ h => (by cases h), fun _ => rfl⟩
theorem Shape.thermalFence (d : Nat) : Shape.Statement (.thermalFence d) := ⟨fun _ _ h => (by cases h), fun _ => rfl⟩
theorem Shape.bootImageLoad (img : List Byte) : Shape.Statement (.bootImageLoad img) := ⟨fun _ _ h => (by cases h), fun _ => rfl⟩
theorem Shape.imageCommit (kind : BitVec 8) : Shape.Statement (.imageCommit kind) := ⟨fun _ _ h => (by cases h), fun _ => rfl⟩
theorem Shape.ownerEnrol (key : BitVec 768) : Shape.Statement (.ownerEnrol key) := ⟨fun _ _ h => (by cases h), fun _ => rfl⟩
theorem Shape.ownershipTransfer (sig : BitVec 768) : Shape.Statement (.ownershipTransfer sig) := ⟨fun _ _ h => (by cases h), fun _ => rfl⟩
theorem Shape.attestSign (nonce : BitVec 384) : Shape.Statement (.attestSign nonce) := ⟨fun _ _ h => (by cases h), fun _ => rfl⟩
theorem Shape.moduleReset : Shape.Statement (.moduleReset) := ⟨fun _ _ h => (by cases h), fun _ => rfl⟩
theorem Shape.completionTimeReached (g e : Nat) : Shape.Statement (.completionTimeReached g e) := ⟨fun _ _ h => (by cases h), fun _ => rfl⟩
theorem Shape.registrationAcknowledged (d line : Nat) : Shape.Statement (.registrationAcknowledged d line) := ⟨fun _ _ h => (by cases h), fun _ => rfl⟩
theorem Shape.coolantWithinLimits : Shape.Statement (.coolantWithinLimits) := ⟨fun _ _ h => (by cases h), fun _ => rfl⟩
theorem Shape.scrub (d : Nat) (ofs : Nat) (bit : BitVec 9) : Shape.Statement (.scrub d ofs bit) := ⟨fun _ _ h => (by cases h), fun _ => rfl⟩
theorem Shape.selftestComplete (g e : Nat) (found lasting : Lanes) : Shape.Statement (.selftestComplete g e found lasting) := ⟨fun _ _ h => (by cases h), fun _ => rfl⟩

end Sys2Proof.Laws
end

