-- ==== Sys2Proof/Laws/Quiet.lean ====
section
/-! SUPPORT. The end of a step leaves the machine between steps: no split waits for what has come about, no gate whose phase is
over stays shut. -/

namespace Sys2Proof.Machine

/-- Waking an entry leaves the others; it is ready. -/
theorem Group.sp_wake (G : Group) (e f : Nat) : (f ≠ e → (G.wake e).sp f = G.sp f) ∧ ((G.wake e).sp e).st = .ready := by
  unfold Group.wake
  have hq : ∀ (K : Group) (l : List Nat) (f : Nat), Group.sp { K with rq := l } f = K.sp f := fun _ _ _ => rfl
  exact ⟨fun h => by rw [hq, Group.sp_modSp, if_neg h], by rw [hq, Group.sp_modSp, if_pos rfl]⟩

/-- Entries that are woken are ready; the others are as before. -/
theorem Group.sp_wakes (es : List Nat) (G : Group) (f : Nat) :
    (f ∈ es → ((es.foldl Group.wake G).sp f).st = .ready) ∧ (f ∉ es → (es.foldl Group.wake G).sp f = G.sp f) := by
  induction es generalizing G with
  | nil => exact ⟨fun h => absurd h (List.not_mem_nil), fun _ => rfl⟩
  | cons e es ih =>
    obtain ⟨h1, h2⟩ := ih (G.wake e)
    refine ⟨fun hf => ?_, fun hf => ?_⟩
    · by_cases hm : f ∈ es
      · exact h1 hm
      · have hfe : f = e := by simpa [hm] using hf
        rw [List.foldl_cons, h2 hm, hfe]; exact (G.sp_wake e e).2
    · have h : f ≠ e ∧ f ∉ es := by simpa using hf
      rw [List.foldl_cons, h2 h.2, (G.sp_wake e f).1 h.1]

/-- The valid entries do not depend on waiting. -/
theorem Group.same.valid {G H : Group} (h : G.same H) : H.valid = G.valid := by
  unfold Group.valid
  congr 1; funext e
  rw [(h.splits e).1]

/-- Waking leaves the chains. -/
theorem Group.chain_wakes (es : List Nat) (G : Group) (f : Nat) : ((es.foldl Group.wake G).sp f).chain = (G.sp f).chain := by
  induction es generalizing G with
  | nil => rfl
  | cons e es ih =>
    rw [List.foldl_cons, ih]
    by_cases h : f = e
    · subst h
      have hq : ∀ (K : Group) (l : List Nat) (f : Nat), Group.sp { K with rq := l } f = K.sp f := fun _ _ _ => rfl
      unfold Group.wake
      rw [hq, Group.sp_modSp, if_pos rfl]
    · rw [(G.sp_wake e f).1 h]

/-- A split without its chain. -/
theorem Group.sp_unchain (G : Group) (e : Nat) : G.unchain.sp e = { G.sp e with chain := 0 } := by
  simp only [Group.sp, Group.unchain, List.getD_eq_getElem?_getD, List.getElem?_map]
  cases G.splits[e]? <;> rfl

/-- What settling leaves of an entry: it is ready where it was wakable, else as before but for its chain. -/
theorem State.sp_settleGroup (s : State) (g : Nat) (G : Group) (e : Nat) (he : e < 4) :
    (s.wakable g G e = true → ((s.settleGroup g G).sp e).st = .ready) ∧
    (s.wakable g G e = false → ∃ n, (s.settleGroup g G).sp e = { G.sp e with chain := n }) := by
  obtain ⟨h1, h2⟩ := Group.sp_wakes (G.byWait.filter (s.wakable g G)) G e
  have hm : s.wakable g G e = true → e ∈ G.byWait.filter (s.wakable g G) := by
    intro h
    rw [List.mem_filter]
    refine ⟨?_, h⟩
    unfold Group.byWait
    rw [mem_sortBy]
    have : e = 0 ∨ e = 1 ∨ e = 2 ∨ e = 3 := by omega
    rcases this with h | h | h | h <;> simp [h]
  have hn : s.wakable g G e = false → e ∉ G.byWait.filter (s.wakable g G) := fun h => by simp [List.mem_filter, h]
  unfold State.settleGroup
  dsimp only
  split
  · rw [Group.sp_unchain]
    exact ⟨fun h => h1 (hm h), fun h => ⟨0, by rw [h2 (hn h)]⟩⟩
  · exact ⟨fun h => h1 (hm h), fun h => ⟨(G.sp e).chain, h2 (hn h)⟩⟩

/-- Settling leaves whether an entry's chain goes on, unless the group has stopped outside its chain. -/
theorem State.chain_settleGroup (s : State) (g : Nat) (G : Group) (e : Nat) :
    ((s.settleGroup g G).sp e).chain = if G.frozen && !s.inChain g then 0 else (G.sp e).chain := by
  unfold State.settleGroup
  dsimp only
  split
  · rw [Group.sp_unchain]
  · exact Group.chain_wakes _ _ _

/-- Whether a group stands in its slice's chain is as before at the end of a step. -/
theorem State.inChain_finish (s : State) (g : Nat) : s.finish.inChain g = s.inChain g := by
  have key : ∀ G, s.grp g = some G → s.finish.inChain g = s.inChain g := by
    intro G hg
    have hs := s.same_settleGroup g G
    have hv : ∀ e, ((s.settleGroup g G).sp e).v = (G.sp e).v := fun e => by rw [(hs.splits e).1]
    have ht : (s.settleGroup g G).team = G.team := by rw [hs.rest]
    have hsl : (s.settleGroup g G).slice = G.slice := by rw [hs.rest]
    cases hc : s.inChain g with
    | true =>
      rw [← hc]; unfold State.inChain
      rw [State.grp_finish, hg]
      simp only [Option.map_some, ht, hsl, State.finish_tm, State.finish_sliceAt, hv, s.chain_settleGroup, hc,
        Bool.not_true, Bool.and_false, Bool.false_eq_true, if_false]
    | false =>
      have hc' := hc
      unfold State.inChain at hc'
      rw [hg] at hc'
      unfold State.inChain
      rw [State.grp_finish, hg]
      simp only [Option.map_some, ht, hsl, State.finish_tm, State.finish_sliceAt, hv, s.chain_settleGroup, hc,
        Bool.not_false, Bool.and_true] at hc' ⊢
      cases htm : s.tm G.team with
      | none => rfl
      | some T =>
        rw [htm] at hc'
        simp only at hc' ⊢
        cases hch : (s.sliceAt (sliceKey T.coreKey G.slice)).chain with
        | none => rfl
        | some p =>
          rw [hch] at hc'
          cases hf : G.frozen with
          | true => simp
          | false => simpa using hc'
  cases hg : s.grp g with
  | none => unfold State.inChain; rw [State.grp_finish, hg]; rfl
  | some G => exact key G hg

/-- A split that waits in a fence is not wakable. -/
theorem State.wakable_inFence (s : State) (g : Nat) (G : Group) (e : Nat) {store : Bool}
    (h : (G.sp e).inFence store = true) : s.wakable g G e = false := by
  unfold Split.inFence at h
  unfold State.wakable
  cases hst : (G.sp e).st <;> simp [hst] at h ⊢
  intro _
  cases hw : (G.sp e).wait <;> simp [hw, State.waitOver] at h ⊢
  split <;> rfl

/-- Settling ends no fence. -/
theorem State.inFence_settleGroup (s : State) (g : Nat) (G : Group) (store : Bool) :
    (s.settleGroup g G).inFence store = G.inFence store := by
  have hall : ∀ e < 4, ((s.settleGroup g G).sp e).inFence store = (G.sp e).inFence store := by
    intro e he
    obtain ⟨h1, h2⟩ := s.sp_settleGroup g G e he
    cases hw : s.wakable g G e
    · obtain ⟨n, hn⟩ := h2 hw; rw [hn]; rfl
    · have h := h1 hw
      cases hf : (G.sp e).inFence store
      · simp [Split.inFence, h]
      · rw [s.wakable_inFence g G e hf] at hw; cases hw
  have hlt : ∀ e ∈ G.valid, e < 4 := fun e he => by simpa using (List.mem_filter.1 he).1
  unfold Group.inFence
  rw [(s.same_settleGroup g G).valid, Bool.eq_iff_iff, List.any_eq_true, List.any_eq_true]
  constructor
  · rintro ⟨e, he, h⟩; exact ⟨e, he, by rw [← hall e (hlt e he)]; exact h⟩
  · rintro ⟨e, he, h⟩; exact ⟨e, he, by rw [hall e (hlt e he)]; exact h⟩

/-- The handler banks in use do not depend on what splits wait for. -/
theorem State.banksUsed_finish (s : State) (k sl : Nat) : s.finish.banksUsed k sl = s.banksUsed k sl := by
  show ((s.exe.groups.map (fun p => (p.1, s.settleGroup p.1 p.2))).filter _).length = (s.exe.groups.filter _).length
  rw [List.filter_map, List.length_map]
  congr 2; funext p
  have hp := s.same_settleGroup p.1 p.2
  simp only [Function.comp]
  rw [hp.rest]
  rfl

/-- The operations of a Platen that the end of a step leaves. -/
theorem State.pops_finish (s : State) :
    s.finish.eng.pops = s.eng.pops.map (fun p => (p.1, s.settle.openGate p.1 p.2)) := rfl

/-- Releasing a gate leaves the place of an operation. -/
theorem POp.opens.place {p q : POp} (h : p.opens q) : q.core = p.core ∧ q.team = p.team ∧ q.tile = p.tile := by
  rcases h with rfl | ⟨m, b, _, _, rfl⟩ <;> exact ⟨rfl, rfl, rfl⟩

/-- What a wait needs does not depend on what splits wait for. -/
theorem State.waitOver_finish (s : State) (g : Nat) (G : Group) (T : Team) (w : Wait) :
    s.finish.waitOver (s.settleGroup g G) T w = s.waitOver G T w := by
  have hs := s.same_settleGroup g G
  cases w with
  | freeze gs =>
    unfold State.waitOver
    simp only
    congr 1; funext h
    rw [State.inChain_finish]
  | bank t =>
    unfold State.waitOver
    simp only [State.banksUsed_finish]
    rw [hs.rest]
  | platenSlot =>
    unfold State.waitOver
    simp only [State.pops_finish, List.filter_map, List.length_map]
    congr 4; funext p
    exact congrArg (· == T.coreKey) (s.settle.openGate_opens p.1 p.2).place.1
  | tileOps ids =>
    unfold State.waitOver
    simp only
    congr 1; funext i
    unfold Map.has
    rw [(s.finish_pops i).1]
  | walkRoom => rfl
  | copySlot => rfl
  | seamSlot => rfl
  | _ => unfold State.waitOver; rw [hs.rest]; try rfl

/-- After settling, no entry of a group is wakable. -/
theorem State.finish_settled (s : State) : s.finish.settled := by
  intro g H hm e he
  obtain ⟨⟨g', G⟩, hG, hp⟩ := List.mem_map.1 (show (g, H) ∈ s.exe.groups.map (fun p => (p.1, s.settleGroup p.1 p.2)) from hm)
  obtain ⟨rfl, rfl⟩ := Prod.mk.inj hp
  obtain ⟨h1, h2⟩ := s.sp_settleGroup g' G e he
  cases hw : s.wakable g' G e
  · rw [← hw]
    unfold State.wakable
    obtain ⟨n, hn⟩ := h2 hw
    rw [hn]
    simp only [State.waitOver_finish, State.inFence_settleGroup, (s.same_settleGroup g' G).valid]
    rw [(s.same_settleGroup g' G).rest]
    rfl
  · unfold State.wakable
    simp [h1 hw]

/-- After a step, every gate whose phase has completed is released. -/
theorem State.finish_gatesOpen (s : State) : s.finish.gatesOpen := by
  intro i q hm
  obtain ⟨⟨i', p⟩, hG, hp⟩ := List.mem_map.1 (show (i, q) ∈ s.eng.pops.map (fun p => (p.1, s.settle.openGate p.1 p.2)) from hm)
  obtain ⟨rfl, rfl⟩ := Prod.mk.inj hp
  have hf : ∀ i r, s.finish.firstOfTile i r = s.firstOfTile i r := by
    intro i r
    unfold State.firstOfTile
    rw [State.pops_finish, List.all_map]
    congr 1; funext x
    have := (s.settle.openGate_opens x.1 x.2).place
    simp only [Function.comp, this.2.1, this.2.2]
  have hs : ∀ i r, s.settle.firstOfTile i r = s.firstOfTile i r := fun _ _ => rfl
  unfold State.openGate
  cases hk : p.kind
  case mloop m =>
    simp only [hf, hs]
    have ht' : s.finish.tm p.team = s.settle.tm p.team := rfl
    cases hg : m.gate <;> cases ho : m.opened <;> cases ht : s.settle.tm p.team <;> simp only [hk, hg, ho]
    · rw [ht', ht]
    · rename_i v T
      by_cases hc : ((T.bb v.1).ph != v.2 && s.firstOfTile i' p) = true
      · rw [if_pos hc]
      · rw [if_neg hc, hk]
        simp only [hg, ho, ht', ht]
        rw [if_neg hc]
  all_goals simp only [hk]

/-- The state at the end of a step stands between steps. -/
theorem State.finish_quiet (s : State) : s.finish.quiet :=
  ⟨(fun _ _ h => by cases h), rfl, s.finish_settled, s.finish_gatesOpen⟩

end Sys2Proof.Machine
end

