-- ==== Sys2Proof/Laws/Result.lean ====
section
/-! SUPPORT. The law of instructions with a lane result: where nothing stops one, it leaves what `Ctx.laneDone` says. -/

namespace Sys2Proof.Machine

/-- An instruction leaves its lanes' sameness alone: the claims about a group carry over to one that differs in what its
splits wait for. -/
theorem Ctx.laneGroup_same {c : Ctx} {wide push : Bool} {v : Nat → LW2} {fl : Nat → Fl} {H K : Group}
    (h : c.laneGroup wide push v fl H) (k : H.same K) : c.laneGroup wide push v fl K := by
  have hr : K.regs = H.regs := by rw [k.rest]
  have hh : K.hregs = H.hregs := by rw [k.rest]
  have hb : K.bank = H.bank := by rw [k.rest]
  have hs := k.splits c.e
  have hm : (K.sp c.e).mask = (H.sp c.e).mask := by rw [hs.1]
  have hp : (K.sp c.e).parMask = (H.sp c.e).parMask := by rw [hs.1]
  have hl : (K.sp c.e).latch = (H.sp c.e).latch := by rw [hs.1]
  constructor
  case regs => intro r j h4 h5 h6; rw [Group.reg_congr H K hr hh hb r j h4]; exact h.regs r j h4 h5 h6
  case pend =>
    intro r hr
    rw [← h.pend r hr]
    unfold Group.pendOf Group.inBank; rw [k.rest]
  case mask => intro i hi; rw [hm]; exact h.mask i hi
  case split => rw [hm, hp, hl]; exact Split.same_trans h.split hs
  case latch =>
    intro h1 k' j h2 h3
    have : (K.sp c.e).latchAt k' j = (H.sp c.e).latchAt k' j := by unfold Split.latchAt; rw [hl]
    rw [this]; exact h.latch h1 k' j h2 h3
  case others => intro e he; exact Split.same_trans (h.others e he) (k.splits e)
  case flags => intro b; rw [k.rest]; exact h.flags b
  case rest => rw [k.rest, h.rest]

/-- The group after its instruction has gone on behind itself, field by field. -/
theorem Ctx.doneGroup_eq (c : Ctx) (G : Group) :
    c.doneGroup G = { G with splits := (c.doneGroup G).splits, rq := (c.doneGroup G).rq, issued := true, seq := G.seq + 1 } ∧
    (∀ e, e ≠ c.e → (c.doneGroup G).sp e = G.sp e) ∧
    (c.doneGroup G).sp c.e = { G.sp c.e with
      pc := c.sp.pc + BitVec.ofNat 64 c.len
      sig := if opUncounted c.o || isNever c.x then (G.sp c.e).sig
        else sigNext (G.sp c.e).sig c.o.code (c.sp.maskBad c.G.dead)
      chain := if c.x.live then c.sp.chain + 1 else 0
      xlat := [], relDone := false, arrived := 0, msg := none, exempt := false, inst := none, joined := none } := by
  unfold Ctx.doneGroup
  have hq : ∀ G : Group, (c.queueGroup G).splits = G.splits := by intro G; unfold Ctx.queueGroup; split <;> rfl
  have hqs : ∀ (G : Group) e, (c.queueGroup G).sp e = G.sp e := by intro G e; unfold Group.sp; rw [hq]
  refine ⟨?_, fun e he => ?_, ?_⟩
  · have hqe : ∀ G : Group, c.queueGroup G = { G with rq := (c.queueGroup G).rq } := by
      intro G; unfold Ctx.queueGroup; by_cases h : (G.sp c.e).v = true
      · rw [if_pos h]
      · rw [if_neg h]
    rw [hqe]; rfl
  · rw [Group.sp_modSp, if_neg (by simp [he]), hqs]
    have : (c.issueGroup G).sp e = (G.modSp c.e c.issueSplit).sp e := rfl
    rw [this, Group.sp_modSp, if_neg (by simp [he])]
  · rw [Group.sp_modSp, if_pos rfl, hqs]
    have : (c.issueGroup G).sp c.e = (G.modSp c.e c.issueSplit).sp c.e := rfl
    rw [this, Group.sp_modSp, if_pos rfl]
    rfl

/-- D is written in the registers and the masks alone. -/
theorem Ctx.writeD_eq (c : Ctx) (wide : Bool) (v : Nat → LW2) (hsp : c.sp = c.G.sp c.e)
    (hact : ∀ j, c.act.has j = true → c.G.dead.has j = false) :
    let W := c.writeD c.G wide (c.ex.list.map (fun j => (j, v j)))
    (∀ r j, 4 ≤ r → r < 256 → j < 96 →
      W.reg r j = if c.ex.has j then (c.writes wide (v j) r).getD (c.G.reg r j) else c.G.reg r j) ∧
    (∀ r, r < 256 → W.pendOf r = if c.ex ≠ 0 ∧ (c.writes wide {} r).isSome then none else c.G.pendOf r) ∧
    (∀ i, i < 96 → (W.sp c.e).mask.has i =
      match c.act.lowest with
      | some j =>
        if c.toMask && i / 32 + 1 == c.x.d.toNat then (lwLo (v j)).getLsbD (i % 32) && c.sp.memb.has i && !c.G.dead.has i
        else c.sp.mask.has i
      | none => c.sp.mask.has i) ∧
    W.sp c.e = { c.sp with mask := (W.sp c.e).mask, parMask := (W.sp c.e).parMask } ∧
    (∀ e, e ≠ c.e → W.sp e = c.G.sp e) ∧
    W = { c.G with splits := W.splits, regs := W.regs, hregs := W.hregs, pend := W.pend, hpend := W.hpend
                   claims := W.claims } := by
  intro W
  by_cases h0 : c.x.w = true ∨ c.x.d.toNat = 0
  · have hW : W = c.G := by
      change c.writeD _ _ _ = _
      unfold Ctx.writeD; dsimp only
      rw [if_pos (by rcases h0 with h | h <;> simp [h])]
    have hw : ∀ w r, c.writes wide w r = none := by
      intro w r; unfold Ctx.writes; rw [if_pos (by rcases h0 with h | h <;> simp [h])]
    have ht : c.toMask = false := by unfold Ctx.toMask; rcases h0 with h | h <;> simp [h]
    rw [hW]
    refine ⟨fun r j _ _ _ => ?_, fun r _ => ?_, fun i _ => ?_, ?_, fun _ _ => rfl, rfl⟩
    · rw [hw]; simp
    · rw [hw]; simp
    · rw [ht, ← hsp]; cases c.act.lowest <;> simp
    · rw [← hsp]
  · have hw : c.x.w = false := by cases h : c.x.w <;> simp [h] at h0 ⊢
    have hd : c.x.d.toNat ≠ 0 := fun h => h0 (.inr h)
    by_cases h3 : c.x.d.toNat ≤ 3
    · have hwr : ∀ w r, c.writes wide w r = none := by
        intro w r; unfold Ctx.writes; rw [if_pos (by simp; omega)]
      have ht : c.toMask = true := by unfold Ctx.toMask; rw [hw]; simp; omega
      cases hlow : c.act.lowest with
      | none =>
        have hW : W = c.G := by
          change c.writeD _ _ _ = _
          unfold Ctx.writeD; dsimp only
          rw [if_neg (by rw [hw]; simp [hd]), if_pos h3, hlow]
        rw [hW]
        refine ⟨fun r j _ _ _ => ?_, fun r _ => ?_, fun i _ => ?_, ?_, fun _ _ => rfl, rfl⟩
        · rw [hwr]; simp
        · rw [hwr]; simp
        · rw [← hsp]
        · rw [← hsp]
      | some j =>
        have hj : j ∈ c.ex.list := by
          rw [Lanes.mem_list]; exact c.ex_of_act hact j (Lanes.has_lowest hlow)
        have hf : (c.ex.list.map (fun j => (j, v j))).find? (fun p => p.1 == j) = some (j, v j) := by
          have : ∀ L : List Nat, j ∈ L → (L.map (fun j => (j, v j))).find? (fun p => p.1 == j) = some (j, v j) := by
            intro L
            induction L with
            | nil => simp
            | cons i L ih =>
              intro hi
              by_cases hij : i = j
              · subst hij; simp
              · have : j ∈ L := by
                  rcases List.mem_cons.1 hi with h | h
                  · exact absurd h.symm hij
                  · exact h
                rw [List.map_cons, List.find?_cons_of_neg (by simp [hij]), ih this]
          exact this _ hj
        have hW : W = c.G.modSp c.e (fun sp => sp.setMask (maskWrite c.G c.sp c.x.d.toNat (lwLo (v j)))) := by
          change c.writeD _ _ _ = _
          unfold Ctx.writeD; dsimp only
          rw [if_neg (by rw [hw]; simp [hd]), if_pos h3, hlow]
          dsimp only
          rw [hf]
        rw [hW]
        refine ⟨fun r j' _ _ _ => ?_, fun r _ => ?_, fun i hi => ?_, ?_, fun e he => ?_, ?_⟩
        · rw [hwr, Option.getD_none, ite_self]
          exact Group.reg_congr c.G (c.G.modSp c.e _) rfl rfl rfl r j' (by assumption)
        · rw [hwr]; simp; rfl
        · rw [Group.sp_modSp, if_pos rfl]
          change (maskWrite _ _ _ _).has i = _
          rw [maskWrite_has _ _ _ _ _ (by omega) h3 hi, ht]
          simp
        · have e1 : (c.G.modSp c.e (fun sp => sp.setMask (maskWrite c.G c.sp c.x.d.toNat (lwLo (v j))))).sp c.e =
              c.sp.setMask (maskWrite c.G c.sp c.x.d.toNat (lwLo (v j))) := by
            rw [Group.sp_modSp, if_pos rfl, ← hsp]
          rw [e1]; simp only [Split.setMask]
        · rw [Group.sp_modSp, if_neg (by simp [he])]
        · rfl
    · have hd4 : 4 ≤ c.x.d.toNat := by omega
      have ht : c.toMask = false := by unfold Ctx.toMask; simp; intro _ _; omega
      have hW : W = c.G.writeVal c.x.d.toNat wide (c.ex.list.map (fun j => (j, v j))) := by
        change c.writeD _ _ _ = _
        unfold Ctx.writeD; dsimp only
        rw [if_neg (by rw [hw]; simp [hd]), if_neg h3]
      have hrest := c.G.regsOnly_writeVal c.x.d.toNat wide (c.ex.list.map (fun j => (j, v j)))
      have hsps : W.splits = c.G.splits := by rw [hW]; unfold Group.regsOnly at hrest; rw [hrest]
      have hspe : ∀ e, W.sp e = c.G.sp e := by intro e; unfold Group.sp; rw [hsps]
      refine ⟨fun r j hr _ hj => ?_, fun r _ => ?_, fun i _ => ?_, ?_, fun e _ => hspe e, ?_⟩
      · rw [hW, Group.reg_writeVal _ _ _ _ _ _ _ hd4 hr (fun i hi => Lanes.lt_of_mem_list hi) hj]
        unfold Ctx.writes
        have : ¬ (c.x.w || decide (c.x.d.toNat < 4)) = true := by rw [hw]; simp; omega
        rw [if_neg this]
        simp only [Lanes.mem_list]
        by_cases hx : c.ex.has j = true
        · rw [if_pos hx, if_pos hx]
          by_cases h1 : r = c.x.d.toNat
          · rw [if_pos h1, if_pos h1]; rfl
          · rw [if_neg h1, if_neg h1]
            by_cases h2 : wide = true ∧ r = c.x.d.toNat + 1
            · rw [if_pos h2, if_pos (by simp [h2])]; rfl
            · rw [if_neg h2, if_neg (by simpa using h2)]; rfl
        · rw [if_neg hx, if_neg hx]
      · rw [hW, Group.pendOf_writeVal _ _ _ _ _ _ hd4]
        unfold Ctx.writes
        have : ¬ (c.x.w || decide (c.x.d.toNat < 4)) = true := by rw [hw]; simp; omega
        simp only [if_neg this, ne_eq, Lanes.list_eq_nil]
        by_cases h0 : c.ex = 0
        · simp [h0]
        · by_cases h1 : r = c.x.d.toNat
          · simp [h1]
          · by_cases h2 : wide = true ∧ r = c.x.d.toNat + 1
            · simp [h2]
            · have : (decide (wide = true) && decide (r = c.x.d.toNat + 1)) = false := by
                rw [Bool.eq_false_iff]; simpa using h2
              simp only [h0, h1, false_or, h2, and_false, if_false]
              rw [if_neg]
              intro hc
              rw [if_neg (by simpa using h2)] at hc
              simp at hc
      · rw [hspe, ht, ← hsp]; cases c.act.lowest <;> simp
      · rw [hspe, ← hsp]
      · rw [hW]
        unfold Group.regsOnly at hrest
        rw [hrest]

/-- A latch history after a push, in a split (R174). -/
theorem Split.latchAt_push (sp : Split) (L : List Nat) (hL : ∀ i ∈ L, i < 96) (v : Nat → LW2) (k j : Nat) (hk : k < 4)
    (hj : j < 96) :
    (sp.push (L.map (fun i => (i, v i)))).latchAt k j =
      if k = 0 then (if j ∈ L then v j else {}) else sp.latchAt (k - 1) j :=
  Machine.latchAt_push sp.latch L hL v k j hk hj

/-- The group that an instruction with a lane result leaves. -/
theorem Ctx.laneGroup_written (c : Ctx) (wide push : Bool) (v : Nat → LW2) (fl : Nat → Fl) (hsp : c.sp = c.G.sp c.e)
    (hn : isNever c.x = false)
    (hact : ∀ j, c.act.has j = true → c.G.dead.has j = false) :
    c.laneGroup wide push v fl
      (c.doneGroup (c.written c.G wide push (c.ex.list.map (fun j => (j, v j, fl j))))) := by
  have hvs : (c.ex.list.map (fun j => (j, v j, fl j))).map (fun r => (r.1, r.2.1)) = c.ex.list.map (fun j => (j, v j)) := by
    rw [List.map_map]; rfl
  obtain ⟨w1, w2, w3, w4, w5, w7⟩ := c.writeD_eq wide v hsp hact
  generalize hW : c.writeD c.G wide (c.ex.list.map (fun j => (j, v j))) = W at *
  have hG2 : c.written c.G wide push (c.ex.list.map (fun j => (j, v j, fl j))) =
      { (if push then W.modSp c.e (fun sp => sp.push (c.ex.list.map (fun j => (j, v j)))) else W) with
        fflags := W.fflags ||| gatherFlags (c.ex.list.map (fun j => (j, v j, fl j))) } := by
    unfold Ctx.written
    dsimp only
    rw [hvs, hW]
    cases push <;> rfl
  rw [hG2]
  generalize hP : (if push then W.modSp c.e (fun sp => sp.push (c.ex.list.map (fun j => (j, v j)))) else W) = P
  have p1 : P = { W with splits := P.splits } := by rw [← hP]; cases push <;> rfl
  have p3 : ∀ e, e ≠ c.e → P.sp e = c.G.sp e := by
    intro e he
    rw [← hP]; cases push
    · exact w5 e he
    · rw [if_pos rfl, Group.sp_modSp, if_neg (by simp [he])]; exact w5 e he
  have p4 : P.sp c.e = if push then (W.sp c.e).push (c.ex.list.map (fun j => (j, v j))) else W.sp c.e := by
    rw [← hP]; cases push
    · rfl
    · rw [if_pos rfl, if_pos rfl, Group.sp_modSp, if_pos rfl]
  generalize hF : gatherFlags (c.ex.list.map (fun j => (j, v j, fl j))) = F
  obtain ⟨d1, d2, d3⟩ := c.doneGroup_eq { P with fflags := W.fflags ||| F }
  have s1 : ∀ e, Group.sp { P with fflags := W.fflags ||| F } e = P.sp e := fun _ => rfl
  have hlat : (c.doneGroup { P with fflags := W.fflags ||| F }).sp c.e = { c.after with
      mask := (W.sp c.e).mask, parMask := (W.sp c.e).parMask
      latch := (P.sp c.e).latch
      lval := if push then min (c.sp.lval + 1) 4 else c.sp.lval } := by
    rw [d3, s1, hn, Bool.or_false, p4, Ctx.after]
    generalize hmm : (W.sp c.e).mask = mm
    generalize hpm : (W.sp c.e).parMask = pm
    rw [hmm, hpm] at w4
    rw [w4]
    cases push <;> rfl
  have hmask : ((c.doneGroup { P with fflags := W.fflags ||| F }).sp c.e).mask = (W.sp c.e).mask := by rw [hlat]
  have hrest : ∀ r, (c.doneGroup { P with fflags := W.fflags ||| F }).pendOf r = W.pendOf r := by
    intro r
    rw [d1]
    unfold Group.pendOf Group.inBank
    dsimp only
    rw [p1]
  constructor
  case regs =>
    intro r j h1 h2 h3
    rw [← w1 r j h1 h2 h3]
    refine Group.reg_congr W _ ?_ ?_ ?_ r j h1
    · rw [d1]; dsimp only; rw [p1]
    · rw [d1]; dsimp only; rw [p1]
    · rw [d1]; dsimp only; rw [p1]
  case pend => intro r hr; rw [← w2 r hr]; exact hrest r
  case mask => intro i hi; rw [hmask]; exact w3 i hi
  case split =>
    have : ({ c.after with
      mask := ((c.doneGroup { P with fflags := W.fflags ||| F }).sp c.e).mask
      parMask := ((c.doneGroup { P with fflags := W.fflags ||| F }).sp c.e).parMask
      latch := if push then ((c.doneGroup { P with fflags := W.fflags ||| F }).sp c.e).latch else c.sp.latch
      lval := if push then min (c.sp.lval + 1) 4 else c.sp.lval } : Split) =
      (c.doneGroup { P with fflags := W.fflags ||| F }).sp c.e := by
      rw [hlat]
      dsimp only
      cases push
      · have : (P.sp c.e).latch = c.sp.latch := by rw [p4, if_neg (by simp), w4]
        rw [this]; rfl
      · rfl
    rw [this]
    exact Split.same_refl _
  case latch =>
    intro hp k j hk hj
    have : ((c.doneGroup { P with fflags := W.fflags ||| F }).sp c.e).latchAt k j = (P.sp c.e).latchAt k j := by
      rw [hlat]; rfl
    rw [this, p4, if_pos hp, Split.latchAt_push _ _ (fun i hi => Lanes.lt_of_mem_list hi) _ _ _ hk hj]
    have h2 : (W.sp c.e).latchAt (k - 1) j = c.sp.latchAt (k - 1) j := by rw [w4]; rfl
    simp only [Lanes.mem_list, h2]
  case others =>
    intro e he
    rw [d2 e he, s1, p3 e he]
    exact Split.same_refl _
  case flags =>
    intro b
    rw [d1]
    dsimp only
    have : W.fflags = c.G.fflags := by rw [w7]
    rw [BitVec.getLsbD_or, ← hF, gatherFlags_bit, this]
  case rest =>
    rw [d1]
    dsimp only
    rw [p1]
    dsimp only
    rw [w7]

/-- Where nothing stops an instruction with a lane result, and no poisoned word is bound for the mask, it leaves what
`Ctx.laneDone` says. -/
theorem Runs.result {o : Op} {x : Ops} {s : State} {c : Ctx} (h : Runs o x s c) (wide push : Bool) (v : Nat → LW2)
    (fl : Nat → Fl) (hm : c.maskSafe (fun j => (v j).pLo)) :
    c.laneDone s (c.result (s.begun c.g) wide push (c.ex.list.map (fun j => (j, v j, fl j)))).finish wide push v fl := by
  obtain ⟨-, hG, -, hv, ho, hx, -, hsp, -, -, hact⟩ := State.context_spec h.ctx
  have hd : ∀ j, c.act.has j = true → c.G.dead.has j = false := by
    intro j hj
    rw [hact] at hj
    unfold activeLanes Lanes.ofPred Lanes.has at hj
    have key : ∀ (L : List Nat) (f : Nat → Bool) (m : BitVec 96),
        (L.foldl (fun m j => if f j then m ||| ((1 : BitVec 96) <<< j) else m) m).getLsbD j = true →
        m.getLsbD j = true ∨ f j = true := by
      intro L f
      induction L with
      | nil => intro m h; exact .inl h
      | cons i L ih =>
        intro m h
        rw [List.foldl_cons] at h
        rcases ih _ h with h | h
        · by_cases hf : f i = true
          · rw [if_pos hf, BitVec.getLsbD_or, Bool.or_eq_true] at h
            rcases h with h | h
            · exact .inl h
            · by_cases hij : i = j
              · subst hij; exact .inr hf
              · exfalso
                rw [BitVec.getLsbD_shiftLeft] at h
                simp at h
                omega
          · rw [if_neg hf] at h; exact .inl h
        · exact .inr h
    rcases key _ _ _ hj with h | h
    · simp at h
    · simp at h
      have := h.1.2
      simpa [Lanes.has] using this
  have hn : isNever c.x = false := by rw [hx]; exact h.predOn
  rw [c.result_eq _ _ _ _ _ hm]
  refine ⟨?_, ?_⟩
  · have hg : (c.done ((s.begun c.g).modGrp c.g (fun G => c.written G wide push (c.ex.list.map (fun j => (j, v j, fl j)))))).grp
        c.g = some (c.doneGroup (c.written c.G wide push (c.ex.list.map (fun j => (j, v j, fl j))))) := by
      rw [c.grp_done _ h.next, if_pos rfl, State.grp_modGrp, if_pos rfl, hG]; rfl
    obtain ⟨H, h1, h2⟩ := State.finish_same _ _ _ hg
    exact ⟨H, h1, Ctx.laneGroup_same (c.laneGroup_written wide push v fl hsp hn hd) h2⟩
  · refine Issued.elsewhere (Issued.of_modGrp (c.done_issued _ h.next)) h.log (fun g hg => ?_)
    rw [c.grp_done _ h.next, if_neg hg, State.grp_modGrp, if_neg hg]

end Sys2Proof.Machine
end

