-- ==== Sys2Proof/Machine/Regs.lean ====
section
/-! DEFINITION. The control region as the driver reads it, one 64-bit word at a time. -/

namespace Sys2Proof.Machine

/-- A flag at a bit position. -/
def bitAt (b : Bool) (n : Nat) : Nat := if b then 2 ^ n else 0

/-- The word of 64 bits at a byte offset of a wider value. -/
def wordOf (v ofs : Nat) : Nat := v / 2 ^ (8 * ofs) % 2 ^ 64

/-- A queue's block (R43). -/
def Queue.word (q : Queue) (o : Nat) : Nat :=
  match o with
  | 0x00 => q.base
  | 0x08 => q.log2n + q.prio * 2 ^ 5 + bitAt q.en 7 + q.ctx * 2 ^ 8
  | 0x10 => q.tail.toNat
  | 0x18 => q.head.toNat
  | 0x20 => q.acc.toNat
  | 0x28 => q.err + bitAt q.busy 8
  | _ => 0

/-- A domain's readiness word (R71). -/
def State.readyWord (s : State) (d : Nat) : Nat :=
  let r := s.domReady d
  bitAt r.disp 0 + bitAt r.walk 1 + bitAt r.l2 2 + bitAt r.dram 3 + r.border.toNat * 2 ^ 4 + bitAt r.lost 8 +
    ((List.range 72).filter (fun c => (s.coreAt (coreKey d c)).ready)).length * 2 ^ 16

/-- The ready bits of a domain's cores (R71). -/
def State.readyCores (s : State) (d : Nat) : Nat :=
  ((List.range 72).map (fun c => bitAt (s.coreAt (coreKey d c)).ready c)).sum

/-- A domain word of the imposition table (R76). -/
def State.domainWord (s : State) (d : Nat) : Nat :=
  bitAt (s.placeBit d) 0 + ((s.partOfDomain d).getD 0x1F) * 2 ^ 8 +
    ((List.range 72).filter (fun c => (s.coreAt (coreKey d c)).state == 0)).length * 2 ^ 16 + s.freeSlotsOf d * 2 ^ 32

/-- The longest run of free galley of a core, in units of 512 bytes (R77): the gap above the galley's start or above a run
ends at the next run. -/
def longestRun (used : List (Nat × Nat)) : Nat :=
  ((0 :: used.map (fun r => r.1 + r.2)).map (fun o =>
    if used.any (fun r => decide (r.1 ≤ o ∧ o < r.1 + r.2)) then 0
    else ((used.filter (fun r => decide (o < r.1))).map (fun r => r.1)).foldl min 4096 - o)).foldl max 0

/-- A core entry of the imposition table (R77): what is free counts for cores that are enabled or soft-disabled. -/
def State.coreEntry (s : State) (k : Nat) : Nat :=
  let st := (s.coreAt k).state
  if st = 1 ∨ st = 3 then st
  else
    st + longestRun (s.galRuns k) * 2 ^ 8 + s.freeBbars k * 2 ^ 24 + s.freeAcc k * 2 ^ 36 +
      ((List.range 6).map (fun sl =>
        (s.freeRegs k sl + bitAt (s.rsvd k sl) 7 + s.freeSlots k sl * 2 ^ 8) * 2 ^ (64 + 16 * sl))).sum

/-- A context's trap block (R410). -/
def TrapBlk.word (t : TrapBlk) (o : Nat) : Nat :=
  match o with
  | 0x00 => t.tbase.toNat
  | 0x08 => t.fbase.toNat
  | 0x10 => t.savebase.toNat
  | 0x18 => t.savesize.toNat
  | 0x20 => t.fqbase.toNat
  | 0x28 => t.fqlog2n.toNat + bitAt t.fqen 5
  | 0x30 => t.fqtail.toNat + t.fqdone.toNat * 2 ^ 32
  | _ => bitAt t.brken 0 + t.brkpc.toNat * 4

/-- The invalidation block (R143). -/
def Tr.word (t : Tr) (o : Nat) : Nat :=
  match o with
  | 0x00 => t.invCtx.toNat + bitAt t.invAll 16 + bitAt t.invIc 17
  | 0x08 => ((t.invVa.signExtend 48 : BitVec 48).toNat) * 2 ^ 16
  | 0x10 => t.invN.toNat
  | 0x18 => t.invSeq.toNat + bitAt t.invBusy 32
  | _ => 0

/-- A fence word (R442). -/
def Fence.word (f : Fence) (o : Nat) : Nat := if o = 0 then bitAt f.fenced 0 + f.why * 2 else f.wfence

/-- The checkpoint block (R453). -/
def Ctl.ckWord (c : Ctl) (o : Nat) : Nat :=
  match o with
  | 0x00 => c.ckDest.toNat
  | 0x08 => c.ckMask.toNat
  | 0x10 => bitAt c.ckBusy 2 + c.ckResult * 2 ^ 3
  | 0x18 => c.ckDone
  | _ => 0

/-- The ring's block (R475). -/
def Ctl.ringWord (c : Ctl) (o : Nat) : Nat :=
  match o with
  | 0x00 => c.nrbase.toNat
  | 0x08 => c.nrlog2n.toNat + bitAt c.nren 5 + c.nrvec.toNat * 2 ^ 16 + c.nrcoal.toNat * 2 ^ 32
  | 0x10 => c.nrtail.toNat
  | 0x18 => c.nrhead.toNat
  | _ => 0

/-- THROT: a setting differs from its reset value (R479). -/
def Power.throt (p : Power) : Bool :=
  let r : Power := {}
  p.refill != r.refill || p.cap != r.cap || p.shedlvl != r.shedlvl || p.dceil != r.dceil || p.tact != r.tact

/-- A power block (R479). -/
def Power.word (p : Power) (o : Nat) : Nat :=
  match o with
  | 0x00 => p.refill + p.cap * 2 ^ 16 + p.shedlvl * 2 ^ 32 + p.dceil * 2 ^ 48
  | 0x08 => p.tact + p.pcap * 2 ^ 16
  | 0x10 => p.pwr + p.tj * 2 ^ 16 + bitAt p.throt 32 + bitAt (decide (95 ≤ p.tj)) 33
  | _ => 0

/-- The counters of a core (R478). -/
def Counters.word (c : Counters) (o : Nat) : Nat :=
  match o with
  | 0x00 => c.cyc
  | 0x08 => c.inst
  | 0x10 => c.idle
  | 0x18 => c.wheld
  | 0x20 => c.kstep
  | 0x28 => c.kskip
  | 0x30 => c.cpyb
  | _ => c.fqe

/-- A word of a log of a domain (R452). -/
def LogRing.word (r : LogRing) (o : Nat) : Nat :=
  if o < 0x1000 then wordOf (Map.getD r.ents (o / 16) (0 : BitVec 128)).toNat (o % 16) else if o = 0x1000 then r.head else 0

/-- Bytes of a table as one word. -/
def packBytes (f : Nat → Nat) (first : Nat) : Nat := ((List.range 8).map (fun i => f (first + i) * 2 ^ (8 * i))).sum

/-- The value of a word below 0x0010_0000. -/
def State.readLow (s : State) (off : Nat) : Nat :=
  if 0x10000 ≤ off ∧ off < 0x14000 then (s.queue ((off - 0x10000) / 64)).word (off % 64)
  else if 0x20000 ≤ off ∧ off < 0x20200 then s.readyWord ((off - 0x20000) / 8)
  else if 0x20200 ≤ off ∧ off < 0x20600 then wordOf (s.readyCores ((off - 0x20200) / 16)) (off % 16)
  else if off = 0x20600 then s.ct.memp.toNat + s.ct.enc.toNat * 2 ^ 16 + bitAt s.ct.host 24
  else if off = 0x20608 then s.ct.scale.toNat
  else if 0x30000 ≤ off ∧ off < 0x34000 then wordOf (s.ct.attest.getD ((off - 0x30000) / 64) 0).toNat (off % 64)
  else if 0x34000 ≤ off ∧ off < 0x34030 then wordOf s.ct.nonce.toNat (off - 0x34000)
  else if 0x34040 ≤ off ∧ off < 0x340A0 then wordOf s.ct.attestSig.toNat (off - 0x34040)
  else if 0x40000 ≤ off ∧ off < 0x40400 then if off % 16 = 0 then s.domainWord ((off - 0x40000) / 16) else 0
  else if 0x40800 ≤ off ∧ off < 0x40880 then (Map.getD s.ct.parts ((off - 0x40800) / 8) (0 : BitVec 64)).toNat
  else if off = 0x40880 then s.ct.partErr
  else if 0x41000 ≤ off ∧ off < 0x65000 then wordOf (s.coreEntry ((off - 0x41000) / 32)) (off % 32)
  else if 0x80000 ≤ off ∧ off < 0x90000 then packBytes s.partOfCtx (off - 0x80000)
  else if 0x90000 ≤ off ∧ off < 0x90800 then (Map.getD s.tr.stripes ((off - 0x90000) / 8) (0 : BitVec 64)).toNat
  else if 0xA0000 ≤ off ∧ off < 0xA0020 then s.tr.word (off - 0xA0000)
  else if 0xB0000 ≤ off ∧ off < 0xC0000 then packBytes s.rcapOf (off - 0xB0000)
  else if off = 0xC0000 then s.ct.cflush
  else if 0xD0000 ≤ off ∧ off < 0xD0400 then (Map.getD s.ct.fenceD ((off - 0xD0000) / 16) ({} : Fence)).word (off % 16)
  else if 0xD1000 ≤ off ∧ off < 0xD2000 then (Map.getD s.ct.fenceP ((off - 0xD1000) / 16) ({} : Fence)).word (off % 16)
  else if 0xD2000 ≤ off ∧ off < 0xD2020 then s.ct.ckWord (off - 0xD2000)
  else if 0xE0000 ≤ off ∧ off < 0xE0020 then s.ct.ringWord (off - 0xE0000)
  else if 0xE1000 ≤ off ∧ off < 0xE2000 then (s.powerOf ((off - 0xE1000) / 64)).word (off % 64)
  else 0

/-- The value that a driver's read of an aligned 64-bit word of the control region returns; offsets that the spec gives no
contents read zero. -/
def State.readReg (s : State) (off : Nat) : BitVec 64 :=
  BitVec.ofNat 64 (
    if off < 0x100000 then s.readLow off
    else if off < 0x200000 then
      let r : Root := Map.getD s.tr.roots ((off - 0x100000) / 16) {}
      if off % 16 = 0 then r.root else bitAt r.en 0 + r.pinmax * 2 ^ 16
    else if 0x400000 ≤ off ∧ off < 0x800000 then (s.trapBlk ((off - 0x400000) / 64)).word (off % 64)
    else if 0x800000 ≤ off ∧ off < 0x880000 then (Map.getD s.ct.arrayLog ((off - 0x800000) / 0x2000) ({} : LogRing)).word (off % 0x2000)
    else if 0x880000 ≤ off ∧ off < 0x900000 then (Map.getD s.ct.vertLog ((off - 0x880000) / 0x2000) ({} : LogRing)).word (off % 0x2000)
    else if 0x900000 ≤ off ∧ off < 0x948000 then ((s.coreAt ((off - 0x900000) / 64)).ctr).word (off % 64)
    else 0)

end Sys2Proof.Machine
end

