-- ==== Sys2Proof/Tests/Slice0.lean ====
section
/-! SUPPORT. Tests of the model on fixed values: ill-formed instructions that the checks refuse, words that the spec's
listings give, one step of instructions on small states, and for the hypotheses of every statement a state that meets them. -/

namespace Sys2Proof.Tests

open Sys2Proof Sys2Proof.Machine Sys2Proof.Claims

set_option Elab.async false

/-! ### Small states -/

/-- The pages of context 0 are one leaf of 2 MiB at 0, mapped at 2 MiB, that programs may read and write. -/
def leaf0 : Leaf :=
  { level := 1, va := 0, addr := 0x200000, rd := true, wr := true, x := true, hnd := false, lease := 0, mem := 0, cls := 2
    owner := 0, stripe := none }

/-- A leaf for the handler half: the frames (R15). -/
def leafH : Leaf :=
  { level := 1, va := 2 ^ 56, addr := 0x400000, rd := true, wr := true, x := true, hnd := true, lease := 0, mem := 0, cls := 2
    owner := 0, stripe := none }

/-- A forme of one role with one group. -/
def forme0 : Forme :=
  { ver := 1, nrole := 1, nql := 0, tailovl := false, cor := false, quire := false, qmem := false, duplex := false, rsv := false
    notify := false, region := false, ctx := 0, tag := 7, gx := 1, gy := 1, gz := 1, galley := 15, bbars := 4, acc := 2
    crec := 0x3000, hmode := 0, hhard := false, hbase := 0, htpd := 0, htab := 0, routes := 0, nroute := 0, orgx := 0, orgy := 0
    regw := 0, regh := 0, qlinks := []
    roles := [{ entry := 0x1000, groups := 1, regs8 := 32, narg := 2, argofs := 0, shed := false, crit := false }]
    args := [5, 6] }

/-- The launch of the team below. -/
def launch0 : Launch :=
  { queue := 0, slot := 0, prio := 0, forme := forme0, head := 8, sub := 0, bodies := [], sent := [(0, true)], checked := true }

/-- The words of register `r` in lanes 0 and 1. -/
def both (r : Nat) (a b : Word) : List (Nat × LW) := [(96 * r, { val := a }), (96 * r + 1, { val := b })]

/-- A group of two lanes at 0x1000, with the registers `rs`. -/
def group0 (rs : List (Nat × LW) := []) : Group :=
  { team := 1, index := 0, role := 0, regs8 := 32, slice := 0, slot := 0, shed := false, crit := false, duplex := false
    splits := [{ pc := 0x1000, memb := 3, mask := 3, v := true }], regs := rs }

/-- The group's team, on core 0 of domain 0. -/
def team0 : Team :=
  { launch := 8, index := 0, domain := 0, core := 0, st := .started, galBase := 0, groups := [1], plan := [(0, 32)] }

/-- It is the turn of the group's split; the leaves above are in the core's TLB. -/
def world (G : Group) (T : Team := team0) : State :=
  { cur := .split 1 0
    exe := { groups := [(1, G)], teams := [(1, T)], cores := [(0, { state := 0, ready := true })], nextGroup := 2, nextTeam := 2 }
    wk := { launches := [(8, launch0)], next := 2 }
    tr := { tlb := [{ at_ := .data 0, ctx := 0, leaf := leaf0 }, { at_ := .data 0, ctx := 0, leaf := leafH }] }
    ct := { trap := [(0, { tbase := 0xFF00000000010000, fbase := 0xFF00000000020000 })], parts := [(0, 1)] } }

/-- The context of an instruction of that split. -/
def ctxAt (o : Op) (x : Ops) (G : Group) (T : Team := team0) : Ctx :=
  { g := 1, e := 0, o := o, x := x, i := o.instr x, sp := G.sp 0, G := G, T := T, k := T.coreKey, ctx := 0
    act := activeLanes G (G.sp 0) x.p.toNat x.pn }

/-- The conditions of `Runs` as one test. -/
def runsB (o : Op) (x : Ops) (s : State) (c : Ctx) : Bool :=
  decide (s.context o x = some c) && decide (s.wlog = []) && opsOk o x && dynOk o x c.G (s.accOf c.T) &&
    (!o.priv || c.G.lvl != 0) && (latchReads x).all (fun k => decide (k < c.sp.lval)) && (!x.live || decide (c.sp.chain < 9)) &&
    !isNever x && (c.sp.resumes || (c.G.pendOf x.p.toNat).isNone) && decide (hemLanes c.G c.sp x.p.toNat = 0) &&
    (c.sp.resumes || (lazyPark o && c.act == 0) || (sourceRegs o x).all (fun r => (c.G.pendOf r).isNone)) &&
    decide (c.blocked = ([], [])) && !(s.trapBlk c.ctx).brken &&
    (!makesAccess o x || (!s.acquireOut c.g && !c.G.inFence (makesStore o x))) && c.seqOk

/-- The test is enough. -/
theorem runs_of {o : Op} {x : Ops} {s : State} {c : Ctx} (h : runsB o x s c = true) : Runs o x s c := by
  simp only [runsB, Bool.and_eq_true, decide_eq_true_eq, Bool.or_eq_true, Bool.not_eq_true', bne_iff_ne, List.all_eq_true,
    Option.isNone_iff_eq_none] at h
  obtain ⟨⟨⟨⟨⟨⟨⟨⟨⟨⟨⟨⟨⟨⟨h1, h2⟩, h3⟩, h4⟩, h5⟩, h6⟩, h7⟩, h8⟩, h9⟩, h10⟩, h11⟩, h12⟩, h13⟩, h14⟩, h15⟩ := h
  refine ⟨h1, h2, h3, h4, fun h => ?_, h6, fun h => ?_, h8, fun h => ?_, h10, fun h i r hr => ?_, h12, fun _ _ _ _ h => ?_,
    fun h _ _ => ?_, h15⟩
  · rcases h5 with h5 | h5
    · rw [h5] at h; cases h
    · exact h5
  · rcases h7 with h7 | h7
    · rw [h7] at h; cases h
    · exact h7
  · rcases h9 with h9 | h9
    · rw [h9] at h; cases h
    · exact h9
  · rcases h11 with (h11 | h11) | h11
    · rw [h11] at h; cases h
    · exact absurd (by simpa using h11.2) (i h11.1)
    · exact h11 r hr
  · rw [h13] at h; cases h
  · rcases h14 with h14 | h14
    · rw [h14] at h; cases h
    · exact h14

/-- A result that is not bound for the mask is safe for it. -/
theorem maskSafe_of {c : Ctx} {p : Nat → Bool} (h : c.toMask = false) : c.maskSafe p := fun h1 => by rw [h] at h1; cases h1

/-- A result bound for the mask is safe where the lowest active lane is clean. -/
theorem maskSafe_at {c : Ctx} {p : Nat → Bool} {j : Nat} (h : c.act.lowest = some j) (hp : p j = false) : c.maskSafe p :=
  fun _ k hk => by rw [h] at hk; cases hk; exact hp

/-- A group that is not duplex has no shadowed pairs. -/
theorem agree_of {c : Ctx} (h : c.G.duplex = false) : predAgree c := fun h1 => by rw [h] at h1; cases h1

/-- Stores of a group that is not duplex have no shadowed pairs. -/
theorem pairs_of {c : Ctx} {f : Nat → Req} (h : c.G.duplex = false) : pairsEqual c f := fun h1 => by rw [h] at h1; cases h1

/-- What holds in each of 96 lanes holds in the lanes of a set. -/
theorem lanes_of {m : Lanes} {P : Nat → Prop} (h : ∀ j, j < 96 → m.has j = true → P j) : ∀ j, m.has j = true → P j := by
  intro j hj
  by_cases hl : j < 96
  · exact h j hl hj
  · have : m.has j = false := BitVec.getLsbD_of_ge m j (by omega)
    rw [this] at hj; cases hj

/-- Register `n` in lane order. -/
def v (n : BitVec 8) : Opd := .reg n 0

/-- Legal fields for each opcode. -/
def fields (o : Op) : Ops :=
  match o with
  | .iadd | .isub | .imul | .idiv | .irem | .imulh | .imin | .imax | .bfe => { d := 20, a := v 8, b := v 9 }
  | .iadd3 | .imad => { fmt := .b, d := 20, a := v 8, b := v 9, c := v 10 }
  | .imadw => { fmt := .b, d := 20, a := v 8, b := v 9, c := v 12 }
  | .iabs | .ineg | .redux | .scan => { d := 20, a := v 8 }
  | .isetc => { d := 20, a := v 8, b := v 9, m := 2 }
  | .lea => { d := 20, a := v 12, b := v 9, m := 3 }
  | .isel | .xwin | .bfi | .bysel => { fmt := .b, t := .b32, d := 20, a := v 8, b := v 9, c := v 10 }
  | .bfn3 => { fmt := .b, t := .b32, m := 0x96, d := 20, a := v 8, b := v 9, c := v 10 }
  | .shl | .shr | .sar | .rol | .ror | .andB | .orB | .xorB | .andn | .pdep | .pext | .bperm | .lxch | .pclr =>
    { t := .b32, d := 20, a := v 8, b := v 9 }
  | .clz | .ctz | .popc | .brev | .bswap | .mov | .poll | .ptest => { t := .b32, d := 20, a := v 8 }
  | .gf2mm => { t := .n64, d := 20, a := v 12, b := v 16 }
  | .movi => { fmt := .c, t := .b32, d := 20, imm := 0x12345678 }
  | .take | .rget => { d := 20, a := v 8 }
  | .rput => { a := v 8, b := v 9 }
  | .fadd | .fsub | .fmul | .fmin | .fmax | .fsetc | .fscale => { t := .f32, d := 20, a := v 8, b := v 9 }
  | .ffma => { fmt := .b, t := .f32, d := 20, a := v 8, b := v 9, c := v 10 }
  | .fdot2 => { fmt := .b, t := .f16, d := 20, a := v 8, b := v 9, c := v 10 }
  | .fdot4 => { fmt := .b, t := .i8, d := 20, a := v 8, b := v 9, c := v 10 }
  | .fclass | .frnd | .rcp | .rsq | .sqrt | .ex2 | .lg2 | .tanh | .rred | .fredux => { t := .f32, d := 20, a := v 8 }
  | .sinp | .cosp => { t := .f32, d := 20, a := v 12 }
  | .cvt => { t := .f32, d := 20, a := v 8 }
  | .pack => { t := .e4m3, m := 5, d := 20, a := v 8 }
  | .unpack => { t := .f32, m := 8, d := 20, a := v 8 }
  | .rdsys | .maskp | .mstat | .mfs => { d := 20 }
  | .bra | .bmz | .bmnz => { b := .imm 8 }
  | .brx | .ret => { a := v 12 }
  | .call => { d := 20, b := .imm 8 }
  | .callx => { d := 20, a := v 12 }
  | .maskr | .lanekill => { a := v 8 }
  | .sig => { d := 0xFF, m := 0xFF }
  | .trap => { m := 1 }
  | .exit | .land | .nop | .yield | .unstash | .mzero | .fence | .rfe | .halt | .freeze | .thaw => {}
  | .ld | .ldacq => { d := 20, a := v 12, b := .imm 0 }
  | .st | .strel => { d := 8, a := v 12, b := .imm 0 }
  | .stash => { fmt := .b, a := .imm 128, b := v 12, c := .imm 128 }
  | .flush | .inval => { a := v 12, b := .imm 128 }
  | .pref => { a := v 12, b := .imm 0 }
  | .cpy | .cpys => { fmt := .b, a := .imm 128, b := v 12, c := .imm 64 }
  | .cpyl => { fmt := .b, a := .imm 128, b := .imm 256, c := v 10 }
  | .cpyg => { d := 20, a := v 12, b := .imm 0, m := 1 }
  | .seal => { m := 15 }
  | .waitb => { a := .imm 0 }
  | .bbinit => { a := .imm 3, b := .imm 1 }
  | .bbexp => { a := .imm 3, b := .imm 0 }
  | .bbarr | .bbwait => { d := 20, a := .imm 3, b := .imm 1 }
  | .mloop => { fmt := .c, t := .i8, d := 32, a := v 10 }
  | .mdrain => { d := 64 }
  | .mdrainmx => { t := .e4m3, d := 64 }
  | .atom => { t := .n32, d := 20, a := v 12, b := v 9 }
  | .red => { t := .n32, a := v 12, b := v 9 }
  | .bar => { a := .imm 0 }
  | .seamred => { a := v 8, b := .imm 0 }
  | .seambc => { b := .imm 0 }
  | .seamsend => { a := v 8 }
  | .seamrecv => { d := 20, b := .imm 0 }
  | .ipref | .icinv => { b := .imm 1 }
  | .ipin | .iunpin => { d := 20, b := .imm 1 }
  | .spl => { a := .imm 2 }
  | .mts => { a := v 8, m := 13 }
  | .tlbinv => { m := 1 }
  | .selftest => { d := 20, a := .imm 0 }

/-- The registers of the tests: v8 to v10, and the pairs v12 (an address) and v16. -/
def regs0 : List (Nat × LW) :=
  both 8 5 (-7) ++ both 9 3 2 ++ both 10 256 256 ++ both 12 0x2000 0x2000 ++ both 16 1 2

/-- The group, at the level that the opcode needs. -/
def groupFor (o : Op) : Group := if o.priv then { group0 regs0 with lvl := 1, held := 0 } else group0 regs0

/-- The state and the context of the opcode's instruction. -/
def W (o : Op) : State := world (groupFor o)

/-- The context of the opcode's instruction. -/
def C (o : Op) : Ctx := ctxAt o (fields o) (groupFor o)

/-- Each opcode has a legal instruction that nothing stops in a state that it may run in: the conditions of `Runs`, on which
the statements about instructions rest, can be met. -/
theorem hyp_Runs : ∀ o, Runs o (fields o) (W o) (C o) := by
  intro o
  cases o <;> exact runs_of (by decide +kernel)

/-- The group with an empty mask. -/
def idleGroup (o : Op) : Group :=
  { groupFor o with splits := [{ pc := 0x1000, memb := 3, mask := 0, v := true }] }

/-- Each opcode's instruction runs where no lane is active. -/
theorem hyp_idle : ∀ o, Runs o (fields o) (world (idleGroup o)) (ctxAt o (fields o) (idleGroup o)) ∧
    (ctxAt o (fields o) (idleGroup o)).act = 0 := by
  intro o
  cases o <;> exact ⟨runs_of (by decide +kernel), by decide +kernel⟩

/-- Elsewhere both lanes are active. -/
theorem hyp_active : ∀ o, (C o).act = 3 := by
  intro o
  cases o <;> decide +kernel

theorem act_ne (o : Op) : (C o).act ≠ 0 := by rw [hyp_active o]; decide

theorem act_low (o : Op) : (C o).act.lowest = some 0 := by rw [hyp_active o]; decide

theorem no_duplex (o : Op) : (C o).G.duplex = false := by cases o <;> rfl

theorem unmasked {o : Op} (h : (C o).toMask = false) (p : Nat → Bool) : (C o).maskSafe p := maskSafe_of h

/-! ### States that meet the hypotheses of the statements: arithmetic, moves, lanes -/

theorem hyp_IntegerArithmeticIsExact :
    (∀ o ∈ [Op.iadd, .isub, .iadd3, .imul, .imulh, .imad, .idiv, .irem, .imin, .imax, .iabs, .ineg],
      ∃ (x : Ops) (s : State) (c : Ctx) (n : Nat) (f : Int → Int → Int → Int),
        exactInt o x.t = some (n, f) ∧ Runs o x s c ∧ c.maskSafe (srcPsn c x.t n)) ∧
    (∃ (x : Ops) (s : State) (c : Ctx) (n : Nat) (f : Int → Int → Int → Int), x.d = 1 ∧ x.m = 1 ∧
        exactInt .iadd x.t = some (n, f) ∧ Runs .iadd x s c ∧ c.maskSafe (srcPsn c x.t n)) := by
  constructor
  · intro o h
    repeat (rcases List.mem_cons.mp h with rfl | h; · exact ⟨_, _, _, _, _, rfl, hyp_Runs _, unmasked (by decide +kernel) _⟩)
    cases h
  · let x : Ops := { fields .iadd with d := 1, m := 1 }
    exact ⟨x, W .iadd, ctxAt .iadd x (groupFor .iadd), _, _, rfl, rfl, rfl, runs_of (by decide +kernel),
      maskSafe_at (j := 0) (by decide +kernel) (by decide +kernel)⟩

theorem hyp_BitInstructionsComplete :
    ∀ o ∈ [Op.imadw, .isetc, .isel, .lea, .shl, .shr, .sar, .rol, .ror, .xwin, .andB, .orB, .xorB, .andn, .bfn3, .clz, .ctz,
      .popc, .brev, .bswap, .bfe, .bfi, .pdep, .pext, .bperm, .gf2mm, .bysel],
      ∃ (x : Ops) (s : State) (c : Ctx), Runs o x s c ∧ c.maskSafe (resultPsn o x c) := by
  intro o h
  repeat (rcases List.mem_cons.mp h with rfl | h; · exact ⟨_, _, _, hyp_Runs _, unmasked (by decide +kernel) _⟩)
  cases h

/-- A group whose v8 waits for both lanes of claim 0. -/
def pending8 : Group :=
  { group0 regs0 with
      pend := [(8, 0)], claims := [(0, { seq := 0, all := 3, lanes := 3, arriving := 3, dests := [some 8] })], claimSeq := 1 }

theorem hyp_MovesAndTake :
    (∃ (x : Ops) (s : State) (c : Ctx), Runs .mov x s c ∧ c.maskSafe (fun j => (c.opA x.t j).pLo)) ∧
    (∃ (x : Ops) (s : State) (c : Ctx), Runs .movi x s c) ∧
    (∃ (x : Ops) (s : State) (c : Ctx), Runs .take x s c ∧ c.act = 0) ∧
    (∃ (x : Ops) (s : State) (c : Ctx), Runs .take x s c ∧ c.act ≠ 0 ∧ x.d.toNat ≠ aReg x ∧ c.G.pendOf (aReg x) = none ∧
      c.G.outstanding x.d.toNat &&& ~~~ c.ex = 0) ∧
    (∃ (x : Ops) (s : State) (c : Ctx) (k : Nat) (C : Claim), Runs .take x s c ∧ c.act ≠ 0 ∧ x.d.toNat ≠ aReg x ∧
      c.G.pendOf (aReg x) = some k ∧ Map.find c.G.claims k = some C ∧ c.G.outstanding x.d.toNat &&& ~~~ C.all = 0) :=
  ⟨⟨_, _, _, hyp_Runs _, unmasked (by decide +kernel) _⟩, ⟨_, _, _, hyp_Runs _⟩, ⟨_, _, _, (hyp_idle _).1, (hyp_idle _).2⟩,
    ⟨_, _, _, hyp_Runs _, act_ne _, by decide +kernel, by decide +kernel, by decide +kernel⟩,
    ⟨fields .take, world pending8, ctxAt .take (fields .take) pending8, 0, _, runs_of (by decide +kernel), by decide +kernel,
      by decide +kernel, by decide +kernel, rfl, by decide +kernel⟩⟩

/-- A handler's group with `n` in v8. -/
def naming (n : Word) : Group := { group0 (both 8 n n ++ both 9 3 2) with lvl := 1 }

theorem ok_of {r : Range × State} (h : (match r.1 with | .ok _ _ _ => true | _ => false) = true) :
    ∃ segs mem lease s1, r = (.ok segs mem lease, s1) := by
  obtain ⟨r1, s1⟩ := r
  cases r1 with
  | ok segs mem lease => exact ⟨segs, mem, lease, s1, rfl⟩
  | recov _ _ _ => cases h
  | fatal _ _ => cases h

theorem hyp_HandlerRegisterAccess :
    (∃ (x : Ops) (s : State) (c : Ctx) (i n : Nat), Runs .rget x s c ∧ c.act.lowest = some i ∧ (c.opA .n32 i).pLo = false ∧
      (lwLo (c.opA .n32 i)).toNat = n ∧ n < 8 * c.G.regs8 ∧ n < 240 ∧ c.G.progPend n = none ∧ c.toMask = false) ∧
    (∃ (x : Ops) (s : State) (c : Ctx) (i n : Nat), Runs .rget x s c ∧ c.act.lowest = some i ∧
      (∃ segs mem lease s1, (s.begun c.g).slotXl c.G c.T .read = (.ok segs mem lease, s1)) ∧ (c.opA .n32 i).pLo = false ∧
      (lwLo (c.opA .n32 i)).toNat = n ∧ n < 8 * c.G.regs8 ∧ n = 240 ∧ c.G.progPend n = none ∧ c.toMask = false) ∧
    (∃ (x : Ops) (s : State) (c : Ctx) (i n : Nat), Runs .rput x s c ∧ c.act.lowest = some i ∧ (c.opA .n32 i).pLo = false ∧
      (lwLo (c.opA .n32 i)).toNat = n ∧ n < 8 * c.G.regs8 ∧ n = 239 ∧ c.G.isHeldReg n = false ∧
      c.G.outstanding n &&& ~~~ c.ex = 0) ∧
    (∃ (x : Ops) (s : State) (c : Ctx) (i n : Nat), Runs .rput x s c ∧ c.act.lowest = some i ∧
      (∃ segs mem lease s1, (s.begun c.g).slotXl c.G c.T .write = (.ok segs mem lease, s1)) ∧ (c.opA .n32 i).pLo = false ∧
      (lwLo (c.opA .n32 i)).toNat = n ∧ n < 8 * c.G.regs8 ∧ n = 240 ∧ c.G.isHeldReg n = false ∧ Map.find c.G.slots (n - 240) = none) ∧
    (∃ (x : Ops) (s : State) (c : Ctx) (i : Nat), Runs .rput x s c ∧ c.act.lowest = some i ∧ (c.opA .n32 i).pLo = false ∧
      lwLo (c.opA .n32 i) = 0 ∧ 0 < c.G.regs8) ∧
    (∀ o ∈ [Op.rget, .rput], ∃ (x : Ops) (s : State) (c : Ctx), Runs o x s c ∧ c.act = 0) := by
  refine ⟨⟨_, _, C .rget, 0, 5, hyp_Runs _, act_low _, ?_⟩, ?_, ?_, ?_, ?_, fun o _ => ⟨_, _, _, hyp_idle o⟩⟩
  · decide +kernel
  · exact ⟨fields .rget, _, ctxAt .rget (fields .rget) (naming 240), 0, 240, runs_of (s := world (naming 240)) (by decide +kernel),
      by decide +kernel, ok_of (by decide +kernel), by decide +kernel⟩
  · exact ⟨fields .rput, _, ctxAt .rput (fields .rput) (naming 239), 0, 239, runs_of (s := world (naming 239)) (by decide +kernel),
      by decide +kernel⟩
  · exact ⟨fields .rput, _, ctxAt .rput (fields .rput) (naming 240), 0, 240, runs_of (s := world (naming 240)) (by decide +kernel),
      by decide +kernel, ok_of (by decide +kernel), by decide +kernel⟩
  · exact ⟨fields .rput, _, ctxAt .rput (fields .rput) (naming 0), 0, runs_of (s := world (naming 0)) (by decide +kernel),
      by decide +kernel⟩

theorem hyp_FloatInstructionsComplete :
    (∀ o ∈ [Op.fadd, .fsub, .fmul, .ffma, .fmin, .fmax, .fsetc, .fclass, .frnd, .fscale],
      ∃ (x : Ops) (s : State) (c : Ctx) (n : Nat) (tb : Ty) (f : Nat → Nat → Nat → Nat × Fl),
        floatElem o x = some (n, tb, f) ∧ Runs o x s c ∧ c.maskSafe (anyPsn c n x.t tb x.t)) ∧
    (∀ o ∈ [Op.fdot2, .fdot4], ∃ (x : Ops) (s : State) (c : Ctx), Runs o x s c ∧
      c.maskSafe (anyPsn c 3 x.t (dotTys o x).1 (dotTys o x).2)) ∧
    (∃ (x : Ops) (s : State) (c : Ctx), Runs .cvt x s c ∧ c.maskSafe (cvtPsn c 1)) ∧
    (∃ (x : Ops) (s : State) (c : Ctx) (n : Nat), n = x.t.elems / (cvtSrc x).elems ∧ Runs .pack x s c ∧ c.maskSafe (cvtPsn c n)) ∧
    (∃ (x : Ops) (s : State) (c : Ctx), Runs .unpack x s c) := by
  refine ⟨fun o h => ?_, fun o h => ?_, ⟨_, _, _, hyp_Runs _, unmasked (by decide +kernel) _⟩,
    ⟨_, _, _, _, rfl, hyp_Runs _, unmasked (by decide +kernel) _⟩, ⟨_, _, _, hyp_Runs _⟩⟩
  · repeat (rcases List.mem_cons.mp h with rfl | h; · exact ⟨_, _, _, _, _, _, rfl, hyp_Runs _, unmasked (by decide +kernel) _⟩)
    cases h
  · repeat (rcases List.mem_cons.mp h with rfl | h; · exact ⟨_, _, _, hyp_Runs _, unmasked (by decide +kernel) _⟩)
    cases h

theorem hyp_FloatSpecialValues :
    ((FF.of .f32).val 0x7FA00000).isNan = true ∧ (FF.of .f32).val 0x7F800000 = .inf false ∧
    (FF.of .f32).val 0xFF800000 = .inf true ∧ (FF.of .f32).val 0 = .zero false ∧ (FF.of .f32).val 0x80000000 = .zero true ∧
    ((FF.of .f32).val 0).isNan = false ∧ ∃ p m e, (FF.of .f32).val 0x3F800000 = .fin p m e :=
  ⟨by decide, by decide, by decide, by decide, by decide, by decide, _, _, _, rfl⟩

theorem hyp_SpecialFunctionsComplete :
    (∀ o ∈ [Op.rcp, .rsq, .sqrt, .ex2, .lg2, .tanh, .sinp, .cosp], ∃ (x : Ops) (s : State) (c : Ctx), Runs o x s c ∧
      c.maskSafe (fun j => lwAny (sfuSource o c j))) ∧
    (∃ (x : Ops) (s : State) (c : Ctx), Runs .rred x s c) := by
  refine ⟨fun o h => ?_, ⟨_, _, _, hyp_Runs _⟩⟩
  repeat (rcases List.mem_cons.mp h with rfl | h; · exact ⟨_, _, _, hyp_Runs _, unmasked (by decide +kernel) _⟩)
  cases h

/-- The other form of POLL: a mask in three registers. -/
def pollMask : Ops := { fields .poll with m := 3 }

theorem hyp_LaneInstructionsComplete :
    (∀ o ∈ [Op.lxch, .poll, .redux, .fredux, .scan], ∃ (x : Ops) (s : State) (c : Ctx), Runs o x s c ∧ c.act = 0) ∧
    (∃ (x : Ops) (s : State) (c : Ctx), Runs .lxch x s c ∧ c.act ≠ 0 ∧ c.toMask = false) ∧
    (∃ (x : Ops) (s : State) (c : Ctx), Runs .poll x s c ∧ c.act ≠ 0 ∧ x.mf 0 2 ≠ 3 ∧ c.toMask = false) ∧
    (∃ (x : Ops) (s : State) (c : Ctx), Runs .poll x s c ∧ c.act ≠ 0 ∧ x.mf 0 2 = 3) ∧
    (∀ o ∈ [Op.redux, .fredux, .scan], ∃ (x : Ops) (s : State) (c : Ctx), Runs o x s c ∧ c.act ≠ 0 ∧ c.toMask = false) := by
  refine ⟨fun o _ => ⟨_, _, _, hyp_idle o⟩, ⟨_, _, _, hyp_Runs _, act_ne _, by decide +kernel⟩,
    ⟨_, _, _, hyp_Runs _, act_ne _, by decide +kernel, by decide +kernel⟩,
    ⟨pollMask, W .poll, ctxAt .poll pollMask (groupFor .poll), runs_of (by decide +kernel), by decide +kernel, by decide +kernel⟩,
    fun o h => ?_⟩
  repeat (rcases List.mem_cons.mp h with rfl | h; · exact ⟨_, _, _, hyp_Runs _, act_ne _, by decide +kernel⟩)
  cases h

theorem hyp_SystemNamesAreRead : ∃ (x : Ops) (s : State) (c : Ctx), Runs .rdsys x s c := ⟨_, _, _, hyp_Runs _⟩

/-! ### Control flow -/

/-- The word of LAND. -/
def landWord : Nat := 2 ^ 27 + 0x08A * 4 + 1

/-- The state with code at 0x2000 (LAND) and the pages in the instruction TLB. -/
def withCode (s : State) : State :=
  { s with
      ms := { s.ms with bytes := (leBytes 8 landWord).zipIdx.map (fun p => (0x202000 + p.2, p.1)) |>.filter (fun p => p.2 != 0) }
      tr := { s.tr with tlb := { at_ := .instr 0, ctx := 0, leaf := leaf0 } :: s.tr.tlb } }

theorem hyp_TransfersComplete :
    (∀ o ∈ [Op.bra, .call], ∃ (x : Ops) (s : State) (c : Ctx), Runs o x s c ∧ predAgree c ∧ c.act = 0) ∧
    (∀ o ∈ [Op.bra, .call], ∃ (x : Ops) (s : State) (c : Ctx), Runs o x s c ∧ predAgree c ∧ c.act ≠ 0 ∧
      c.outside c.target = false ∧
      (fallThrough c ++ [({ lanes := c.act, pc := c.target, target := true } : Out)]).length ≤ c.G.freeEntries.length + 1) ∧
    (∀ o ∈ [Op.brx, .callx, .ret], ∃ (x : Ops) (s : State) (c : Ctx), Runs o x s c ∧ predAgree c ∧ c.act = 0) ∧
    (∀ o ∈ [Op.brx, .callx, .ret], ∃ (x : Ops) (s : State) (c : Ctx) (ts : List (Nat × TClass)) (s1 : State), Runs o x s c ∧
      predAgree c ∧ c.act ≠ 0 ∧ (∀ j, c.act.has j = true → lwAny (c.opA .n64 j) = false) ∧ c.G.duplex = false ∧
      c.classifyAll (o != .ret) (targets c) (s.begun c.g) = (ts, s1) ∧ (∀ p ∈ ts, p.2 = .valid) ∧
      (fallThrough c ++ ts.map (fun p => ({ lanes := lanesTo c p.1, pc := BitVec.ofNat 64 p.1, target := true } : Out))).length ≤
        c.G.freeEntries.length + 1) := by
  refine ⟨fun o h => ?_, fun o h => ?_, fun o h => ?_, fun o h => ?_⟩
  · repeat (rcases List.mem_cons.mp h with rfl | h; · exact ⟨_, _, _, (hyp_idle _).1, agree_of rfl, (hyp_idle _).2⟩)
    cases h
  · repeat (rcases List.mem_cons.mp h with rfl | h;
            · exact ⟨_, _, _, hyp_Runs _, agree_of rfl, act_ne _, by decide +kernel, by decide +kernel⟩)
    cases h
  · repeat (rcases List.mem_cons.mp h with rfl | h; · exact ⟨_, _, _, (hyp_idle _).1, agree_of rfl, (hyp_idle _).2⟩)
    cases h
  · rcases List.mem_cons.mp h with rfl | h
    · exact ⟨fields .brx, withCode (W .brx), C .brx, _, _, runs_of (by decide +kernel), agree_of rfl, act_ne _,
        lanes_of (by decide +kernel), rfl, rfl, by decide +kernel, by decide +kernel⟩
    rcases List.mem_cons.mp h with rfl | h
    · exact ⟨fields .callx, withCode (W .callx), C .callx, _, _, runs_of (by decide +kernel), agree_of rfl, act_ne _,
        lanes_of (by decide +kernel), rfl, rfl, by decide +kernel, by decide +kernel⟩
    rcases List.mem_cons.mp h with rfl | h
    · exact ⟨fields .ret, withCode (W .ret), C .ret, _, _, runs_of (by decide +kernel), agree_of rfl, act_ne _,
        lanes_of (by decide +kernel), rfl, rfl, by decide +kernel, by decide +kernel⟩
    cases h

/-- A predicate that holds in lane 0 alone stands in v11. -/
def groupP : Group := group0 (both 11 1 0)

/-- Lanes 0 and 1 run in splits of their own. -/
def twoSplits : Group :=
  { group0 with splits := [{ pc := 0x1000, memb := 1, mask := 1, v := true }, { pc := 0x2000, memb := 2, mask := 2, v := true }] }

theorem hyp_ExitCompletes :
    (∃ (x : Ops) (s : State) (c : Ctx), Runs .exit x s c ∧ predAgree c ∧ c.act = 0) ∧
    (∃ (x : Ops) (s : State) (c : Ctx), Runs .exit x s c ∧ predAgree c ∧ c.act ≠ 0 ∧ c.sp.memb &&& ~~~ c.act ≠ 0) ∧
    (∃ (x : Ops) (s : State) (c : Ctx), Runs .exit x s c ∧ predAgree c ∧ c.act ≠ 0 ∧ c.sp.memb &&& ~~~ c.act = 0 ∧
      ∃ e, e ∈ c.G.valid ∧ e ≠ c.e) ∧
    (∃ (x : Ops) (s : State) (c : Ctx), Runs .exit x s c ∧ predAgree c ∧ c.act ≠ 0 ∧ c.sp.memb &&& ~~~ c.act = 0 ∧
      ∀ e ∈ c.G.valid, e = c.e) := by
  let x : Ops := { p := 11, pn := false }
  refine ⟨⟨_, _, _, (hyp_idle _).1, agree_of rfl, (hyp_idle _).2⟩,
    ⟨x, world groupP, ctxAt .exit x groupP, runs_of (by decide +kernel), agree_of rfl, by decide +kernel, by decide +kernel⟩,
    ⟨{}, world twoSplits, ctxAt .exit {} twoSplits, runs_of (by decide +kernel), agree_of rfl, by decide +kernel, by decide +kernel,
      1, by decide +kernel, by decide⟩,
    ⟨_, _, _, hyp_Runs _, agree_of rfl, act_ne _, by decide +kernel, by decide +kernel⟩⟩

theorem hyp_MasksSignaturesAndIdlingComplete :
    (∃ (x : Ops) (s : State) (c : Ctx), Runs .bmz x s c ∧ predAgree c ∧ c.act = 0 ∧ c.outside c.target = false) ∧
    (∃ (x : Ops) (s : State) (c : Ctx), Runs .bmnz x s c ∧ predAgree c ∧ c.act ≠ 0 ∧ c.outside c.target = false) ∧
    (∃ (x : Ops) (s : State) (c : Ctx), Runs .bmz x s c ∧ predAgree c ∧ c.act ≠ 0) ∧
    (∃ (x : Ops) (s : State) (c : Ctx), Runs .bmnz x s c ∧ predAgree c ∧ c.act = 0) ∧
    (∃ (x : Ops) (s : State) (c : Ctx), Runs .maskp x s c ∧ predAgree c) ∧
    (∃ (x : Ops) (s : State) (c : Ctx) (i : Nat), Runs .maskr x s c ∧ c.sp.memb.lowest = some i ∧
      ∀ b, b < 3 → (c.word (aReg x + b) i).psn = false) ∧
    (∀ o ∈ [Op.land, .nop, .yield], ∃ (x : Ops) (s : State) (c : Ctx), Runs o x s c ∧ predAgree c) ∧
    (∃ (x : Ops) (s : State) (c : Ctx), Runs .sig x s c ∧ c.sp.sig = x.m ++ x.d) := by
  refine ⟨⟨_, _, _, (hyp_idle _).1, agree_of rfl, (hyp_idle _).2, by decide +kernel⟩,
    ⟨_, _, _, hyp_Runs _, agree_of rfl, act_ne _, by decide +kernel⟩, ⟨_, _, _, hyp_Runs _, agree_of rfl, act_ne _⟩,
    ⟨_, _, _, (hyp_idle _).1, agree_of rfl, (hyp_idle _).2⟩, ⟨_, _, _, hyp_Runs _, agree_of rfl⟩,
    ⟨_, _, C _, 0, hyp_Runs _, by decide +kernel, by decide +kernel⟩, fun o h => ?_, ⟨_, _, _, hyp_Runs _, by decide +kernel⟩⟩
  repeat (rcases List.mem_cons.mp h with rfl | h; · exact ⟨_, _, _, hyp_Runs _, agree_of rfl⟩)
  cases h

theorem hyp_NeverOnlyGoesOn :
    ∃ (o : Op) (x : Ops) (s : State) (c : Ctx), s.context o x = some c ∧ s.wlog = [] ∧ isNever x = true ∧
      dynOk o x c.G (s.accOf c.T) = true ∧ (o.priv = true → c.G.lvl ≠ 0) ∧ (x.live = true → c.sp.chain < 9) ∧ c.seqOk = true := by
  let x : Ops := { fields .ld with pn := false, live := true }
  exact ⟨.ld, x, W .ld, ctxAt .ld x (groupFor .ld), by decide +kernel⟩

/-! ### Memory accesses -/

/-- What passes a check, and the state after it. -/
def passed {α : Type} (r : Chk (List α)) : List α := match r with | .go a _ => a | .stop _ => []

/-- The state after a check. -/
def after {α : Type} (r : Chk α) : State := match r with | .go _ s => s | .stop s => s

/-- The check lets its accesses pass. -/
def goes {α : Type} (r : Chk α) : Bool := match r with | .go _ _ => true | .stop _ => false

theorem go_eq {α : Type} {r : Chk (List α)} (h : goes r = true) : r = .go (passed r) (after r) := by
  cases r with
  | go a s => rfl
  | stop s => cases h

theorem triple {α β γ : Type} {r : α × β × γ} {b : β} (h : r.2.1 = b) : r = (r.1, b, r.2.2) := by
  rw [← h]

theorem two {α : Type} {P : α → Prop} {a b : α} (h1 : P a) (h2 : P b) : ∀ o ∈ [a, b], P o := by
  intro o h
  rcases List.mem_cons.mp h with rfl | h
  · exact h1
  · cases List.mem_singleton.mp h; exact h2

/-- A request of lane 0 at 2^56 − 1, whose second byte no pointer may name. -/
def req0 : Req := { lane := 0, a := 2 ^ 56 - 1 }

/-- The galley form of the fields of an opcode: base 0x100 in v10. -/
def galFields (o : Op) : Ops := { fields o with a := v 10, m := 8 }

/-- The context of the galley form. -/
def Cg (o : Op) : Ctx := ctxAt o (galFields o) (groupFor o)

theorem hyp_AccessesAreChecked :
    (∃ (c : Ctx) (size : Nat) (rs : List Req) (r : Req) (rest : List Req),
      rs.filter (fun r => badRange r.a.toNat size c.user) = r :: rest) ∧
    (∃ (c : Ctx) (s s1 : State) (rs : List Req) (ls : List Lane1), rs ≠ [] ∧ c.globalReq s 4 4 .read false false rs = .go ls s1) ∧
    (∃ (c : Ctx) (s : State) (size al u : Nat) (acc : Acc) (atom hem : Bool) (rs : List Req) (l : Leaf) (pa : Req → Nat),
      rs ≠ [] ∧ c.sp.kept u = none ∧ tlbFind s c.k c.ctx (u * 65536) false = some l ∧ l.allows acc c.user = true ∧
      (∀ r ∈ rs, badRange r.a.toNat size c.user = false ∧ inPage r size ∧ vaUnit r.a.toNat = u ∧
        l.pa s c.ctx r.a.toNat = some (pa r) ∧ ((atom = true ∨ l.mem = 2) → r.a.toNat % al = 0) ∧
        (r.psn = true → hem = false ∧ (paRegion (pa r) = 0 ∨ 4 ≤ paRegion (pa r))) ∧
        s.heldBefore { g := c.g, seq := c.G.seq, kind := .load, ctx := c.ctx } s.ms.next 0 r.a.toNat size = none) ∧ (atom = true → l.mem ≠ 2)) := by
  refine ⟨⟨C .ld, 2, [req0], req0, [], by decide +kernel⟩, ⟨C .ld, (W .ld).begun 1, _, accesses (C .ld) false, _, by decide +kernel,
    go_eq (by decide +kernel)⟩, ?_⟩
  refine ⟨C .ld, W .ld, 4, 4, 0, .atom, true, false, [{ lane := 0, a := 0xFFC, psn := true }], leaf0,
      fun _ => 0x200FFC, by decide +kernel, by decide +kernel, by decide +kernel, by decide +kernel, ?_, by decide⟩
  intro r hr
  cases List.mem_singleton.mp hr
  exact ⟨by decide +kernel, ⟨by decide, by decide⟩, by decide +kernel, by decide +kernel, fun _ => by decide,
    fun _ => by decide +kernel, by decide +kernel⟩

theorem hyp_LoadsComplete :
    (∀ o ∈ [Op.ld, .ldacq], isLoad o ∧ ∃ (x : Ops) (s : State) (c : Ctx), Runs o x s c ∧ c.act = 0) ∧
    (∀ o ∈ [Op.ld, .ldacq], ∃ (x : Ops) (s : State) (c : Ctx) (ls : List Lane1) (s1 : State) (tk : Option Nat),
      Runs o x s c ∧ c.act ≠ 0 ∧ (x.mf 3 1 == 1) = false ∧ (∀ r ∈ accesses c false, r.aPsn = false) ∧
      c.globalReq (s.begun c.g) (accSize c) (accSize c) .read false false (accesses c false) = .go ls s1 ∧
      (∀ l ∈ ls, l.2 = none) ∧ c.loadTicket = some tk) ∧
    (∀ o ∈ [Op.ld, .ldacq], ∃ (x : Ops) (s : State) (c : Ctx) (gs : List Gal1) (s1 : State) (tk : Option Nat),
      Runs o x s c ∧ c.act ≠ 0 ∧ (x.mf 3 1 == 1) = true ∧ (∀ r ∈ accesses c true, r.aPsn = false) ∧
      c.galleyReq (s.begun c.g) (accSize c) false false (accesses c true) = .go gs s1 ∧
      s1.heldBehind c.g c.ctx (accSize c) (gs.map (fun g => g.r)) = none ∧ c.loadTicket = some tk ∧ ∀ g ∈ gs, g.ls = []) :=
  ⟨two ⟨.inl rfl, _, _, _, hyp_idle _⟩ ⟨.inr rfl, _, _, _, hyp_idle _⟩,
    two
      ⟨_, _, _, _, _, some 0, hyp_Runs .ld, act_ne _, by decide +kernel, by decide +kernel, go_eq (by decide +kernel),
        by decide +kernel, by decide +kernel⟩
      ⟨_, _, _, _, _, some 0, hyp_Runs .ldacq, act_ne _, by decide +kernel, by decide +kernel, go_eq (by decide +kernel),
        by decide +kernel, by decide +kernel⟩,
    two
      ⟨galFields .ld, W .ld, Cg .ld, _, _, some 0, runs_of (by decide +kernel), by decide +kernel, by decide +kernel,
        by decide +kernel, go_eq (by decide +kernel), by decide +kernel, by decide +kernel, by decide +kernel⟩
      ⟨galFields .ldacq, W .ldacq, Cg .ldacq, _, _, some 0, runs_of (by decide +kernel), by decide +kernel, by decide +kernel,
        by decide +kernel, go_eq (by decide +kernel), by decide +kernel, by decide +kernel, by decide +kernel⟩⟩

/-- The group whose release for the instruction at hand is done. -/
def released (o : Op) : Group :=
  { groupFor o with splits := [{ pc := 0x1000, memb := 3, mask := 3, v := true, relDone := true }] }

/-- The state of that group. -/
def Wr (o : Op) : State := world (released o)

theorem hyp_StoresComplete :
    (∀ o ∈ [Op.st, .strel], ∃ (x : Ops) (s : State) (c : Ctx), Runs o x s c ∧ c.act = 0) ∧
    (∀ o ∈ [Op.st, .strel], ∃ (x : Ops) (s : State) (c : Ctx) (ls : List Lane1) (s1 : State), Runs o x s c ∧
      c.sp.relDone = true ∧ c.G.lostst = false ∧ c.act ≠ 0 ∧ (x.mf 3 1 == 1) = false ∧ (∀ r ∈ storing c false, r.aPsn = false) ∧
      pairsEqual c (c.storeReq false) ∧
      c.globalReq (s.begun c.g) (accSize c) (accSize c) .write false false (storing c false) = .go ls s1 ∧ ∀ l ∈ ls, l.2 = none) ∧
    (∀ o ∈ [Op.st, .strel], ∃ (x : Ops) (s : State) (c : Ctx) (gs : List Gal1) (s1 : State), Runs o x s c ∧
      c.sp.relDone = true ∧ c.G.lostst = false ∧ c.act ≠ 0 ∧ (x.mf 3 1 == 1) = true ∧ (∀ r ∈ storing c true, r.aPsn = false) ∧
      pairsEqual c (c.storeReq true) ∧
      c.galleyReq (s.begun c.g) (accSize c) true false (storing c true) = .go gs s1 ∧ (∀ g ∈ gs, g.ls = []) ∧
      (∀ r ∈ storing c true, ∀ i, i < accSize c → c.T.lineAt (r.a.toNat + i) = none) ∧
      s1.heldBehind c.g c.ctx (accSize c) (gs.map (fun g => g.r)) = none) :=
  ⟨two ⟨_, _, _, hyp_idle _⟩ ⟨_, _, _, hyp_idle _⟩,
    two
      ⟨fields .st, Wr .st, ctxAt .st (fields .st) (released .st), _, _, runs_of (by decide +kernel), rfl, rfl, by decide +kernel,
        by decide +kernel, by decide +kernel, pairs_of rfl, go_eq (by decide +kernel), by decide +kernel⟩
      ⟨fields .strel, Wr .strel, ctxAt .strel (fields .strel) (released .strel), _, _, runs_of (by decide +kernel), rfl, rfl, by decide +kernel,
        by decide +kernel, by decide +kernel, pairs_of rfl, go_eq (by decide +kernel), by decide +kernel⟩,
    two
      ⟨galFields .st, Wr .st, ctxAt .st (galFields .st) (released .st), _, _, runs_of (by decide +kernel), rfl, rfl, by decide +kernel,
        by decide +kernel, by decide +kernel, pairs_of rfl, go_eq (by decide +kernel), by decide +kernel, by decide +kernel,
        by decide +kernel⟩
      ⟨galFields .strel, Wr .strel, ctxAt .strel (galFields .strel) (released .strel), _, _, runs_of (by decide +kernel), rfl, rfl,
        by decide +kernel, by decide +kernel, by decide +kernel, pairs_of rfl, go_eq (by decide +kernel), by decide +kernel,
        by decide +kernel, by decide +kernel⟩⟩

theorem hyp_AtomicsComplete :
    (∀ o ∈ [Op.atom, .red], ∃ (x : Ops) (s : State) (c : Ctx), Runs o x s c ∧ c.act = 0) ∧
    (∀ o ∈ [Op.atom, .red], ∃ (x : Ops) (s : State) (c : Ctx) (ls : List Lane1) (s1 : State) (tk : Option Nat), Runs o x s c ∧
      x.mf 7 1 = 1 ∧ c.sp.relDone = true ∧ c.G.lostst = false ∧ c.act ≠ 0 ∧ (∀ r ∈ c.accLanes.map c.atomReq, r.aPsn = false) ∧
      pairsEqual c c.atomReq ∧
      c.globalReq (s.begun c.g) 4 4 (if o = .atom then .atom else .write) true false (c.accLanes.map c.atomReq) = .go ls s1 ∧
      (∀ l ∈ ls, l.2 = none) ∧ (if o = .atom ∧ x.d ≠ 0 then tk = c.G.freeTicket ∧ tk ≠ none else tk = none)) := by
  let x1 : Ops := { fields .atom with m := 0x80 }
  let x2 : Ops := { fields .red with m := 0x80 }
  exact ⟨two ⟨_, _, _, hyp_idle _⟩ ⟨_, _, _, hyp_idle _⟩,
    two
      ⟨x1, Wr .atom, ctxAt .atom x1 (released .atom), _, _, some 0, runs_of (by decide +kernel), by decide, rfl, rfl,
        by decide +kernel, by decide +kernel, pairs_of rfl, go_eq (by decide +kernel), by decide +kernel, by decide +kernel⟩
      ⟨x2, Wr .red, ctxAt .red x2 (released .red), _, _, none, runs_of (by decide +kernel), by decide, rfl, rfl,
        by decide +kernel, by decide +kernel, pairs_of rfl, go_eq (by decide +kernel), by decide +kernel, by decide +kernel⟩⟩

/-- The fields of an instruction over an empty range. -/
def emptyX (o : Op) : Ops := { fields o with b := v 4 }

theorem hyp_WindowsAndPrefetchesComplete :
    (∀ o, ∃ (x : Ops) (s : State) (c : Ctx), Runs o x s c ∧ c.act = 0) ∧
    (∃ (x : Ops) (s : State) (c : Ctx) (i g len va : Nat), Runs .stash x s c ∧ c.act.lowest = some i ∧
      (c.opA .n32 i).pLo = false ∧ lwAny (c.opB .n64 i) = false ∧ (c.opC .n32 i).pLo = false ∧
      (lwLo (c.opA .n32 i)).toNat = g ∧ (c.opB .n64 i).val.toNat = va ∧ (lwLo (c.opC .n32 i)).toNat = len ∧
      g % 128 = 0 ∧ len ≠ 0 ∧ len % 128 = 0 ∧ 16 * s.bbarsOf c.T ≤ g ∧ g + len ≤ s.galSizeOf c.T ∧
      c.T.overlapsWindow (x.mf 0 3) g len = false ∧ va % 128 = 0 ∧ badRange va len c.user = false ∧
      s.heldWindow c.G.team c.T (fun l => l.w == x.mf 0 3) = none) ∧
    (∃ (x : Ops) (s : State) (c : Ctx), Runs .unstash x s c ∧ c.act ≠ 0 ∧
      s.heldWindow c.G.team c.T (fun l => x.mf 3 1 == 1 || l.w == x.mf 0 3) = none) ∧
    (∀ o ∈ [Op.flush, .inval], ∃ (x : Ops) (s : State) (c : Ctx) (base len : Nat), Runs o x s c ∧
      s.heldWindow c.G.team c.T (fun l => l.inRange (x.mf 3 1 == 1) base len) = none ∧ namesRange c s (x.mf 3 1 == 1) base len) ∧
    (∀ o ∈ [Op.flush, .inval], ∃ (x : Ops) (s : State) (c : Ctx) (i : Nat), Runs o x s c ∧ c.act.lowest = some i ∧
      lwAny (if x.mf 3 1 == 1 then c.opA .n32 i else c.opA .n64 i) = false ∧ (c.opB .n32 i).pLo = false ∧
      lwLo (c.opB .n32 i) = 0) ∧
    (∃ (x : Ops) (s s1 : State) (c : Ctx) (xs : List (Nat × Xl)), Runs .pref x s c ∧ (∀ r ∈ accesses c false, r.aPsn = false) ∧
      c.resolve (s.begun c.g) (((accesses c false).filter (fun r => !ptrBad r.a.toNat c.user)).map (fun r => vaUnit r.a.toNat)) =
        (xs, none, s1)) :=
  ⟨fun o => ⟨_, _, _, hyp_idle o⟩,
    ⟨_, _, _, 0, 128, 128, 0x2000, hyp_Runs _, act_low _, by decide +kernel⟩, ⟨_, _, _, hyp_Runs _, act_ne _, by decide +kernel⟩,
    two ⟨_, _, C .flush, 0x2000, 128, hyp_Runs _, by decide +kernel, 0, act_low _, by decide +kernel⟩
      ⟨_, _, C .inval, 0x2000, 128, hyp_Runs _, by decide +kernel, 0, act_low _, by decide +kernel⟩,
    two
      ⟨emptyX .flush, W .flush, ctxAt .flush (emptyX .flush) (groupFor .flush), 0, runs_of (by decide +kernel), by decide +kernel,
        by decide +kernel, by decide +kernel, by decide +kernel⟩
      ⟨emptyX .inval, W .inval, ctxAt .inval (emptyX .inval) (groupFor .inval), 0, runs_of (by decide +kernel), by decide +kernel,
        by decide +kernel, by decide +kernel, by decide +kernel⟩,
    ⟨_, _, _, C .pref, _, hyp_Runs _, by decide +kernel, triple (by decide +kernel)⟩⟩

/-! ### Copies, barriers, the Platen, fences, Seam, code -/

theorem passes_first {r : XRes} {l : Leaf} {pa : Nat} (h : r = .ok l pa) (hm : l.mem ≠ 2) :
    (∀ cause, r ≠ .fatal cause) ∧ ∀ l pa, r = .ok l pa → l.mem ≠ 2 := by
  subst h
  refine ⟨fun _ h => ?_, fun _ _ h => ?_⟩
  · cases h
  · cases h; exact hm

/-- A copy whose first byte is at `va` passes. -/
theorem copy_passes {c : Ctx} {s : State} {cp : Copy} {va : Nat} {l : Leaf} {pa : Nat} (h0 : cp.total ≠ 0)
    (h1 : cp.galOut (16 * s.bbarsOf c.T) (s.galSizeOf c.T) = none) (h2 : cp.globalOut = none) (h3 : s.copiesOn c.k < 64)
    (h4 : cp.first = some va) (h5 : (c.resolve (s.begun c.g) [vaUnit va]).2.1 = none)
    (h6 : c.lookup (c.resolve (s.begun c.g) [vaUnit va]).2.2 (c.resolve (s.begun c.g) [vaUnit va]).1 va
      (if cp.out then .write else .read) = .ok l pa) (h7 : l.mem ≠ 2) :
    CopyPasses c s (c.resolve (s.begun c.g) [vaUnit va]).2.2 cp := by
  refine ⟨h0, h1, h2, h3, ?_⟩
  rw [h4]
  exact ⟨_, triple h5, passes_first h6 h7⟩

/-- A layout record at galley offset 256: an image of one element at address 0 and an output of one element of 4 bytes. -/
def teamL : Team :=
  { team0 with galley := [(264, 1), (266, 1), (272, 1), (274, 1), (276, 1), (277, 1), (278, 4), (280, 4), (282, 4)] }

/-- The fields of a CPYL without a tap. -/
def cpylX : Ops := { fields .cpyl with c := v 4 }

/-- An empty row. -/
def emptyRow (o : Op) : Ops := { fields o with c := v 4 }

theorem hyp_CopiesComplete :
    (∀ o, ∃ (x : Ops) (s : State) (c : Ctx), Runs o x s c ∧ c.act = 0) ∧
    (∀ o ∈ [Op.cpy, .cpys], ∃ (x : Ops) (s : State) (c : Ctx) (i : Nat), Runs o x s c ∧ c.act.lowest = some i ∧
      (c.opA .n32 i).pLo = false ∧ lwAny (c.opB .n64 i) = false ∧ x.mf 0 1 ≠ 1 ∧ (c.opC .n32 i).pLo = false ∧
      barOk c s (copyBar x) ∧ (rowsCopy o c i).total = 0 ∧ s.copiesOn c.k < 64 ∧ Map.has s.eng.copies s.eng.next = false) ∧
    (∀ o ∈ [Op.cpy, .cpys], ∃ (x : Ops) (s : State) (c : Ctx) (i : Nat) (s1 : State), Runs o x s c ∧ c.act.lowest = some i ∧
      (c.opA .n32 i).pLo = false ∧ lwAny (c.opB .n64 i) = false ∧ x.mf 0 1 ≠ 1 ∧ (c.opC .n32 i).pLo = false ∧
      barOk c s (copyBar x) ∧ CopyPasses c s s1 (rowsCopy o c i)) ∧
    (∃ (x : Ops) (s : State) (c : Ctx) (i ro : Nat) (s1 : State), Runs .cpyl x s c ∧ c.act.lowest = some i ∧
      (c.opA .n32 i).pLo = false ∧ (c.opB .n32 i).pLo = false ∧ (c.opC .b32 i).pLo = false ∧
      (lwLo (c.opB .n32 i)).toNat = ro ∧ ro % 32 = 0 ∧ 16 * s.bbarsOf c.T ≤ ro ∧ ro + 32 ≤ s.galSizeOf c.T ∧
      c.T.gmarked ro 32 = false ∧ s.heldBehind c.g c.ctx 32 [{ lane := i, a := (ro : Int) }] = none ∧ barOk c s (copyBar x) ∧
      (let r := leNat (c.T.gbs ro 32)
       (fld r 64 16 ≠ 0 ∧ fld r 80 16 ≠ 0 ∧ fld r 128 16 ≠ 0 ∧ fld r 144 16 ≠ 0 ∧ fld r 160 8 ≠ 0 ∧ fld r 168 8 ≠ 0 ∧
        fld r 176 16 ≠ 0 ∧ fld r 216 8 = 0) ∧ CopyPasses c s s1 (layoutCopy c i r))) ∧
    (∃ (x : Ops) (s s1 : State) (c : Ctx) (ls : List Lane1) (tk : Option Nat), Runs .cpyg x s c ∧ c.act ≠ 0 ∧ x.mf 5 1 ≠ 1 ∧
      (∀ r ∈ accesses c false, r.aPsn = false) ∧
      c.globalReq (s.begun c.g) (4 * (x.mf 0 5 + 1)) 4 .read true false (accesses c false) = .go ls s1 ∧
      (∀ l ∈ ls, l.2 = none) ∧ c.loadTicket = some tk) ∧
    (∃ (x : Ops) (s s1 : State) (c : Ctx) (gs : List Gal1) (tk : Option Nat), Runs .cpyg x s c ∧ c.act ≠ 0 ∧ x.mf 5 1 = 1 ∧
      (∀ r ∈ accesses c true, r.aPsn = false) ∧
      c.galleyReq (s.begun c.g) (4 * (x.mf 0 5 + 1)) false false (accesses c true) = .go gs s1 ∧
      s1.heldBehind c.g c.ctx (4 * (x.mf 0 5 + 1)) (gs.map (fun g => g.r)) = none ∧ c.loadTicket = some tk) := by
  let xg : Ops := { fields .cpyg with a := v 10, m := 33 }
  refine ⟨fun o => ⟨_, _, _, hyp_idle o⟩,
    two
      ⟨emptyRow .cpy, W .cpy, ctxAt .cpy (emptyRow .cpy) (groupFor .cpy), 0, runs_of (by decide +kernel), by decide +kernel,
        by decide +kernel, by decide +kernel, by decide, by decide +kernel, (fun n h => by cases h), by decide +kernel, by decide +kernel, by decide +kernel⟩
      ⟨emptyRow .cpys, W .cpys, ctxAt .cpys (emptyRow .cpys) (groupFor .cpys), 0, runs_of (by decide +kernel), by decide +kernel,
        by decide +kernel, by decide +kernel, by decide, by decide +kernel, (fun n h => by cases h), by decide +kernel, by decide +kernel, by decide +kernel⟩,
    two
      ⟨_, W .cpy, C .cpy, 0, _, hyp_Runs _, act_low _, by decide +kernel, by decide +kernel, by decide, by decide +kernel,
        (fun n h => by cases h), copy_passes (va := 0x2000) (l := leaf0) (pa := 0x202000) (by decide +kernel) (by decide +kernel)
          (by decide +kernel) (by decide +kernel) (by decide +kernel) (by decide +kernel) (by decide +kernel) (by decide)⟩
      ⟨_, W .cpys, C .cpys, 0, _, hyp_Runs _, act_low _, by decide +kernel, by decide +kernel, by decide, by decide +kernel,
        (fun n h => by cases h), copy_passes (va := 0x2000) (l := leaf0) (pa := 0x202000) (by decide +kernel) (by decide +kernel)
          (by decide +kernel) (by decide +kernel) (by decide +kernel) (by decide +kernel) (by decide +kernel) (by decide)⟩,
    ⟨cpylX, world (groupFor .cpyl) teamL, ctxAt .cpyl cpylX (groupFor .cpyl) teamL, 0, 256, _, runs_of (by decide +kernel),
      by decide +kernel, by decide +kernel, by decide +kernel, by decide +kernel, by decide +kernel, by decide, by decide +kernel,
      by decide +kernel, by decide +kernel, by decide +kernel, (fun n h => by cases h), by decide +kernel,
      copy_passes (va := 0) (l := leaf0) (pa := 0x200000) (by decide +kernel) (by decide +kernel) (by decide +kernel)
        (by decide +kernel) (by decide +kernel) (by decide +kernel) (by decide +kernel) (by decide)⟩,
    ⟨_, _, _, _, _, some 0, hyp_Runs .cpyg, act_ne _, by decide, by decide +kernel, go_eq (by decide +kernel), by decide +kernel,
      by decide +kernel⟩,
    ⟨xg, W .cpyg, _, ctxAt .cpyg xg (groupFor .cpyg), _, some 0, runs_of (by decide +kernel), by decide +kernel, by decide,
      by decide +kernel, go_eq (by decide +kernel), by decide +kernel, by decide +kernel⟩⟩

theorem hyp_BarriersAndBatchesComplete :
    (∀ o, ∃ (x : Ops) (s : State) (c : Ctx), Runs o x s c ∧ c.act = 0) ∧
    (∃ (x : Ops) (s : State) (c : Ctx) (n v : Nat), Runs .bbinit x s c ∧ namesBar c s n v ∧ 1 ≤ v ∧ v ≤ 65535) ∧
    (∃ (x : Ops) (s : State) (c : Ctx) (n v : Nat), Runs .bbexp x s c ∧ namesBar c s n v) ∧
    (∃ (x : Ops) (s : State) (c : Ctx) (n v : Nat), Runs .bbarr x s c ∧ namesBar c s n v ∧ c.sp.relDone = true) ∧
    (∃ (x : Ops) (s : State) (c : Ctx) (n v : Nat), Runs .bbwait x s c ∧ namesBar c s n v ∧
      ((c.T.bb n).ph ≠ decide (v % 2 = 1) ∨ c.sp.arrived ≠ 0)) ∧
    (∃ (x : Ops) (s : State) (c : Ctx), Runs .seal x s c ∧ c.act ≠ 0 ∧ c.sp.arrived = 0 ∧
      ∀ k, k < 4 → x.m.getLsbD k = true → (c.G.bat k).sealedOps.length < 63) ∧
    (∃ (x : Ops) (s : State) (c : Ctx) (i : Nat), Runs .waitb x s c ∧ c.act.lowest = some i ∧
      (c.G.bat (x.mf 0 2)).sealedOps.length ≤ (if (c.opA .n32 i).pLo then 0 else min (lwLo (c.opA .n32 i)).toNat 63)) ∧
    (∃ (s : State) (g cls n : Nat) (G : Group) (rest : List (Nat × Nat)), s.grp g = some G ∧
      (G.bat cls).sealedOps = (n, 0) :: rest) :=
  ⟨fun o => ⟨_, _, _, hyp_idle o⟩,
    ⟨_, _, C .bbinit, 3, 1, hyp_Runs _, ⟨0, act_low _, by decide +kernel⟩, by decide, by decide⟩,
    ⟨_, _, C .bbexp, 3, 0, hyp_Runs _, ⟨0, act_low _, by decide +kernel⟩⟩,
    ⟨fields .bbarr, Wr .bbarr, ctxAt .bbarr (fields .bbarr) (released .bbarr), 3, 1, runs_of (by decide +kernel),
      ⟨0, by decide +kernel, by decide +kernel⟩, rfl⟩,
    ⟨_, _, C .bbwait, 3, 1, hyp_Runs _, ⟨0, act_low _, by decide +kernel⟩, .inl (by decide +kernel)⟩,
    ⟨_, _, _, hyp_Runs _, act_ne _, by decide +kernel, by decide +kernel⟩,
    ⟨_, _, _, 0, hyp_Runs _, act_low _, by decide +kernel⟩,
    ⟨world { group0 with bat0 := { opened := 1, sealedOps := [(0, 0)] } }, 1, 0, 0, _, [], rfl, rfl⟩⟩

/-- The galley form of a drain. -/
def drainX (o : Op) : Ops := 
  { fields o with
      fmt := if o = .mdrainmx then .b else .a, d := 0, m := 8, a := .imm 256, b := v 4
      c := if o = .mdrainmx then .imm 400 else Opd.zero }

theorem none_of {α : Type} {o : Option α} {P : α → Prop} (h : o = none) : ∀ a, o = some a → P a := by
  intro a ha; rw [h] at ha; cases ha

/-- The group whose arrival at a barrier has been counted, or whose queued operations are done. -/
def hasArrived : Group := { group0 regs0 with splits := [{ pc := 0x1000, memb := 3, mask := 3, v := true, arrived := 1 }] }

/-- MSTAT of a counter of tile 0. -/
def satX : Ops := { fields .mstat with m := 8 }

/-- A later operation of the tile waits in the Platen. -/
def busyTile : State :=
  let s := world hasArrived
  { s with eng := { s.eng with pops := [(5, { g := 1, team := 1, core := 0, tile := 0, rows := 3, seq := 9, kind := .mzero })] } }

theorem hyp_PlatenInstructionsComplete :
    (∀ o, ∃ (x : Ops) (s : State) (c : Ctx), Runs o x s c ∧ c.act = 0) ∧
    (∃ (x : Ops) (s : State) (c : Ctx) (i : Nat), Runs .mloop x s c ∧ c.act.lowest = some i ∧ (c.opA .n32 i).pLo = false ∧
      x.c = Opd.zero ∧
      (let m := c.mloopOf i
       (∀ g, m.gate = some g → g.1 < s.bbarsOf c.T) ∧ (∀ k, k < m.ks → inGalley c s (m.b0 + m.binc * k) (64 * blockBytes m.tb)) ∧
       (∀ b, m.bs = some b → inGalley c s b (64 * m.ks)) ∧ (∀ L, c.G.alatch = some L → L.t = m.ta ∧ L.ks = m.ks) ∧
       s.popsOn c.k < 16)) ∧
    (∃ (x : Ops) (s : State) (c : Ctx), Runs .mzero x s c ∧ c.act ≠ 0 ∧ s.popsOn c.k < 16) ∧
    (∀ o ∈ [Op.mdrain, .mdrainmx], ∃ (x : Ops) (s : State) (c : Ctx) (tk : Nat), Runs o x s c ∧ c.act ≠ 0 ∧ s.popsOn c.k < 16 ∧
      x.mf 3 1 = 0 ∧ c.G.freeTicket = some tk) ∧
    (∀ p ∈ [(Op.mdrain, (none : Option Ty)), (.mdrainmx, some .e4m3)], ∃ (x : Ops) (s : State) (c : Ctx) (i : Nat),
      x.t = p.2.getD .i32 ∧ Runs p.1 x s c ∧
      s.popsOn c.k < 16 ∧ x.mf 3 1 = 1 ∧ c.act.lowest = some i ∧ (c.opA .n32 i).pLo = false ∧ (c.opB .n32 i).pLo = false ∧
      (c.opC .n32 i).pLo = false ∧ (galleyDrain c p.2 i).bb = none ∧
      ∀ j, j < 96 → c.ex.has j = true →
        inGalley c s ((galleyDrain c p.2 i).g + (galleyDrain c p.2 i).rs * j) (rowBytes p.2) ∧
        (p.2 ≠ none → inGalley c s ((galleyDrain c p.2 i).sg + 2 * j) 2)) ∧
    (∃ (x : Ops) (s : State) (c : Ctx), Runs .mstat x s c ∧ c.act ≠ 0 ∧ x.mf 3 3 ≠ 0 ∧ s.tileQueue c.G.team (x.mf 0 3) = []) ∧
    (∃ (x : Ops) (s : State) (c : Ctx), Runs .mstat x s c ∧ c.act ≠ 0 ∧ x.mf 3 3 ≠ 0 ∧ s.tileQueue c.G.team (x.mf 0 3) ≠ [] ∧
      c.sp.arrived ≠ 0) := by
  refine ⟨fun o => ⟨_, _, _, hyp_idle o⟩,
    ⟨_, _, C .mloop, 0, hyp_Runs _, act_low _, by decide +kernel, rfl, none_of (by decide +kernel), by unfold inGalley; decide +kernel,
      none_of (by decide +kernel), none_of (by decide +kernel), by decide +kernel⟩,
    ⟨_, _, _, hyp_Runs _, act_ne _, by decide +kernel⟩,
    two ⟨_, _, _, 0, hyp_Runs .mdrain, act_ne _, by decide +kernel, by decide, by decide +kernel⟩
      ⟨_, _, _, 0, hyp_Runs .mdrainmx, act_ne _, by decide +kernel, by decide, by decide +kernel⟩, ?_,
    ⟨satX, W .mstat, ctxAt .mstat satX (groupFor .mstat), runs_of (by decide +kernel), by decide +kernel, by decide, by decide +kernel⟩,
    ⟨satX, busyTile, ctxAt .mstat satX hasArrived, runs_of (by decide +kernel), by decide +kernel, by decide, by decide +kernel,
      by decide⟩⟩
  intro p hp
  rcases List.mem_cons.mp hp with rfl | hp
  · exact ⟨drainX .mdrain, W .mdrain, ctxAt .mdrain (drainX .mdrain) (groupFor .mdrain), 0, rfl, runs_of (by decide +kernel),
      by decide +kernel, by decide, by decide +kernel, by decide +kernel, by decide +kernel, by decide +kernel, by decide +kernel,
      by unfold inGalley; decide +kernel⟩
  · cases List.mem_singleton.mp hp
    exact ⟨drainX .mdrainmx, W .mdrainmx, ctxAt .mdrainmx (drainX .mdrainmx) (groupFor .mdrainmx), 0, rfl,
      runs_of (by decide +kernel), by decide +kernel, by decide, by decide +kernel, by decide +kernel, by decide +kernel,
      by decide +kernel, by decide +kernel, by unfold inGalley; decide +kernel⟩


theorem hyp_FencesAndTeamBarriersComplete :
    (∀ o ∈ [Op.fence, .bar], ∃ (x : Ops) (s : State) (c : Ctx), Runs o x s c ∧ c.act = 0) ∧
    (∃ (x : Ops) (s : State) (c : Ctx), Runs .fence x s c ∧ c.act ≠ 0 ∧ c.sp.relDone = false) ∧
    (∃ (x : Ops) (s : State) (c : Ctx), Runs .fence x s c ∧ c.act ≠ 0 ∧ c.sp.relDone = true ∧ c.G.lostst = false) ∧
    (∃ (x : Ops) (s : State) (c : Ctx), Runs .bar x s c ∧ c.act ≠ 0 ∧ c.sp.arrived ≠ 0) ∧
    (∃ (x : Ops) (s : State) (c : Ctx) (i : Nat), Runs .bar x s c ∧ c.act.lowest = some i ∧ c.sp.arrived = 0 ∧
      c.sp.relDone = true ∧ (c.opA .n32 i).pLo = false) :=
  ⟨fun o _ => ⟨_, _, _, hyp_idle o⟩, ⟨_, _, _, hyp_Runs .fence, act_ne _, rfl⟩,
    ⟨fields .fence, Wr .fence, ctxAt .fence (fields .fence) (released .fence), runs_of (by decide +kernel), by decide +kernel, rfl,
      rfl⟩,
    ⟨fields .bar, world hasArrived, ctxAt .bar (fields .bar) hasArrived, runs_of (by decide +kernel), by decide +kernel, by decide⟩,
    ⟨fields .bar, Wr .bar, ctxAt .bar (fields .bar) (released .bar), 0, runs_of (by decide +kernel), by decide +kernel, rfl, rfl,
      by decide +kernel⟩⟩

/-- A team with route 0. -/
def teamR : Team := { team0 with routes := [(0, [0])] }

/-- The state of that team. -/
def Ws (o : Op) : State := world (groupFor o) teamR

/-- The context of that team. -/
def Cs (o : Op) : Ctx := ctxAt o (fields o) (groupFor o) teamR

/-- SEAMSEND.rel. -/
def sendX : Ops := { fields .seamsend with d := 16 }

theorem hyp_SeamInstructionsComplete :
    (∀ o, ∃ (x : Ops) (s : State) (c : Ctx), Runs o x s c ∧ c.act = 0) ∧
    (∃ (x : Ops) (s : State) (c : Ctx), Runs .seamsend x s c ∧ c.act ≠ 0 ∧ seamReady c s ∧ x.d.getLsbD 4 = false) ∧
    (∃ (x : Ops) (s : State) (c : Ctx), Runs .seamsend x s c ∧ c.act ≠ 0 ∧ seamReady c s ∧ x.d.getLsbD 4 = true ∧
      c.sp.relDone = true ∧ c.G.lostst = false) ∧
    (∀ o ∈ [Op.seamred, .seambc], ∃ (x : Ops) (s : State) (c : Ctx), Runs o x s c ∧ c.act ≠ 0 ∧ seamReady c s ∧
      s.launchLost c.T = false) ∧
    (∃ (x : Ops) (s : State) (c : Ctx) (tk : Nat), Runs .seamrecv x s c ∧ c.act ≠ 0 ∧ s.seamLoad c.k < 16 ∧
      c.G.freeTicket = some tk ∧ s.launchLost c.T = false) :=
  ⟨fun o => ⟨_, _, _, hyp_idle o⟩,
    ⟨fields .seamsend, Ws .seamsend, Cs .seamsend, runs_of (by decide +kernel), by decide +kernel,
      ⟨by decide +kernel, by decide +kernel⟩, by decide⟩,
    ⟨sendX, world (released .seamsend) teamR, ctxAt .seamsend sendX (released .seamsend) teamR, runs_of (by decide +kernel),
      by decide +kernel, ⟨by decide +kernel, by decide +kernel⟩, by decide, rfl, rfl⟩,
    two
      ⟨fields .seamred, Ws .seamred, Cs .seamred, runs_of (by decide +kernel), by decide +kernel,
        ⟨by decide +kernel, by decide +kernel⟩, by decide +kernel⟩
      ⟨fields .seambc, Ws .seambc, Cs .seambc, runs_of (by decide +kernel), by decide +kernel,
        ⟨by decide +kernel, by decide +kernel⟩, by decide +kernel⟩,
    ⟨_, _, C .seamrecv, 0, hyp_Runs _, act_ne _, by decide +kernel, by decide +kernel, by decide +kernel⟩⟩

/-- IPIN, IUNPIN, IPREF and ICINV of the window of their own PC name it. -/
theorem lists_of {o : Op} {cap : Nat} (h : (C o).act.lowest = some 0 ∧ (C o).x.a = Opd.zero ∧ ((C o).opB10 .n32 0).pLo = false ∧
    1 = (lwLo ((C o).opB10 .n32 0)).toNat ∧
    (List.range (min 1 cap)).map (fun i => (windowOf ((C o).sp.pc + (C o).x.imm.signExtend 64).toNat + 32 * i) % 2 ^ 64) = [0x1000]) :
    lists (C o) cap [0x1000] 1 := by
  refine ⟨0, h.1, fun hn => absurd h.2.1 hn, h.2.2.1, h.2.2.2.1, ?_⟩
  simp only [h.2.1, if_true]
  exact h.2.2.2.2.symm

theorem listOk_one : listOk [0x1000] := by
  intro w hw
  cases List.mem_singleton.mp hw
  exact ⟨by decide, rfl⟩

theorem pair_of {α β : Type} {r : α × β} {a : α} (h : r.1 = a) : r = (a, r.2) := by rw [← h]

theorem done_of {p : PinEnd} (h : (match p with | .done => true | _ => false) = true) : p = .done := by
  cases p <;> first | rfl | cases h

theorem hyp_CodeInstructionsComplete :
    (∀ o, ∃ (x : Ops) (s : State) (c : Ctx), Runs o x s c ∧ c.act = 0) ∧
    (∃ (x : Ops) (s s' : State) (c : Ctx) (ws : List Nat) (n : Nat), Runs .ipref x s c ∧ lists c 256 ws n ∧
      c.prefAll (ws.filter (fun w => canonical w && handlerHalf w == handlerHalf (ws.headD 0))) (s.begun c.g) = (none, s') ∧
      ∃ w l pa s1, ws = [w] ∧ canonical w = true ∧
        issueXl (s.begun c.g) c.k c.ctx c.sp w .fetch c.user = (.done (.ok l pa), s1)) ∧
    (∃ (x : Ops) (s s1 : State) (c : Ctx) (ws : List Nat) (n : Nat), Runs .ipin x s c ∧ lists c 1024 ws n ∧ listOk ws ∧
      c.pinAll ws (s.begun c.g) = (.done, s1)) ∧
    (∃ (x : Ops) (s : State) (c : Ctx) (ws : List Nat) (n : Nat), Runs .iunpin x s c ∧ lists c 1024 ws n ∧ listOk ws) ∧
    (∃ (x : Ops) (s : State) (c : Ctx) (ws : List Nat) (n : Nat), Runs .icinv x s c ∧ c.act ≠ 0 ∧ lists c 1024 ws n ∧ listOk ws) :=
  ⟨fun o => ⟨_, _, _, hyp_idle o⟩, ⟨fields .ipref, withCode (W .ipref), _, C .ipref, _, _, runs_of (by decide +kernel), lists_of (by decide +kernel),
      pair_of (by decide +kernel), 0x1000, leaf0, 0x201000, _, rfl, by decide, pair_of (by decide +kernel)⟩,
    ⟨fields .ipin, withCode (W .ipin), _, C .ipin, _, _, runs_of (by decide +kernel), lists_of (by decide +kernel), listOk_one,
      pair_of (done_of (by decide +kernel))⟩,
    ⟨_, _, _, _, _, hyp_Runs .iunpin, lists_of (by decide +kernel), listOk_one⟩,
    ⟨_, _, _, _, _, hyp_Runs .icinv, act_ne _, lists_of (by decide +kernel), listOk_one⟩⟩

/-! ### Traps, system instructions, reliability -/

/-- The runs of a range that is mapped. -/
def segsOf (r : Range) : List Seg := match r with | .ok segs _ _ => segs | _ => []

/-- A range is mapped. -/
def mappedB (r : Range) : Bool := match r with | .ok _ _ _ => true | _ => false

theorem range_ok {r : Range × State} (h : mappedB r.1 = true) : ∃ mem lease, r = (.ok (segsOf r.1) mem lease, r.2) := by
  obtain ⟨r, s⟩ := r
  cases r with
  | ok segs mem lease => exact ⟨mem, lease, rfl⟩
  | recov va level cls => cases h
  | fatal va cause => cases h

/-- The translation of a frame's range. -/
def frameXl (c : Ctx) (s : State) (o n : Nat) (acc : Acc) : Range × State :=
  xlateRange (s.begun c.g) c.k c.ctx (s.tframe c.G c.T + o) n acc false

theorem mapped_of {c : Ctx} {s : State} {o n : Nat} {acc : Acc} (h : mappedB (frameXl c s o n acc).1 = true) :
    FrameMapped c s (frameXl c s o n acc).2 o n acc (segsOf (frameXl c s o n acc).1) := range_ok h

theorem hyp_TrapsEnterTheHandler :
    (∃ (x : Ops) (s : State) (c : Ctx), Runs .trap x s c ∧ predAgree c ∧ c.act = 0) ∧
    (∃ (x : Ops) (s s1 : State) (c : Ctx) (segs : List Seg), Runs .trap x s c ∧ predAgree c ∧ c.act ≠ 0 ∧ canEnter c s ∧
      FrameMapped c s s1 0 0x25A0 .write segs) ∧
    (∃ (s s1 : State) (c : Ctx) (segs : List Seg), s.context .nop {} = some c ∧ canEnter c s ∧
      FrameMapped c s s1 0 0x25A0 .write segs) :=
  ⟨⟨_, _, _, (hyp_idle _).1, agree_of rfl, (hyp_idle _).2⟩,
    ⟨_, W .trap, _, C .trap, _, hyp_Runs _, agree_of rfl, act_ne _, ⟨rfl, rfl, .inl rfl⟩, mapped_of (by decide +kernel)⟩,
    ⟨W .nop, _, C .nop, _, by decide +kernel, ⟨rfl, rfl, .inl rfl⟩, mapped_of (by decide +kernel)⟩⟩

/-- The privileged opcodes. -/
def privileged : List Op := [.rget, .rput, .rfe, .mfs, .mts, .tlbinv, .freeze, .thaw, .halt, .selftest]

theorem hyp_PrivilegedInstructionsTrapAtUserLevel :
    ∀ o ∈ privileged, ∃ (x : Ops) (s s1 : State) (c : Ctx) (segs : List Seg), s.context o x = some c ∧
      dynOk o x c.G (s.accOf c.T) = true ∧ canEnter c s ∧ FrameMapped c s s1 0 0x25A0 .write segs := by
  have h : privileged.all (fun o =>
      let c := ctxAt o (fields o) (group0 regs0)
      let s := world (group0 regs0)
      decide (s.context o (fields o) = some c) && dynOk o (fields o) c.G (s.accOf c.T) && mappedB (frameXl c s 0 0x25A0 .write).1) =
      true := by decide +kernel
  intro o ho
  have h1 := List.all_eq_true.mp h o ho
  simp only [Bool.and_eq_true, decide_eq_true_eq] at h1
  exact ⟨_, _, _, _, _, h1.1.1, h1.1.2, ⟨rfl, rfl, .inl rfl⟩, mapped_of h1.2⟩

/-- A group of 248 registers at a handler level. -/
def handler (lvl : Nat) : Group := { group0 regs0 with lvl := lvl, regs8 := 31 }

/-- Its context for RFE. -/
def Ch (lvl : Nat) : Ctx := ctxAt .rfe {} (handler lvl)

theorem hyp_ReturnFromTheHandler :
    (∃ (x : Ops) (s : State) (c : Ctx), Runs .rfe x s c ∧ c.act = 0) ∧
    (∃ (x : Ops) (s s1 s2 : State) (c : Ctx) (segs : List Seg) (rd : List (Nat × Byte × Bool)), Runs .rfe x s c ∧ c.act ≠ 0 ∧
      c.G.lvl = 1 ∧ c.G.otherHandlers c.e = [] ∧ c.G.regs8 ≠ 32 ∧
      s.storesTo c.g c.ctx (s.tframe c.G c.T + 0x1900) (0x2598 - 0x1900) = false ∧
      FrameMapped c s s1 0x1900 (0x2598 - 0x1900) .read segs ∧ s1.readNow c.k segs = (rd, s2) ∧ ∀ b ∈ rd, b.2.2 = false) ∧
    (∃ (x : Ops) (s s1 s2 : State) (c : Ctx) (segs : List Seg) (rd : List (Nat × Byte × Bool)), Runs .rfe x s c ∧ c.act ≠ 0 ∧
      c.G.lvl = 2 ∧ c.G.otherHandlers c.e = [] ∧ s.storesTo c.g c.ctx (s.tframe c.G c.T + 0x25A0) 128 = false ∧
      FrameMapped c s s1 0x25A0 128 .read segs ∧ s1.readNow c.k segs = (rd, s2) ∧ ∀ b ∈ rd, b.2.2 = false) :=
  ⟨⟨_, _, _, hyp_idle _⟩,
    ⟨{}, world (handler 1), _, _, Ch 1, _, _, runs_of (by decide +kernel), by decide +kernel, rfl, by decide +kernel,
      by decide, by decide +kernel, mapped_of (by decide +kernel), rfl, by decide +kernel⟩,
    ⟨{}, world (handler 2), _, _, Ch 2, _, _, runs_of (by decide +kernel), by decide +kernel, rfl, by decide +kernel,
      by decide +kernel, mapped_of (by decide +kernel), rfl, by decide +kernel⟩⟩

/-- MTS to tpc from a pair. -/
def mtsPc : Ops := { a := v 12, m := 3 }

theorem hyp_SystemInstructionsComplete :
    (∀ o, ∃ (x : Ops) (s : State) (c : Ctx), Runs o x s c ∧ c.act = 0) ∧
    (∃ (x : Ops) (s : State) (c : Ctx), Runs .mfs x s c) ∧
    (∃ (x : Ops) (s : State) (c : Ctx) (i : Nat), Runs .mts x s c ∧ c.act.lowest = some i ∧ x.mf 0 5 = 3 ∧
      lwAny (c.opA .n64 i) = false) ∧
    (∃ (x : Ops) (s : State) (c : Ctx) (i : Nat), Runs .mts x s c ∧ c.act.lowest = some i ∧ x.mf 0 5 ≠ 3 ∧
      (c.opA .n32 i).pLo = false) ∧
    (∃ (x : Ops) (s : State) (c : Ctx) (i : Nat), Runs .spl x s c ∧ c.act.lowest = some i) ∧
    (∃ (x : Ops) (s : State) (c : Ctx), Runs .tlbinv x s c ∧ c.act ≠ 0 ∧ c.sp.relDone = true) ∧
    (∃ (x : Ops) (s : State) (c : Ctx) (i : Nat), Runs .tlbinv x s c ∧ c.act.lowest = some i ∧ c.sp.relDone = false ∧
      x.mf 0 1 = 1) ∧
    (∃ (x : Ops) (s : State) (c : Ctx) (i : Nat), Runs .tlbinv x s c ∧ c.act.lowest = some i ∧ c.sp.relDone = false ∧
      x.mf 0 1 = 0 ∧ lwAny (c.opA .n64 i) = false ∧ (c.opB .n32 i).pLo = false ∧
      canonical (c.opA .n64 i).val.toNat = true) ∧
    (∃ (x : Ops) (s : State) (c : Ctx), Runs .freeze x s c ∧ c.act ≠ 0 ∧ c.G.frozen = false ∧
      ∀ h, named c s h → s.inChain h = false) ∧
    (∃ (x : Ops) (s : State) (c : Ctx), Runs .thaw x s c ∧ c.act ≠ 0 ∧ x.mf 1 1 ≠ 1) ∧
    (∃ (x : Ops) (s : State) (c : Ctx), Runs .halt x s c ∧ c.act ≠ 0 ∧ c.T.st ≠ .terminated ∧ c.T.st ≠ .retired ∧
      c.T.st ≠ .lost) := by
  let xt : Ops := { a := v 12, b := .imm 1 }
  exact ⟨fun o => ⟨_, _, _, hyp_idle o⟩, ⟨_, _, _, hyp_Runs _⟩,
    ⟨mtsPc, W .mts, ctxAt .mts mtsPc (groupFor .mts), 0, runs_of (by decide +kernel), by decide +kernel, by decide, by decide +kernel⟩,
    ⟨_, _, C .mts, 0, hyp_Runs _, act_low _, by decide, by decide +kernel⟩, ⟨_, _, _, 0, hyp_Runs _, act_low _⟩,
    ⟨fields .tlbinv, Wr .tlbinv, ctxAt .tlbinv (fields .tlbinv) (released .tlbinv), runs_of (by decide +kernel), by decide +kernel,
      rfl⟩,
    ⟨_, _, C .tlbinv, 0, hyp_Runs _, act_low _, by decide, by decide⟩,
    ⟨xt, W .tlbinv, ctxAt .tlbinv xt (groupFor .tlbinv), 0, runs_of (by decide +kernel), by decide +kernel, by decide, by decide,
      by decide +kernel, by decide +kernel, by decide +kernel⟩,
    ⟨_, _, C .freeze, hyp_Runs _, act_ne _, rfl, fun h hn => by
      have : (C .freeze).frozenSet (W .freeze) = [] := by decide +kernel
      unfold named at hn; rw [this] at hn; cases hn⟩,
    ⟨_, _, _, hyp_Runs _, act_ne _, by decide⟩, ⟨_, _, C .halt, hyp_Runs _, act_ne _, by decide, by decide, by decide⟩⟩

/-- The words of v8 to v10 name lane 1. -/
def killing : Group := group0 (both 8 2 2)

/-- A group whose unit test is over. -/
def testDone : Group :=
  { group0 regs0 with
      lvl := 1, splits := [{ pc := 0x1000, memb := 3, mask := 3, v := true, relDone := true, msg := some { n := 1, words := [] } }] }

/-- A group whose split waits for the test of galley bank 3. -/
def testing : Group :=
  { group0 regs0 with
      lvl := 1, splits := [{ pc := 0x1000, memb := 3, mask := 3, v := true, st := .waiting, wait := .selftest 3 20 3 }] }

theorem hyp_ReliabilityInstructionsComplete :
    (∀ o, ∃ (x : Ops) (s : State) (c : Ctx), Runs o x s c ∧ c.act = 0) ∧
    (∃ (x : Ops) (s : State) (c : Ctx), Runs .ptest x s c ∧ c.act ≠ 0) ∧
    (∃ (x : Ops) (s : State) (c : Ctx), Runs .pclr x s c ∧ c.act ≠ 0 ∧ c.toMask = false) ∧
    (∃ (x : Ops) (s : State) (c : Ctx) (i : Nat), Runs .lanekill x s c ∧ c.act.lowest = some i ∧
      (∀ k, k < 3 → (c.word (aReg x + k) i).psn = false) ∧ c.G.lvl = 0 ∧
      c.sp.memb &&& ~~~ Lanes.ofWords (c.word (aReg x) i).val (c.word (aReg x + 1) i).val (c.word (aReg x + 2) i).val ≠ 0) ∧
    (∃ (x : Ops) (s : State) (c : Ctx) (m : SeamWords), Runs .selftest x s c ∧ c.act ≠ 0 ∧ c.sp.msg = some m ∧ c.toMask = false) ∧
    (∃ (x : Ops) (s : State) (c : Ctx) (i : Nat), Runs .selftest x s c ∧ c.act.lowest = some i ∧ c.sp.msg = none ∧
      (c.opA .n32 i).pLo = false ∧ x.mf 0 3 = 2 ∧ (lwLo (c.opA .n32 i)).toNat = 63) ∧
    (∃ (s : State) (g e u : Nat) (act : Lanes) (d : BitVec 8) (G : Group) (T : Team), s.grp g = some G ∧
      s.tm G.team = some T ∧ T.st = .started ∧ (G.sp e).v = true ∧ (G.sp e).st = .waiting ∧ (G.sp e).wait = .selftest u d act) ∧
    (∃ (s : State) (g lane : Nat) (G : Group), s.grp g = some G ∧ lane < 96 ∧ G.dead.has lane = false ∧ G.retired = false ∧
      G.duplex = false ∧ G.live &&& ~~~ Lanes.one lane ≠ 0) := by
  let xs : Ops := { d := 20, m := 2, a := .imm 63 }
  exact ⟨fun o => ⟨_, _, _, hyp_idle o⟩, ⟨_, _, _, hyp_Runs _, act_ne _⟩, ⟨_, _, _, hyp_Runs _, act_ne _, by decide +kernel⟩,
    ⟨fields .lanekill, world killing, ctxAt .lanekill (fields .lanekill) killing, 0, runs_of (by decide +kernel), by decide +kernel,
      by decide +kernel, rfl, by decide +kernel⟩,
    ⟨fields .selftest, world testDone, ctxAt .selftest (fields .selftest) testDone, _, runs_of (by decide +kernel),
      by decide +kernel, rfl, by decide +kernel⟩,
    ⟨xs, W .selftest, ctxAt .selftest xs (groupFor .selftest), 0, runs_of (by decide +kernel), by decide +kernel, rfl,
      by decide +kernel, by decide, by decide +kernel⟩,
    ⟨world testing, 1, 0, 3, 3, 20, testing, team0, rfl, rfl, rfl, rfl, rfl, rfl⟩,
    ⟨world (group0 regs0), 1, 1, _, rfl, by decide, by decide, rfl, rfl, by decide +kernel⟩⟩

/-! ### Encon and the control region -/

/-- It is the turn of Encon core 0, whose x1 holds `a` and whose x2 holds `b`; queue 0 is as given. -/
def encon (a b : BitVec 64) (Q : Queue := {}) (bufs : Map FBuf := []) (machine : Bool := true) : State :=
  { cur := .encon 0
    en := { cores := [(0, { x := [(1, a), (2, b)], machine := machine, bufs := bufs })] }
    ct := { queues := [(0, Q)] } }

/-- A queue with one forme to fetch. -/
def queue1 : Queue := { base := 0x10000, log2n := 3, en := true, tail := 1 }

/-- A forme buffer of zeros. -/
def buf0 : FBuf := { bytes := List.replicate 512 0, queue := 0, slot := 0 }

/-- Sixteen of them. -/
def bufs16 : Map FBuf := (List.range 16).map (fun i => (i, buf0))

theorem hyp_XenconInUserModeIsIllegal :
    ∃ (i : Instr) (s : State) (k : Nat), isXencon i ∧ s.cur = .encon k ∧ (s.enc k).machine = false :=
  ⟨.swait 3 1 2, encon 1 0 {} [] false, 0, .inr (.inr (.inl ⟨_, _, _, rfl⟩)), rfl, rfl⟩

/-- State with one retired launch less than 1,024 live ones, or with all of them. -/
def launches (n : Nat) : Map Launch := (List.range n).map (fun i => (8 * (i + 1), launch0))

theorem clean_of {s : State} {Q : Queue}
    (h : (List.range 512).all (fun i => !(s.hostRead (nextForme Q + i)).2) = true) : ¬ formePoisoned s Q := by
  rintro ⟨i, hi, h1⟩
  have h2 := List.all_eq_true.mp h i (List.mem_range.mpr hi)
  rw [h1] at h2
  cases h2

theorem hyp_XenconInstructionsComplete :
    (∃ (s : State) (k : Nat) (pos len1 : BitVec 6), machineTurn s k ∧ pos.toNat + len1.toNat + 1 = 64) ∧
    (∃ (s : State) (k : Nat) (pos len1 : BitVec 6), machineTurn s k ∧ pos.toNat + len1.toNat + 1 = 65) ∧
    (∃ (s : State) (k : Nat) (rs1 : BitVec 5), machineTurn s k ∧ ((s.enc k).get rs1).toNat = 256) ∧
    (∃ (s : State) (k q : Nat) (rs1 : BitVec 5), machineTurn s k ∧ ((s.enc k).get rs1).toNat = q ∧ q = 255 ∧
      (s.queue q).en = false) ∧
    (∃ (s : State) (k q : Nat) (rs1 : BitVec 5), machineTurn s k ∧ ((s.enc k).get rs1).toNat = q ∧ q ≤ 255 ∧
      (s.queue q).en = true ∧ (s.queue q).acc ≠ (s.queue q).tail ∧ ∀ b, b < 16 → Map.has (s.enc k).bufs b = true) ∧
    (∃ (s : State) (k q b : Nat) (rs1 : BitVec 5), machineTurn s k ∧ ((s.enc k).get rs1).toNat = q ∧ q ≤ 255 ∧
      (s.queue q).en = true ∧ (s.queue q).acc ≠ (s.queue q).tail ∧ b = 15 ∧ (∀ n, n < b → Map.has (s.enc k).bufs n = true) ∧
      Map.has (s.enc k).bufs b = false ∧ formePoisoned s (s.queue q)) ∧
    (∃ (s : State) (k q b : Nat) (rs1 : BitVec 5), machineTurn s k ∧ ((s.enc k).get rs1).toNat = q ∧ q ≤ 255 ∧
      (s.queue q).en = true ∧ (s.queue q).acc ≠ (s.queue q).tail ∧ b = 0 ∧ Map.has (s.enc k).bufs b = false ∧
      ¬ formePoisoned s (s.queue q)) ∧
    (∃ (s : State) (k : Nat) (rs1 : BitVec 5), machineTurn s k ∧ ((s.enc k).get rs1).toNat = 16) ∧
    (∃ (s : State) (k b : Nat) (rs1 : BitVec 5), machineTurn s k ∧ ((s.enc k).get rs1).toNat = b ∧ b = 15 ∧
      Map.find (s.enc k).bufs b = none) ∧
    (∃ (s : State) (k b : Nat) (F : FBuf) (rs1 : BitVec 5), machineTurn s k ∧ ((s.enc k).get rs1).toNat = b ∧ b ≤ 15 ∧
      Map.find (s.enc k).bufs b = some F ∧ s.liveLaunches = 1024) ∧
    (∃ (s : State) (k b : Nat) (F : FBuf) (rs1 : BitVec 5), machineTurn s k ∧ ((s.enc k).get rs1).toNat = b ∧ b ≤ 15 ∧
      Map.find (s.enc k).bufs b = some F ∧ s.liveLaunches = 1023) := by
  let sp : State := { encon 0 0 queue1 (bufs16.take 15) with ms := { marks := [(0x800, true)] } }
  let full (n : Nat) : State := { encon 0 0 {} [(0, buf0)] with wk := { launches := launches n, next := n + 1 } }
  exact ⟨⟨encon 0 0, 0, 0, 63, ⟨rfl, rfl⟩, rfl⟩, ⟨encon 0 0, 0, 1, 63, ⟨rfl, rfl⟩, rfl⟩, ⟨encon 256 0, 0, 1, ⟨rfl, rfl⟩, rfl⟩,
    ⟨encon 255 0, 0, 255, 1, ⟨rfl, rfl⟩, rfl, rfl, rfl⟩,
    ⟨encon 0 0 queue1 bufs16, 0, 0, 1, ⟨rfl, rfl⟩, rfl, by decide, rfl, by decide +kernel, by decide +kernel⟩,
    ⟨sp, 0, 0, 15, 1, ⟨rfl, rfl⟩, rfl, by decide, rfl, by decide +kernel, rfl, by decide +kernel, by decide +kernel,
      ⟨0, by decide, by decide +kernel⟩⟩,
    ⟨encon 0 0 queue1, 0, 0, 0, 1, ⟨rfl, rfl⟩, rfl, by decide, rfl, by decide +kernel, rfl, by decide +kernel,
      clean_of (by decide +kernel)⟩,
    ⟨encon 16 0, 0, 1, ⟨rfl, rfl⟩, rfl⟩, ⟨encon 15 0, 0, 15, 1, ⟨rfl, rfl⟩, rfl, rfl, rfl⟩,
    ⟨full 1024, 0, 0, _, 1, ⟨rfl, rfl⟩, rfl, by decide, rfl, by decide +kernel⟩,
    ⟨full 1023, 0, 0, _, 1, ⟨rfl, rfl⟩, rfl, by decide, rfl, by decide +kernel⟩⟩

/-- Encon core 0 waits for signals 0 to 3, until 0. -/
def waiting : State :=
  { en := { cores := [(0, { sigs := 4, swait := some { mask := 15, until_ := some 0, rd := 3 } })] } }

theorem hyp_SignalsComplete :
    (∃ (s : State) (k : Nat) (rs1 : BitVec 5), machineTurn s k ∧ (s.enc k).get rs1 >>> 16 ≠ 0) ∧
    (∃ (s : State) (k : Nat) (rs1 rs2 : BitVec 5), machineTurn s k ∧ (s.enc k).get rs1 = 0 ∧ ((s.enc k).get rs2).toNat = 0) ∧
    (∃ (s : State) (k : Nat) (rs1 : BitVec 5), machineTurn s k ∧ (s.enc k).get rs1 >>> 16 = 0 ∧ (s.enc k).get rs1 ≠ 0) ∧
    (∃ (s : State) (k : Nat) (w : Swait), (s.enc k).swait = some w ∧ (s.enc k).sigs &&& w.mask ≠ 0) ∧
    (∃ (s : State) (k n : Nat) (w : Swait), (s.enc k).swait = some w ∧ w.until_ = some n ∧ n ≤ s.wtimeEnc) ∧
    (∃ (s : State) (k : Nat) (f : CsrOp) (src : BitVec 5), machineTurn s k ∧ sent (s.enc k) f src = some 255) ∧
    (∃ (s : State) (k : Nat) (f : CsrOp) (src : BitVec 5), machineTurn s k ∧ sent (s.enc k) f src = none) ∧
    (∃ (s : State) (k : Nat) (f : CsrOp) (src : BitVec 5), machineTurn s k ∧ sent (s.enc k) f src = some 256) :=
  ⟨⟨encon 0x10000 0, 0, 1, ⟨rfl, rfl⟩, by decide⟩, ⟨encon 0 0, 0, 1, 2, ⟨rfl, rfl⟩, rfl, rfl⟩,
    ⟨encon 0xFFFF 0, 0, 1, ⟨rfl, rfl⟩, by decide, by decide⟩, ⟨waiting, 0, _, rfl, by decide⟩, ⟨waiting, 0, 0, _, rfl, rfl, by decide⟩,
    ⟨encon 255 0, 0, .rw, 1, ⟨rfl, rfl⟩, rfl⟩, ⟨encon 255 0, 0, .rc, 1, ⟨rfl, rfl⟩, rfl⟩,
    ⟨encon 256 0, 0, .rs, 1, ⟨rfl, rfl⟩, rfl⟩⟩

/-- The owner key, the host port and Encon core 0 are there. -/
def openState (Q : Queue) : State :=
  { en := { ownerKey := some 1, images := [] }, ct := { queues := [(0, Q)], enc := 255, host := true } }

theorem hyp_QueueRegistersComplete :
    (∃ (s : State) (q : Nat), q = 255 ∧ (s.queue q).en = false) ∧
    (∃ (s : State) (q : Nat) (w : BitVec 32), q < 256 ∧ (s.queue q).en = true ∧
      (w - (s.queue q).tail).toNat = 2 ^ (s.queue q).log2n - ((s.queue q).tail - (s.queue q).head).toNat) ∧
    (∃ (s : State) (q : Nat) (w : BitVec 32), q < 256 ∧ (s.queue q).en = true ∧
      (w - (s.queue q).tail).toNat = 2 ^ (s.queue q).log2n - ((s.queue q).tail - (s.queue q).head).toNat + 1) ∧
    (∃ (s : State) (q : Nat) (w : BitVec 64), q < 256 ∧ w.getLsbD 7 = true ∧ (s.queue q).en = false ∧ s.queuesOpen = false ∧
      ringOk (queueFields (s.queue q) w) ∧ (s.queue q).head = (s.queue q).acc) ∧
    (∃ (s : State) (q : Nat) (w : BitVec 64), q < 256 ∧ w.getLsbD 7 = true ∧ (s.queue q).en = false ∧ s.queuesOpen = true ∧
      ringOk (queueFields (s.queue q) w) ∧ (s.queue q).head = (s.queue q).acc) ∧
    (∃ (s : State) (q : Nat) (w : BitVec 64), q < 256 ∧ w.getLsbD 7 = true ∧ (s.queue q).en = false ∧ s.queuesOpen = true ∧
      ¬ ringOk (queueFields (s.queue q) w)) ∧
    (∃ (s : State) (q : Nat) (w : BitVec 64), q < 256 ∧ w.getLsbD 7 = true ∧ (s.queue q).en = false ∧ s.queuesOpen = true ∧
      ringOk (queueFields (s.queue q) w) ∧ (s.queue q).head ≠ (s.queue q).acc) ∧
    (∃ (s : State) (q : Nat) (w : BitVec 64), q < 256 ∧ w.getLsbD 7 = false ∧ (s.queue q).en = true) := by
  refine ⟨⟨openState {}, 255, rfl, rfl⟩, ⟨openState queue1, 0, 8, by decide, rfl, by decide⟩,
    ⟨openState queue1, 0, 9, by decide, rfl, by decide⟩, ⟨State.reset, 0, 0x83, by decide, by decide, rfl, by decide +kernel, ?_, rfl⟩,
    ⟨openState { base := 0x10000 }, 0, 0x90, by decide, by decide, rfl, by decide +kernel, ?_, rfl⟩,
    ⟨openState { base := 0x10000 }, 0, 0x82, by decide, by decide, rfl, by decide +kernel, ?_⟩,
    ⟨openState { base := 0x10000, acc := 1 }, 0, 0x83, by decide, by decide, rfl, by decide +kernel, ?_, by decide⟩,
    ⟨openState queue1, 0, 0, by decide, by decide, rfl⟩⟩
  · unfold ringOk; decide +kernel
  · unfold ringOk; decide +kernel
  · unfold ringOk; decide +kernel
  · unfold ringOk; decide +kernel

/-- A machine with the launch and the team of the tests, which has issued nothing. -/
def idle : State := { world (group0 regs0) with cur := .idle }

theorem hyp_CancellationAndReadinessComplete :
    (Map.sorted idle.exe.teams = true ∧ Map.sorted idle.exe.groups = true ∧ Map.sorted idle.wk.launches = true ∧
      cancels idle 0 8) ∧
    (∃ (s : State) (f : ReadyFn), s.mayReady f = true ∧ s.isReady f = false) ∧
    (∃ (s : State) (d c : Nat) (st : BitVec 2), (s.coreAt (coreKey d c)).state ≠ 1 ∧ st = 1) ∧
    (∃ (s : State) (d c : Nat) (st : BitVec 2), (s.coreAt (coreKey d c)).state = 3 ∧ st = 0) := by
  refine ⟨⟨by decide +kernel, by decide +kernel, by decide +kernel, launch0, by decide +kernel, rfl, rfl, rfl, ?_⟩,
    ⟨State.reset, .disp 63, by decide +kernel, by decide +kernel⟩, ⟨State.reset, 0, 71, 1, by decide +kernel, rfl⟩,
    ⟨State.reset, 0, 71, 0, by decide +kernel, rfl⟩⟩
  intro l hl M hM
  have h1 : idle.unit 8 = [8] := by decide +kernel
  rw [h1] at hl
  cases List.mem_singleton.mp hl
  have h2 : idle.launch 8 = some launch0 := by decide +kernel
  rw [h2] at hM
  cases hM
  rfl

theorem hyp_ControlRegionWritesComplete :
    (∃ s : State, s.tr.invBusy = false) ∧
    (∃ (s : State) (o : Nat), s.tr.invBusy = true ∧ o ∈ [0xA0000, 0xA0008, 0xA0010]) ∧
    (∃ (s : State) (ctx : Nat) (w : BitVec 64), ctx < 65536 ∧ s.ctxLive ctx = false ∧ w.getLsbD 5 = true) ∧
    (∃ (s : State) (ctx : Nat), ctx < 65536 ∧ s.ctxLive ctx = true) ∧
    (∃ (s : State) (p : Nat) (m : BitVec 64), p < 16 ∧ ∃ q, q < 16 ∧ q ≠ p ∧ Map.getD s.ct.parts q 0 &&& m ≠ 0) ∧
    (∃ (s : State) (p : Nat) (m : BitVec 64), p < 16 ∧ (∀ q, q < 16 → q ≠ p → Map.getD s.ct.parts q 0 &&& m = 0) ∧
      ∃ d, d < 64 ∧ (Map.getD s.ct.parts p 0).getLsbD d = true ∧ m.getLsbD d = false ∧ s.residentIn p d = true) ∧
    (∃ (s : State) (ctx : Nat) (w : BitVec 64), s.ctxLive ctx = false ∧ (Map.getD s.tr.roots ctx ({} : Root)).en = true ∧
      w.getLsbD 0 = false) := by
  let sr : State := { tr := { roots := [(3, { root := 0, en := true, pinmax := 4 })] } }
  exact ⟨⟨State.reset, rfl⟩, ⟨{ tr := { invBusy := true } }, 0xA0010, rfl, by decide⟩,
    ⟨State.reset, 65535, 0x23, by decide, by decide +kernel, by decide⟩, ⟨idle, 0, by decide, by decide +kernel⟩,
    ⟨idle, 1, 1, by decide, 0, by decide, by decide, by decide +kernel⟩,
    ⟨{ idle with ct := { idle.ct with partOf := [(0, 0)] } }, 0, 2, by decide, by decide +kernel, 0, by decide, by decide +kernel,
      by decide, by decide +kernel⟩,
    ⟨sr, 3, 0, by decide +kernel, rfl, by decide⟩⟩

/-! ### Translation, loads and stores -/

/-- A machine that holds a walk of unit 0 and a split that waits for it. -/
def walking (stale : Bool) : State :=
  let G : Group :=
    { group0 with splits := [{ pc := 0x1000, memb := 3, mask := 3, v := true, st := .waiting, wait := .walks [5] }] }
  { world G with cur := .idle, tr := { walks := [(5, { domain := 0, ctx := 0, unit := 0, stale := stale })], next := 6 } }

theorem hyp_WalksComplete :
    (∃ (s : State) (id : Nat) (w : Walk), walkRuns s id w ∧ w.stale = true) ∧
    (∃ (s : State) (id : Nat) (w : Walk) (x : Xl) (cas : Option (Nat × Nat)) (ts : List (Nat × Nat)), walkRuns s id w ∧
      w.stale = false ∧ walkRun s w.domain w.ctx (w.unit * 65536) = (x, cas, ts) ∧
      ∃ g G e, s.grp g = some G ∧ e < 4 ∧ (G.sp e).v = true ∧ (G.sp e).wait = .walks [id]) :=
  ⟨⟨walking true, 5, _, ⟨rfl, 0, by decide, rfl⟩, rfl⟩,
    ⟨walking false, 5, _, _, _, _, ⟨rfl, 0, by decide, rfl⟩, rfl, rfl, 1, _, 0, rfl, by decide, rfl, rfl⟩⟩

/-- A fault entry of a load of page 0. -/
def fault0 (cls : Bool) (slot : Option Nat) : FaultEnt :=
  { ctx := 0, page := 0, fetch := false, cls := cls, slot := slot, rd := true, wr := false, x := false, domain := 0, core := 0
    level := 2, va := 0, team := 0, reqs := [.split 1 0] }

/-- A split waits for the service of fault entry 4, which stands in slot 0 of its context's queue. -/
def faulted : State :=
  let G : Group :=
    { group0 with splits := [{ pc := 0x1000, memb := 3, mask := 3, v := true, st := .waiting, wait := .fault 4 }] }
  { world G with
      cur := .idle, tr := { faults := [(4, fault0 false (some 0))], next := 5 }
      ct := { trap := [(0, { fqbase := 0x40000, fqlog2n := 4, fqen := true, fqtail := 1 })] } }

/-- Tables at 0x8000 and 0x9000 that map the 32 GiB page at 0 as private to domain 0, and a request for its class. -/
def private0 : State :=
  { ms := { bytes := [(0x8000, 0x01), (0x8001, 0x90), (0x9000, 0x0F), (0x9001, 0x04)] }
    tr := { roots := [(0, { root := 0x8000, en := true })], faults := [(4, fault0 true none)], next := 5 } }

theorem hyp_FaultsAndInvalidationsComplete :
    (∃ (s : State) (ctx : Nat) (w : BitVec 32), w = (s.trapBlk ctx).fqdone) ∧
    (∃ (s : State) (ctx : Nat) (w : BitVec 32),
      (s.trapBlk ctx).fqtail - (s.trapBlk ctx).fqdone < w - (s.trapBlk ctx).fqdone ∧ w = (s.trapBlk ctx).fqtail + 1) ∧
    (∃ (s : State) (ctx id g e : Nat) (f : FaultEnt) (G : Group), (s.trapBlk ctx).fqtail ≠ (s.trapBlk ctx).fqdone ∧
      slotEntry s ctx (s.trapBlk ctx).fqdone.toNat id f ∧ f.reqs = [.split g e] ∧ s.grp g = some G ∧ (G.sp e).v = true ∧
      (G.sp e).wait = .fault id ∧ slotStatus s ctx (s.trapBlk ctx).fqdone.toNat < 2 ∧ Map.find s.tr.faults id = some f) ∧
    (∃ (s : State) (fe pa level e : Nat) (f : FaultEnt), s.tr.faults.find? (fun p => p.2.cls) = some (fe, f) ∧
      findLeaf s f.va [3, 2, 1, 0] (Map.getD s.tr.roots f.ctx ({} : Root)).root = some (pa, level, e) ∧
      (∀ p ∈ s.ms.owned, Map.sorted p.2.bytes = true ∧ ∀ b ∈ p.2.bytes, b.1 < 128) ∧ Map.sorted s.ms.owned = true ∧
      (∀ p ∈ s.ms.owned, ∀ q ∈ s.ms.owned, p.1 / 64 = q.1 / 64 → p = q) ∧ (leafOf s level f.va e).cls = 1 ∧
      s.pageBusy (leafOf s level f.va e).addr (2 ^ pageBits level) = false) ∧
    (∃ s : State, s.tr.invBusy = true) ∧ (∃ s : State, s.tr.invBusy = false) ∧
    (∃ (s : State) (id : Nat) (v : Inval), Map.find s.tr.invals id = some v ∧ s.invalBusy v = false ∧ v.icache = true) ∧
    (∃ (s : State) (id : Nat) (v : Inval) (g : Nat) (G : Group) (e : Nat), Map.find s.tr.invals id = some v ∧
      s.invalBusy v = false ∧ v.seq = none ∧ s.grp g = some G ∧ e < 4 ∧ (G.sp e).v = true ∧ (G.sp e).wait = .inval id) := by
  let si : State :=
    { tr := { invals := [(3, { ctx := 0, all := true, first := 0, count := 0, domains := 1, icache := true, seq := some 9, began := 0
                               stores := [] })], invBusy := true, next := 4 } }
  let G : Group :=
    { group0 with splits := [{ pc := 0x1000, memb := 3, mask := 3, v := true, st := .waiting, wait := .inval 3 }] }
  let sj : State :=
    { world G with tr := { invals := [(3, { ctx := 0, all := true, first := 0, count := 0, domains := 1, icache := true, seq := none
                                            began := 0, stores := [] })], next := 4 } }
  exact ⟨⟨State.reset, 0, 0, rfl⟩, ⟨faulted, 0, 2, by decide +kernel, by decide +kernel⟩,
    ⟨faulted, 0, 4, 1, 0, _, _, by decide +kernel, by unfold slotEntry; rfl, rfl, rfl, rfl, rfl, by decide +kernel, rfl⟩,
    ⟨private0, 4, 0x9000, 2, 0x40F, fault0 true none, rfl, by decide +kernel, (fun p hp => by cases hp), rfl, (fun p hp => by cases hp), by decide +kernel,
      by decide +kernel⟩,
    ⟨si, rfl⟩, ⟨State.reset, rfl⟩, ⟨si, 3, _, rfl, by decide +kernel, rfl⟩,
    ⟨sj, 3, _, 1, _, 0, rfl, by decide +kernel, rfl, rfl, by decide, rfl, rfl⟩⟩

/-- One lane's access of four bytes at 0x2000, of the line 0x4040. -/
def lane0 (cls : Nat := 2) : LaneAcc :=
  { lane := 0, va := 0x2000, segs := [{ pa := 0x202000, len := 4, ofs := 0, cls := cls, owner := 0 }], left := [0x4040], data := 7 }

/-- The group's request with that access. -/
def flight0 (k : FKind) : Flight := { g := 1, kind := k, size := 4, ticket := if k = .load then some 0 else none, lanes := [lane0] }

/-- The machine with that request. -/
def flying (f : Flight) : State :=
  { world pending8 with cur := .idle, ms := { flights := [(3, f)], next := 4 } }

/-- Domain 0 is fenced. -/
def fenced (s : State) : State := { s with ct := { s.ct with fenceD := [(0, { fenced := true, why := 1 })] } }

theorem notPrivate0 (k : FKind) : notPrivate (flight0 k) := by
  intro l hl g hg
  cases List.mem_singleton.mp hl
  cases List.mem_singleton.mp hg
  decide

/-- The load whose line has been read. -/
def read0 : Flight := { flight0 .load with lanes := [{ lane0 with left := [], got := 0x12345678 }] }

/-- A lane's access of a line that is homed in domain 1, of which line 2^30 + 64 is left. -/
def farLane : LaneAcc :=
  { lane := 0, va := 0x2000, segs := [{ pa := 2 ^ 37 + 0x2000, len := 4, ofs := 0, cls := 2, owner := 0 }], left := [2 ^ 30 + 64]
    data := 7 }

/-- The group's request with that access. -/
def farFlight (k : FKind) : Flight := { flight0 k with lanes := [farLane] }

theorem notPrivateFar (k : FKind) : notPrivate (farFlight k) := by
  intro l hl g hg
  cases List.mem_singleton.mp hl
  cases List.mem_singleton.mp hg
  decide

/-- A stash fill that has been read, for line 0 of window 2. -/
def fill0 : Flight :=
  { g := 1, kind := .stashFill, size := 128, lanes := [{ lane := 0, va := 0x2000, got := 77 }], win := some (1, 2, 0), galLine := 128 }

/-- A wafer-scope acquire of that line. -/
def farAcquire : Flight := { farFlight .load with acq := true, scope := 2 }

/-- A store to a page that is private to domain 63. -/
def ownedStore : Flight :=
  { flight0 .store with lanes := [{ lane0 with segs := [{ pa := 0x202000, len := 4, ofs := 0, cls := 1, owner := 63 }] }] }

/-- The store of a core of domain 1. -/
def otherStore : Flight := { flight0 .store with core := 72 }

/-- The state of the fill, whose window is open. -/
def filling (l : LaneAcc) : State :=
  { world group0 { team0 with windows := [(2, { g := 128, va := 0x2000, len := 128, lines := [] })] } with
      cur := .idle, ms := { flights := [(3, { fill0 with lanes := [l] })], next := 4 } }

theorem hyp_ReadsComplete :
    (∃ (s : State) (req line d : Nat) (f : Flight) (l0 : LaneAcc), inFlight s req f ∧ f.kind = .load ∧ f.ticket.isSome = true ∧
      (∀ l ∈ f.lanes, l.va < 2 ^ 64) ∧ d = f.core / 72 ∧
      s.fencedAcc (128 * line) (f.lineAttr line).1 (f.lineAttr line).2 = false ∧ (s.lanesAt req f line).head? = some l0 ∧
      (∀ l ∈ s.lanesAt req f line, l.done = false) ∧ notPrivate f ∧ l0.mem = 0 ∧ f.noAlloc = false ∧ f.acq = false ∧
      homeOf (128 * line) = some d) ∧
    (∃ (s : State) (req line d h : Nat) (f : Flight) (l0 : LaneAcc), inFlight s req f ∧ f.kind = .load ∧ f.ticket.isSome = true ∧
      (∀ l ∈ f.lanes, l.va < 2 ^ 64) ∧ d = f.core / 72 ∧
      s.fencedAcc (128 * line) (f.lineAttr line).1 (f.lineAttr line).2 = false ∧ (s.lanesAt req f line).head? = some l0 ∧
      (∀ l ∈ s.lanesAt req f line, l.done = false) ∧ homeOf (128 * line) = some h ∧ h ≠ d ∧
      ((f.acq && decide (2 ≤ f.scope)) || l0.mem != 0) = false ∧ d < 64 ∧ notPrivate f) ∧
    (∃ (a d cls : Nat), cls ≠ 1 ∧ homeOf a = some d) ∧
    (∃ (s : State) (req line d h : Nat) (f : Flight) (l0 : LaneAcc), inFlight s req f ∧ f.kind = .load ∧ f.ticket.isSome = true ∧
      (∀ l ∈ f.lanes, l.va < 2 ^ 64) ∧ notPrivate f ∧ d = f.core / 72 ∧ homeOf (128 * line) = some h ∧ h ≠ d ∧
      s.fencedPa (128 * line) = false ∧ (s.lanesAt req f line).head? = some l0 ∧ (∀ l ∈ s.lanesAt req f line, l.done = false) ∧
      f.acq = true ∧ 2 ≤ f.scope) ∧
    (∃ (s : State) (req line : Nat) (f : Flight), inFlight s req f ∧ f.kind = .load ∧ f.ticket.isSome = true ∧
      (∀ l ∈ f.lanes, l.va < 2 ^ 64) ∧ s.fencedPa (128 * line) = true ∧ s.lanesAt req f line ≠ [] ∧
      ∀ l ∈ s.lanesAt req f line, l.done = false) ∧
    (∃ (f : Flight) (l : LaneAcc) (i : Nat), f.kind = .load ∧ f.op ≠ 1 ∧ f.sext = false ∧ l.got < 256 ^ f.size ∧
      i < (f.size + 3) / 4) ∧
    (∃ (s : State) (req tk i r : Nat) (f : Flight) (G : Group) (T : Team) (C : Claim), inFlight s req f ∧ f.ticket = some tk ∧
      (∀ l ∈ f.lanes, l.lane < 96) ∧ s.grp f.g = some G ∧ s.tm G.team = some T ∧ G.duplex = false ∧
      Map.find G.claims tk = some C ∧ s.mayComplete T.coreKey f.g C.seq = true ∧
      C.dests[i]? = some (some r) ∧ G.pendOf r = some tk ∧ 4 ≤ r ∧
      (∀ k q, C.dests[k]? = some (some q) → q < 256 ∧ (q = r → k = i)) ∧ ∃ l, delivers f C 0 l) ∧
    (∀ b : Bool, ∃ (s : State) (req n w i : Nat) (f : Flight) (l : LaneAcc) (T : Team), Map.find s.ms.flights req = some f ∧
      f.kind = .stashFill ∧ f.lanes = [l] ∧ l.left = [] ∧ l.fault = none ∧ l.psn = b ∧ f.win = some (n, w, i) ∧
      f.galLine % 32 = 0 ∧ s.tm n = some T ∧ Map.has T.windows w = true) := by
  refine ⟨⟨flying (flight0 .load), 3, 0x4040, 0, _, _, ⟨rfl, by decide, by decide⟩, rfl, rfl, by decide +kernel, rfl,
      by decide +kernel, by rfl, by decide +kernel, notPrivate0 _, rfl, rfl, rfl, by decide +kernel⟩,
    ⟨flying (farFlight .load), 3, 2 ^ 30 + 64, 0, 1, _, _, ⟨rfl, by decide, by decide⟩, rfl, rfl, by decide +kernel, rfl,
      by decide +kernel, by rfl, by decide +kernel, by decide +kernel, by decide, rfl, by decide, notPrivateFar _⟩,
    ⟨0x202000, 0, 2, by decide, by decide +kernel⟩,
    ⟨flying farAcquire, 3, 2 ^ 30 + 64, 0, 1, farAcquire, _, ⟨rfl, by decide, by decide⟩, rfl, rfl, by decide +kernel, notPrivateFar .load, rfl,
      by decide +kernel, by decide, by decide +kernel, by rfl, by decide +kernel, rfl, by decide⟩,
    ⟨fenced (flying (flight0 .load)), 3, 0x4040, _, ⟨rfl, by decide, by decide⟩, rfl, rfl, by decide +kernel, by decide +kernel,
      by decide +kernel, by decide +kernel⟩,
    ⟨read0, { lane := 0, va := 0x2000, got := 0xFFFFFFFF }, 0, rfl, by decide, rfl, by decide, by decide⟩,
    ⟨flying read0, 3, 0, 0, 8, _, pending8, team0, { seq := 0, all := 3, lanes := 3, arriving := 3, dests := [some 8] },
      ⟨rfl, by decide, by decide⟩, rfl, by decide +kernel, rfl, rfl, rfl, rfl, by decide +kernel, rfl, by decide +kernel, by decide, ?_,
      { lane0 with left := [], got := 0x12345678 }, by decide +kernel, rfl, rfl, rfl, rfl, by decide +kernel⟩,
    fun b => ⟨filling { lane := 0, va := 0x2000, got := 77, psn := b }, 3, 1, 2, 0, _, _, _, rfl, rfl, rfl, rfl, rfl, rfl, rfl,
      (show 128 % 32 = 0 by decide), rfl, by cases b <;> decide +kernel⟩⟩
  intro k q h
  match k with
  | 0 => cases h; exact ⟨by decide, fun _ => rfl⟩
  | k + 1 => cases h

theorem hyp_StoresAndAtomicsArePerformed :
    (∃ (s : State) (req line d : Nat) (f : Flight) (l0 : LaneAcc), Arrives s req line d f ∧ f.kind = .store ∧ notPrivate f ∧
      homeOf (128 * line) = some d ∧ Map.find s.ms.combs (64 * line + d) = none ∧ (s.lanesAt req f line).head? = some l0 ∧
      s.fencedPa (128 * line) = false) ∧
    (∃ (s : State) (req line d o : Nat) (f : Flight) (l0 : LaneAcc), Arrives s req line d f ∧ f.kind = .store ∧
      f.lineAttr line = (1, o) ∧ homeOf (128 * line) ≠ some o ∧ (s.ms.l2Held o).length < l2Lines ∧
      Map.find s.ms.combs (64 * line + d) = none ∧ (s.lanesAt req f line).head? = some l0 ∧
      storeBytes (s.lanesAt req f line) line ≠ [] ∧ s.fencedAcc (128 * line) 1 o = false) ∧
    (∃ (s : State) (req line d h : Nat) (f : Flight) (l0 : LaneAcc), Arrives s req line d f ∧ f.kind = .store ∧ f.scope < 2 ∧
      notPrivate f ∧ homeOf (128 * line) = some h ∧ h ≠ d ∧ 128 * line / 2 ^ 52 = 0 ∧ s.fencedPa (128 * line) = false ∧
      (s.lanesAt req f line).head? = some l0 ∧ l0.mem = 0 ∧ (s.ms.l2Held d).length < l2Lines) ∧
    (∃ (s : State) (req line d : Nat) (f : Flight), Arrives s req line d f ∧ f.kind = .store ∧ s.lanesAt req f line ≠ [] ∧
      s.fencedPa (128 * line) = true) ∧
    (∃ (s : State) (req line : Nat) (f : Flight), inFlight s req f ∧ s.ct.ckBusy = true ∧ s.ct.ckCmd = 1 ∧ line < 2 ^ 36 ∧
      s.ct.ckMask.getLsbD (line / 2 ^ 30) = true ∧ s.ct.ckMask.getLsbD (f.core / 72) = false) ∧
    (∀ k ∈ [FKind.atom, .red], ∃ (s : State) (req line d : Nat) (f : Flight), Arrives s req line d f ∧ f.kind = k ∧ notPrivate f ∧
      (homeOf (128 * line)).isSome = true ∧ s.fencedPa (128 * line) = false ∧ Map.find s.ms.combs (64 * line + d) = none ∧
      s.lanesAt req f line ≠ [] ∧ ∀ l ∈ s.lanesAt req f line, ((inLine l line).map (fun b => b.1)).Nodup) ∧
    (∀ k ∈ [FKind.atom, .red], ∃ (s : State) (req line d : Nat) (f : Flight), Arrives s req line d f ∧ f.kind = k ∧
      s.fencedPa (128 * line) = true ∧ s.lanesAt req f line ≠ []) := by
  refine ⟨⟨flying (flight0 .store), 3, 0x4040, 0, _, _, ⟨⟨rfl, by decide, by decide⟩, rfl, rfl, rfl⟩, rfl, notPrivate0 _, by decide +kernel, rfl,
      by rfl, by decide +kernel⟩,
    ⟨flying ownedStore, 3, 0x4040, 0, 63, ownedStore, _, ⟨⟨rfl, by decide, by decide⟩, rfl, rfl, rfl⟩, rfl, by decide +kernel, by decide +kernel, by decide +kernel, rfl,
      by rfl, by decide +kernel, by decide +kernel⟩,
    ⟨flying (farFlight .store), 3, 2 ^ 30 + 64, 0, 1, _, _, ⟨⟨rfl, by decide, by decide⟩, rfl, rfl, rfl⟩, rfl, by decide,
      notPrivateFar _, by decide +kernel, by decide, by decide, by decide +kernel, by rfl, rfl, by decide +kernel⟩,
    ⟨fenced (flying (flight0 .store)), 3, 0x4040, 0, _, ⟨⟨rfl, by decide, by decide⟩, rfl, rfl, rfl⟩, rfl, by decide +kernel,
      by decide +kernel⟩,
    ⟨{ flying otherStore with ct := { ckBusy := true, ckCmd := 1, ckMask := 1 } }, 3, 0x4040, otherStore, ⟨rfl, by decide, by decide⟩, rfl, rfl,
      by decide, by decide, by decide⟩,
    two ⟨flying (flight0 .atom), 3, 0x4040, 0, _, ⟨⟨rfl, by decide, by decide⟩, rfl, rfl, rfl⟩, rfl, notPrivate0 _, by decide +kernel,
        by decide +kernel, rfl, by decide +kernel, by decide +kernel⟩
      ⟨flying (flight0 .red), 3, 0x4040, 0, _, ⟨⟨rfl, by decide, by decide⟩, rfl, rfl, rfl⟩, rfl, notPrivate0 _, by decide +kernel,
        by decide +kernel, rfl, by decide +kernel, by decide +kernel⟩,
    two ⟨fenced (flying (flight0 .atom)), 3, 0x4040, 0, _, ⟨⟨rfl, by decide, by decide⟩, rfl, rfl, rfl⟩, rfl, by decide +kernel,
        by decide +kernel⟩
      ⟨fenced (flying (flight0 .red)), 3, 0x4040, 0, _, ⟨⟨rfl, by decide, by decide⟩, rfl, rfl, rfl⟩, rfl, by decide +kernel,
        by decide +kernel⟩⟩

/-! ### Completion times, the host port, placement, pre-emption -/

/-- A store whose line has been performed at time 5 and waits for the probe 9. -/
def performed0 (probes : List Nat) : Flight :=
  { flight0 .store with
      lanes := [{ lane0 with left := [] }]
      performed := [{ line := 0x4040, probes := probes, t := 5, refs := [{ g := 1, seq := 0, dom := true }] }] }

/-- A group whose split waits in `w`. -/
def waitsIn (w : Wait) : State :=
  { world { group0 with splits := [{ pc := 0x1000, memb := 3, mask := 3, v := true, st := .waiting, wait := w }] } with
      cur := .idle }

/-- A probe of domain 1 for line 0x4040. -/
def probe0 (answer : Option Nat) (filter : Bool) : Probe :=
  { domain := 1, line := 0x4040, written := 0, req := some 3, answer := answer, filter := filter, at_ := 0 }

/-- The machine with the store and the probe. -/
def probing (p : Probe) (cycle : Nat) : State :=
  { flying (performed0 [9]) with
      clk := { cycle := cycle }, ms := { flights := [(3, performed0 [9])], probes := [(9, p)], next := 10 } }

/-- The machine with a combined byte of line 0x4040 in domain 0. -/
def combining (reg : Nat) : State :=
  { flying (flight0 .store) with
      ms := { combs := [(64 * 0x4040, { bytes := [(0, 1)], mask := 1, cores := 1, limit := 0, reg := reg
                                        stores := [{ g := 1, seq := 0, dom := true }] })] } }

theorem hyp_CompletionTimesAndProbesComplete :
    (∃ (s : State) (req line : Nat) (f : Flight) (P : StLine), Map.find s.ms.flights req = some f ∧
      f.performed.find? (fun l => l.line == line && l.probes.isEmpty) = some P ∧
      ∀ l ∈ f.performed, l.line = line → l.refs = [] → l.t ≤ s.wtime ((homeOf (128 * line)).getD 0)) ∧
    (∃ (s : State) (g e scope seq : Nat) (G : Group) (T : Team), s.grp g = some G ∧ s.tm G.team = some T ∧ (G.sp e).v = true ∧
      (G.sp e).st = .waiting ∧ s.loadsOut g seq = false ∧ (G.sp e).wait = .fence scope seq 1) ∧
    (∀ w ∈ [Wait.release 3 0 none, .fence 3 0 0, .fence 3 0 2], ∃ (s : State) (g e scope seq : Nat) (G : Group) (T : Team),
      s.grp g = some G ∧ s.tm G.team = some T ∧ (G.sp e).v = true ∧ (G.sp e).st = .waiting ∧ (G.sp e).wait = w ∧
      ((∃ m, w = .release scope seq m) ∨ w = .fence scope seq 0 ∨ w = .fence scope seq 2) ∧ nothingCombined s T.coreKey ∧
      s.loadsOut g seq = false ∧ s.storeHeld g seq = false ∧ G.tAt scope ≤ s.wtimeCore T.coreKey ∧ G.stores = []) ∧
    (∃ (s : State) (id : Nat) (p : Probe), Map.find s.ms.probes id = some p ∧ p.answer = none ∧ p.filter = false ∧ p.domain < 64 ∧
      id < s.ms.next ∧ s.fencedPa (128 * p.line) = false) ∧
    (∃ (s : State) (id lxd : Nat) (p : Probe), Map.find s.ms.probes id = some p ∧ p.answer = some lxd) ∧
    (∃ (s : State) (id : Nat) (p : Probe), Map.find s.ms.probes id = some p ∧ p.filter = true ∧
      p.at_ + 48 = s.wtime ((homeOf (128 * p.line)).getD 0)) ∧
    (∃ (s : State) (d line : Nat) (c : Comb), Map.find s.ms.combs (64 * line + d) = some c ∧ c.reg = 0 ∧ d < 64 ∧
      s.fencedPa (128 * line) = false ∧
      (s.ms.dir.filter (fun p => homeOf (128 * p.1) == homeOf (128 * line))).length < 1048576) ∧
    (∃ (s : State) (d line : Nat) (c : Comb), Map.find s.ms.combs (64 * line + d) = some c ∧ c.reg = 1) ∧
    (∃ (s : State) (d line : Nat) (c : Comb), Map.find s.ms.combs (64 * line + d) = some c ∧ c.limit = s.wtime d ∧ d < 64 ∧
      s.fencedPa (128 * line) = false) := by
  refine ⟨⟨flying (performed0 []), 3, 0x4040, _, _, rfl, rfl, by decide +kernel⟩,
    ⟨waitsIn (.fence 3 0 1), 1, 0, 3, 0, _, team0, rfl, rfl, rfl, rfl, rfl, rfl⟩, ?_,
    ⟨probing (probe0 none false) 0, 9, _, rfl, rfl, rfl, by decide, by decide, by decide +kernel⟩,
    ⟨probing (probe0 (some 7) false) 0, 9, 7, _, rfl, rfl⟩,
    ⟨probing (probe0 none true) 72, 9, _, rfl, rfl, by decide +kernel⟩,
    ⟨combining 0, 0, 0x4040, _, rfl, rfl, by decide, by decide +kernel, by decide⟩, ⟨combining 1, 0, 0x4040, _, rfl, rfl⟩,
    ⟨combining 2, 0, 0x4040, _, rfl, by decide +kernel, by decide, by decide +kernel⟩⟩
  intro w hw
  refine ⟨waitsIn w, 1, 0, 3, 0, _, team0, rfl, rfl, rfl, rfl, rfl, ?_, (fun p hp => by cases hp), rfl, rfl, Nat.zero_le _, rfl⟩
  rcases List.mem_cons.mp hw with rfl | hw
  · exact .inl ⟨_, rfl⟩
  rcases List.mem_cons.mp hw with rfl | hw
  · exact .inr (.inl rfl)
  cases List.mem_singleton.mp hw
  exact .inr (.inr rfl)

/-- The L2 of domain 1 owns a line of domain 0, byte 0 of which it has modified. -/
def owning : State := { ms := { owned := [(64 * 0x4040 + 1, { bytes := [(0, 7)], marks := 0, expiry := 0 })] } }

theorem hyp_HostPortCompletes :
    (∃ (s : State) (pa i len : Nat), pa + len = 2 ^ 43 ∧ i < len ∧ s.ownerOf ((pa + i) / 128) = none) ∧
    (∃ (s : State) (pa i len d : Nat) (l : L1Line), pa + len ≤ 2 ^ 43 ∧ i < len ∧ s.ownerOf ((pa + i) / 128) = some d ∧
      Map.find s.ms.owned (64 * ((pa + i) / 128) + d) = some l) ∧
    (∃ (pa len : Nat) (bytes : List Byte), pa + len = 2 ^ 43 + 1 ∧ bytes.length = len) ∧
    (∃ (s : State) (pa : Nat) (bytes : List Byte), bytes ≠ [] ∧ pa + bytes.length ≤ 2 ^ 43 ∧
      ∀ i, i < bytes.length →
        s.fencedAcc (128 * ((pa + i) / 128)) (s.hostAttr ((pa + i) / 128)).1 (s.hostAttr ((pa + i) / 128)).2 = false ∧
        ∀ d, s.ownerOf ((pa + i) / 128) = some d → homeOf (pa + i) ≠ some d) ∧
    (∃ (s : State) (line : Nat), 128 * line / 2 ^ 52 = 2 ∧ s.wtime 0 = s.lxOf 0 line + 4) ∧
    (∃ (s : State) (line : Nat), 128 * line / 2 ^ 52 = 2 ∧ s.wtime 0 = s.lxOf 0 line + 5) := by
  refine ⟨⟨State.reset, 2 ^ 43 - 1, 0, 1, by decide, by decide, by decide +kernel⟩,
    ⟨owning, 0x202000, 127, 128, 1, _, by decide, by decide, by decide +kernel, rfl⟩, ⟨2 ^ 43, 1, [0], by decide, rfl⟩,
    ⟨owning, 0x20207F, [1, 2], by decide, by decide, ?_⟩,
    ⟨{ clk := { cycle := 6 } }, 2 ^ 46, by decide, by decide +kernel⟩, ⟨{ clk := { cycle := 8 } }, 2 ^ 46, by decide, by decide +kernel⟩⟩
  intro i hi
  match i, hi with
  | 0, _ =>
    refine ⟨by decide +kernel, fun d h => ?_⟩
    have h1 : owning.ownerOf ((0x20207F + 0) / 128) = some 1 := by decide +kernel
    rw [h1] at h; cases h; decide +kernel
  | 1, _ =>
    refine ⟨by decide +kernel, fun d h => ?_⟩
    have h1 : owning.ownerOf ((0x20207F + 1) / 128) = none := by decide +kernel
    rw [h1] at h; cases h
  | n + 2, h => exact absurd h (by simp)

/-- Domain 0 places teams. -/
def placing (s : State) : State :=
  { s with ct := { s.ct with dom := [(0, { disp := true, walk := true, l2 := true, dram := true })], partOf := [(0, 0)] } }

/-- A launch whose team has not been sent. -/
def unsent : Launch := { launch0 with sent := [] }

/-- A machine with that launch, core 0 of domain 0, and no team. -/
def unplaced : State :=
  placing { idle with exe := { idle.exe with groups := [], teams := [] }, wk := { launches := [(8, unsent)], next := 2 } }

/-- The machine in which the team has state `st`, and no group. -/
def comes (st : TeamSt) (L : Launch) : State :=
  placing { idle with
    exe := { idle.exe with groups := [], teams := [(1, { team0 with st := st, groups := [] })] }
    wk := { launches := [(8, L)], next := 2, gathering := if L.forme.coRes then some 8 else none } }

/-- A launch that is a unit. -/
def coLaunch : Launch := { launch0 with forme := { forme0 with cor := true } }

theorem numbered_of {s : State}
    (h : (Map.sorted s.exe.teams && Map.sorted s.exe.groups && s.exe.teams.all (fun p => decide (p.1 < s.exe.nextTeam)) &&
      s.exe.groups.all (fun p => decide (p.1 < s.exe.nextGroup))) = true) : numbered s := by
  simp only [Bool.and_eq_true, List.all_eq_true, decide_eq_true_eq] at h
  exact ⟨h.1.1.1, h.1.1.2, h.1.2, h.2⟩

theorem hyp_PlacementCompletes :
    (∃ (s : State) (d l : Nat) (f : Forme) (only : Option Nat) (k gal : Nat) (plan : List (Nat × Nat)),
      s.chooseCore d l f only = some (k, plan, gal)) ∧
    (∃ s : State, numbered s) ∧
    (∃ (s : State) (l d : Nat) (L : Launch), numbered s ∧ oneLaunch s l L ∧ d < 64 ∧ s.inPartition L.forme.ctx d = true ∧
      s.fits d l L.forme 0 = true) :=
  ⟨⟨unplaced, 0, 8, forme0, none, 0, 0, [(0, 32)], by decide +kernel⟩, ⟨unplaced, numbered_of (by decide +kernel)⟩,
    ⟨unplaced, 8, 0, unsent, numbered_of (by decide +kernel), ⟨rfl, rfl, rfl, rfl, rfl, rfl, rfl, rfl, rfl, rfl, by decide, rfl,
      by decide, by decide, rfl, rfl⟩, by decide, by decide +kernel, by decide +kernel⟩⟩

theorem hyp_TeamsArriveAndStart :
    (∃ (s : State) (n : Nat) (T : Team) (L : Launch), s.tm n = some T ∧ T.st = .inFlight ∧ s.launch T.launch = some L ∧
      (∀ p ∈ s.exe.teams, p.1 < n → p.2.st = .inFlight → p.2.domain ≠ T.domain) ∧
      s.inPartition L.forme.ctx T.domain = true ∧ s.placeBit T.domain = true ∧
      (∃ H, s.launch L.head = some H ∧ s.orderOk H = true) ∧
      (s.chooseCore T.domain T.launch L.forme (s.onlyTile L.forme T.index)).isSome = true) ∧
    (∃ (s : State) (head : Nat), numbered s ∧ s.wk.gathering = some head ∧
      (∀ l ∈ s.unit head, ∃ L, s.launch l = some L ∧
        (s.exe.teams.filter (fun p => p.2.launch == l && p.2.st == .reserved)).length = L.forme.teams) ∧
      (∀ n T, s.tm n = some T → T.launch ∈ s.unit head → T.st = .reserved) ∧ s.unit head ≠ []) ∧
    (∃ (s : State) (n : Nat) (T : Team) (L : Launch), numbered s ∧ s.tm n = some T ∧ T.st = .reserved ∧ T.frame = none ∧
      s.launch T.launch = some L ∧ L.forme.coRes = false ∧ T.plan.length = L.forme.roleOf.length) := by
  refine ⟨⟨comes .inFlight launch0, 1, _, _, rfl, rfl, rfl, by decide +kernel, by decide +kernel, by decide +kernel,
      ⟨launch0, rfl, by decide +kernel⟩, by decide +kernel⟩,
    ⟨comes .reserved coLaunch, 8, numbered_of (by decide +kernel), by decide, ?_, ?_, by decide +kernel⟩,
    ⟨comes .reserved launch0, 1, _, _, numbered_of (by decide +kernel), rfl, rfl, rfl, rfl, by decide, by decide +kernel⟩⟩
  · intro l hl
    have h : (comes .reserved coLaunch).unit 8 = [8] := by decide +kernel
    rw [h] at hl
    cases List.mem_singleton.mp hl
    exact ⟨coLaunch, rfl, by decide +kernel⟩
  · intro n T h _
    have h1 : (comes .reserved coLaunch).exe.teams = [(1, { team0 with st := .reserved, groups := [] })] := rfl
    simp only [State.tm, h1] at h
    simp [Map.find] at h
    rw [← h.2]

/-- The slice of the tests holds a latch chain. -/
def chained : State :=
  { world { group0 regs0 with splits := [{ pc := 0x1000, memb := 3, mask := 3, v := true, chain := 1 }] } with
      cur := .idle
      exe := { idle.exe with
        groups := [(1, { group0 regs0 with splits := [{ pc := 0x1000, memb := 3, mask := 3, v := true, chain := 1 }] })]
        slices := [(0, { chain := some (1, 0) })] } }

theorem hyp_ChoicesComplete :
    (∃ s : State, numbered s ∧ s.cur = .idle) ∧
    (∃ (s : State) (d c sl g e : Nat), numbered s ∧ (s.sliceAt (sliceKey (coreKey d c) sl)).chain = some (g, e) ∧
      issuable s (coreKey d c) sl g e ∧ s.mayIssue (coreKey d c) sl = true ∧
      ∃ G, s.grp g = some G ∧ G.canIssue e = true ∧ (G.sp e).chain ≠ 0 ∧ G.atRpc e = false) ∧
    (∃ (s : State) (d c sl : Nat), numbered s ∧ s.cur = .idle ∧ s.mayIssue (coreKey d c) sl = false) ∧
    (∃ (s : State) (d c sl g e : Nat) (G : Group), numbered s ∧ (s.sliceAt (sliceKey (coreKey d c) sl)).chain = none ∧
      s.issuers (coreKey d c) sl = [(g, G)] ∧ G.valid = [e] ∧ G.rq = [e] ∧ (G.sp e).st = .ready ∧ (G.sp e).fresh = false ∧
      s.mayIssue (coreKey d c) sl = true ∧ G.lvl = 0 ∧ G.frozen = false ∧ G.shed = false ∧ 0 ≤ (s.sliceAt (sliceKey (coreKey d c) sl)).c) :=
  ⟨⟨idle, numbered_of (by decide +kernel), rfl⟩,
    ⟨chained, 0, 0, 0, 1, 0, numbered_of (by decide +kernel), by decide +kernel,
      ⟨_, _, rfl, rfl, rfl, rfl, rfl, rfl, rfl, rfl, rfl⟩, by decide +kernel, _, rfl, by decide +kernel, by decide +kernel,
        by decide +kernel⟩,
    ⟨idle.noteIssue 0 0, 0, 0, 0, numbered_of (by decide +kernel), rfl, by decide +kernel⟩,
    ⟨idle, 0, 0, 0, 1, 0, _, numbered_of (by decide +kernel), by decide +kernel, rfl, by decide +kernel, rfl, rfl, rfl,
      by decide +kernel, rfl, rfl, rfl, by decide +kernel⟩⟩

/-- A launch of priority 1 whose team needs nearly all of a core's galley. -/
def big : Launch :=
  { launch0 with queue := 1, prio := 1, head := 16, sent := [], forme := { forme0 with galley := 4090 } }

/-- Core 0 is the only one that is there; its team stands in the way of `big`. -/
def crowded : State :=
  placing { idle with
    wk := { idle.wk with launches := [(8, launch0), (16, big)], next := 3 }
    ct := { idle.ct with trap := [(0, { savebase := 0x1000000, savesize := 16 })] } }

/-- The save frame of the team of the tests. -/
def frame0 (T : Team) (G : Group) : SaveFrame := { ctx := 0, base := 0x1000000, size := 4096, team := T, groups := [(1, G)], requests := [] }

/-- A team with one group of eight registers, and what it needs of a core. -/
def small (st : TeamSt) : State :=
  let G : Group := { group0 with regs8 := 1 }
  let f : Forme :=
    { forme0 with
        galley := 0, bbars := 0, acc := 0
        roles := [{ entry := 0x1000, groups := 1, regs8 := 1, narg := 2, argofs := 0, shed := false, crit := false }] }
  let T : Team := { team0 with st := st, frame := if st = .saved then some 0x1000000 else none }
  placing { world G T with cur := .idle, wk := { launches := [(8, { launch0 with forme := f })], next := 2, frames := [(1, frame0 T G)] } }

/-- The saved team once it has its place. -/
def replaced : State :=
  (small .saved).setTm 1 { team0 with st := .reserved, frame := some 0x1000000, plan := [(0, 1)] }

/-- Where no byte was written, an array of memory is zero. -/
theorem zeros_at (s : State) (hb : s.ms.bytes = []) (hw : s.wlog = []) (pa n i : Nat) : (s.mArr pa n).getD i 0 = 0 := by
  have h : s.mbs pa n = List.replicate n 0 := by
    apply List.eq_replicate_iff.mpr
    refine ⟨by simp [State.mbs], ?_⟩
    intro b hb'
    simp only [State.mbs, List.mem_map] at hb'
    obtain ⟨k, -, rfl⟩ := hb'
    simp [State.mb, hb, hw, logFind, Map.getD, Map.find, Memory.unlisted]
  simp only [State.mArr, h, Array.getD]
  split <;> simp

/-- A number read from zeros is zero. -/
theorem frameNat_zeros (bs : Array Byte) (hz : ∀ i : Nat, bs[i]?.getD 0#8 = 0#8) (o n : Nat) : frameNat bs o n = 0 := by
  unfold frameNat
  generalize List.range n = l
  induction l with
  | nil => rfl
  | cons a l ih => simp [leNat, hz] at ih ⊢; omega

/-- A section of zeros is restored: no split and no PENDING register. -/
theorem zeros_accepted (G : Group) (bs : Array Byte) (hz : ∀ i : Nat, bs[i]?.getD 0#8 = 0#8) : G.refused bs = false := by
  have hr : ∀ o, recordPend bs o = none := by
    intro o
    simp [recordPend, hz]
  have hp : ∀ o n r0, recordPends bs o n r0 = [] := by
    intro o n r0
    unfold recordPends
    generalize List.range n = l
    induction l with
    | nil => rfl
    | cons a l ih => rw [List.foldl_cons, hr]; exact ih
  have hn : tableOf bs = [0, 0, 0, 0] := by simp [tableOf, frameNat_zeros bs hz]
  have hs : slotPends bs = [] := by simp [slotPends, frameNat_zeros bs hz]
  have hc : (SplitSt.ofCode 0).isSome = true := rfl
  simp [Group.refused, hp, hn, hs, hc]

theorem hyp_PreemptionCompletes :
    (∃ (s s1 : State) (n : Nat) (D : Demand), numbered s ∧ D ∈ s.demands ∧ s.victim D = some n ∧
      s.chainsOver (s.stopsWith n) = true ∧ s.allocFrames (s.stopsWith n) = some s1) ∧
    (∃ (s : State) (n : Nat) (T : Team) (f : SaveFrame), s.tm n = some T ∧ Map.find s.wk.frames n = some f ∧ T.st = .stopping ∧
      s.atRest n T = true ∧ s.frameWait T = none) ∧
    (∃ (s s1 : State) (n core : Nat) (T T1 : Team) (f : SaveFrame), s.tm n = some T ∧ s.inUnit T = false ∧ T.st = .saved ∧
      s.reserveSaved n (some core) = some s1 ∧ s1.tm n = some T1 ∧ Map.find s.wk.frames n = some f ∧ f.requests = [] ∧
      s1.frameRefused T1 f = none ∧ T.groups.Nodup ∧ T1.plan.length = T.groups.length ∧
      (∀ i g, T.groups[i]? = some g → (s.grp g).isSome = true ∧ s.mNat (f.base + s.sectionOfs T i + 200) 4 % 4 = 0 ∧
        (s.mNat (f.base + s.sectionOfs T i + 200) 4).testBit 3 = false) ∧ core < 72) := by
  have hr : replaced.frameRefused { team0 with st := .reserved, frame := some 0x1000000, plan := [(0, 1)] }
      (frame0 { team0 with st := .saved, frame := some 0x1000000 } { group0 with regs8 := 1 }) = none := by
    have h1 : (List.range (4096 / 32)).any (fun i => replaced.mark (0x1000000 + 32 * i)) = false := by decide +kernel
    have h2 : ∀ (G : Group) (o n : Nat), G.refused (replaced.mArr o n) = false :=
      fun G o n => zeros_accepted G _ (fun i => by simpa using zeros_at replaced rfl rfl o n i)
    simp only [State.frameRefused, frame0, h1, h2]
    simp only [Bool.false_eq_true, if_false]
    split
    · rename_i h
      simp only [List.any_eq_true] at h
      obtain ⟨p, -, hp⟩ := h
      split at hp <;> simp at hp
    · rfl
  refine ⟨⟨crowded, (crowded.allocFrames (crowded.stopsWith 1)).getD {}, 1, { l := 16, t := 0, prio := 1, d := 0 },
      numbered_of (by decide +kernel), by decide +kernel, by decide +kernel, by decide +kernel, by decide +kernel⟩,
    ⟨small .stopping, 1, _, _, rfl, rfl, rfl, by decide +kernel, by decide +kernel⟩,
    ⟨small .saved, replaced, 1, 0, { team0 with st := .saved, frame := some 0x1000000 }, { team0 with st := .reserved, frame := some 0x1000000, plan := [(0, 1)] },
      frame0 { team0 with st := .saved, frame := some 0x1000000 } { group0 with regs8 := 1 }, by decide +kernel,
      by decide +kernel, rfl, by decide +kernel, rfl, by decide +kernel, rfl, hr, by decide, by decide, ?_, by decide⟩⟩
  intro i g hg
  have hz : ∀ pa, (small .saved).mNat pa 4 = 0 := by
    intro pa
    have hb : (small .saved).ms.bytes = [] := rfl
    have hw : (small .saved).wlog = [] := rfl
    simp [State.mNat, State.mbs, State.mb, hb, hw, logFind, Map.getD, Map.find, Memory.unlisted, List.range_succ, leNat]
  rw [hz]
  match i with
  | 0 => cases hg; exact ⟨by decide +kernel, rfl, by decide⟩
  | i + 1 => cases hg

/-! ### The engines -/

/-- A copy of 64 bytes at 0x2000 into galley offset 128. -/
def copy0 : Copy :=
  { g := 1, team := 1, core := 0, seq := 1, cls := 0, batch := 0, bb := none, gal := 128
    kind := .rows false 0x2000 64 1 1 0 0 0 0, total := 64, done := 0, suspended := none, user := true, ctx := 0 }

/-- The same out of the galley. -/
def copyOut : Copy := { copy0 with kind := .rows true 0x2000 64 1 1 0 0 0 0 }

/-- The machine with that copy. -/
def copying (c : Copy) : State := { idle with eng := { copies := [(3, c)], next := 4 } }

/-- A queue element of the Platen. -/
def pop0 (k : PKind) : POp := { g := 1, team := 1, core := 0, tile := 0, rows := 3, seq := 1, kind := k }

/-- The machine with that operation. -/
def plating (k : PKind) (s : State := idle) : State := { s with eng := { pops := [(3, pop0 k)], next := 4 } }

/-- An MLOOP of one INT8 K-step: A from v32, B at galley offset 256. -/
def mloop0 (gate : Option (Nat × Bool) := none) (opened : Option Bool := none) : MLoop :=
  { ta := .i8, tb := .i8, d := 32, astr := 8, sb := 0, b0 := 256, binc := 0, bs := none, ks := 1, reuse := false
    fromLatch := false, gate := gate, opened := opened, step := 0, user := true }

/-- A drain to the claim with ticket `tk`, or to galley offset 512. -/
def drain0 (tk : Option Nat) (buf : Option (List (Nat × Byte × Bool)) := none) : Drain :=
  { mx := none, z := true, ticket := tk, g := 512, sg := 0, rs := 256, bb := none, batch := 0, buf := buf, unit := 0, secs := [] }

theorem atWork_of (k : PKind) : ∃ G T, atWork (plating k) 3 (pop0 k) G T := ⟨_, _, rfl, rfl, rfl, .inl rfl, rfl, rfl⟩

theorem mayMove_of {s : State} {id : Nat} {c : Copy} {T : Team} (hp : Map.find s.eng.pops id = none) (hc : Map.find s.eng.copies id = some c)
    (hs : c.suspended = none) (ht : s.tm c.team = some T)
    (h : (T.st.works && s.seated id c && !c.blocked s (c.unit c.done) && (c.bb.isNone || s.mayCount c.core id) && Map.sorted c.secs &&
      (c.unit c.done).all (fun b => match b.1 with | some a => walkClear s c.core c.ctx a | none => true)) = true) : mayMove s id c T := by
  simp only [Bool.and_eq_true, Bool.not_eq_true', Bool.or_eq_true, List.all_eq_true] at h
  obtain ⟨⟨⟨⟨⟨h1, h2⟩, h3⟩, h4⟩, h5⟩, h6⟩ := h
  refine ⟨hp, hc, hs, ht, h1, h2, h3, fun hb => ?_, fun b hb a ha => ?_, h5⟩
  · rcases h4 with h4 | h4
    · exact absurd (Option.isNone_iff_eq_none.mp h4) hb
    · exact h4
  · have h7 := h6 b hb
    rw [ha] at h7
    exact h7

theorem fatal_of {r : UnitXl × State} (h : (match r.1 with | .fatal => true | _ => false) = true) : r = (.fatal, r.2) := by
  obtain ⟨u, t⟩ := r
  cases u with
  | fatal => rfl
  | _ => cases h

theorem recov_of {r : UnitXl × State} {va level : Nat} {cls : Bool}
    (h : (match r.1 with | .recov a l c => decide (a = va ∧ l = level ∧ c = cls) | _ => false) = true) :
    r = (.recov va level cls, r.2) := by
  obtain ⟨u, t⟩ := r
  cases u with
  | recov a l c => obtain ⟨rfl, rfl, rfl⟩ := of_decide_eq_true h; rfl
  | _ => cases h

/-- The machine in which the root's entry of the copy's page is `e`. -/
def copyingAt (e : Byte) (out : Bool) : State :=
  { copying { copy0 with kind := .rows out 0x40000000 64 1 1 0 0 0 0 } with
      ms := { bytes := [(0x8000, e)] }, tr := { idle.tr with roots := [(0, { root := 0x8000, en := true })] } }

theorem hyp_CopyUnitsMove :
    (∃ (s : State) (id fe : Nat) (c : Copy), Map.find s.eng.pops id = none ∧ Map.find s.eng.copies id = some c ∧
      c.suspended = some fe) ∧
    (∀ b : Bool, ∃ (s : State) (id fe : Nat) (c : Copy), Map.find s.eng.copies id = some c ∧ c.suspended = some fe ∧
      Map.has s.tr.faults fe = b) ∧
    (∃ (s s1 : State) (id va level : Nat) (cls : Bool) (c : Copy) (T : Team), mayMove s id c T ∧
      c.translate s ((c.unit c.done).filterMap (fun b => b.1)) = (.recov va level cls, s1)) ∧
    (∀ out : Bool, ∃ (s s1 : State) (id : Nat) (c : Copy) (T : Team), mayMove s id c T ∧ c.out = out ∧
      c.translate s ((c.unit c.done).filterMap (fun b => b.1)) = (.fatal, s1)) ∧
    (∀ out : Bool, ∃ (s s1 : State) (id : Nat) (c : Copy) (T : Team) (ps : List (Nat × Leaf × Nat)), mayMove s id c T ∧ c.out = out ∧
      c.translate s ((c.unit c.done).filterMap (fun b => b.1)) = (.ok ps, s1) ∧
      (c.out = false → ∀ b ∈ c.unit c.done, ∀ a l, b.1 = some a → pageLeaf ps a = some l →
        s1.fencedAcc (physOf ps a) l.cls l.owner = false)) := by
  refine ⟨⟨copying { copy0 with suspended := some 7 }, 3, 7, _, rfl, rfl, rfl⟩, ?_,
    ⟨copyingAt 2 false, _, 3, 0x40000000, 3, false, _, team0, mayMove_of rfl rfl rfl rfl (by decide +kernel),
      recov_of (by decide +kernel)⟩, ?_, ?_⟩
  · rintro (_ | _)
    · exact ⟨copying { copy0 with suspended := some 7 }, 3, 7, _, rfl, rfl, rfl⟩
    · let c : Copy := { copy0 with suspended := some 7 }
      exact ⟨{ copying c with tr := { faults := [(7, fault0 false none)] } }, 3, 7, _, rfl, rfl, rfl⟩
  · rintro (_ | _)
    · exact ⟨copyingAt 0 false, _, 3, _, team0, mayMove_of rfl rfl rfl rfl (by decide +kernel), rfl, fatal_of (by decide +kernel)⟩
    · exact ⟨copyingAt 0 true, _, 3, _, team0, mayMove_of rfl rfl rfl rfl (by decide +kernel), rfl, fatal_of (by decide +kernel)⟩
  · rintro (_ | _)
    · refine ⟨copying copy0, _, 3, copy0, team0, [(2, leaf0, 0x202000)], mayMove_of rfl rfl rfl rfl (by decide +kernel), rfl, rfl,
        fun _ b hb a l ha hl => ?_⟩
      have h : (copy0.unit 0).all (fun b => match b.1 with
          | some a => !idle.fencedAcc (physOf [(2, leaf0, 0x202000)] a) leaf0.cls leaf0.owner
          | none => true) = true := by decide +kernel
      have h1 := List.all_eq_true.mp h b hb
      rw [ha] at h1
      have h2 : l = leaf0 := by
        simp only [pageLeaf, List.find?] at hl
        split at hl
        · exact (Option.some.inj hl).symm
        · cases hl
      rw [h2]
      rw [Bool.not_eq_true'] at h1
      exact h1
    · exact ⟨copying copyOut, _, 3, copyOut, team0, _, mayMove_of rfl rfl rfl rfl (by decide +kernel), rfl, rfl, fun h => by cases h⟩

theorem hyp_DrainsMove :
    (∃ (s : State) (id : Nat) (p : POp) (G : Group) (T : Team), atWork s id p G T ∧ p.kind = .mzero) ∧
    (∃ (s : State) (id tk i r : Nat) (p : POp) (G : Group) (T : Team) (d : Drain) (C : Claim), atWork s id p G T ∧
      p.kind = .drain d ∧ d.mx = none ∧ d.buf = none ∧ d.ticket = some tk ∧ G.team = p.team ∧ G.duplex = false ∧
      Map.find G.claims tk = some C ∧ s.mayComplete T.coreKey p.g C.seq = true ∧ C.dests[i]? = some (some r) ∧ G.pendOf r = some tk ∧
      4 ≤ r ∧ i < 64 ∧ ∀ k q, C.dests[k]? = some (some q) → q < 256 ∧ (q = r → k = i)) ∧
    (∃ (s : State) (id : Nat) (p : POp) (G : Group) (T : Team) (d : Drain), atWork s id p G T ∧ p.kind = .drain d ∧ d.mx = none ∧
      d.buf = none ∧ d.ticket = none ∧ G.duplex = false) ∧
    (∀ bb ∈ [none, some 3], ∃ (s : State) (id : Nat) (p : POp) (G : Group) (T : Team) (d : Drain) (bs : List (Nat × Byte × Bool)),
      Map.find s.eng.pops id = some p ∧ s.grp p.g = some G ∧ s.tm p.team = some T ∧ G.frozen = false ∧ T.st = .started ∧
      p.kind = .drain d ∧ d.buf = some bs ∧ d.bb = bb ∧ s.mayCount p.core id = true ∧ Map.sorted d.secs = true) ∧
    (∃ (s : State) (id : Nat) (p : POp) (G : Group) (T : Team) (d : Drain) (bs : List (Nat × Byte × Bool)),
      Map.find s.eng.pops id = some p ∧ s.grp p.g = some G ∧ s.tm p.team = some T ∧ T.st = .stopping ∧
      p.kind = .drain d ∧ d.buf = some bs ∧ d.bb = none ∧ Map.sorted d.secs = true) := by
  let sd : State := plating (.drain (drain0 (some 0))) { world pending8 with cur := .idle }
  let buf : Drain := drain0 none (some [(512, 1, false)])
  refine ⟨⟨plating .mzero, 3, pop0 .mzero, _, _, ⟨rfl, rfl, rfl, .inl rfl, rfl, rfl⟩, rfl⟩,
    ⟨sd, 3, 0, 0, 8, pop0 (.drain (drain0 (some 0))), _, _, _, { seq := 0, all := 3, lanes := 3, arriving := 3, dests := [some 8] },
      ⟨rfl, rfl, rfl, .inl rfl, rfl, rfl⟩, rfl, rfl, rfl, rfl, rfl, rfl, rfl, by decide +kernel, rfl, by decide +kernel, by decide, by decide, ?_⟩,
    ⟨plating (.drain (drain0 none)), 3, pop0 (.drain (drain0 none)), _, _, _, ⟨rfl, rfl, rfl, .inl rfl, rfl, rfl⟩, rfl, rfl, rfl, rfl, rfl⟩, ?_,
    ⟨{ plating (.drain buf) with exe := { idle.exe with teams := [(1, { team0 with st := .stopping })] } }, 3, _, _, _, _, _, rfl, rfl, rfl, rfl, rfl, rfl, rfl, rfl⟩⟩
  · intro k q h
    match k with
    | 0 => cases h; exact ⟨by decide, fun _ => rfl⟩
    | k + 1 => cases h
  · intro bb _
    exact ⟨plating (.drain { buf with bb := bb }), 3, _, _, _, _, _, rfl, rfl, rfl, rfl, rfl, rfl, rfl, rfl, rfl, rfl⟩

theorem hyp_KStepsAccumulate :
    (∀ o : Option Bool, o = none ∨ o = some true → ∃ (s : State) (id : Nat) (p : POp) (G : Group) (T : Team) (m : MLoop) (g : Nat × Bool),
      atWork s id p G T ∧ p.kind = .mloop m ∧ m.gate = some g ∧ m.opened = o) ∧
    (∃ (s : State) (id : Nat) (p : POp) (G : Group) (T : Team) (m : MLoop), atWork s id p G T ∧ p.kind = .mloop m ∧
      m.ta = .i8 ∧ m.tb = .i8 ∧ m.sb = 0 ∧ m.bs = none ∧ m.fromLatch = false ∧ (m.gate = none ∨ m.opened = some false) ∧ G.lvl = 0 ∧
      G.bank = false ∧ 4 ≤ m.d ∧ (∀ i, i < 8 → G.pendOf (m.d + m.step * m.astr + i) = none) ∧
      s.galleyHeld p.g (s.ctxOf T) p.seq (m.b0 + m.binc * m.step) 2048 = false) := by
  refine ⟨fun o _ => ⟨plating (.mloop (mloop0 (some (0, false)) o)), 3, pop0 (.mloop (mloop0 (some (0, false)) o)), _, _, _, _,
      ⟨rfl, rfl, rfl, .inl rfl, rfl, rfl⟩, rfl, rfl, rfl⟩,
    ⟨plating (.mloop mloop0), 3, pop0 (.mloop mloop0), _, _, _, ⟨rfl, rfl, rfl, .inl rfl, rfl, rfl⟩, rfl, rfl, rfl, rfl, rfl, rfl, .inl rfl, rfl,
      rfl, by decide, by decide +kernel, by decide +kernel⟩⟩

/-- A message on route 0 from team 1 to itself. -/
def msg0 : SeamMsg :=
  { g := 1, team := 1, route := 0, dest := some 1, port := 2, seq := 1, batch := none, body := { n := 1, words := [(0, { val := 9 })] } }

/-- The machine with the message, `n` messages in port 2, and an operation that takes from it. -/
def seaming (n : Nat) (k : SKind) (path : List Nat := [0]) (G : Group := pending8) : State :=
  { world G { team0 with routes := [(0, path)], ports := [(2, List.replicate n { n := 1, words := [(0, { val := 9 })] })] } with
      cur := .idle
      eng := { smsgs := [(3, msg0)], sops := [(4, { g := 1, team := 1, port := 2, seq := 1, batch := none, kind := k })], next := 5 } }

theorem first0 (k : SKind) : ∃ T, firstOfPort (seaming 1 k) 4 { g := 1, team := 1, port := 2, seq := 1, batch := none, kind := k } T ∧
    T.ports = [(2, [{ n := 1, words := [(0, { val := 9 })] }])] :=
  ⟨_, ⟨rfl, rfl, rfl, fun q hq _ _ => by cases List.mem_singleton.mp hq; exact Nat.le_refl _⟩, rfl⟩

theorem hyp_SeamEventsComplete :
    (∀ n, n = 3 ∨ n = 4 → ∃ (s : State) (id d : Nat) (m : SeamMsg) (S T : Team), Map.find s.eng.smsgs id = some m ∧
      (∀ q ∈ s.eng.smsgs, q.1 < id → q.2.team = m.team → q.2.route = m.route → q.2.port ≠ m.port) ∧ s.tm m.team = some S ∧
      m.dest = some d ∧ s.tm d = some T ∧ T.st.takes = true ∧ (∀ k ∈ Map.getD S.routes m.route [], s.fencedD (k / 72) = false) ∧
      (Map.getD T.ports m.port []).length = n) ∧
    (∃ (s : State) (id d : Nat) (m : SeamMsg) (S T : Team), Map.find s.eng.smsgs id = some m ∧
      (∀ q ∈ s.eng.smsgs, q.1 < id → q.2.team = m.team → q.2.route = m.route → q.2.port ≠ m.port) ∧ s.tm m.team = some S ∧
      m.dest = some d ∧ s.tm d = some T ∧ T.st.takes = true ∧ ∃ k ∈ Map.getD S.routes m.route [], s.fencedD (k / 72) = true) ∧
    (∃ (s : State) (id : Nat) (m : SeamMsg), Map.find s.eng.smsgs id = some m ∧
      (∀ q ∈ s.eng.smsgs, q.1 < id → q.2.team = m.team → q.2.route = m.route → q.2.port ≠ m.port) ∧
      ∃ d T, m.dest = some d ∧ s.tm d = some T ∧ T.st.takes = false) ∧
    (∀ k ∈ [SKind.sred .n32 0 { n := 1, words := [] } 0 2, .sbc false 1 0 2, .sbc true 1 0 2, .recv (some 0) 1 false 0],
      ∃ (s : State) (id : Nat) (o : SeamOp) (T : Team) (m : SeamWords) (rest : List SeamWords), o.kind = k ∧
        firstOfPort s id o T ∧ Map.getD T.ports o.port [] = m :: rest ∧ 1 ≤ m.n ∧ servable s o.g 0) ∧
    (∃ (s : State) (G : Group) (C : Claim), s.grp 1 = some G ∧ Map.find G.claims 0 = some C ∧
      C.dests[0]? = some (some 8) ∧ G.pendOf 8 = some 0 ∧ servable s 1 0 ∧
      ∀ k v, C.dests[k]? = some (some v) → v < 256 ∧ (v = 8 → k = 0)) := by
  have hf : ∀ (s : State), s.eng.smsgs = [(3, msg0)] →
      ∀ q ∈ s.eng.smsgs, q.1 < 3 → q.2.team = msg0.team → q.2.route = msg0.route → q.2.port ≠ msg0.port := by
    intro s hs q hq h1
    rw [hs] at hq
    cases List.mem_singleton.mp hq
    exact absurd h1 (by decide)
  have hd : ∀ k q, ([some 8] : List (Option Nat))[k]? = some (some q) → q < 256 ∧ (q = 8 → k = 0) := by
    intro k q h
    match k with
    | 0 => cases h; exact ⟨by decide, fun _ => rfl⟩
    | k + 1 => cases h
  have hs : ∀ k, servable (seaming 1 k) 1 0 := by
    intro k G C T hG hC hT
    cases hG
    cases hC
    cases hT
    exact ⟨rfl, fun i v h => (hd i v h).1⟩
  let gone : State := { seaming 1 (.sbc false 1 0 2) with exe := { idle.exe with teams := [(1, { team0 with st := .retired })] } }
  refine ⟨fun n hn => ⟨seaming n (.sbc false 1 0 2), 3, 1, msg0, _, _, rfl, hf _ rfl, rfl, rfl, rfl, rfl, ?_, ?_⟩,
    ⟨fenced (seaming 0 (.sbc false 1 0 2)), 3, 1, msg0, _, _, rfl, hf _ rfl, rfl, rfl, rfl, rfl, 0, by decide +kernel, by decide +kernel⟩,
    ⟨gone, 3, msg0, rfl, hf _ rfl, 1, _, rfl, rfl, rfl⟩, ?_,
    ⟨seaming 1 (.recv (some 0) 1 false 0), _, { seq := 0, all := 3, lanes := 3, arriving := 3, dests := [some 8] }, rfl, rfl, rfl,
      by decide +kernel, hs _, hd⟩⟩
  · rcases hn with rfl | rfl <;> decide +kernel
  · rcases hn with rfl | rfl <;> decide +kernel
  · intro k _
    obtain ⟨T, h, hp⟩ := first0 k
    exact ⟨_, 4, _, T, { n := 1, words := [(0, { val := 9 })] }, [], rfl, h, by rw [hp]; rfl, Nat.le_refl _, hs k⟩

/-! ### Retirement, notification -/

/-- A notification entry. -/
def entry0 : Notify := { lseq := 1, tag := 7, status := 0, queue := 0, rlost := false, quire := false, req := none }

/-- The machine with that entry waiting, a ring of 16 entries and `used` of them in use. -/
def ringing (used : Nat) (unsent : Nat := 0) (coal : BitVec 16 := 0) (last : Option Nat := none) : State :=
  { idle with
      ct := { idle.ct with
        waiting := [entry0], nrlog2n := 4, nren := true, nrtail := BitVec.ofNat 32 used, unsent := unsent, nrcoal := coal, lastMsg := last } }

theorem hyp_NotificationsComplete :
    (∀ req ∈ [none, some 3], ∀ k, k = 15 ∨ k = 16 → ∃ (s : State) (n : Notify) (rest : List Notify), s.ct.waiting = n :: rest ∧
      n.req = req ∧ (∀ r, n.req = some r → Map.find s.ms.flights r = none) ∧
      (s.ct.nrtail - s.ct.nrhead).toNat = k ∧ 2 ^ s.ct.nrlog2n.toNat = 16) ∧
    (∃ s : State, 0 < s.ct.unsent ∧ intervalOver s) ∧ (∃ s : State, s.ct.unsent = 0) ∧
    (∃ s : State, 0 < s.ct.unsent ∧ ¬ intervalOver s) ∧
    (∃ s : State, 0 < s.ct.unsent ∧ s.ct.nrcoal ≠ 0 ∧ s.ct.lastMsg ≠ none ∧ intervalOver s) ∧
    (∀ n, n = 3 ∨ n = 4 ∨ n = 16 ∨ n = 17 → ∃ (s : State) (w : BitVec 64), w.getLsbD 5 = true ∧ s.ct.nren = false ∧ w.toNat % 32 = n) ∧
    (∃ (s : State) (w : BitVec 64), w.getLsbD 5 = false ∧ s.ct.nren = true) ∧
    (∃ (s : State) (w : BitVec 32), (w - s.ct.nrhead).toNat = (s.ct.nrtail - s.ct.nrhead).toNat) ∧
    (∃ (s : State) (w : BitVec 32), (w - s.ct.nrhead).toNat = (s.ct.nrtail - s.ct.nrhead).toNat + 1) := by
  let late : State := { ringing 0 1 1 (some 0) with clk := { cycle := 150 } }
  have hw : intervalOver late := by
    intro n h
    cases h
    decide +kernel
  refine ⟨fun req _ k hk => ⟨{ ringing k with ct := { (ringing k).ct with waiting := [{ entry0 with req := req }] } }, { entry0 with req := req }, [],
      rfl, rfl, fun _ _ => rfl, ?_, rfl⟩, ⟨late, by decide, hw⟩, ⟨ringing 0, rfl⟩,
    ⟨ringing 0 1 1 (some 0), by decide, fun h => absurd (h 0 rfl) (by decide +kernel)⟩, ⟨late, by decide, by decide, by decide, hw⟩,
    fun n hn => ⟨State.reset, BitVec.ofNat 64 (32 + n), ?_, rfl, ?_⟩, ⟨ringing 0, 4, by decide, rfl⟩,
    ⟨ringing 7, 7, by decide⟩, ⟨ringing 7, 8, by decide⟩⟩
  · have h : ((ringing k).ct.nrtail - (ringing k).ct.nrhead).toNat = k := by rcases hk with rfl | rfl <;> decide
    exact h
  · rcases hn with rfl | rfl | rfl | rfl <;> decide
  · rcases hn with rfl | rfl | rfl | rfl <;> decide

/-- The machine with a launch `L` whose team has the state `st`. -/
def ending (L : Launch) (st : TeamSt := .retired) : State :=
  { idle with
      exe := { idle.exe with teams := [(1, { team0 with st := st })] }
      wk := { idle.wk with launches := [(8, L)] }
      ct := { idle.ct with partOf := [(0, 0)], queues := [(0, { queue1 with acc := 1 })] }
      tr := { roots := [(0, { root := 0x8000, en := true })] }
      ms := { bytes := [(0x8000, 0x01), (0x8001, 0x90), (0x9000, 0x0F), (0x9001, 0x08)], next := 5 } }

theorem ended_of {L : Launch} (h : L.sent = [(0, true)]) (hf : L.forme.teams = 1) {st : TeamSt} (ht : st = .retired ∨ st = .lost) :
    ended (ending L st) 8 L := by
  refine ⟨.inl (by rw [h, hf]; decide), fun p hp _ => ?_⟩
  have hp' : p = (1, { team0 with st := st }) := List.mem_singleton.mp hp
  rw [hp']
  rcases ht with rfl | rfl
  · refine .inl ⟨rfl, fun g hg G hG => ?_⟩
    cases List.mem_singleton.mp hg
    cases hG
    exact ⟨rfl, Nat.zero_le _, rfl⟩
  · exact .inr rfl

/-- A launch that failed at placement has ended, though it has placed no team. -/
theorem ended_invalid {L : Launch} (h : L.invalid = some 0x40) : ended (ending L .lost) 8 L :=
  ⟨.inr (.inl (by rw [h]; rfl)), fun p hp _ => .inr (by rw [List.mem_singleton.mp hp])⟩

/-- The group of the tests after its lanes have left it. -/
def goneGroup : Group := { group0 with splits := [] }

/-- The leaf and the address of an outcome. -/
def leafIn (r : XRes) : Leaf × Nat :=
  match r with
  | .ok l pa => (l, pa)
  | _ => (leaf0, 0)

theorem xok_of {r : XRes} {pa : Nat} (h : (match r with | .ok _ p => decide (p = pa) | _ => false) = true) :
    r = .ok (leafIn r).1 pa := by
  cases r with
  | ok l p => cases of_decide_eq_true h; rfl
  | _ => cases h

theorem hyp_RetirementCompletes :
    (∃ (s : State) (g : Nat) (G : Group), s.grp g = some G ∧ G.retired = false ∧ G.stopped = false ∧ G.valid = [] ∧
      G.claims = [] ∧ G.holds = [] ∧ ∀ k, k < 4 → (G.bat k).openOps = 0 ∧ (G.bat k).sealedOps = []) ∧
    (∃ (s : State) (g : Nat) (G : Group), s.grp g = some G ∧ (G.valid ≠ [] ∨ G.claims ≠ [] ∨ G.holds ≠ [])) ∧
    (∀ lost : Bool, ∃ (s : State) (n : Nat) (T : Team), s.tm n = some T ∧ T.st = .started ∧ windowsClean T ∧ enginesEmpty s n ∧
      nothingCombined s T.coreKey ∧ T.groups ≠ [] ∧ (∀ g ∈ T.groups, ∃ G, s.grp g = some G ∧ G.retired = true ∧ G.lostst = lost) ∧
      storesAtEnd s T) ∧
    (∃ (s : State) (n : Nat) (T : Team), s.tm n = some T ∧ T.st = .terminated ∧ windowsClean T ∧ enginesEmpty s n ∧
      nothingCombined s T.coreKey ∧ ∀ p ∈ s.ms.flights, p.2.g ∉ T.groups) ∧
    (∃ (s : State) (l : Nat) (L : Launch) (lf : Leaf) (pa : Nat), s.launch l = some L ∧ L.retired = false ∧ L.sub = 0 ∧ L.forme.quire = false ∧
      ended s l L ∧ L.forme.crec % 32 = 0 ∧ canonical L.forme.crec = true ∧
      plainXl s L.forme.ctx L.forme.crec .write = .ok lf pa ∧ s.fencedAcc pa lf.cls lf.owner = false ∧ lf.cls ≠ 1) ∧
    (∃ (s : State) (l : Nat) (L : Launch), s.launch l = some L ∧ L.retired = false ∧ L.sub = 0 ∧ L.forme.quire = false ∧
      ended s l L ∧ L.forme.crec % 32 ≠ 0 ∧ L.head = l ∧ L.bodies = [] ∧ (L.forme.notify = false ∨ s.ct.nren = false) ∧
      L.slot = (s.queue L.queue).head ∧ (s.queue L.queue).head ≠ (s.queue L.queue).acc ∧
      (∀ p ∈ s.wk.launches, p.2.queue = L.queue → p.2.slot = L.slot → p.1 = l) ∧ ∀ w ∈ s.ct.waiting, w.lseq ≠ l / 8) ∧
    (∃ (s : State) (l : Nat) (L : Launch), s.launch l = some L ∧ L.retired = false ∧ L.sub = 0 ∧ L.forme.quire = true ∧
      ∀ b ∈ s.unit l, ∀ M, s.launch b = some M → ended s b M) ∧
    (∃ (s : State) (l : Nat) (L : Launch), s.launch l = some L ∧ L.retired = false ∧ L.sub = 0 ∧ L.forme.quire = false ∧
      ended s l L ∧ L.sent = [] ∧ L.invalid = some 0x40 ∧ L.forme.crec % 32 = 0) := by
  let away : State := { idle with exe := { idle.exe with groups := [(1, goneGroup)] } }
  let retired (lost : Bool) : State := { idle with exe := { idle.exe with groups := [(1, { goneGroup with retired := true, lostst := lost })] } }
  let odd : Launch := { launch0 with forme := { forme0 with crec := 0x3001 } }
  let quire : Launch := { launch0 with forme := { forme0 with quire := true } }
  refine ⟨⟨away, 1, goneGroup, rfl, rfl, rfl, rfl, rfl, rfl, by decide⟩, ⟨idle, 1, _, rfl, .inl (by decide +kernel)⟩, ?_,
    ⟨{ idle with exe := { idle.exe with teams := [(1, { team0 with st := .terminated })] } }, 1, _, rfl, rfl, (fun p hp => by cases hp),
      ⟨fun p hp => (by cases hp), fun p hp => (by cases hp), fun p hp => (by cases hp), fun p hp => (by cases hp)⟩,
      fun p hp => (by cases hp), fun p hp => (by cases hp)⟩,
    ⟨ending launch0, 8, launch0, _, 0x3000, rfl, rfl, rfl, rfl, ended_of rfl (by decide) (.inl rfl), by decide, by decide,
      xok_of (by decide +kernel), by decide +kernel, by decide +kernel⟩,
    ⟨ending odd, 8, odd, rfl, rfl, rfl, rfl, ended_of rfl (by decide) (.inl rfl), by decide, rfl, rfl, .inl rfl, rfl, by decide, ?_,
      fun w hw => (by cases hw)⟩,
    ⟨ending quire .lost, 8, quire, rfl, rfl, rfl, rfl, ?_⟩,
    ⟨ending { launch0 with sent := [], invalid := some 0x40 } .lost, 8, _, rfl, rfl, rfl, rfl, ended_invalid rfl, rfl, rfl, by decide⟩⟩
  · intro lost
    refine ⟨retired lost, 1, team0, rfl, rfl, (fun p hp => by cases hp),
      ⟨fun p hp => (by cases hp), fun p hp => (by cases hp), fun p hp => (by cases hp), fun p hp => (by cases hp)⟩,
      fun p hp => (by cases hp), by decide, fun g hg => ?_, fun g hg G hG => ?_⟩
    · cases List.mem_singleton.mp hg
      exact ⟨_, rfl, rfl, rfl⟩
    · cases List.mem_singleton.mp hg
      cases hG
      exact ⟨rfl, Nat.zero_le _, rfl⟩
  · intro p hp _ _
    have : p = (8, odd) := List.mem_singleton.mp hp
    rw [this]
  · intro b hb M hM
    have h1 : (ending quire .lost).unit 8 = [8] := by decide +kernel
    rw [h1] at hb
    cases List.mem_singleton.mp hb
    have h2 : (ending quire .lost).launch 8 = some quire := rfl
    rw [h2] at hM
    cases hM
    exact ended_of rfl (by decide) (.inr rfl)

/-! ### Reliability, power, boot -/

/-- The machine in which switch 1 has heard of the node as `b` says, and it is cycle `now`. -/
def beating (n : Node) (b : Beat) (now : Nat) : State := { idle.setBeat n 1 b with clk := { cycle := now } }

/-- What switch 1 has heard. -/
theorem beating_beat (b : Beat) (now : Nat) :
    (∀ d, (beating (.domain d) b now).beat (.domain d) 1 = some b) ∧ ∀ p, (beating (.peer p) b now).beat (.peer p) 1 = some b := by
  constructor <;> intro <;> simp [beating, State.setBeat, State.beat, Map.find, Map.insert, idle, world]

/-- Some peer as switch 1 alone has heard it, and its fence. -/
def peerBack (b : Beat) : State :=
  { idle with rb := { beatP := [(64 * 5 + 1, b)] }, ct := { idle.ct with fenceP := [(5, { fenced := true, why := 1 })] } }

theorem hyp_FencesComplete :
    (∃ (n : Node) (sw : Nat), hasSwitch n sw = false) ∧
    (∃ (s : State) (n : Node) (sw : Nat), hasSwitch n sw = true ∧ s.beat n sw = none) ∧
    (∀ k, k = 1999 ∨ k = 2000 → ∀ q : Bool, ∃ (s : State) (n : Node) (sw : Nat) (B : Beat), hasSwitch n sw = true ∧ s.beat n sw = some B ∧
      B.silent = q ∧ s.fencedN n = false ∧ B.last + k = s.wtimeEnc) ∧
    (∃ (s : State) (n : Node) (sw : Nat) (B : Beat), hasSwitch n sw = true ∧ s.beat n sw = some B ∧ B.silent = true ∧ s.fencedN n = true) ∧
    (∀ d, d = 0 ∨ d = 63 → ∃ s : State, d < 64 ∧ silenced s (.domain d) ∧ s.fencedD d = false) ∧
    (∀ p, p = 0 ∨ p = 255 → ∃ s : State, p < 256 ∧ silenced s (.peer p) ∧ s.fencedP p = false) ∧
    (∃ s : State, ¬ silenced s (.domain 0) ∧ ¬ silenced s (.peer 0)) ∧
    (∃ s : State, s.fencedD 0 = true ∧ s.fencedP 5 = true) ∧
    (∀ k, k = 9999 ∨ k = 10000 → ∃ (s : State) (d hot : Nat), (s.powerOf d).hotSince = some hot ∧ d < 64 ∧ hot + k = s.wtime d ∧
      s.fencedD d = false) ∧
    (∃ (s : State) (req : Nat) (f : Flight), inFlight s req f ∧ f.kind = .store ∧ ∃ line, s.lineFenced f line = true ∧
      ∃ l ∈ f.lanes, l.fault = none ∧ l.va < 2 ^ 64 ∧ line ∈ l.left) ∧
    (∀ p ∈ [(8, 0, 0, 2), (0, 1, 1, 3), (55, 2, 63, 0), (63, 3, 62, 1)], ∃ s : State, p.1 < 64 ∧
      facing p.1 p.2.1 p.2.2.1 p.2.2.2 ∧ (p.1, p.2.1) ∉ s.rb.links) ∧
    (∃ (s : State) (req n : Nat) (f : Flight) (line : Nat), facing 0 1 n 3 ∧ inFlight s req f ∧ f.kind = .store ∧ f.core / 72 = n ∧
      homeOf (128 * line) = some 0 ∧ ∃ l ∈ f.lanes, l.fault = none ∧ l.va < 2 ^ 64 ∧ line ∈ l.left) ∧
    (∃ (s : State) (p : Nat) (F : Fence), Map.find s.ct.fenceP p = some F ∧ F.fenced = true ∧ heardWell s p) ∧
    (∃ (s : State) (p : Nat) (F : Fence), Map.find s.ct.fenceP p = some F ∧ F.fenced = true ∧ ¬ heardWell s p) := by
  have hq : ∀ (s : State) (n : Node), s.beat n 1 = some { silent := true } → silenced s n := fun s n h => ⟨1, _, by decide, h, rfl⟩
  refine ⟨⟨.domain 0, 4, rfl⟩, ⟨idle, .peer 255, 63, rfl, rfl⟩, ?_, ⟨fenced (beating (.domain 0) { silent := true } 0), .domain 0, 1,
      { silent := true }, rfl, rfl, rfl, by decide +kernel⟩, ?_, ?_, ⟨State.reset, ?_, ?_⟩,
    ⟨fenced (peerBack {}), by decide +kernel, by decide +kernel⟩, ?_,
    ⟨fenced (flying (flight0 .store)), 3, _, ⟨rfl, by decide⟩, rfl, 0x4040, by decide +kernel, lane0, by decide +kernel, rfl, by decide, by decide⟩, ?_,
    ⟨flying { flight0 .store with core := 72 }, 3, 1, _, 0x4040, by unfold facing; decide, ⟨rfl, by decide⟩, rfl, rfl, by decide +kernel, lane0,
      by decide +kernel, rfl, by decide, by decide⟩,
    ⟨peerBack { last := 10000 }, 5, _, rfl, rfl, by unfold heardWell; decide +kernel⟩,
    ⟨peerBack { last := 9999 }, 5, _, rfl, rfl, by unfold heardWell; decide +kernel⟩⟩
  · intro k hk q
    rcases hk with rfl | rfl
    · exact ⟨beating (.domain 63) { silent := q } 2999, .domain 63, 1, _, rfl, (beating_beat _ _).1 63, rfl, rfl, by
        simp [State.wtimeEnc, beating]⟩
    · exact ⟨beating (.peer 255) { silent := q } 3000, .peer 255, 1, _, rfl, (beating_beat _ _).2 255, rfl, rfl, by
        simp [State.wtimeEnc, beating]⟩
  · rintro d (rfl | rfl) <;>
      exact ⟨beating (.domain _) { silent := true } 0, by decide, hq _ _ ((beating_beat _ _).1 _), rfl⟩
  · rintro p (rfl | rfl) <;>
      exact ⟨beating (.peer _) { silent := true } 0, by decide, hq _ _ ((beating_beat _ _).2 _), rfl⟩
  · rintro ⟨sw, b, _, h, _⟩
    cases h
  · rintro ⟨sw, b, _, h, _⟩
    cases h
  · intro k hk
    rcases hk with rfl | rfl
    · exact ⟨{ idle with clk := { cycle := 14999 }, ct := { idle.ct with power := [(0, { hotSince := some 0 })] } }, 0, 0, rfl, by decide, by decide +kernel, rfl⟩
    · exact ⟨{ idle with clk := { cycle := 15000 }, ct := { idle.ct with power := [(0, { hotSince := some 0 })] } }, 0, 0, rfl, by decide, by decide +kernel, rfl⟩
  · intro p hp
    refine ⟨State.reset, ?_, ?_, fun h => by cases h⟩
    · revert p; decide
    · revert p; unfold facing; decide

/-- The machine in which a checkpoint of domain 0 with the command `cmd` is under way. -/
def checkpointing (cmd : Nat) : State :=
  { idle with ct := { idle.ct with ckMask := 1, ckBusy := true, ckCmd := cmd, ckDest := 0x0010000000000000 }, rb := { ckFrozen := [1] } }

/-- The machine in which a checkpoint command for domain 0 may be given. -/
def toCheckpoint (dest : BitVec 56) : State := { idle with ct := { idle.ct with ckMask := 1, ckDest := dest } }

/-- The machine at 1 µs, with the power manager of domain 0 as given. -/
def powered (P : Power) : State := { idle with clk := { cycle := 1500 }, ct := { idle.ct with power := [(0, P)] } }

theorem hyp_MaintenanceCompletes :
    (∃ (s : State) (d c sl lane : Nat), lane % 32 ∉ (s.sliceAt (sliceKey (coreKey d c) sl)).swapped ∧
      0 < (s.sliceAt (sliceKey (coreKey d c) sl)).spares) ∧
    (∃ (s : State) (d c sl lane : Nat), lane % 32 ∉ (s.sliceAt (sliceKey (coreKey d c) sl)).swapped ∧
      (s.sliceAt (sliceKey (coreKey d c) sl)).spares = 0 ∧ (s.coreAt (coreKey d c)).state ≠ 1) ∧
    (∃ (s : State) (d c sl lane : Nat), lane % 32 ∈ (s.sliceAt (sliceKey (coreKey d c) sl)).swapped) ∧
    (∃ (s : State) (d c sl lane : Nat), lane % 32 ∉ (s.sliceAt (sliceKey (coreKey d c) sl)).swapped ∧
      (s.sliceAt (sliceKey (coreKey d c) sl)).spares = 0 ∧ (s.coreAt (coreKey d c)).state = 1) ∧
    (∀ n, n = 1 ∨ n = 2 → ∃ (s : State) (d chan lane : Nat), lane ∉ sparesOf s d chan ∧ (sparesOf s d chan).length = n) ∧
    isBurst 63 0x1FFFFFFFC0 ∧
    (∃ s : State, numbered s ∧ s.ct.ckBusy = true) ∧
    (∃ s : State, numbered s ∧ s.ct.ckBusy = false ∧ s.ct.ckDest.toNat / 2 ^ 52 ≠ 1) ∧
    (∃ (s : State) (g : Nat) (G : Group), numbered s ∧ s.ct.ckBusy = false ∧ s.ct.ckDest.toNat / 2 ^ 52 = 1 ∧ s.grp g = some G ∧
      inMask s G) ∧
    (∃ s : State, s.ct.ckBusy = false ∧ destOk s ∧ ∃ p ∈ s.exe.teams, p.2.st.resident = true ∧ s.ct.ckMask.getLsbD p.2.domain = true) ∧
    (∃ s : State, s.ct.ckBusy = false ∧ (∀ p ∈ s.exe.teams, p.2.st.resident = true → s.ct.ckMask.getLsbD p.2.domain = false) ∧
      s.ct.ckMask ≠ 0 ∧ destOk s ∧ s.ms.combs = [] ∧ ordered s) ∧
    (∃ s : State, s.ct.ckBusy = true ∧ s.ct.ckCmd = 1 ∧ s.rb.ckFrozen ≠ [] ∧ s.ms.combs = [] ∧ ordered s ∧ destOk s ∧
      ∀ g ∈ s.rb.ckFrozen, ∀ G, s.grp g = some G → ∀ e, e < 4 → (G.sp e).v = true → (G.sp e).chain = 0) ∧
    (∃ s : State, s.ct.ckBusy = true ∧ s.ct.ckCmd = 2 ∧ s.ct.ckT ≤ s.wtimeEnc) ∧
    (∃ s : State, s.ct.ckBusy = true ∧ s.ct.ckCmd = 2 ∧ s.wtimeEnc < s.ct.ckT) ∧
    (∀ P ∈ ([{}, { tact := 64 }, { tact := 64, refill := 1 }, { tact := 64, refill := 1, dceil := 0 }, { undo := [(0, 8, 0)] }] : List Power),
      ∃ s : State, s.powerOf 0 = P ∧ P.steppedAt + 1000 = s.wtime 0) := by
  refine ⟨⟨State.reset, 0, 0, 0, 40, by decide +kernel, by decide +kernel⟩,
    ⟨{ exe := { slices := [(0, { spares := 0 })] } }, 0, 0, 0, 40, by decide +kernel, by decide +kernel, by decide +kernel⟩,
    ⟨{ exe := { slices := [(0, { spares := 1, swapped := [8] })] } }, 0, 0, 0, 40, by decide +kernel⟩,
    ⟨{ exe := { slices := [(0, { spares := 0 })], cores := [(0, { state := 1 })] } }, 0, 0, 0, 40, by decide +kernel, by decide +kernel, by decide +kernel⟩,
    ?_, ⟨by decide, by decide, by decide⟩,
    ⟨checkpointing 1, numbered_of (by decide +kernel), rfl⟩,
    ⟨toCheckpoint 0, numbered_of (by decide +kernel), rfl, by decide⟩,
    ⟨toCheckpoint 0x0010000000000000, 1, _, numbered_of (by decide +kernel), rfl, by decide, rfl, rfl, team0, rfl, .inl rfl, by decide⟩,
    ⟨toCheckpoint 0x0010000000000000, rfl, ⟨by decide, by decide⟩, (1, team0), by decide +kernel, rfl, by decide⟩,
    ⟨{ ct := { ckMask := 1, ckDest := 0x0010000000000000 } }, rfl, (fun p hp => by cases hp), by decide, ⟨by decide, by decide⟩, rfl, rfl, rfl⟩,
    ⟨checkpointing 1, rfl, rfl, by decide, rfl, ⟨rfl, rfl⟩, ⟨by decide, by decide⟩, ?_⟩,
    ⟨checkpointing 2, rfl, rfl, Nat.zero_le _⟩,
    ⟨{ checkpointing 2 with ct := { (checkpointing 2).ct with ckT := 7 } }, rfl, rfl, by decide +kernel⟩, fun P hP => ⟨powered P, rfl, ?_⟩⟩
  · rintro n (rfl | rfl)
    · exact ⟨{ rb := { spares := [(0, [4])] } }, 0, 0, 7, by decide +kernel, rfl⟩
    · exact ⟨{ rb := { spares := [(0, [4, 5])] } }, 0, 0, 7, by decide +kernel, rfl⟩
  · intro g hg G hG e he _
    cases List.mem_singleton.mp hg
    have h : (checkpointing 1).grp 1 = some (group0 regs0) := rfl
    rw [h] at hG
    cases hG
    revert e; decide +kernel
  · revert P; decide +kernel

/-- An image of 512 bytes with an empty body: magic, kind 1, its length. -/
def image0 : List Byte := leBytes 4 0x4E434E45 ++ [1] ++ List.replicate 3 0 ++ leBytes 8 512 ++ List.replicate 496 0

theorem hyp_BootAndResetComplete :
    (∃ img : List Byte, imgFormed img = false) ∧ (∃ (s : State) (img : List Byte), imgFormed img = true ∧ s.ct.attest.length < 256) ∧
    (∃ (s : State) (kind : BitVec 8) (i : Image), s.en.images.reverse.find? (fun x => x.kind == kind) = some i) ∧
    (∃ s : State, s.en.ownerKey = none) ∧ (∃ (s : State) (key : BitVec 768), s.en.ownerKey = some key) :=
  ⟨⟨[], rfl⟩, ⟨State.reset, image0, by decide +kernel, by decide⟩,
    ⟨{ en := { images := [{ kind := 2, seq := 5, entry := 0 }] } }, 2, _, rfl⟩, ⟨State.reset, rfl⟩,
    ⟨{ en := { ownerKey := some 9 } }, 9, rfl⟩⟩

/-- The digest of "abc" that FIPS 180-4 gives, and the base point of P-384, which is on its curve (R67, log entry 14). -/
theorem test_signature_arithmetic :
    beNat (sha384 [0x61, 0x62, 0x63]) =
      0xCB00753F45A35E8BB5A03D699AC65007272C32AB0EDED1631A8B605A43FF5BED8086072BA1E7CC2358BAECA134C825A7 ∧
    ecOn ecG = true ∧ ecOn (ecG.1, ecG.2 + 1) = false := by
  decide +kernel

theorem hyp_TrapFrameLayout : ∃ G : Group, G.regs8 = 32 := ⟨group0, rfl⟩

/-- The machine after reset, at which the cooling fails next. -/
def cooling : State := { State.reset with agenda := [.event .coolantLimit] }

theorem hyp_EveryStepKeepsTheMachineQuiet : ∃ s : State, s.quiet ∧ s.cur = .split 1 0 := by
  refine ⟨world group0, ⟨fun g e h => ?_, rfl, fun g G hm e he => ?_, fun id p hp => by cases hp⟩, rfl⟩
  · obtain ⟨rfl, rfl⟩ := Cur.split.inj h
    exact ⟨group0, team0, rfl, rfl, rfl⟩
  · obtain ⟨rfl, rfl⟩ := Prod.mk.inj (List.mem_singleton.1 hm)
    have : ∀ e < 4, (world group0).wakable 1 group0 e = false := by decide
    exact this e he

/-! ### Decoding and stepping -/

/-- A word of an opcode that R116 does not assign: 0x02C in format A. -/
def freeWord : BitVec 128 := 0x2C * 4 + 1

theorem hyp_DecodeUndoesEncode :
    (∀ o : Op, (o.instr (fields o)).wf = true ∧ ((o.instr (fields o)).limov?).isSome = true) ∧
    (Instr.unassignedOpcode .a freeWord).wf = true ∧
    (Instr.bfxu 5 6 8 7).wf = true ∧ enconWord (.bfxu 5 6 8 7) = some 0x1C83128B := by
  refine ⟨fun o => ?_, by decide, by decide, by decide⟩
  cases o <;> decide +kernel

/-- The split of the tests at the code of `withCode`, with the pages in the instruction TLB. -/
def atCode : State := withCode (world { group0 with splits := [{ pc := 0x2000, memb := 3, mask := 3, v := true }] })

theorem fetched {r : FRes × State} {l : Leaf} {pa : Nat}
    (h : (match r.1 with | .ok k p => decide (k = l ∧ p = pa) | _ => false) = true) : r = (.ok l pa, r.2) := by
  obtain ⟨u, t⟩ := r
  cases u with
  | ok k p => obtain ⟨rfl, rfl⟩ := of_decide_eq_true h; rfl
  | _ => cases h

/-- What fetching there leaves. -/
def fetchedAt : FRes × State := fetchXl { atCode with cur := .idle } 1 0 team0 { pc := 0x2000, memb := 3, mask := 3, v := true } 0x2000 true

/-- The window there. -/
def windowAt : CodeWin × State := codeWin fetchedAt.2 0 0 [] 0x2000 leaf0 0x202000

theorem hyp_AStepRunsTheDecodedInstruction :
    (∃ (s s1 s2 : State) (g e pa : Nat) (G : Group) (T : Team) (l : Leaf) (w : CodeWin) (i : Instr) (f : Fmt),
      s.cur = .split g e ∧ s.grp g = some G ∧ s.tm G.team = some T ∧ (G.sp e).pendingTrap = none ∧
      (G.sp e).again = none ∧ (G.sp e).doomed = 0 ∧
      (let win := (G.sp e).pc.toNat / 32 * 32
       fetchXl { s with cur := .idle } g e T (G.sp e) win (G.lvl == 0) = (.ok l pa, s1) ∧
       codeWin s1 T.coreKey (s.ctxOf T) (G.sp e).fbuf win l pa = (w, s2) ∧ w.mark = false ∧
       decode (w.bytes.drop ((G.sp e).pc.toNat % 32)) = .ok i f)) ∧
    (∃ (s : State) (g e : Nat) (G : Group) (T : Team) (w : BitVec 128) (i : Instr) (f : Fmt),
      s.cur = .split g e ∧ s.grp g = some G ∧ s.tm G.team = some T ∧ (G.sp e).pendingTrap = none ∧
      (G.sp e).inst = some w ∧ decode (leBytes 16 w.toNat) = .ok i f) ∧
    (∃ (s : State) (k : Nat) (i : Instr), s.cur = .encon k ∧ (s.enc k).swait = none ∧
      decodeEncon (BitVec.ofNat 32 (leNat ((List.range 4).map (fun n => Map.getD s.en.mem ((s.enc k).pc.toNat + n) 0)))) = .ok i) ∧
    (∃ (s : State) (k : Nat) (w : BitVec 32), s.cur = .encon k ∧ (s.enc k).swait = none ∧
      w = BitVec.ofNat 32 (leNat ((List.range 4).map (fun n => Map.getD s.en.mem ((s.enc k).pc.toNat + n) 0))) ∧
      decodeEncon w = .base) ∧
    (∃ (s : State) (i : Instr) (ms : List Move), s.cur = .idle ∧ s.agenda = .event i :: ms ∧ isEvent i = true) := by
  refine ⟨⟨atCode, fetchedAt.2, windowAt.2, 1, 0, 0x202000, _, team0, leaf0, windowAt.1, .land {}, .a, rfl, rfl, rfl, rfl, rfl, rfl,
      fetched (r := fetchedAt) (by decide +kernel), rfl, by decide +kernel, by decide +kernel⟩,
    ⟨world { group0 with splits := [{ pc := 0x2000, memb := 3, mask := 3, v := true, inst := some 0x0000280248010001 }] }, 1, 0, _, team0,
      0x0000280248010001, .iadd { d := 8, a := v 9, b := v 10 }, .a, rfl, rfl, rfl, rfl, rfl, by decide +kernel⟩,
    ⟨{ cur := .encon 0, en := { mem := [(0, 0x8B), (1, 0x12), (2, 0x83), (3, 0x1C)] } }, 0, .bfxu 5 6 8 7, rfl, rfl, by decide +kernel⟩,
    ⟨{ cur := .encon 0, en := { mem := [(0, 0x93), (1, 0x02), (2, 0xF3), (3, 0xFF)] } }, 0, 0xFFF30293, rfl, rfl, by decide +kernel, by decide +kernel⟩,
    ⟨cooling, .coolantLimit, [], rfl, rfl, rfl⟩⟩

/-! ### Ill-formed instructions, one for each check -/

/-- Fields that break a rule of the format: format B's in format A (R98), a value in IMM32 of format B, kind 11 in format A, or
in SC (R103), a format that the opcode does not have (R100). -/
theorem test_formats_are_checked :
    [Instr.iadd { fields .iadd with c := v 4 }, .iadd { fields .iadd with e := 1 }, .iadd { fields .iadd with imm := 1 },
     .iadd { fields .iadd with fmt := .b, imm := 1 }, .iadd { fields .iadd with a := .full 8 1 0 },
     .iadd { fields .iadd with b := .full 8 1 0 }, .imad { fields .imad with c := .full 8 1 0 },
     .imad { fields .imad with fmt := .a, c := Opd.zero }, .movi { fields .movi with fmt := .a, imm := 0 }].all (fun i => !i.wf) = true := by
  decide +kernel

/-- Fields that no description names (R102), types (R114), M and E. -/
theorem test_unused_fields_are_zero :
    [Instr.mov { fields .mov with b := v 4 }, .iadd { fields .iadd with t := .f32 }, .fadd { fields .fadd with t := .i32 },
     .iadd { fields .iadd with m := 2 }, .iadd { fields .iadd with fmt := .b, e := 1 }, .nop { d := 1 }, .exit { a := v 1 },
     .movi { fields .movi with b := .imm 1 }].all (fun i => !i.wf) = true := by
  decide +kernel

/-- Destinations: pairs, ranges, claims, data and links (R111, R157, R238, R262, R298). -/
theorem test_destinations_are_checked :
    [Instr.imul { fields .imul with t := .i64, a := v 12, b := v 16, d := 21 }, .maskp { d := 254 }, .maskp { d := 3 },
     .ld { fields .ld with d := 2 }, .ld { fields .ld with m := 1, d := 21 }, .ld { fields .ld with m := 1, d := 0 },
     .st { fields .st with m := 1, d := 9 }, .call { fields .call with d := 2 }, .call { fields .call with d := 21 },
     .cpyg { fields .cpyg with d := 255 }, .mfs { d := 2 }].all (fun i => !i.wf) = true := by
  decide +kernel

/-- Operands: pairs (R104), short patterns and full ones (R109), immediates of narrow types (R106), and the places of kinds
(R151, R262, R299, R317, R337, R381, R422). -/
theorem test_operands_are_checked :
    [Instr.iadd { fields .iadd with t := .i64, d := 20, a := v 9, b := v 16 }, .iadd { fields .iadd with t := .i64, a := v 2, b := v 16 },
     .iadd { fields .iadd with fmt := .b, a := .full 8 4 5 }, .iadd { fields .iadd with fmt := .b, a := .full 8 0 1 },
     .iadd { fields .iadd with fmt := .b, a := .full 8 5 0 }, .iadd { fields .iadd with t := .i8, b := .imm 128 },
     .fadd { fields .fadd with t := .bf16, b := .imm 257 },
     .ld { fields .ld with a := .imm 8 }, .ld { fields .ld with a := v 11 }, .bra { b := v 8 }, .bra { a := .imm 0, b := .imm 8 },
     .ret { a := v 13 }, .ret { a := .reg 12 1 }, .ipin { fields .ipin with b := .imm 0 }, .ipin { fields .ipin with a := v 2 },
     .seamrecv { fields .seamrecv with b := .imm 16 }, .spl { a := .imm 3 }, .bar { a := .imm 33 }, .tlbinv { a := .imm 1, b := .imm 1 },
     .mloop { fields .mloop with a := .imm 4 }, .mloop { fields .mloop with b := .reg 2 0 }, .take { d := 20, a := v 2 },
     .take { d := 3, a := v 8 }].all (fun i => !i.wf) = true := by
  decide +kernel

/-- IMM32 (R107), predicates (R262, R422), MASKR's mask range, the extra conditions of opcodes, and unassigned opcodes (R116). -/
theorem test_other_conditions_are_checked :
    [Instr.iadd { fields .iadd with fmt := .c, imm := 5 }, .iadd { fields .iadd with fmt := .c, b := .imm 1, imm := 5 },
     .brx { fields .brx with fmt := .c, imm := 5 }, .land { p := 8 }, .maskr { fields .maskr with p := 8 }, .sig { fields .sig with p := 8 },
     .rfe { pn := false }, .halt { p := 8, pn := true }, .atom { fields .atom with t := .f32, m := 3 }, .red { fields .red with m := 7 },
     .mloop { fields .mloop with d := 250 }, .mdrain { fields .mdrain with d := 200 }, .fdot4 { fields .fdot4 with e := 8 },
     .cvt { fields .cvt with m := 4 }, .pack { fields .pack with m := 8 }, .unpack { fields .unpack with m := 5 },
     .mts { fields .mts with m := 0 }, .mfs { d := 20, m := 18 }, .rdsys { d := 20, m := 13 }, .selftest { fields .selftest with m := 6 },
     .selftest { fields .selftest with m := 2, a := .imm 64 }, .seal {}, .fence { m := 12 },
     .unassignedOpcode .a 1, .unassignedOpcode .b freeWord, .unassignedOpcode .a (freeWord + 2 ^ 64)].all (fun i => !i.wf) = true := by
  decide +kernel

/-! ### Words of the spec's listings -/

/-- Integer and bit instructions (R2, R98-R100, R207). -/
theorem test_decode_integers :
    decode (leBytes 8 0x0000280248010001) = .ok (.iadd { d := 8, a := v 9, b := v 10 }) .a ∧
    decode (leBytes 12 (0x0002505C * 2 ^ 64 + 0x000059C54802800A)) =
      .ok (.iadd3 { fmt := .b, d := 20, a := .full 21 1 5, b := .reg 22 1, c := v 23 }) .b ∧
    decode (leBytes 16 (0x0C04 * 2 ^ 64 + 0x0018000148020083)) =
      .ok (.bfe { fmt := .c, d := 16, a := v 5, b := .imm 0, m := 0, t := .n32, imm := 0x0C04 }) .c := by
  decide +kernel

/-- Floating point and special functions (R234, R235, R248): FADD of f32 is opcode 0x040 with T 5. -/
theorem test_decode_floats :
    decode (leBytes 8 0x0050280248010101) = .ok (.fadd { t := .f32, d := 8, a := v 9, b := v 10 }) .a ∧
    decode (leBytes 8 0x0580000208028135) = .ok (.pack { d := 20, a := v 8, t := .e4m3, m := 5 }) .a ∧
    decode (leBytes 8 0x0050000288018155) = .ok (.sinp { d := 12, a := v 10, t := .f32 }) .a := by
  decide +kernel

/-- Lane, system and control-flow instructions (R184, R250-R262). -/
theorem test_decode_control :
    decode (leBytes 8 0x0600000008028195) = .ok (.rdsys { d := 20, m := 6 }) .a ∧
    decode (leBytes 8 0x000808808A800201) = .ok (.bra { p := 20, a := .imm 8, b := .imm 8 }) .a ∧
    decode (leBytes 8 0x840000000818022D) = .ok (.sig { d := 0xC0, m := 0x84 }) .a := by
  decide +kernel

/-- Memory, copies and the Platen (R298, R317, R349). -/
theorem test_decode_memory :
    decode (leBytes 8 0x08088001C803C281) = .ok (.ld { d := 30, a := v 7, b := .imm 128, m := 8 }) .a ∧
    decode (leBytes 12 (0x980 * 2 ^ 64 + 0x02001001C800028A)) =
      .ok (.stash { fmt := .b, a := v 7, b := v 4, c := .imm 384, m := 2 }) .b ∧
    decode (leBytes 8 0x0100000008080349) = .ok (.mdrain { d := 64, m := 1 }) .a := by
  decide +kernel

/-- Synchronization and Seam (R386, R388). -/
theorem test_decode_messages :
    decode (leBytes 8 0x2018010208028389) = .ok (.atom { d := 20, a := v 8, b := .imm 1, t := .n32, m := 0x20 }) .a ∧
    decode (leBytes 8 0x20000005012003A1) = .ok (.seamsend { p := 9, pn := false, a := v 20, m := 0x20 }) .a ∧
    decode (leBytes 8 0x000803000163C3A5) = .ok (.seamrecv { d := 30, p := 11, pn := false, b := .imm 3 }) .a := by
  decide +kernel

/-- Code, privileged and reliability instructions (R151, R422, R454), and an Encon instruction (R58). -/
theorem test_decode_system :
    decode (leBytes 8 0x0008100208028405) = .ok (.ipin { d := 20, a := v 8, b := .imm 16 }) .a ∧
    decode (leBytes 8 0x0000008028000441) = .ok (.spl { a := .imm 2 }) .a ∧
    decode (leBytes 8 0x03000000081E8485) = .ok (.mfs { d := 244, m := 3 }) .a ∧
    decode (leBytes 8 0x0300003D08000489) = .ok (.mts { a := v 244, m := 3 }) .a ∧
    decode (leBytes 8 0x004000050803C501) = .ok (.ptest { d := 30, a := v 20, t := .b32 }) .a ∧
    decodeEncon 0x1C83128B = .ok (.bfxu 5 6 8 7) := by
  decide +kernel

/-- A reserved length code, an unassigned opcode, a reserved type code and an IADD with a bit where R102 has zero are named, and
not read as a neighbour (R94, R114, R116, R118). -/
theorem test_decode_refuses :
    decode (leBytes 8 0x0000280248010000) = .noLength ∧
    decode (leBytes 8 freeWord.toNat) = .ok (.unassignedOpcode .a freeWord) .a ∧
    decode (leBytes 8 0x00F0280248010001) = .illegal .a 0x00F0280248010001 ∧
    decode (leBytes 8 0x8000280248010001) = .illegal .a 0x8000280248010001 := by
  decide +kernel

/-! ### The base architecture of Encon (R57, log entry 10): words and results of the RISC-V manuals -/

/-- ADDI x5, x6, −1; SRAW x11, x11, x12; BNE x10, x0, −16; SD x10, −8(x2); C.ADDI16SP −48; C.J −4. -/
theorem test_decode_base :
    rvDecode 0xFFF30293 = (.alu .add false false 5 6 (.imm 0xFFFFFFFFFFFFFFFF), 4) ∧
    rvDecode 0x40C5D5BB = (.alu .sra true false 11 11 (.reg 12), 4) ∧
    rvDecode 0xFE0518E3 = (.branch .ne 10 0 0xFFFFFFFFFFFFFFF0, 4) ∧
    rvDecode 0xFEA13C23 = (.store 3 2 10 0xFFFFFFFFFFFFFFF8, 4) ∧
    rvDecode 0x00007179 = (.alu .add false false 2 2 (.imm 0xFFFFFFFFFFFFFFD0), 2) ∧
    rvDecode 0x0000BFF5 = (.jal 0 0xFFFFFFFFFFFFFFFC, 2) := by
  decide +kernel

/-- Division by zero and the overflow of division do not trap; MULHSU; a word operation sign-extends. -/
theorem test_base_arithmetic :
    rvResult .div false false 7 0 = 0xFFFFFFFFFFFFFFFF ∧ rvResult .rem false false 7 0 = 7 ∧
    rvResult .div true false 0x80000000 0xFFFFFFFF = 0xFFFFFFFF80000000 ∧
    rvResult .mulhsu false false 0xFFFFFFFFFFFFFFFF 0xFFFFFFFFFFFFFFFF = 0xFFFFFFFFFFFFFFFF ∧
    rvResult .add true false 0x7FFFFFFF 1 = 0xFFFFFFFF80000000 := by
  decide +kernel

/-- What an Encon core does at a word. -/
def atWord (c : EnCore) (w : BitVec 32) : EnCore := ((State.reset.setEnc 0 c).placeEncon w |> rvStep 0 w).enc 0

/-- ECALL from user mode: mcause 8, mepc, machine mode, and MPP = 0 (user); MRET goes back. -/
theorem test_base_traps :
    let c := atWord { machine := false, pc := 0x40, mtvec := 0x100 } 0x00000073
    c.mcause = 8 ∧ c.mepc = 0x40 ∧ c.pc = 0x100 ∧ c.machine = true ∧
    (let d := atWord c 0x30200073
     d.pc = 0x40 ∧ d.machine = false) := by
  decide +kernel

/-- SC.D stores where the reservation stands, and answers 1 where there is none. -/
theorem test_base_reservation :
    (atWord { x := [(10, 0x200), (12, 5)], resv := some 0x40 } 0x18C536AF).get 13 = 0 ∧
    (atWord { x := [(10, 0x200), (12, 5)] } 0x18C536AF).get 13 = 1 := by
  decide +kernel

/-! ### One step, with results from the spec's worked examples and tables -/

/-- A register of lane `j` after the instruction ran with the registers `rs`: its word and poison. -/
def gives (o : Op) (x : Ops) (rs : List (Nat × LW)) (r j : Nat) : Option (Nat × Bool) :=
  match exec (o.instr x) (world (group0 rs)) with
  | .next t => (t.grp 1).map (fun H => ((H.reg r j).val.toNat, (H.reg r j).psn))
  | _ => none

/-- The fields of an instruction of one destination and up to three sources. -/
def f (o : Op) (t : Ty) (m : BitVec 8 := 0) : Ops := { fields o with t := t, m := m }

/-- The worked fragment of spec/08: BFE of ctl 0x0C04 gives 0xABC. -/
theorem test_bfe :
    gives .bfe { d := 16, a := v 5, b := .imm 0, fmt := .c, t := .n32, imm := 0x0C04 } (both 5 0xABCD 0x01F3) 16 0 = some (0xABC, false) := by
  decide +kernel

/-- The same: LEA by 8 at 0x40_0010_0000, in the low and the high word. -/
theorem test_lea :
    [18, 19].map (fun r => gives .lea { d := 18, a := v 8, b := v 16, t := .n32, m := 3 }
      (both 8 0x100000 0x100000 ++ both 9 0x40 0x40 ++ both 16 0xABC 0x1F) r 0) = [some (0x1055E0, false), some (0x40, false)] := by
  decide +kernel

/-- The same: 2,748 ≥ 500. -/
theorem test_isetc :
    gives .isetc { d := 20, a := v 16, b := .imm 500, t := .n32, m := 5 } (both 16 0xABC 0x1F) 20 0 = some (0xFFFFFFFF, false) := by
  decide +kernel

/-- The same: a poisoned word that was selected poisons the result (R210). -/
theorem test_isel_poison :
    gives .isel { fmt := .b, t := .b32, d := 22, a := v 7, b := v 16, c := v 20 } [(96 * 16, { val := 0x123, psn := true })] 22 0 =
      some (0x123, true) := by
  decide +kernel

/-- R210: the poison of the operand that was not selected does not matter. -/
theorem test_isel_unselected :
    gives .isel { fmt := .b, t := .b32, d := 22, a := v 7, b := v 16, c := v 20 } [(96 * 7, { psn := true }), (96 * 16, { val := 31 })]
      22 0 = some (31, false) := by
  decide +kernel

/-- R214: IDIV.i32 of 7 by 0. -/
theorem test_idiv_by_zero : gives .idiv (f .idiv .i32) (both 8 7 7) 20 0 = some (0xFFFFFFFF, false) := by decide +kernel

/-- R214: division truncates toward zero: −7 by 2 is −3. -/
theorem test_idiv_truncates : gives .idiv (f .idiv .i32) (both 8 (-7) 0 ++ both 9 2 2) 20 0 = some (0xFFFFFFFD, false) := by
  decide +kernel

/-- R214: the remainder has the sign of the dividend. -/
theorem test_irem : gives .irem (f .irem .i32) (both 8 (-7) 0 ++ both 9 2 2) 20 0 = some (0xFFFFFFFF, false) := by decide +kernel

/-- R212: IADD.i32.sat of 0x7FFF_FFFF and 1. -/
theorem test_iadd_sat : gives .iadd (f .iadd .i32 1) (both 8 0x7FFFFFFF 0 ++ both 9 1 1) 20 0 = some (0x7FFFFFFF, false) := by
  decide +kernel

/-- R212: without `.sat` it wraps. -/
theorem test_iadd_wraps : gives .iadd (f .iadd .i32) (both 8 0x7FFFFFFF 0 ++ both 9 1 1) 20 0 = some (0x80000000, false) := by
  decide +kernel

/-- R213: the upper half of (2^32 − 1)² under n32. -/
theorem test_imulh : gives .imulh (f .imulh .n32) (both 8 (-1) 0 ++ both 9 (-1) 0) 20 0 = some (0xFFFFFFFE, false) := by
  decide +kernel

/-- R219: SHL.n64 by 64 gives zero in both words. -/
theorem test_shl_width :
    [20, 21].map (fun r => gives .shl { t := .n64, d := 20, a := v 12, b := .imm 64 } (both 12 (-1) 0 ++ both 13 (-1) 0 ++ both 20 1 1) r 0) =
      [some (0, false), some (0, false)] := by
  decide +kernel

/-- R220: XWIN with p = 40 returns `hi`. -/
theorem test_xwin_clamps :
    gives .xwin { fields .xwin with c := .imm 40 } (both 8 0x11223344 0 ++ both 9 0xAABBCCDD 0) 20 0 = some (0xAABBCCDD, false) := by
  decide +kernel

/-- R220: with `.wrap`, hi[31:8] below lo[7:0]. -/
theorem test_xwin_wraps :
    gives .xwin { fields .xwin with c := .imm 40, m := 1 } (both 8 0x11223344 0 ++ both 9 0xAABBCCDD 0) 20 0 =
      some (0x44AABBCC, false) := by
  decide +kernel

/-- R227: the identity selector of BYSEL. -/
theorem test_bysel :
    gives .bysel { fields .bysel with b := v 9 } (both 8 0x11223344 0 ++ both 9 0x03020100 0) 20 0 = some (0x11223344, false) := by
  decide +kernel

/-- R225: PDEP puts the low bits of a at the set bits of m, and PEXT takes them from there. -/
theorem test_pdep_pext :
    gives .pdep (f .pdep .b32) (both 8 0b101 0 ++ both 9 0xF0 0) 20 0 = some (0x50, false) ∧
    gives .pext (f .pext .b32) (both 8 0x5A 0 ++ both 9 0xF0 0) 20 0 = some (5, false) := by
  decide +kernel

/-- R240: FFMA of +0, +∞ and a quiet NaN. -/
theorem test_ffma_nan :
    gives .ffma (f .ffma .f32) (both 9 0x7F800000 0 ++ both 10 0x7FC12345 0) 20 0 = some (0x7FC00000, false) := by decide +kernel

/-- R240: FADD.rd of −0 and −0, and of +1 and −1: rounding code 2 of M[1:0] is down (R190). -/
theorem test_fadd_zero :
    gives .fadd (f .fadd .f32 2) (both 8 0x80000000 0x3F800000 ++ both 9 0x80000000 0xBF800000) 20 0 = some (0x80000000, false) ∧
    gives .fadd (f .fadd .f32 2) (both 8 0x80000000 0x3F800000 ++ both 9 0x80000000 0xBF800000) 20 1 = some (0x80000000, false) := by
  decide +kernel

/-- R241: FMIN of −0 and +0 is −0, and of a NaN and a number the number. -/
theorem test_fmin :
    gives .fmin (f .fmin .f32) (both 8 0x80000000 0x7FC00001 ++ both 9 0 0x40000000) 20 0 = some (0x80000000, false) ∧
    gives .fmin (f .fmin .f32) (both 8 0x80000000 0x7FC00001 ++ both 9 0 0x40000000) 20 1 = some (0x40000000, false) := by
  decide +kernel

/-- R242: `.lt` with a NaN writes 0. -/
theorem test_fsetc : gives .fsetc (f .fsetc .f32 2) (both 8 0x7FC00000 0 ++ both 20 5 5) 20 0 = some (0, false) := by decide +kernel

/-- R199: CVT.rz of f32 −3.7 to n32 gives 0. -/
theorem test_cvt_saturates :
    gives .cvt { d := 20, a := v 8, t := .n32, m := 0x15 } (both 8 0xC06CCCCD 0 ++ both 20 5 5) 20 0 = some (0, false) := by
  decide +kernel

/-- R199: CVT of a NaN to e2m1 gives 0: PACK of eight of them. -/
theorem test_pack_nan :
    gives .pack { d := 20, a := v 8, t := .e2m1, m := 5 } (both 8 0x7FC00000 0 ++ both 20 5 5) 20 0 = some (0, false) := by
  decide +kernel

/-- R197: MOV moves bits: a signalling NaN stays as it is. -/
theorem test_mov_bits : gives .mov (f .mov .b32) (both 8 0x7F800001 0) 20 0 = some (0x7F800001, false) := by decide +kernel

/-- R254: `.off` outside the group gives the lane's own value, and `.xor` 1 the other lane's. -/
theorem test_lxch :
    gives .lxch { t := .b32, d := 20, a := v 8, b := .imm (-5), m := 1 } (both 8 7 9) 20 1 = some (9, false) ∧
    gives .lxch { t := .b32, d := 20, a := v 8, b := .imm 1, m := 3 } (both 8 7 9) 20 1 = some (7, false) := by
  decide +kernel

/-- R256: the sum over both lanes, in each of them; a poisoned lane poisons it (R256). -/
theorem test_redux :
    gives .redux (f .redux .i32) (both 8 5 (-7)) 20 1 = some (0xFFFFFFFE, false) ∧
    (gives .redux (f .redux .i32) [(96 * 8, { val := 5, psn := true }), (96 * 8 + 1, { val := 1 })] 20 1).map (fun p => p.2) = some true := by
  decide +kernel

/-- R258: inclusive and exclusive prefixes. -/
theorem test_scan :
    gives .scan (f .scan .n32) (both 8 5 6) 20 1 = some (11, false) ∧
    gives .scan (f .scan .n32 8) (both 8 5 6) 20 1 = some (5, false) := by
  decide +kernel

/-- R7, R160: a lane whose predicate is false is not written. -/
theorem test_predicate :
    gives .iadd { fields .iadd with p := 16, pn := false } (regs0 ++ both 20 77 77) 20 0 = some (8, false) ∧
    gives .iadd { fields .iadd with p := 17, pn := false } (regs0 ++ both 20 77 77) 20 0 = some (77, false) := by
  decide +kernel

/-- The PC of the split and the lanes it runs after an instruction. -/
def runs (o : Op) (x : Ops) (rs : List (Nat × LW)) (e : Nat) : Option (Nat × Nat × Nat) :=
  match exec (o.instr x) (withCode (world (group0 rs))) with
  | .next t => (t.grp 1).map (fun H => ((H.sp e).pc.toNat, (H.sp e).mask.toNat, (H.sp e).memb.toNat))
  | _ => none

/-- R266: a BRA that one lane takes divides: the lane that falls through keeps the entry. -/
theorem test_bra_divides :
    runs .bra { fields .bra with p := 8, pn := false, a := .imm 16, b := .imm 8 } (both 8 1 0) 0 = some (0x1008, 2, 2) ∧
    runs .bra { fields .bra with p := 8, pn := false, a := .imm 16, b := .imm 8 } (both 8 1 0) 1 = some (0x1020, 1, 1) := by
  decide +kernel

/-- R266: a BRA that every lane takes does not divide. -/
theorem test_bra_taken : runs .bra { fields .bra with b := .imm 8 } [] 0 = some (0x1020, 3, 3) := by decide +kernel

/-- R269: CALLX at 0x1000 leaves the address behind it in the link pair and goes to the LAND at 0x2000. -/
theorem test_callx :
    gives .callx (fields .callx) regs0 20 0 ≠ some (0x1008, false) ∧ runs .callx (fields .callx) regs0 0 = some (0x2000, 3, 3) := by
  decide +kernel

/-- MOVI.b32 v8, 0x12345678 (opcode 0x028, D 8, PN 1, T 4) as the first instruction after reset. -/
theorem test_first_instruction :
    (match step (State.reset.withFetchWord 128 (0x12345678 * 2 ^ 64 + 0x00400000080100A3)) with
     | .next t => t.exe.groups.map (fun p => ((p.2.reg 8 95).val.toNat, (p.2.sp 0).pc.toNat % 32))
     | _ => []) = [(0x12345678, 16)] := by
  decide +kernel

/-- BFXU x5, x6, 8, 7 after reset: bits 14 to 8 of x6, which is 0. -/
theorem test_first_encon :
    (match step (State.reset.withFetchWord 32 0x1C83128B) with
     | .next t => some ((t.enc 0).pc - (State.reset.enc 0).pc)
     | _ => none) = some 4 := by
  decide +kernel

end Sys2Proof.Tests
end

section
/-! PROOFS. Decoding of an instruction from its bytes (R2, R94, R98-R100, R118 steps 3 to 6), and the words of the spec's
listings (O55). -/

namespace Sys2Proof

@[simp] theorem length_leBytes (n v : Nat) : (leBytes n v).length = n := by
  induction n generalizing v with
  | zero => rfl
  | succ n ih => rw [leBytes, List.length_cons, ih]

theorem leNat_leBytes (n v : Nat) : leNat (leBytes n v) = v % 2 ^ (8 * n) := by
  induction n generalizing v with
  | zero => exact (Nat.mod_one v).symm
  | succ n ih =>
    have hpow : 2 ^ (8 * (n + 1)) = 256 * 2 ^ (8 * n) := by
      rw [Nat.mul_succ, Nat.pow_add, Nat.mul_comm]
    rw [leBytes, leNat, ih, hpow, Nat.mod_mul, BitVec.toNat_ofNat]

/-- The first byte of an instruction holds its length code (R94). -/
theorem lenCode_leBytes (f : Fmt) (v : Nat) (rest : List Byte) :
    ((leBytes f.bytes v ++ rest).headD 0).extractLsb' 0 2 = BitVec.ofNat 2 v := by
  have hlow : (BitVec.ofNat 8 v).extractLsb' 0 2 = BitVec.ofNat 2 v := by
    apply BitVec.eq_of_toNat_eq
    rw [BitVec.extractLsb'_toNat, BitVec.toNat_ofNat, BitVec.toNat_ofNat, Nat.shiftRight_zero]
    exact Nat.mod_mod_of_dvd v (by decide)
  cases f <;> exact hlow

/-- Steps 3 and 4 of R118: bytes that hold a number with the length code of a format decode as that format's word. -/
theorem decode_leBytes_append {f : Fmt} {v : Nat} (hlen : Fmt.ofLen (BitVec.ofNat 2 v) = some f)
    (hv : v < 2 ^ (8 * f.bytes)) (rest : List Byte) :
    decode (leBytes f.bytes v ++ rest) = decodeWord f (BitVec.ofNat 128 v) := by
  have htake : (leBytes f.bytes v ++ rest).take f.bytes = leBytes f.bytes v :=
    List.take_left' (length_leBytes _ _)
  have hfits : ¬ (leBytes f.bytes v ++ rest).length < f.bytes := by
    rw [List.length_append, length_leBytes]
    exact Nat.not_lt.mpr (Nat.le_add_right _ _)
  rw [decode, lenCode_leBytes, hlen]
  simp only [if_neg hfits, htake, leNat_leBytes, Nat.mod_eq_of_lt hv]

/-- Steps 5 and 6 of R118: a word with an assigned opcode and legal fields decodes to that opcode's instruction. -/
theorem decodeWord_of_fields {f : Fmt} {w : BitVec 128} {o : Op} {x : Ops} (hop : Op.ofCode (w.extractLsb' 2 9) = some o)
    (hx : Ops.ofWord f w = some x) (hok : opsOk o x = true) : decodeWord f w = .ok (o.instr x) f := by
  simp only [decodeWord, hop, hx, hok, if_true]

/-- A number with the length code, the opcode and the legal fields of an instruction decodes to it. -/
theorem decode_leBytes_of_fields {f : Fmt} {v : Nat} (o : Op) {x : Ops}
    (hlen : Fmt.ofLen (BitVec.ofNat 2 v) = some f) (hv : v < 2 ^ (8 * f.bytes))
    (hop : Op.ofCode ((BitVec.ofNat 128 v).extractLsb' 2 9) = some o)
    (hx : Ops.ofWord f (BitVec.ofNat 128 v) = some x) (hok : opsOk o x = true) :
    decode (leBytes f.bytes v) = .ok (o.instr x) f := by
  have hword := decode_leBytes_append hlen hv []
  rwa [List.append_nil, decodeWord_of_fields hop hx hok] at hword

/-- R58: a word of custom-0 with function code 1 is BFXU, its position and length in the bits above rs1. -/
theorem decodeEncon_bfxu {w : BitVec 32} (hopcode : w.extractLsb' 0 7 = 0x0B) (hfunct3 : w.extractLsb' 12 3 = 1) :
    decodeEncon w =
      .ok (.bfxu (w.extractLsb' 7 5) (w.extractLsb' 15 5) (w.extractLsb' 20 6) (w.extractLsb' 26 6)) := by
  rw [decodeEncon, if_pos hopcode, hfunct3]
  rfl

/-- Settles O55: each word has the length code, the opcode and the fields of the instruction beside it. -/
theorem encodingsOfTheSpecDecode : Obligations.EncodingsOfTheSpecDecode := by
  unfold Obligations.EncodingsOfTheSpecDecode
  refine ⟨?iadd3, ?iadd, ?pack, ?bra, ?stash, ?mdrain, ?atom, ?seamrecv, ?mts, ?bfxu⟩
  case iadd3 => exact decode_leBytes_of_fields (f := .b) .iadd3 (by decide) (by decide) (by decide) (by decide) (by decide)
  case iadd => exact decode_leBytes_of_fields (f := .c) .iadd (by decide) (by decide) (by decide) (by decide) (by decide)
  case pack => exact decode_leBytes_of_fields (f := .a) .pack (by decide) (by decide) (by decide) (by decide) (by decide)
  case bra => exact decode_leBytes_of_fields (f := .a) .bra (by decide) (by decide) (by decide) (by decide) (by decide)
  case stash => exact decode_leBytes_of_fields (f := .b) .stash (by decide) (by decide) (by decide) (by decide) (by decide)
  case mdrain => exact decode_leBytes_of_fields (f := .a) .mdrain (by decide) (by decide) (by decide) (by decide) (by decide)
  case atom => exact decode_leBytes_of_fields (f := .a) .atom (by decide) (by decide) (by decide) (by decide) (by decide)
  case seamrecv => exact decode_leBytes_of_fields (f := .a) .seamrecv (by decide) (by decide) (by decide) (by decide) (by decide)
  case mts => exact decode_leBytes_of_fields (f := .a) .mts (by decide) (by decide) (by decide) (by decide) (by decide)
  case bfxu => exact decodeEncon_bfxu (by decide) (by decide)

end Sys2Proof
end

section
/-! PROOFS. Retirement of groups and teams (R471, R472). -/

namespace Sys2Proof.Machine

open Sys2Proof.Claims

/-! ### The events -/

theorem exec_groupRetire (g : Nat) (s : State) : exec (.groupRetire g) s = execGroupRetire g s := rfl
theorem exec_teamRetire (n : Nat) (s : State) : exec (.teamRetire n) s = execTeamRetire n s := rfl
theorem exec_launchRetire (l : Nat) (s : State) : exec (.launchRetire l) s = execLaunchRetire l s := rfl
theorem exec_quireRetire (l : Nat) (s : State) : exec (.quireRetire l) s = execQuireRetire l s := rfl

/-! ### Groups (R471) -/

theorem Group.batchesOver_iff (G : Group) :
    G.batchesOver = true ↔ ∀ k, k < 4 → (G.bat k).openOps = 0 ∧ (G.bat k).sealedOps = [] := by
  have hlist : ∀ k, k < 4 ↔ k ∈ ([0, 1, 2, 3] : List Nat) := by
    intro k
    simp only [List.mem_cons, List.not_mem_nil, or_false]
    omega
  simp only [Group.batchesOver, List.all_eq_true, Bool.and_eq_true, beq_iff_eq, List.isEmpty_iff, hlist]

theorem Group.mayRetire_iff (G : Group) :
    G.mayRetire = true ↔ G.retired = false ∧ G.stopped = false ∧ G.valid = [] ∧ G.claims = [] ∧ G.holds = [] ∧
      ∀ k, k < 4 → (G.bat k).openOps = 0 ∧ (G.bat k).sealedOps = [] := by
  simp only [Group.mayRetire, Bool.and_eq_true, Bool.not_eq_true', List.isEmpty_iff, Group.batchesOver_iff, and_assoc]

theorem State.modGrp_of_grp {s : State} {g : Nat} {G : Group} (h : s.grp g = some G) (f : Group → Group) :
    s.modGrp g f = s.setGrp g (f G) := by
  rw [State.modGrp, h]

theorem exec_groupRetire_of_mayRetire {s : State} {g : Nat} {G : Group} (hG : s.grp g = some G) (h : G.mayRetire = true) :
    exec (.groupRetire g) s = .next (s.setGrp g { G with retired := true, alatch := none }).finish := by
  simp only [exec_groupRetire, execGroupRetire, hG, h, if_true, State.modGrp_of_grp hG]

theorem exec_groupRetire_of_not_mayRetire {s : State} {g : Nat} {G : Group} (hG : s.grp g = some G)
    (h : ¬ G.mayRetire = true) : exec (.groupRetire g) s = .next s.finish := by
  simp only [exec_groupRetire, execGroupRetire, hG, if_neg h]

/-! ### Changes of groups alone -/

/-- The states differ in their groups at most. -/
def State.groupsOnly (s t : State) : Prop := ∃ gs, t = { s with exe := { s.exe with groups := gs } }

theorem State.groupsOnly_modGrp (s : State) (g : Nat) (f : Group → Group) : s.groupsOnly (s.modGrp g f) := by
  unfold State.modGrp
  split <;> exact ⟨_, rfl⟩

theorem State.groupsOnly_foldl_modGrp (s : State) (f : Group → Group) (gs : List Nat) :
    s.groupsOnly (gs.foldl (fun s g => s.modGrp g f) s) := by
  refine List.foldlRecOn (motive := s.groupsOnly) gs _ ⟨_, rfl⟩ (fun t ht g _ => ?_)
  obtain ⟨hs, rfl⟩ := ht
  obtain ⟨ks, hk⟩ := State.groupsOnly_modGrp { s with exe := { s.exe with groups := hs } } g f
  exact ⟨ks, hk⟩

/-- Groups that a list names are changed, where the change is the same done twice; another group is as before. -/
theorem State.grp_foldl_modGrp (s : State) (f : Group → Group) (hf : ∀ G, f (f G) = f G) (gs : List Nat) (h : Nat) :
    (gs.foldl (fun s g => s.modGrp g f) s).grp h = if h ∈ gs then (s.grp h).map f else s.grp h := by
  induction gs generalizing s with
  | nil => rfl
  | cons g gs ih =>
    rw [List.foldl_cons, ih, State.grp_modGrp]
    by_cases hg : h = g <;> by_cases hs : h ∈ gs <;> simp [hg, hs, Function.comp_def, hf]

/-! ### Windows, combined bytes and stores of a team that is to retire -/

/-- Clean lines are not written back (R296). -/
theorem State.writeBack_clean {s : State} {t w i g seq : Nat} {user all : Bool} {batch : Option Nat} {T : Team}
    (hT : s.tm t = some T) (hd : T.dirty w i = 0) : s.writeBack t w i g seq user all batch = s := by
  unfold State.writeBack
  simp only [hT, hd]
  split <;> rfl

theorem State.writeBackAll_clean {s : State} {t g seq : Nat} {user all : Bool} {batch : Option Nat} {T : Team}
    {f : Nat → WLine → Bool} (hT : s.tm t = some T) (hclean : windowsClean T) :
    s.writeBackAll t g seq user all batch f = s := by
  unfold State.writeBackAll
  simp only [hT]
  refine List.foldlRecOn (motive := (· = s)) _ _ rfl ?_
  rintro _ rfl p hp
  refine List.foldlRecOn (motive := (· = _)) _ _ rfl ?_
  rintro _ rfl q hq
  split
  · exact State.writeBack_clean hT (hclean p hp q hq)
  · rfl

/-- What stopping a team's clean windows leaves: windows close, fills let go of them, and a group counts an instruction. -/
structure WindowsStopped (s t : State) (n : Nat) (T : Team) : Prop where
  team : ∃ w, t.tm n = some { T with windows := w }
  teams : ∀ m, m ≠ n → t.tm m = s.tm m
  groups : ∀ g, ∃ k, t.grp g = (s.grp g).map (fun G => { G with seq := k })
  held : ∀ g seq, t.storeHeld g seq = s.storeHeld g seq
  ms : t.ms = { s.ms with flights := t.ms.flights }
  clk : t.clk = s.clk
  wlog : t.wlog = s.wlog
  ct : t.ct = s.ct
  wk : t.wk = s.wk

/-- The window line that a request serves once fills have let go of a team's lines (R293). -/
def Flight.winLeft (n : Nat) (f : Nat → Nat → Bool) (x : Flight) : Option (Nat × Nat × Nat) :=
  if x.kind = .stashFill then x.win.filter (fun v => !(decide (v.1 = n) && f v.2.1 v.2.2)) else x.win

theorem State.detachFills_eq (s : State) (n : Nat) (f : Nat → Nat → Bool) :
    s.detachFills n f =
      s.modMs (fun m => { m with flights := m.flights.map (fun p => (p.1, { p.2 with win := p.2.winLeft n f })) }) := by
  unfold State.detachFills
  congr 1
  funext m
  congr 1
  refine List.map_congr_left fun p _ => ?_
  obtain ⟨id, x⟩ := p
  dsimp only
  split
  · rename_i t w i hk hw
    split
    · rename_i hgo
      have hyes : (decide (t = n) && f w i) = true := by rw [decide_eq_true hgo.1, hgo.2, Bool.and_self]
      have hnone : x.winLeft n f = none := by
        rw [Flight.winLeft, if_pos hk, hw, Option.filter, hyes, Bool.not_true, if_neg Bool.false_ne_true]
      rw [hnone]
    · rename_i hstay
      have hkeep : x.winLeft n f = x.win := by
        have hno : (decide (t = n) && f w i) = false := by
          rw [Bool.and_eq_false_iff, decide_eq_false_iff_not]
          exact (Decidable.not_and_iff_not_or_not.mp hstay).imp_right Bool.eq_false_iff.mpr
        rw [Flight.winLeft, if_pos hk, hw, Option.filter, hno, Bool.not_false, if_pos rfl]
      rw [hkeep]
  · rename_i hother
    have hkeep : x.winLeft n f = x.win := by
      unfold Flight.winLeft
      split
      · rename_i hk
        cases hw : x.win with
        | none => rfl
        | some v => exact (hother v.1 v.2.1 v.2.2 hk hw).elim
      · rfl
    rw [hkeep]

@[simp] theorem State.tm_detachFills (s : State) (n : Nat) (f : Nat → Nat → Bool) (m : Nat) :
    (s.detachFills n f).tm m = s.tm m := rfl

@[simp] theorem State.grp_detachFills (s : State) (n : Nat) (f : Nat → Nat → Bool) (g : Nat) :
    (s.detachFills n f).grp g = s.grp g := rfl

/-- `storeHeld` reads one field of the state. -/
theorem State.storeHeld_congr {s t : State} (h : s.ms = t.ms) (g seq : Nat) : s.storeHeld g seq = t.storeHeld g seq := by
  unfold State.storeHeld
  rw [h]

theorem State.storeHeld_detachFills (s : State) (n : Nat) (f : Nat → Nat → Bool) (g seq : Nat) :
    (s.detachFills n f).storeHeld g seq = s.storeHeld g seq := by
  rw [State.detachFills_eq]
  simp only [State.storeHeld, State.modMs, List.any_map, Function.comp_def]

theorem State.grp_eq_map_seq (s : State) (g : Nat) : ∃ k, s.grp g = (s.grp g).map (fun G => { G with seq := k }) := by
  cases hG : s.grp g with
  | none => exact ⟨0, rfl⟩
  | some G => exact ⟨G.seq, rfl⟩

theorem State.windowsStopped_stopWindows {s : State} {n : Nat} {T : Team} (hT : s.tm n = some T) (hclean : windowsClean T) :
    WindowsStopped s (s.stopWindows n true) n T := by
  unfold State.stopWindows
  simp only [hT]
  split
  · exact ⟨⟨T.windows, hT⟩, fun _ _ => rfl, s.grp_eq_map_seq, fun _ _ => rfl, rfl, rfl, rfl, rfl, rfl⟩
  · rename_i g _ _
    rw [State.writeBackAll_clean (T := T) (by rw [State.tm_modGrp, hT]) hclean]
    constructor
    case team => exact ⟨[], by simp [hT]⟩
    case teams =>
      intro m hm
      rw [State.tm_modTm, if_neg hm, State.tm_detachFills, State.tm_modGrp]
    case groups =>
      intro h
      rw [State.grp_modTm, State.grp_detachFills, State.grp_modGrp]
      split
      · cases hG : s.grp h with
        | none => exact ⟨0, rfl⟩
        | some G => exact ⟨G.seq + 1, rfl⟩
      · exact s.grp_eq_map_seq h
    case held =>
      intro h seq
      rw [State.storeHeld_congr (State.modTm_ms _ _ _), State.storeHeld_detachFills,
        State.storeHeld_congr (State.modGrp_ms _ _ _)]
    all_goals simp [State.detachFills, State.modMs]

theorem State.sendCore_of_nothingCombined {s : State} {k : Nat} (h : nothingCombined s k) : s.sendCore k = s := by
  have hnone : s.ms.combs.filter (fun p => p.1 % 64 == k / 72 && p.2.cores.getLsbD (k % 72)) = [] := by
    rw [List.filter_eq_nil_iff]
    intro p hp hsel
    rw [Bool.and_eq_true, beq_iff_eq] at hsel
    exact absurd (h p hp hsel.1) (by rw [hsel.2]; decide)
  rw [State.sendCore, hnone]
  rfl

theorem State.storesOver_iff (s : State) (T : Team) : s.storesOver T = true ↔ storesAtEnd s T := by
  simp only [State.storesOver, storesAtEnd, List.all_eq_true]
  refine forall₂_congr fun g _ => ?_
  cases hG : s.grp g with
  | none => simp
  | some G => simp [and_assoc]

theorem WindowsStopped.storesAtEnd {s t : State} {n : Nat} {T : Team} (h : WindowsStopped s t n T)
    (hend : Claims.storesAtEnd s T) (w : Map Window) : Claims.storesAtEnd t { T with windows := w } := by
  intro g hg H hH
  obtain ⟨k, hk⟩ := h.groups g
  rw [hk, Option.map_eq_some_iff] at hH
  obtain ⟨G, hG, rfl⟩ := hH
  have hclk : t.wtimeCore T.coreKey = s.wtimeCore T.coreKey := by simp only [State.wtimeCore, State.wtime, h.clk]
  obtain ⟨hstores, htime, hheld⟩ := hend g hg G hG
  exact ⟨hstores, by rw [← hclk] at htime; exact htime, by rw [h.held, hheld]⟩

theorem WindowsStopped.nothingCombined {s t : State} {n k : Nat} {T : Team} (h : WindowsStopped s t n T)
    (hnone : Claims.nothingCombined s k) : Claims.nothingCombined t k := by
  have hcombs : t.ms.combs = s.ms.combs := by rw [h.ms]
  unfold Claims.nothingCombined
  rw [hcombs]
  exact hnone

/-- Some group of the team has lost a store (R472 step 4). -/
def State.storeLost (s : State) (T : Team) : Bool := T.groups.any (fun g => ((s.grp g).map (fun G => G.lostst)).getD false)

theorem State.storeLost_iff (s : State) (T : Team) :
    s.storeLost T = true ↔ ∃ g ∈ T.groups, ∃ G, s.grp g = some G ∧ G.lostst = true := by
  simp only [State.storeLost, List.any_eq_true]
  refine exists_congr fun g => and_congr_right fun _ => ?_
  cases s.grp g <;> simp

theorem WindowsStopped.storeLost {s t : State} {n : Nat} {T : Team} (h : WindowsStopped s t n T) (w : Map Window) :
    t.storeLost { T with windows := w } = s.storeLost T := by
  unfold State.storeLost
  congr 1
  funext g
  obtain ⟨k, hk⟩ := h.groups g
  rw [hk]
  cases s.grp g <;> rfl

/-! ### What a retired team leaves (R86) -/

/-- A group whose team has gone. -/
def Group.freed (G : Group) : Group := { G with retired := true, stopped := true, alatch := none, bank := false }

/-- A team that holds no resource. -/
def Team.freed (T : Team) (st : TeamSt) : Team :=
  { T with st := st, galley := [], gmarks := [], bbars := [], tbars := [], windows := [], ports := [], plan := [], frame := none }

theorem State.grp_freeTeam (s : State) (n : Nat) (T : Team) (st : TeamSt) (g : Nat) :
    (s.freeTeam n T st).grp g = if g ∈ T.groups then (s.grp g).map Group.freed else s.grp g :=
  State.grp_foldl_modGrp _ Group.freed (fun _ => rfl) T.groups g

/-- Freeing a team's resources changes the team, its groups, its requests in flight and its frame alone. -/
theorem State.freeTeam_eq (s : State) (n : Nat) (T : Team) (st : TeamSt) :
    ∃ gs fs, s.freeTeam n T st =
      { s with
          exe := { s.exe with groups := gs, teams := Map.insert s.exe.teams n (T.freed st) }
          ms := { s.ms with flights := fs }
          wk := { s.wk with frames := Map.erase s.wk.frames n } } := by
  have hfreed : ∀ u v : State, u.groupsOnly v → ∃ gs,
      ({ v.setTm n (T.freed st) with wk := { v.wk with frames := Map.erase v.wk.frames n } } : State) =
      { u with
          exe := { u.exe with groups := gs, teams := Map.insert u.exe.teams n (T.freed st) }
          wk := { u.wk with frames := Map.erase u.wk.frames n } } := by
    rintro u _ ⟨gs, rfl⟩
    exact ⟨gs, rfl⟩
  obtain ⟨gs, h⟩ := hfreed _ _ (State.groupsOnly_foldl_modGrp _ Group.freed T.groups)
  exact ⟨gs, _, h⟩

theorem State.tm_freeTeam (s : State) (n : Nat) (T : Team) (st : TeamSt) (m : Nat) :
    (s.freeTeam n T st).tm m = if m = n then some (T.freed st) else s.tm m := by
  obtain ⟨gs, fs, h⟩ := s.freeTeam_eq n T st
  rw [h]
  exact Map.find_insert _ _ _ _

theorem State.mb_freeTeam (s : State) (n : Nat) (T : Team) (st : TeamSt) (a : Nat) : (s.freeTeam n T st).mb a = s.mb a := by
  obtain ⟨gs, fs, h⟩ := s.freeTeam_eq n T st
  rw [h]
  rfl

@[simp] theorem State.ct_freeTeam (s : State) (n : Nat) (T : Team) (st : TeamSt) : (s.freeTeam n T st).ct = s.ct := by
  obtain ⟨gs, fs, h⟩ := s.freeTeam_eq n T st
  rw [h]

@[simp] theorem State.launches_freeTeam (s : State) (n : Nat) (T : Team) (st : TeamSt) :
    (s.freeTeam n T st).wk.launches = s.wk.launches := by
  obtain ⟨gs, fs, h⟩ := s.freeTeam_eq n T st
  rw [h]

/-- A team whose windows have been stopped and whose resources are then freed has gone; its launch may have taken a cause. -/
theorem WindowsStopped.teamGone {s u v : State} {n : Nat} {T : Team} {w : Map Window} {c : Option Nat}
    (h : WindowsStopped s u n T) (hv : ∃ ls, v = { u with wk := { u.wk with launches := ls } }) :
    let T' := { T with windows := w, cause := c }
    TeamGone s (v.freeTeam n T' .retired).finish n T (T'.freed .retired) := by
  obtain ⟨hexe, hwlog, hms, hct⟩ : v.exe = u.exe ∧ v.wlog = u.wlog ∧ v.ms = u.ms ∧ v.ct = u.ct := by
    obtain ⟨ls, rfl⟩ := hv
    exact ⟨rfl, rfl, rfl, rfl⟩
  constructor
  case st => rfl
  case free => exact ⟨rfl, rfl, rfl, rfl, rfl, rfl, rfl⟩
  case groups =>
    intro g G hg hG
    obtain ⟨k, hk⟩ := h.groups g
    have hgrp := v.grp_freeTeam n { T with windows := w, cause := c } .retired g
    rw [if_pos hg, State.grp_congr (congrArg Exe.groups hexe), hk, hG] at hgrp
    obtain ⟨H, hH, hsame⟩ := State.finish_same _ g _ hgrp
    exact ⟨H, hH, by rw [hsame.rest]; rfl, by rw [hsame.rest]; rfl⟩
  case teams =>
    intro m hm
    rw [State.finish_tm, State.tm_freeTeam, if_neg hm, ← h.teams m hm, State.tm_congr (congrArg Exe.teams hexe)]
  case bytes =>
    intro a
    rw [State.finish_mb, State.mb_freeTeam, State.mb, State.mb, hwlog, hms, h.wlog, h.ms]
  case ct => rw [State.finish_ct, State.ct_freeTeam, hct, h.ct]

/-! ### The launch of a team that has lost a store (R472, R39) -/

/-- A sub-launch of a quire that fails changes no launch's cause. -/
theorem State.failQuire_spec (s : State) (l : Nat) :
    (∃ ls, s.failQuire l = { s with wk := { s.wk with launches := ls } }) ∧
      ∀ m L, s.launch m = some L → ∃ M, (s.failQuire l).launch m = some M ∧ M.cause = L.cause := by
  unfold State.failQuire
  split
  · exact ⟨⟨_, rfl⟩, fun m L hL => ⟨L, hL, rfl⟩⟩
  · rename_i K _
    split
    · refine ⟨⟨_, rfl⟩, fun m L hL => ?_⟩
      have hfind := Map.find_map s.wk.launches
        (fun _ M => if M.head = K.head ∧ M.qfail.isNone then { M with qfail := some K.sub } else M) m
      change Map.find s.wk.launches m = some L at hL
      rw [hL] at hfind
      refine ⟨_, (congrArg (Map.find · m) (List.map_congr_left fun p _ => ?_)).trans hfind, ?_⟩
      · dsimp only
        split <;> rfl
      · dsimp only
        split <;> rfl
    · exact ⟨⟨_, rfl⟩, fun m L hL => ⟨L, hL, rfl⟩⟩

/-- The launch takes the cause of the first team so ended. -/
def State.blame (s : State) (l cause : Nat) : State :=
  (s.modLaunch l (fun L => if L.cause.isNone then { L with cause := some cause } else L)).failQuire l

theorem State.blame_eq (s : State) (l cause : Nat) : ∃ ls, s.blame l cause = { s with wk := { s.wk with launches := ls } } := by
  obtain ⟨⟨ls, h⟩, -⟩ :=
    State.failQuire_spec (s.modLaunch l (fun L => if L.cause.isNone then { L with cause := some cause } else L)) l
  exact ⟨ls, h⟩

theorem State.launch_blame {s : State} {l : Nat} {L : Launch} (cause : Nat) (hL : s.launch l = some L) :
    ∃ M, (s.blame l cause).launch l = some M ∧ M.cause = some (L.cause.getD cause) := by
  have hfound : (s.modLaunch l (fun L => if L.cause.isNone then { L with cause := some cause } else L)).launch l =
      some (if L.cause.isNone then { L with cause := some cause } else L) := by
    rw [State.launch_modLaunch, if_pos rfl, hL]
    rfl
  obtain ⟨M, hM, hcause⟩ := (State.failQuire_spec _ l).2 l _ hfound
  refine ⟨M, hM, hcause.trans ?_⟩
  cases hc : L.cause <;> simp [hc]

/-! ### Teams (R472) -/

theorem State.enginesIdle_of_enginesEmpty {s : State} {n : Nat} (h : enginesEmpty s n) : s.enginesIdle n = true := by
  obtain ⟨hcopies, hpops, hsops, hmsgs⟩ := h
  simp only [State.enginesIdle, Bool.and_eq_true, List.all_eq_true, bne_iff_ne]
  exact ⟨⟨⟨hcopies, hpops⟩, hsops⟩, hmsgs⟩

theorem State.claimsOver_of_no_flight {s : State} {T : Team} (h : ∀ p ∈ s.ms.flights, p.2.g ∉ T.groups) :
    s.claimsOver T = true := by
  rw [State.claimsOver, List.all_eq_true]
  intro p hp
  simp [h p hp]

theorem State.groupsRetired_of {s : State} {T : Team} (h : ∀ g ∈ T.groups, ∃ G, s.grp g = some G ∧ G.retired = true) :
    T.groups.all (fun g => ((s.grp g).map (fun G => G.retired)).getD true) = true := by
  rw [List.all_eq_true]
  intro g hg
  obtain ⟨G, hG, hretired⟩ := h g hg
  simp [hG, hretired]

/-- What the end of a team comes to once its windows have been stopped and nothing of it is combined. -/
theorem State.retireTeam_eq {s u : State} {n : Nat} {T : Team} (hu : s.stopWindows n true = u) (hT : u.tm n = some T)
    (hnone : nothingCombined u T.coreKey) :
    s.retireTeam n =
      if T.st == .terminated then u.freeTeam n T .retired
      else if !u.storesOver T then u
      else if u.storeLost T then (u.blame T.launch cLostStore).freeTeam n { T with cause := some cLostStore } .retired
      else u.freeTeam n T .retired := by
  unfold State.retireTeam
  simp only [hu, hT, State.sendCore_of_nothingCombined hnone]
  rfl

theorem State.retireTeam_terminated {s : State} {n : Nat} {T : Team} (hT : (s.stopWindows n true).tm n = some T)
    (hnone : nothingCombined (s.stopWindows n true) T.coreKey) (hst : T.st = .terminated) :
    s.retireTeam n = (s.stopWindows n true).freeTeam n T .retired := by
  rw [State.retireTeam_eq rfl hT hnone, hst]
  rfl

theorem State.retireTeam_kept {s : State} {n : Nat} {T : Team} (hT : (s.stopWindows n true).tm n = some T)
    (hnone : nothingCombined (s.stopWindows n true) T.coreKey) (hst : T.st = .started)
    (hend : storesAtEnd (s.stopWindows n true) T) (hlost : (s.stopWindows n true).storeLost T = false) :
    s.retireTeam n = (s.stopWindows n true).freeTeam n T .retired := by
  rw [State.retireTeam_eq rfl hT hnone, hst, (State.storesOver_iff _ _).mpr hend, hlost]
  rfl

theorem State.retireTeam_lost {s : State} {n : Nat} {T : Team} (hT : (s.stopWindows n true).tm n = some T)
    (hnone : nothingCombined (s.stopWindows n true) T.coreKey) (hst : T.st = .started)
    (hend : storesAtEnd (s.stopWindows n true) T) (hlost : (s.stopWindows n true).storeLost T = true) :
    s.retireTeam n =
      ((s.stopWindows n true).blame T.launch cLostStore).freeTeam n { T with cause := some cLostStore } .retired := by
  rw [State.retireTeam_eq rfl hT hnone, (State.storesOver_iff _ _).mpr hend, hlost]
  simp [hst]

/-- TEAM_RETIRE of a team that is ready to retire, its windows clean and nothing of it combined. -/
theorem exec_teamRetire_of_ready {s : State} {n : Nat} {T : Team} (hT : s.tm n = some T) (hidle : enginesEmpty s n)
    (hready : (T.st = .started ∧ ∀ g ∈ T.groups, ∃ G, s.grp g = some G ∧ G.retired = true) ∨
      (T.st = .terminated ∧ ∀ p ∈ s.ms.flights, p.2.g ∉ T.groups)) :
    exec (.teamRetire n) s = .next (s.retireTeam n).finish := by
  have hengines := State.enginesIdle_of_enginesEmpty hidle
  rcases hready with ⟨hst, hgroups⟩ | ⟨hst, hflights⟩
  · have hdone := State.groupsRetired_of hgroups
    simp [exec_teamRetire, execTeamRetire, hT, hengines, hst, hdone]
  · have hover := State.claimsOver_of_no_flight hflights
    simp [exec_teamRetire, execTeamRetire, hT, hengines, hst, hover]

/-- A started team whose stores are over retires; where one of them was lost, it and its launch take the cause. -/
theorem teamRetires_of_started {s : State} {n : Nat} {T : Team} (hT : s.tm n = some T) (hst : T.st = .started)
    (hclean : windowsClean T) (hidle : enginesEmpty s n) (hnone : nothingCombined s T.coreKey)
    (hgroups : ∀ g ∈ T.groups, ∃ G, s.grp g = some G ∧ G.retired = true) (hend : storesAtEnd s T) :
    ∃ t T', exec (.teamRetire n) s = .next t ∧ t.tm n = some T' ∧ TeamGone s t n T T' ∧
      ((∀ g ∈ T.groups, ∀ G, s.grp g = some G → G.lostst = false) → T'.cause = T.cause ∧ t.wk.launches = s.wk.launches) ∧
      ((∃ g ∈ T.groups, ∃ G, s.grp g = some G ∧ G.lostst = true) → T'.cause = some 0x1A ∧
        ∀ L, s.launch T.launch = some L → ∃ M, t.launch T.launch = some M ∧ M.cause = some (L.cause.getD 0x1A)) := by
  have hstop := State.windowsStopped_stopWindows hT hclean
  obtain ⟨w, hw⟩ := hstop.team
  have hexec := exec_teamRetire_of_ready hT hidle (.inl ⟨hst, hgroups⟩)
  have hnone' := hstop.nothingCombined hnone
  have hend' := hstop.storesAtEnd hend w
  cases hlost : s.storeLost T with
  | false =>
    rw [State.retireTeam_kept hw hnone' hst hend' ((hstop.storeLost w).trans hlost)] at hexec
    refine ⟨_, Team.freed { T with windows := w } .retired, hexec, ?_, hstop.teamGone ⟨_, rfl⟩, fun _ => ⟨rfl, ?_⟩, fun h => ?_⟩
    · rw [State.finish_tm, State.tm_freeTeam, if_pos rfl]
    · rw [State.finish_wk, State.launches_freeTeam, hstop.wk]
    · rw [(s.storeLost_iff T).mpr h] at hlost
      cases hlost
  | true =>
    rw [State.retireTeam_lost hw hnone' hst hend' ((hstop.storeLost w).trans hlost)] at hexec
    refine ⟨_, Team.freed { T with windows := w, cause := some cLostStore } .retired, hexec, ?_,
      hstop.teamGone (State.blame_eq _ _ _), fun h => ?_, fun _ => ⟨rfl, fun L hL => ?_⟩⟩
    · rw [State.finish_tm, State.tm_freeTeam, if_pos rfl]
    · obtain ⟨g, hg, G, hG, htrue⟩ := (s.storeLost_iff T).mp hlost
      rw [h g hg G hG] at htrue
      cases htrue
    · have hfound : (s.stopWindows n true).launch T.launch = some L := by rw [State.launch_congr hstop.wk, hL]
      obtain ⟨M, hM, hcause⟩ := State.launch_blame cLostStore hfound
      refine ⟨M, ?_, hcause⟩
      rw [State.finish_launch, State.launch, State.launches_freeTeam]
      exact hM

/-- A terminated team whose requests have ended retires. -/
theorem teamRetires_of_terminated {s : State} {n : Nat} {T : Team} (hT : s.tm n = some T) (hst : T.st = .terminated)
    (hclean : windowsClean T) (hidle : enginesEmpty s n) (hnone : nothingCombined s T.coreKey)
    (hflights : ∀ p ∈ s.ms.flights, p.2.g ∉ T.groups) :
    ∃ t T', exec (.teamRetire n) s = .next t ∧ t.tm n = some T' ∧ TeamGone s t n T T' ∧ T'.cause = T.cause ∧
      t.wk.launches = s.wk.launches := by
  have hstop := State.windowsStopped_stopWindows hT hclean
  obtain ⟨w, hw⟩ := hstop.team
  have hexec := exec_teamRetire_of_ready hT hidle (.inr ⟨hst, hflights⟩)
  rw [State.retireTeam_terminated hw (hstop.nothingCombined hnone) hst] at hexec
  refine ⟨_, Team.freed { T with windows := w } .retired, hexec, ?_, hstop.teamGone ⟨_, rfl⟩, rfl, ?_⟩
  · rw [State.finish_tm, State.tm_freeTeam, if_pos rfl]
  · rw [State.finish_wk, State.launches_freeTeam, hstop.wk]

theorem groupsAndTeamsRetire : GroupsAndTeamsRetire := by
  refine ⟨?retires, ?stays, ?started, ?terminated⟩
  case retires =>
    intro s g G hG hretired hstopped hvalid hclaims hholds hbatches
    have hmay := (Group.mayRetire_iff G).mpr ⟨hretired, hstopped, hvalid, hclaims, hholds, hbatches⟩
    exact ⟨_, exec_groupRetire_of_mayRetire hG hmay, State.finish_becomes _⟩
  case stays =>
    intro s g G hG hbusy
    have hmay : ¬ G.mayRetire = true := by
      rw [Group.mayRetire_iff]
      rintro ⟨-, -, hvalid, hclaims, hholds, -⟩
      simp [hvalid, hclaims, hholds] at hbusy
    exact ⟨_, exec_groupRetire_of_not_mayRetire hG hmay, State.finish_becomes _⟩
  case started =>
    intro s n T hT hst hclean hidle hnone hgroups hend
    exact teamRetires_of_started hT hst hclean hidle hnone hgroups hend
  case terminated =>
    intro s n T hT hst hclean hidle hnone hflights
    exact teamRetires_of_terminated hT hst hclean hidle hnone hflights

end Sys2Proof.Machine
end

section
/-! PROOFS. Retirement of launches and quires, and their completion records (R36, R38, R46, R473, R474). -/

namespace Sys2Proof.Machine

open Sys2Proof.Claims

/-! ### Entries of finite maps -/

theorem Map.find_filter_key {α : Type} (m : Map α) (f : Nat → Bool) (a : Nat) :
    Map.find (m.filter (fun p => f p.1)) a = if f a then Map.find m a else none := by
  induction m with
  | nil => simp [Map.find]
  | cons p m ih =>
    obtain ⟨k, v⟩ := p
    rw [List.filter_cons, Map.find]
    by_cases hk : a = k
    · subst hk
      by_cases hf : f a <;> simp [hf, Map.find, ih]
    · by_cases hf : f k <;> simp [hf, Map.find, ih, hk]

theorem Map.mem_of_find {α : Type} {m : Map α} {a : Nat} {v : α} (h : Map.find m a = some v) : (a, v) ∈ m := by
  induction m with
  | nil => cases h
  | cons p m ih =>
    obtain ⟨k, w⟩ := p
    rw [Map.find] at h
    split at h
    · rename_i hk
      cases h
      rw [hk]
      exact List.mem_cons_self
    · exact List.mem_cons_of_mem _ (ih h)

/-- The first entry that meets a test is the one found under a key, where only entries of that key meet the test. -/
theorem Map.find?_of_find {α : Type} {m : Map α} {l : Nat} {v : α} {c : Nat × α → Bool} (hfind : Map.find m l = some v)
    (hv : c (l, v) = true) (honly : ∀ p ∈ m, c p = true → p.1 = l) : m.find? c = some (l, v) := by
  induction m with
  | nil => cases hfind
  | cons p m ih =>
    obtain ⟨k, w⟩ := p
    rw [Map.find] at hfind
    by_cases hk : l = k
    · rw [if_pos hk] at hfind
      cases hfind
      rw [← hk, List.find?_cons_of_pos hv]
    · rw [if_neg hk] at hfind
      have hw : ¬ c (k, w) = true := fun h => hk (honly _ List.mem_cons_self h).symm
      rw [List.find?_cons_of_neg hw]
      exact ih hfind (fun p hp => honly p (List.mem_cons_of_mem _ hp))

/-! ### Changes of memory and of its traffic alone -/

/-- The states differ in memory, its copies, requests and probes, and in logged bytes at most. -/
def State.memOnly (s t : State) : Prop := ∃ m w, t = { s with ms := m, wlog := w }

theorem State.memOnly_refl (s : State) : s.memOnly s := ⟨s.ms, s.wlog, rfl⟩

theorem State.memOnly.trans {s t u : State} (h : s.memOnly t) (k : t.memOnly u) : s.memOnly u := by
  obtain ⟨_, _, rfl⟩ := h
  obtain ⟨m, w, rfl⟩ := k
  exact ⟨m, w, rfl⟩

theorem State.memOnly_modMs (s : State) (f : Mem → Mem) : s.memOnly (s.modMs f) := ⟨_, _, rfl⟩

/-- The states differ in memory's traffic at most: no byte is written, in memory or in the log. -/
def State.trafficOnly (s t : State) : Prop := ∃ m : Mem, m.bytes = s.ms.bytes ∧ t = { s with ms := m }

theorem State.trafficOnly_refl (s : State) : s.trafficOnly s := ⟨s.ms, rfl, rfl⟩

theorem State.trafficOnly.trans {s t u : State} (h : s.trafficOnly t) (k : t.trafficOnly u) : s.trafficOnly u := by
  obtain ⟨m, hm, rfl⟩ := h
  obtain ⟨m', hm', rfl⟩ := k
  exact ⟨m', hm'.trans hm, rfl⟩

theorem State.trafficOnly_of {s t : State} (hbytes : t.ms.bytes = s.ms.bytes) (hrest : t = { s with ms := t.ms }) :
    s.trafficOnly t := ⟨t.ms, hbytes, hrest⟩

theorem State.trafficOnly_modFlight (s : State) (id : Nat) (f : Flight → Flight) : s.trafficOnly (s.modFlight id f) :=
  State.trafficOnly_of rfl rfl

theorem State.trafficOnly.memOnly {s t : State} (h : s.trafficOnly t) : s.memOnly t := by
  obtain ⟨m, _, rfl⟩ := h
  exact ⟨m, s.wlog, rfl⟩

theorem State.trafficOnly.mb_eq {s t : State} (h : s.trafficOnly t) (a : Nat) : t.mb a = s.mb a := by
  obtain ⟨m, hm, rfl⟩ := h
  rw [State.mb, State.mb, hm]

/-! ### Performing a store at its home (R362) -/

theorem State.memOnly_pocPut (s : State) (cls owner : Nat) (ws : List (Nat × Byte)) (marks : List (Nat × Bool)) :
    s.memOnly (s.pocPut cls owner ws marks) := by
  refine List.foldlRecOn (motive := s.memOnly) marks _ ?_ (fun t ht c _ => ht.trans ?_)
  · refine List.foldlRecOn (motive := s.memOnly) ws _ s.memOnly_refl (fun t ht w _ => ht.trans ?_)
    split <;> exact ⟨_, _, rfl⟩
  · split <;> exact ⟨_, _, rfl⟩

/-- Bytes that are not those of an owned page are written to memory (R359). -/
theorem State.trafficOnly_pocPut {s : State} {cls owner : Nat} (hcls : cls ≠ 1) (ws : List (Nat × Byte))
    (marks : List (Nat × Bool)) :
    (ws.foldl (fun s w => s.putB w.1 w.2) s).trafficOnly (s.pocPut cls owner ws marks) := by
  have hfar : ∀ pa, ¬ (cls = 1 ∧ homeOf pa ≠ some owner) := fun _ h => hcls h.1
  simp only [State.pocPut, if_neg (hfar _)]
  exact List.foldlRecOn (motive := State.trafficOnly _) marks _ (State.trafficOnly_refl _)
    (fun t ht c _ => ht.trans (State.trafficOnly_of rfl rfl))

theorem State.trafficOnly_sendProbes (s : State) (fid line home : Nat) (mask : BitVec 128) :
    s.trafficOnly (s.sendProbes fid line home mask).2 :=
  List.foldlRecOn (motive := fun r : List Nat × State => s.trafficOnly r.2) _ _ s.trafficOnly_refl
    (fun _ hr _ _ => hr.trans (State.trafficOnly_of rfl rfl))

/-- Beside its bytes and marks, a store performed at home starts its completion alone. -/
theorem State.trafficOnly_performHome (s : State) (fid line cls owner mem : Nat) (ws : List (Nat × Byte))
    (marks : List (Nat × Bool)) (refs : List StoreRef) :
    (s.pocPut cls owner ws marks).trafficOnly (s.performHome fid line cls owner mem ws marks refs) := by
  unfold State.performHome
  dsimp only
  refine State.trafficOnly.trans ?_ (State.trafficOnly_modFlight _ _ _)
  split
  · exact State.trafficOnly_of rfl rfl
  · refine State.trafficOnly.trans ?_ (State.trafficOnly_sendProbes _ _ _ _ _)
    exact State.trafficOnly_of rfl rfl

/-! ### The completion record (R36, R38) -/

/-- STATUS and DETAIL are the first that apply. -/
theorem Launch.statusDetail_eq (L : Launch) : L.statusDetail = statusOf L := by
  unfold Launch.statusDetail statusOf
  cases L.invalid with
  | some o => rfl
  | none =>
    by_cases hn : L.nlost = 0
    · cases L.cause <;> cases L.qfail <;> simp [hn]
    · simp [hn, Nat.pos_of_ne_zero hn]

theorem statusOf_fst_lt (L : Launch) : (statusOf L).1 < 2 ^ 16 := by
  unfold statusOf
  split
  · exact (by decide : 1 < 2 ^ 16)
  · split
    · exact (by decide : 3 < 2 ^ 16)
    · split
      · exact (by decide : 2 < 2 ^ 16)
      · split
        · exact (by decide : 4 < 2 ^ 16)
        · split
          · exact (by decide : 5 < 2 ^ 16)
          · exact (by decide : 0 < 2 ^ 16)

@[simp] theorem Launch.length_record (L : Launch) (wend : Nat) : (L.record wend).length = 32 := by
  simp [Launch.record]

/-- Bytes put in turn at the addresses from `a` on. -/
theorem State.foldl_putB_zip (s : State) (a k : Nat) (bs : List Byte) :
    (((List.range' k bs.length).zip bs).foldl (fun s p => s.putB (a + p.1) p.2) s) = s.putBs (a + k) bs := by
  induction bs generalizing s k with
  | nil => rfl
  | cons b bs ih =>
    rw [List.length_cons, List.range'_succ, List.zip_cons_cons, List.foldl_cons, ih, State.putBs]
    rfl

/-- A number read from the middle of written bytes. -/
theorem State.mNat_of_mb {t : State} {a : Nat} {bs : List Byte}
    (h : ∀ i, i < bs.length → t.mb (a + i) = bs.getD i 0) (k n : Nat) (hk : k + n ≤ bs.length) :
    t.mNat (a + k) n = leNat ((bs.drop k).take n) := by
  rw [State.mNat, State.mbs]
  congr 1
  refine List.ext_getElem (by simp; omega) fun i hi _ => ?_
  rw [List.length_map, List.length_range] at hi
  rw [List.getElem_map, List.getElem_range, List.getElem_take, List.getElem_drop, Nat.add_assoc, h (k + i) (by omega),
    List.getD_eq_getElem?_getD, List.getElem?_eq_getElem, Option.getD_some]

/-- A state in which the bytes of a record stand has the record, where no other byte has changed. -/
theorem recordAt_of_putBs {s t : State} {L : Launch} {pa : Nat} (h : ∀ a, t.mb a = (s.putBs pa (L.record s.wtimeEnc)).mb a) :
    RecordAt s t L pa := by
  have hbyte : ∀ i, i < (L.record s.wtimeEnc).length → t.mb (pa + i) = (L.record s.wtimeEnc).getD i 0 := by
    intro i hi
    rw [h, State.mb_putBs, if_pos ⟨Nat.le_add_right _ _, Nat.add_lt_add_left hi _⟩, Nat.add_sub_cancel_left]
  have hfield : ∀ k n v, k + n ≤ 32 → ((L.record s.wtimeEnc).drop k).take n = leBytes n v →
      t.mNat (pa + k) n = v % 2 ^ (8 * n) := by
    intro k n v hk hbytes
    rw [State.mNat_of_mb hbyte k n (by rw [Launch.length_record]; exact hk), hbytes, leNat_leBytes]
  have hstatus := L.statusDetail_eq
  constructor
  case status =>
    rw [← Nat.mod_eq_of_lt (statusOf_fst_lt L), ← hstatus]
    exact hfield 0 2 _ (by decide) rfl
  case detail =>
    rw [← hstatus]
    exact hfield 2 2 _ (by decide) rfl
  case tag =>
    rw [hfield 4 4 L.forme.tag.toNat (by decide) rfl]
    exact Nat.mod_eq_of_lt L.forme.tag.isLt
  case wstart => exact hfield 8 8 _ (by decide) rfl
  case wend => exact hfield 16 8 _ (by decide) rfl
  case nlost => exact hfield 24 4 _ (by decide) rfl
  case done => exact hfield 28 4 (2 ^ 31) (by decide) rfl
  case others =>
    intro a ha
    rw [h, State.mb_putBs, Launch.length_record, if_neg (by omega)]

/-- Writing a record changes memory alone. -/
theorem State.memOnly_writeRecord {s t : State} {L : Launch} {req : Nat} (h : s.writeRecord L = .ok req t) : s.memOnly t := by
  unfold State.writeRecord at h
  split at h
  · cases h
  · split at h
    · cases h
    · cases h
    · split at h
      · cases h
      · cases h
        exact (State.memOnly_modMs _ _).trans ((State.memOnly_pocPut _ _ _ _ _).trans
          (State.trafficOnly_performHome _ _ _ _ _ _ _ _ _).memOnly)

theorem State.writeRecord_lost {s : State} {L : Launch} (h : L.forme.crec % 32 ≠ 0 ∨ canonical L.forme.crec = false) :
    s.writeRecord L = .lost := by
  unfold State.writeRecord
  rw [if_pos (by rcases h with h | h <;> simp [h])]

/-- A record of a page that is not an owner's, outside every fenced range, is put at its address. -/
theorem State.writeRecord_ok {s : State} {L : Launch} {lf : Leaf} {pa : Nat} (halign : L.forme.crec % 32 = 0)
    (hcanon : canonical L.forme.crec = true) (hxl : plainXl s L.forme.ctx L.forme.crec .write = .ok lf pa)
    (hfence : s.fencedAcc pa lf.cls lf.owner = false) (hcls : lf.cls ≠ 1) :
    ∃ t, s.writeRecord L = .ok s.ms.next t ∧ s.memOnly t ∧ ∀ a, t.mb a = (s.putBs pa (L.record s.wtimeEnc)).mb a := by
  have hwrite : ∃ t, s.writeRecord L = .ok s.ms.next t ∧ ∀ a, t.mb a = (s.putBs pa (L.record s.wtimeEnc)).mb a := by
    unfold State.writeRecord
    rw [if_neg (by simp [halign, hcanon])]
    simp only [hxl, hfence]
    refine ⟨_, rfl, fun a => ?_⟩
    rw [(State.trafficOnly_performHome _ _ _ _ _ _ _ _ _).mb_eq, (State.trafficOnly_pocPut hcls _ _).mb_eq]
    rw [storeParts, List.map_map, List.foldl_map]
    have hzip := State.foldl_putB_zip (s.addFlight { kind := .store }).2 pa 0 (L.record s.wtimeEnc)
    rw [Launch.length_record, ← List.range_eq_range'] at hzip
    have hflight : s.trafficOnly (s.addFlight { kind := .store }).2 := State.trafficOnly_of rfl rfl
    exact (congrArg (State.mb · a) hzip).trans (by rw [State.mb_putBs, State.mb_putBs, hflight.mb_eq, Nat.add_zero])
  obtain ⟨t, hok, hmb⟩ := hwrite
  exact ⟨t, hok, State.memOnly_writeRecord hok, hmb⟩

end Sys2Proof.Machine
end

section
/-! PROOFS. What follows the retirement of a launch: SQHEAD, the entry that waits, the signal (R46, R62, R473, R474), and the
obligation O51. -/

namespace Sys2Proof.Machine

open Sys2Proof.Claims

/-! ### Signals (R62) -/

/-- One core of Encon has signal `b` pending. -/
def State.signalCore (b : Nat) (s : State) (k : Nat) : State :=
  { s with en := { s.en with cores := Map.insert s.en.cores k { s.enc k with sigs := (s.enc k).sigs ||| BitVec.twoPow 16 b } } }

theorem State.enc_signalCore (b : Nat) (s : State) (k j : Nat) :
    (State.signalCore b s k).enc j = if j = k then { s.enc k with sigs := (s.enc k).sigs ||| BitVec.twoPow 16 b } else s.enc j := by
  simp only [State.enc, State.signalCore, Map.getD, Map.find_insert]
  split <;> rfl

theorem State.enc_foldl_signalCore (b n : Nat) (s : State) (j : Nat) :
    ((List.range n).foldl (State.signalCore b) s).enc j =
      if j < n then { s.enc j with sigs := (s.enc j).sigs ||| BitVec.twoPow 16 b } else s.enc j := by
  induction n with
  | zero => simp
  | succ n ih =>
    rw [List.range_succ, List.foldl_append, List.foldl_cons, List.foldl_nil, State.enc_signalCore]
    split
    · rename_i hj
      subst hj
      rw [ih, if_neg (Nat.lt_irrefl _), if_pos (Nat.lt_succ_self _)]
    · rename_i hj
      rw [ih]
      simp only [show j < n + 1 ↔ j < n by omega]

theorem raiseSignal_eq (s : State) (b : Nat) : raiseSignal s b = (List.range 8).foldl (State.signalCore b) s := rfl

/-- A signal reaches each core of Encon and changes nothing else. -/
theorem raiseSignal_spec (s : State) (b : Nat) :
    rung s (raiseSignal s b) b ∧ ∃ e, raiseSignal s b = { s with en := e } := by
  refine ⟨fun k hk => ?_, ?_⟩
  · rw [raiseSignal_eq, State.enc_foldl_signalCore, if_pos hk]
  · rw [raiseSignal_eq]
    refine List.foldlRecOn (motive := fun t => ∃ e, t = { s with en := e }) _ _ ⟨s.en, rfl⟩ ?_
    rintro _ ⟨e, rfl⟩ k _
    exact ⟨_, rfl⟩

/-! ### SQHEAD (R46) -/

/-- What moving the heads of queues comes to: units leave with their launches and teams, and nothing else of memory, of Encon
or of the entries that wait changes. -/
structure HeadsMoved (s t : State) : Prop where
  ms : t.ms = s.ms
  wlog : t.wlog = s.wlog
  en : t.en = s.en
  waiting : t.ct.waiting = s.ct.waiting
  launches : ∀ l, t.launch l = none ∨ t.launch l = s.launch l
  teams : ∀ p ∈ t.exe.teams, p ∈ s.exe.teams

theorem HeadsMoved.refl (s : State) : HeadsMoved s s :=
  ⟨rfl, rfl, rfl, rfl, fun _ => .inr rfl, fun _ h => h⟩

theorem HeadsMoved.trans {s t u : State} (h : HeadsMoved s t) (k : HeadsMoved t u) : HeadsMoved s u where
  ms := k.ms.trans h.ms
  wlog := k.wlog.trans h.wlog
  en := k.en.trans h.en
  waiting := k.waiting.trans h.waiting
  launches l := (k.launches l).elim .inl (fun hu => (h.launches l).imp hu.trans hu.trans)
  teams p hp := h.teams p (k.teams p hp)

theorem State.launch_forget (s : State) (head l : Nat) :
    (s.forget head).launch l = if l ∈ s.unit head then none else s.launch l := by
  have h := Map.find_filter_key s.wk.launches (fun k => !(s.unit head).contains k) l
  refine Eq.trans h ?_
  by_cases hl : l ∈ s.unit head <;> simp [hl, State.launch]

/-- No team of a unit is left once it has been forgotten. -/
theorem State.teams_forget {s : State} {head : Nat} {p : Nat × Team} (hp : p ∈ (s.forget head).exe.teams) :
    p ∈ s.exe.teams ∧ p.2.launch ∉ s.unit head := by
  obtain ⟨hmem, hkeep⟩ := List.mem_filter.mp hp
  refine ⟨hmem, fun hunit => ?_⟩
  have hgone : p.1 ∈ (s.exe.teams.filter (fun q => (s.unit head).contains q.2.launch)).map (fun q => q.1) :=
    List.mem_map.mpr ⟨p, List.mem_filter.mpr ⟨hmem, List.contains_iff_mem.mpr hunit⟩, rfl⟩
  rw [List.contains_iff_mem.mpr hgone] at hkeep
  cases hkeep

/-- A unit leaves and the head of its queue moves by one. -/
theorem HeadsMoved.leave (s : State) (head q : Nat) :
    HeadsMoved s ((s.forget head).modQueue q (fun Q => { Q with head := Q.head + 1 })) where
  ms := rfl
  wlog := rfl
  en := rfl
  waiting := rfl
  launches l := by
    have h : ((s.forget head).modQueue q (fun Q => { Q with head := Q.head + 1 })).launch l = _ := s.launch_forget head l
    rw [h]
    split
    · exact .inl rfl
    · exact .inr rfl
  teams _ hp := (State.teams_forget hp).1

theorem HeadsMoved.advanceHead (s : State) (q n : Nat) : HeadsMoved s (State.advanceHead q n s) := by
  induction n generalizing s with
  | zero => exact .refl s
  | succ n ih =>
    unfold State.advanceHead
    dsimp only
    split
    · exact .refl s
    · split
      · exact .refl s
      · split
        · exact (HeadsMoved.leave s _ q).trans (ih _)
        · exact .refl s

/-! ### The entry that waits and the signal (R473, R475) -/

/-- The entry of a head launch that asks for one where the ring is enabled (R473). -/
def State.entriesOf (s : State) (l : Nat) (L : Launch) (req : Option Nat) : List Notify :=
  if L.forme.notify && s.ct.nren then
    [{ lseq := l / 8, tag := L.forme.tag, status := L.status, queue := L.queue, rlost := L.rlost, quire := L.forme.quire, req := req }]
  else []

/-- The state in which entries have joined those that wait. -/
def State.awaiting (s : State) (ns : List Notify) : State := { s with ct := { s.ct with waiting := s.ct.waiting ++ ns } }

@[simp] theorem State.awaiting_nil (s : State) : s.awaiting [] = s := by
  simp only [State.awaiting, List.append_nil]

theorem State.announce_eq {s : State} {l : Nat} {L : Launch} (hL : s.launch l = some L) (req : Option Nat) :
    s.announce l req = raiseSignal ((s.awaiting (s.entriesOf l L req)).advance L.queue) 4 := by
  unfold State.announce State.entriesOf
  simp only [hL]
  split
  · rfl
  · rw [State.awaiting_nil]

/-- What the announcement of a retired launch leaves, at the end of its step. -/
theorem State.announce_spec {s : State} {l : Nat} {L : Launch} (hL : s.launch l = some L) (req : Option Nat) :
    let t := (s.announce l req).finish
    rung s t 4 ∧ (∀ a, t.mb a = s.mb a) ∧ t.ct.waiting = s.ct.waiting ++ s.entriesOf l L req ∧
      ∀ b, t.launch b = none ∨ t.launch b = s.launch b := by
  have hmoved : HeadsMoved (s.awaiting (s.entriesOf l L req)) ((s.awaiting (s.entriesOf l L req)).advance L.queue) :=
    HeadsMoved.advanceHead _ _ _
  obtain ⟨hrung, e, hrest⟩ := raiseSignal_spec ((s.awaiting (s.entriesOf l L req)).advance L.queue) 4
  rw [← State.announce_eq hL] at hrung hrest
  refine ⟨fun k hk => ?_, fun a => ?_, ?_, fun b => ?_⟩
  · refine (hrung k hk).trans ?_
    rw [State.enc, hmoved.en]
    rfl
  · rw [State.finish_mb, hrest, State.mb, State.mb]
    dsimp only
    rw [hmoved.wlog, hmoved.ms]
    rfl
  · rw [State.finish_ct, hrest]
    exact hmoved.waiting
  · rw [State.finish_launch, hrest]
    exact hmoved.launches b

/-! ### One launch (R473) -/

/-- A launch that has retired, its record written or lost. -/
def Launch.over (lost : Bool) (L : Launch) : Launch :=
  { L with retired := true, recorded := true, rlost := lost, status := L.statusDetail.1 }

theorem State.retireOne_lost {s : State} {l : Nat} {L : Launch} (hL : s.launch l = some L) (h : s.writeRecord L = .lost) :
    s.retireOne l = some (none, s.modLaunch l (Launch.over true)) := by
  unfold State.retireOne
  simp only [hL, h]
  rfl

theorem State.retireOne_ok {s t : State} {l req : Nat} {L : Launch} (hL : s.launch l = some L)
    (h : s.writeRecord L = .ok req t) : s.retireOne l = some (some req, t.modLaunch l (Launch.over false)) := by
  unfold State.retireOne
  simp only [hL, h]
  rfl

theorem State.retireOne_none {s : State} {l : Nat} (hL : s.launch l = none) : s.retireOne l = some (none, s) := by
  unfold State.retireOne
  simp only [hL]

/-- A launch that retires has its record written or lost, and nothing but memory and the launch changes. -/
theorem State.retireOne_inv {s t : State} {l : Nat} {L : Launch} {req : Option Nat} (hL : s.launch l = some L)
    (h : s.retireOne l = some (req, t)) : ∃ u lost, s.memOnly u ∧ t = u.modLaunch l (Launch.over lost) := by
  cases hw : s.writeRecord L with
  | lost =>
    rw [State.retireOne_lost hL hw] at h
    cases h
    exact ⟨s, true, s.memOnly_refl, rfl⟩
  | ok r u =>
    rw [State.retireOne_ok hL hw] at h
    cases h
    exact ⟨u, false, State.memOnly_writeRecord hw, rfl⟩
  | wait =>
    unfold State.retireOne at h
    simp only [hL, hw] at h
    cases h

theorem State.launchEnded_of_ended {s : State} {l : Nat} {L : Launch} (hL : s.launch l = some L) (h : ended s l L) :
    s.launchEnded l = true := by
  obtain ⟨hplaced, hteams⟩ := h
  unfold State.launchEnded
  simp only [hL, Bool.and_eq_true, List.all_eq_true]
  refine ⟨?_, fun p hp => ?_⟩
  · simp only [Launch.unplaced, Bool.or_eq_true, Bool.not_eq_true', decide_eq_false_iff_not, Nat.not_lt]
    rcases hplaced with hall | hinvalid | hcancelled | hqfail
    · exact .inr hall
    · exact .inl (.inl (.inl hinvalid))
    · exact .inl (.inl (.inr hcancelled))
    · exact .inl (.inr hqfail)
  · by_cases hl : p.2.launch = l
    · rcases hteams p hp hl with ⟨hst, hend⟩ | hst
      · simp [hst, (s.storesOver_iff p.2).mpr hend]
      · simp [hst]
    · simp [hl]

/-- A launch that is no part of a quire and whose teams have ended is to retire (R473). -/
structure RetiresAlone (s : State) (l : Nat) (L : Launch) : Prop where
  found : s.launch l = some L
  retired : L.retired = false
  sub : L.sub = 0
  quire : L.forme.quire = false
  ended : ended s l L

theorem RetiresAlone.exec_launchRetire {s t : State} {l : Nat} {L : Launch} {req : Option Nat} (h : RetiresAlone s l L)
    (hone : s.retireOne l = some (req, t)) : exec (.launchRetire l) s = .next (t.announce l req).finish := by
  rw [Machine.exec_launchRetire]
  unfold execLaunchRetire
  simp only [h.found, h.retired, h.sub, h.quire, State.launchEnded_of_ended h.found h.ended, hone]
  rfl

/-- A retiring launch is found over beside other changes of memory. -/
theorem State.launch_modLaunch_over {s u : State} {l : Nat} {L : Launch} (hL : s.launch l = some L) (hu : s.memOnly u)
    (lost : Bool) : (u.modLaunch l (Launch.over lost)).launch l = some (L.over lost) := by
  obtain ⟨m, w, rfl⟩ := hu
  rw [State.launch_modLaunch, if_pos rfl]
  exact congrArg (Option.map _) hL

theorem overIn_of_over {t u : State} {b : Nat} {M : Launch} {lost : Bool} (hu : u.launch b = some (M.over lost))
    (ht : t.launch b = none ∨ t.launch b = u.launch b) : overIn t b M lost := by
  rcases ht with h | h
  · exact .inl h
  · exact .inr ⟨_, h.trans hu, rfl, rfl, rfl, congrArg Prod.fst M.statusDetail_eq⟩

/-- A launch that retires alone: it is over, its entry waits, the cores of Encon are signalled, and its record's bytes alone change. -/
theorem RetiresAlone.spec {s u : State} {l : Nat} {L : Launch} {lost : Bool} {req : Option Nat} (h : RetiresAlone s l L)
    (hu : s.memOnly u) (hone : s.retireOne l = some (req, u.modLaunch l (Launch.over lost))) :
    ∃ t, exec (.launchRetire l) s = .next t ∧ overIn t l L lost ∧ rung s t 4 ∧ (∀ a, t.mb a = u.mb a) ∧
      t.ct.waiting = s.ct.waiting ++ (if L.forme.notify && s.ct.nren then
        [{ lseq := l / 8, tag := L.forme.tag, status := (statusOf L).1, queue := L.queue, rlost := lost, quire := false, req := req }]
        else []) := by
  have hexec := h.exec_launchRetire hone
  have hfound := State.launch_modLaunch_over h.found hu lost
  obtain ⟨m, w, rfl⟩ := hu
  obtain ⟨hrung, hmb, hwaiting, hlaunch⟩ := State.announce_spec hfound req
  refine ⟨_, hexec, overIn_of_over hfound (hlaunch l), hrung, hmb, hwaiting.trans ?_⟩
  simp only [State.entriesOf, Launch.over, State.modLaunch_ct, h.quire, L.statusDetail_eq]

/-! ### A launch at the head of its queue (R46) -/

/-- The unit at the head of a queue leaves once it has retired and no entry of it waits. -/
theorem State.advance_leaves {s : State} {q l : Nat} {L : Launch} (hacc : (s.queue q).head ≠ (s.queue q).acc)
    (hfind : s.wk.launches.find? (fun p => p.2.queue == q && p.2.slot == (s.queue q).head && p.2.sub == 0) = some (l, L))
    (hretired : s.unitRetired L = true) (hwait : ∀ w ∈ s.ct.waiting, w.lseq ≠ l / 8) :
    HeadsMoved ((s.forget l).modQueue q (fun Q => { Q with head := Q.head + 1 })) (s.advance q) := by
  obtain ⟨n, hn⟩ : ∃ n, (s.queue q).slots = n + 1 := Nat.exists_eq_add_one.mpr (Nat.two_pow_pos _)
  have hfree : s.ct.waiting.any (fun w => w.lseq == l / 8) = false := by
    rw [List.any_eq_false]
    intro w hw
    simp [hwait w hw]
  rw [State.advance, hn, State.advanceHead]
  rw [if_neg hacc, hfind]
  simp only [hretired, hfree]
  exact HeadsMoved.advanceHead _ _ _

theorem State.unit_of_no_bodies {s : State} {l : Nat} {L : Launch} (hL : s.launch l = some L) (hbodies : L.bodies = []) :
    s.unit l = [l] := by
  rw [State.unit, hL]
  simp [hbodies]

/-- A launch that is its own head and has no bodies stands alone at the head of its queue, and nothing of it waits (R46). -/
structure AtHead (s : State) (l : Nat) (L : Launch) : Prop where
  head : L.head = l
  bodies : L.bodies = []
  notify : L.forme.notify = false ∨ s.ct.nren = false
  slot : L.slot = (s.queue L.queue).head
  accepted : (s.queue L.queue).head ≠ (s.queue L.queue).acc
  alone : ∀ p ∈ s.wk.launches, p.2.queue = L.queue → p.2.slot = L.slot → p.1 = l
  wait : ∀ w ∈ s.ct.waiting, w.lseq ≠ l / 8

theorem AtHead.modLaunch_over {s : State} {l : Nat} {L : Launch} (h : AtHead s l L) (lost : Bool) :
    AtHead (s.modLaunch l (Launch.over lost)) l (L.over lost) := by
  refine ⟨h.head, h.bodies, h.notify, h.slot, h.accepted, fun p hp hq hs => ?_, h.wait⟩
  obtain ⟨o, ho, rfl⟩ := List.mem_map.mp hp
  by_cases hl : o.1 = l
  · rw [if_pos hl]
    exact hl
  · rw [if_neg hl] at hq hs ⊢
    exact h.alone o ho hq hs

/-- As a retired launch at the head of its queue is announced, it leaves with its teams. -/
theorem AtHead.announce {s : State} {l : Nat} {L : Launch} (h : AtHead s l L) (hL : s.launch l = some L) (req : Option Nat)
    (hsub : L.sub = 0) (hretired : L.retired = true) (hrecorded : L.recorded = true) :
    let t := (s.announce l req).finish
    t.launch l = none ∧ ∀ m T, t.tm m = some T → T.launch ≠ l := by
  have hunit : s.unit l = [l] := State.unit_of_no_bodies hL h.bodies
  have hfirst : s.wk.launches.find? (fun p => p.2.queue == L.queue && p.2.slot == (s.queue L.queue).head && p.2.sub == 0) =
      some (l, L) := by
    refine Map.find?_of_find hL (by simp [h.slot, hsub]) (fun p hp hsel => ?_)
    simp only [Bool.and_eq_true, beq_iff_eq] at hsel
    exact h.alone p hp hsel.1.1 (hsel.1.2.trans h.slot.symm)
  have hover : s.unitRetired L = true := by
    rw [State.unitRetired, h.head, hunit]
    simp [hL, hretired, hrecorded]
  have hmoved := State.advance_leaves h.accepted hfirst hover h.wait
  have hentries : s.entriesOf l L req = [] := by
    rcases h.notify with hoff | hoff <;> simp [State.entriesOf, hoff]
  obtain ⟨-, e, hrest⟩ := raiseSignal_spec (s.advance L.queue) 4
  have hmem : l ∈ s.unit l := List.mem_cons_self
  rw [State.announce_eq hL, hentries, State.awaiting_nil, hrest]
  refine ⟨?_, fun m T hT hTl => ?_⟩
  · have hgone := s.launch_forget l l
    rw [if_pos hmem] at hgone
    exact (hmoved.launches l).elim id (fun hkept => hkept.trans hgone)
  · exact (State.teams_forget (hmoved.teams _ (Map.mem_of_find hT))).2 (hTl ▸ hmem)

/-- A launch with no record to write, at the head of its queue, leaves as it retires. -/
theorem RetiresAlone.leaves {s : State} {l : Nat} {L : Launch} (h : RetiresAlone s l L) (hcrec : L.forme.crec % 32 ≠ 0)
    (hhead : AtHead s l L) :
    ∃ t, exec (.launchRetire l) s = .next t ∧ t.launch l = none ∧ ∀ m T, t.tm m = some T → T.launch ≠ l := by
  have hexec := h.exec_launchRetire (State.retireOne_lost h.found (State.writeRecord_lost (.inl hcrec)))
  have hfound := State.launch_modLaunch_over h.found s.memOnly_refl true
  exact ⟨_, hexec, (hhead.modLaunch_over true).announce hfound none h.sub rfl rfl⟩

/-! ### Quires (R474) -/

/-- The records of launches in turn; none where one waits. -/
def State.retireAll (s : State) (bs : List Nat) (req : Option Nat) : Option (Option Nat × State) :=
  bs.foldl (fun (r : Option (Option Nat × State)) b => r.bind (fun p => p.2.retireOne b)) (some (req, s))

theorem State.retireAll_cons (s : State) (b : Nat) (bs : List Nat) (req : Option Nat) :
    s.retireAll (b :: bs) req = (s.retireOne b).bind (fun p => p.2.retireAll bs p.1) := by
  unfold State.retireAll
  rw [List.foldl_cons, Option.bind_some]
  cases s.retireOne b with
  | some p => rfl
  | none => exact List.foldlRecOn (motive := (· = none)) bs _ rfl (fun _ h _ _ => by rw [h]; rfl)

/-- What the records of launches leave: Encon is as it was, and each of the launches is over. -/
theorem State.retireAll_inv {s t : State} {bs : List Nat} {req req' : Option Nat} (h : s.retireAll bs req = some (req', t)) :
    t.en = s.en ∧ ∀ b M, s.launch b = some M →
      (t.launch b = some M ∧ b ∉ bs) ∨ ∃ lost, t.launch b = some (M.over lost) := by
  induction bs generalizing s req with
  | nil =>
    cases h
    exact ⟨rfl, fun b M hM => .inl ⟨hM, List.not_mem_nil⟩⟩
  | cons c bs ih =>
    rw [State.retireAll_cons, Option.bind_eq_some_iff] at h
    obtain ⟨⟨r, u⟩, hone, hrest⟩ := h
    obtain ⟨hen, hall⟩ := ih hrest
    cases hc : s.launch c with
    | none =>
      rw [State.retireOne_none hc] at hone
      cases hone
      refine ⟨hen, fun b M hM => (hall b M hM).imp_left (fun ⟨hb, hnot⟩ => ⟨hb, ?_⟩)⟩
      rintro (_ | ⟨_, hmem⟩)
      · rw [hc] at hM
        cases hM
      · exact hnot hmem
    | some L =>
      obtain ⟨v, lost, ⟨m, w, rfl⟩, rfl⟩ := State.retireOne_inv hc hone
      refine ⟨hen, fun b M hM => ?_⟩
      have hmod := State.launch_modLaunch { s with ms := m, wlog := w } c b (Launch.over lost)
      change _ = if b = c then (s.launch b).map _ else s.launch b at hmod
      rw [hM] at hmod
      by_cases hb : b = c
      · rw [if_pos hb] at hmod
        rcases hall b _ hmod with ⟨hsame, -⟩ | ⟨lost', hover⟩
        · exact .inr ⟨lost, hsame⟩
        · exact .inr ⟨lost', hover⟩
      · rw [if_neg hb] at hmod
        exact (hall b M hmod).imp_left (fun ⟨hsame, hnot⟩ => ⟨hsame, by simp [hb, hnot]⟩)

/-- A quire whose launches have ended is to retire (R474). -/
structure QuireRetires (s : State) (l : Nat) (L : Launch) : Prop where
  found : s.launch l = some L
  retired : L.retired = false
  sub : L.sub = 0
  quire : L.forme.quire = true
  ended : ∀ b ∈ s.unit l, ∀ M, s.launch b = some M → ended s b M

theorem QuireRetires.launchesEnded {s : State} {l : Nat} {L : Launch} (h : QuireRetires s l L) :
    (s.unit l).all s.launchEnded = true := by
  rw [List.all_eq_true]
  intro b hb
  cases hM : s.launch b with
  | none => simp only [State.launchEnded, hM]
  | some M => exact State.launchEnded_of_ended hM (h.ended b hb M hM)

theorem QuireRetires.exec_waits {s : State} {l : Nat} {L : Launch} (h : QuireRetires s l L)
    (hwait : s.retireAll (L.bodies ++ [l]) none = none) : exec (.quireRetire l) s = .next s.finish := by
  rw [State.retireAll] at hwait
  rw [exec_quireRetire]
  unfold execQuireRetire
  simp only [h.found, h.retired, h.sub, h.quire, h.launchesEnded, hwait]
  rfl

theorem QuireRetires.exec_retires {s t : State} {l : Nat} {L : Launch} {req : Option Nat} (h : QuireRetires s l L)
    (hall : s.retireAll (L.bodies ++ [l]) none = some (req, t)) :
    exec (.quireRetire l) s = .next (t.announce l req).finish := by
  rw [State.retireAll] at hall
  rw [exec_quireRetire]
  unfold execQuireRetire
  simp only [h.found, h.retired, h.sub, h.quire, h.launchesEnded, hall]
  rfl

/-- Every launch of a quire is over once the records have been written or lost. -/
theorem QuireRetires.over {s t : State} {l : Nat} {L : Launch} {req : Option Nat} (h : QuireRetires s l L)
    (hall : s.retireAll (L.bodies ++ [l]) none = some (req, t)) {b : Nat} (hb : b ∈ s.unit l) {M : Launch}
    (hM : s.launch b = some M) : ∃ lost, t.launch b = some (M.over lost) := by
  have hlisted : b ∈ L.bodies ++ [l] := by
    simp only [State.unit, h.found, Option.map_some, Option.getD_some, List.mem_cons] at hb
    simp [or_comm, hb]
  exact ((State.retireAll_inv hall).2 b M hM).resolve_left (fun hleft => hleft.2 hlisted)

/-- All launches of a quire wait for a page, or all retire. -/
theorem QuireRetires.spec {s : State} {l : Nat} {L : Launch} (h : QuireRetires s l L) :
    ∃ t, exec (.quireRetire l) s = .next t ∧ (s.retireAll (L.bodies ++ [l]) none = none → s.becomes t) ∧
      (s.retireAll (L.bodies ++ [l]) none ≠ none → rung s t 4 ∧
        ∀ b ∈ s.unit l, ∀ M, s.launch b = some M → overIn t b M true ∨ overIn t b M false) := by
  cases hall : s.retireAll (L.bodies ++ [l]) none with
  | none => exact ⟨_, h.exec_waits hall, fun _ => State.finish_becomes s, fun hne => (hne rfl).elim⟩
  | some p =>
    obtain ⟨req, u⟩ := p
    obtain ⟨lost, hfound⟩ := h.over hall List.mem_cons_self h.found
    obtain ⟨hrung, -, -, hlaunch⟩ := State.announce_spec hfound req
    refine ⟨_, h.exec_retires hall, fun hnone => (by cases hnone), fun _ => ⟨fun k hk => ?_, fun b hb M hM => ?_⟩⟩
    · rw [hrung k hk, State.enc, State.enc, (State.retireAll_inv hall).1]
    · obtain ⟨lost', hb'⟩ := h.over hall hb hM
      have hover := overIn_of_over hb' (hlaunch b)
      cases lost' with
      | true => exact .inl hover
      | false => exact .inr hover

theorem launchesRetire : LaunchesRetire := by
  refine ⟨?alone, ?leaves, ?quire⟩
  case alone =>
    intro s l L hL hretired hsub hquire hend
    have h : RetiresAlone s l L := ⟨hL, hretired, hsub, hquire, hend⟩
    refine ⟨fun lf pa halign hcanon hxl hfence hcls => ?written, fun hbad => ?lost⟩
    case written =>
      obtain ⟨u, hwrite, hmem, hbytes⟩ := State.writeRecord_ok halign hcanon hxl hfence hcls
      obtain ⟨t, hexec, hover, hrung, hmb, hwaiting⟩ := h.spec hmem (State.retireOne_ok hL hwrite)
      exact ⟨t, hexec, recordAt_of_putBs (fun a => (hmb a).trans (hbytes a)), hover, hrung, hwaiting⟩
    case lost => exact h.spec s.memOnly_refl (State.retireOne_lost hL (State.writeRecord_lost hbad))
  case leaves =>
    intro s l L hL hretired hsub hquire hend hcrec hhead hbodies hnotify hslot hacc hone hwait
    exact RetiresAlone.leaves ⟨hL, hretired, hsub, hquire, hend⟩ hcrec
      ⟨hhead, hbodies, hnotify, hslot, hacc, hone, hwait⟩
  case quire =>
    intro s l L hL hretired hsub hquire hend
    exact QuireRetires.spec ⟨hL, hretired, hsub, hquire, hend⟩

end Sys2Proof.Machine

namespace Sys2Proof

/-- Settles O51: groups and teams by what stopping clean windows and freeing a team's resources leave, launches and quires by
what writing a record, moving the heads of queues and raising a signal each leave. -/
theorem retirementCompletes : Obligations.RetirementCompletes :=
  ⟨Machine.groupsAndTeamsRetire, Machine.launchesRetire⟩

end Sys2Proof
end
